-- ==== Sys2Proof/Word.lean ====
section
/-!
DEFINITION. Word.lean: the machine word and its plainest arithmetic.
-/
namespace Sys2Proof

/-- A 64-bit scalar register value, an address while it is computed, a control word (spec/02, R18). -/
abbrev Word := BitVec 64

/-- One byte of memory. -/
abbrev Byte := BitVec 8

/-- Sign-extension of a field to a word. -/
abbrev sext (n : Nat) (x : BitVec n) : Word := x.signExtend 64

/-- Zero-extension of a field to a word. -/
abbrev zext (n : Nat) (x : BitVec n) : Word := x.setWidth 64

end Sys2Proof
end

