-- ==== Sys2Proof/Syntax.lean ====
section
/-!
DEFINITION. Syntax.lean: the instructions and events of the CZ-8, one constructor per row of the opcode table.

Register numbers, format slots and codes are pulled out of the encodings here; the machine never sees a raw word.
S-words come first, then V-words, then the events: the rows of the table that are steps of another agent than a
hart's own instruction (spec/95). An event's arguments say which agent acts and on what.
-/
namespace Sys2Proof

/-- A scalar register s0 to s31 (spec/02, R18). -/
abbrev SReg := BitVec 5
/-- A vector register v0 to v31 (spec/03, R54). -/
abbrev VReg5 := BitVec 5
/-- A predicate register p0 to p31 (spec/03, R54). -/
abbrev PReg := BitVec 5
/-- A passing register, held as N - 16 for sN (spec/03, R54). -/
abbrev SP := BitVec 4
/-- A sparse register z0 to z7 (spec/03, R54). -/
abbrev ZReg3 := BitVec 3
/-- A front register f0 to f3 (spec/03, R54). -/
abbrev FReg2 := BitVec 2
/-- A ring register q0 to q3 (spec/03, R54). -/
abbrev QReg2 := BitVec 2
/-- A tile register t0 to t7 (spec/03, R54). -/
abbrev TReg3 := BitVec 3
/-- A bobbin b0 to b15 (spec/03, R54). -/
abbrev BReg4 := BitVec 4
/-- A depth d0 to d3 (spec/01, R10). -/
abbrev Dep := BitVec 2
/-- A control-word index (spec/02, R28). -/
abbrev CwIdx := BitVec 12
/-- A 16-bit immediate or branch offset (spec/03, R45). -/
abbrev Imm16 := BitVec 16
/-- A 21-bit offset (spec/03, R45). -/
abbrev Off21 := BitVec 21
/-- A shift amount (spec/03, R48). -/
abbrev Shamt := BitVec 6

/-- The scope field (spec/03, R47). -/
inductive Scope where
  | hart | core | cluster | die | pkg | sys
deriving DecidableEq, Repr

/-- The order field (spec/03, R47). -/
inductive Order where
  | relaxed | acq | rel | ar | sc
deriving DecidableEq, Repr

/-- The width field and the width tag (spec/03, R47; spec/02, R22). -/
inductive Width where
  | w8 | w16 | w32 | w64
deriving DecidableEq, Repr

/-- The rounding modes (spec/04, R62). -/
inductive Rm where
  | rne | rtz | rdn | rup | rna
deriving DecidableEq, Repr

/-- The format codes 0x00 to 0x0E (spec/04, R61). -/
inductive Fmt where
  | int8 | int16 | int32 | int64
  | uint8 | uint16 | uint32 | uint64
  | fp16 | bf16 | fp32 | fp64
  | rq8 | rq16 | ra48
deriving DecidableEq, Repr

/-- The formats of the scalar floating-point group (spec/03, R50). -/
inductive FpFmt where
  | fp16 | bf16 | fp32 | fp64
deriving DecidableEq, Repr

/-- Source A of opcodes 0x01 to 0x33, or a matrix source: a vector register, or a bobbin with its av bit (spec/03, R55). -/
inductive SrcA where
  | vec (v : VReg5)
  | bob (b : BReg4) (av : Bool)
deriving DecidableEq, Repr

/-- Source B of opcodes 0x01 to 0x33: a vector register or a passing register (spec/06, R107). -/
inductive SrcB where
  | vec (v : VReg5)
  | sca (k : SP)
deriving DecidableEq, Repr

/-- A matrix source: a vector register or a bobbin, never trimmed (spec/13, R229). -/
inductive VOrB where
  | vec (v : VReg5)
  | bob (b : BReg4)
deriving DecidableEq, Repr

/-- A mask: predicate pm (0 = none), zeroing when zm (spec/03, R53). -/
structure VMask where
  pm : PReg
  zm : Bool
deriving DecidableEq, Repr

/-- Operands of an ordered load; offset in units of the width (spec/03, R51). -/
structure OrdLoad where
  sd : SReg
  sa : SReg
  off : BitVec 5
  w : Width
  u : Bool
  scope : Scope
deriving DecidableEq, Repr

/-- Operands of an ordered store (spec/03, R51). -/
structure OrdStore where
  sd : SReg
  sa : SReg
  off : BitVec 5
  w : Width
  scope : Scope
deriving DecidableEq, Repr

/-- Operands of an atomic; dbl: 64 bits, else 32 (spec/03, R51). -/
structure AmoOp where
  sd : SReg
  sa : SReg
  sb : SReg
  dbl : Bool
  ord : Order
  scope : Scope
deriving DecidableEq, Repr

/-- Operands of cas; facq: the failure order is acquire (spec/03, R51). -/
structure CasOp where
  sd : SReg
  sa : SReg
  sb : SReg
  dbl : Bool
  ord : Order
  facq : Bool
  scope : Scope
deriving DecidableEq, Repr

/-- Operands of a two-source element-wise V-word (spec/06, R107). -/
structure VBin where
  vd : VReg5
  a : SrcA
  b : SrcB
  m : VMask
  fs : SP
deriving DecidableEq, Repr

/-- Operands of a one-source element-wise V-word (spec/06). -/
structure VUn where
  vd : VReg5
  a : SrcA
  m : VMask
  fs : SP
deriving DecidableEq, Repr

/-- Operands of a three-source element-wise V-word (spec/06). -/
structure VTri where
  vd : VReg5
  a : SrcA
  b : SrcB
  c : VReg5
  m : VMask
  fs : SP
deriving DecidableEq, Repr

/-- Operands of vcmp (spec/06, R116). -/
structure VCmp where
  pd : PReg
  a : SrcA
  b : SrcB
  m : VMask
  fs : SP
deriving DecidableEq, Repr

/-- Operands of vcvt.row (spec/06, R119). -/
structure VCvtRow where
  vd : VReg5
  vc : VReg5
  a : SrcA
  dep : Dep
  m : VMask
  fs : SP
deriving DecidableEq, Repr

/-- Operands of vseg, vsegc (vb names a predicate) and vnest (spec/07, R128). -/
structure VSegOp where
  vd : VReg5
  va : VReg5
  vb : BitVec 5
  fs : SP
  ci : Bool
  co : Bool
deriving DecidableEq, Repr

/-- Operands of vred and vpack (spec/07, R128). -/
structure VRed where
  vd : VReg5
  va : VReg5
  dep : Dep
  pm : PReg
  fs : SP
deriving DecidableEq, Repr

/-- Operands of vscan and vrank (spec/07, R128; spec/09, R178). -/
structure VScan where
  vd : VReg5
  va : VReg5
  dep : Dep
  m : VMask
  fs : SP
deriving DecidableEq, Repr

/-- Operands of vdist (spec/07, R128). -/
structure VDist where
  vd : VReg5
  va : VReg5
  vb : VReg5
  dep : Dep
  m : VMask
  fs : SP
deriving DecidableEq, Repr

/-- Operands of vpart; k1 is K - 1 (spec/07, R128). -/
structure VPart where
  vd : VReg5
  va : VReg5
  vb : VReg5
  dep : Dep
  k1 : BitVec 8
  pm : PReg
  fs : SP
deriving DecidableEq, Repr

/-- Operands of vcat (spec/07, R128). -/
structure VCat where
  vd : VReg5
  va : VReg5
  vb : VReg5
  dep : Dep
  fs : SP
deriving DecidableEq, Repr

/-- Operands of vsort (spec/07, R128). -/
structure VSort where
  vd : VReg5
  va : VReg5
  dep : Dep
  ds : Bool
  fs : SP
deriving DecidableEq, Repr

/-- Operands of vsidx (spec/07, R128). -/
structure VSidx where
  vd : VReg5
  va : VReg5
  dep : Dep
  m : VMask
deriving DecidableEq, Repr

/-- The operations of vred, vscan and vcarry (spec/03, R57). -/
inductive RedOp where
  | add | mul | min | max | and | or | xor | minNum | maxNum
deriving DecidableEq, Repr

/-- Operands of vcarry (spec/07, R128). -/
structure VCarry where
  vd : VReg5
  va : VReg5
  vb : VReg5
  vc : VReg5
  dep : Dep
  op : RedOp
  pk : PReg
  fs : SP
deriving DecidableEq, Repr

/-- Operands of vld and vldff (spec/08, R145). -/
structure VLoad where
  vd : VReg5
  w : Width
  m : VMask
  bs : SP
deriving DecidableEq, Repr

/-- Operands of vst; tw = none: at the width tag of vd (spec/03, R57). -/
structure VStore where
  vd : VReg5
  tw : Option Width
  uo : Bool
  m : VMask
  bs : SP
deriving DecidableEq, Repr

/-- Operands of vlds (spec/08, R145). -/
structure VLoadS where
  vd : VReg5
  w : Width
  m : VMask
  bs : SP
  xs : SP
deriving DecidableEq, Repr

/-- Operands of vsts (spec/08, R145). -/
structure VStoreS where
  vd : VReg5
  tw : Option Width
  uo : Bool
  m : VMask
  bs : SP
  xs : SP
deriving DecidableEq, Repr

/-- The bounded index form: out-of-bound predicate and the passing register of the bound (spec/03, R57). -/
structure Bound where
  pb : PReg
  xs : SP
deriving DecidableEq, Repr

/-- Operands of vldx (spec/08, R145). -/
structure VLoadX where
  vd : VReg5
  va : VReg5
  w : Width
  bnd : Option Bound
  m : VMask
  bs : SP
deriving DecidableEq, Repr

/-- Operands of vstx (spec/08, R145). -/
structure VStoreX where
  vd : VReg5
  va : VReg5
  tw : Option Width
  uo : Bool
  bnd : Option Bound
  m : VMask
  bs : SP
deriving DecidableEq, Repr

/-- Operands of vsca (spec/08, R145). -/
structure VScatAdd where
  vd : VReg5
  va : VReg5
  tw : Option Width
  uo : Bool
  bnd : Option Bound
  m : VMask
  fs : SP
  bs : SP
deriving DecidableEq, Repr

/-- Operands of vldseg; nf is the number of fields minus 1 (spec/03, R57). -/
structure VLoadSeg where
  vd : VReg5
  nf : BitVec 3
  m : VMask
  fs : SP
  bs : SP
deriving DecidableEq, Repr

/-- Operands of vstseg (spec/03, R57). -/
structure VStoreSeg where
  vd : VReg5
  nf : BitVec 3
  uo : Bool
  m : VMask
  fs : SP
  bs : SP
deriving DecidableEq, Repr

/-- Operands of zfrom; pair form (vb = some) or dense form (vb = none); ap: append (spec/09, R163). -/
structure ZFrom where
  zd : ZReg3
  va : VReg5
  vb : Option VReg5
  ap : Bool
  pm : PReg
  fs : SP
deriving DecidableEq, Repr

/-- Operands of vhist; k1 is K - 1 (spec/09, R178). -/
structure VHist where
  vd : VReg5
  va : VReg5
  k1 : BitVec 8
  dep : Dep
  pm : PReg
  fs : SP
deriving DecidableEq, Repr

/-- The source form of bcopy (spec/14, R246). -/
inductive CopyForm where
  | contig (bs : SP)
  | strided (bs xs : SP)
  | tensor (va : VReg5)
  | indexed (bs : SP) (va : VReg5)
deriving DecidableEq, Repr

/-- A trap to be taken: cause code, subcode, source and c.tval (spec/02, R36, R37); for a source other than an
S-word, the block's address, its queue position (none: no longer queued) and the offset of the V-word (R39). -/
structure TrapReq where
  code : BitVec 6
  sub : BitVec 8
  src : BitVec 2
  tval : Word
  blk : Word
  pos : Option (BitVec 5)
  off : BitVec 16
  vpend : Bool
deriving DecidableEq, Repr

/-- The fields of a 64-byte fault record but for its time (spec/25, R378). -/
structure FaultRec where
  kind : BitVec 8
  pid : BitVec 8
  hid : BitVec 32
  cause : Word
  epc : Word
  tval : Word
  qpos : Word
  handle : Word
deriving DecidableEq, Repr

/-- An error a patrol scrub finds in a line (spec/25, R366). -/
structure LineError where
  pa : Nat
  uncorrectable : Bool
deriving DecidableEq, Repr

/-- A port's training: whether both reports passed, the far chip, the nonce it gave for this chip's report, and what it sends for
the key: to the end with the lower chip number the encapsulated secret, to the other its encapsulation key (spec/26, R383). -/
structure TrainReq where
  ok : Bool
  peer : BitVec 12
  nonce : List Byte
  sealedKey : List Byte
deriving DecidableEq, Repr

/-- What an uncontained failure is met in: the control state of a cluster, the shared control state of a die (spec/25,
R377). -/
inductive FailedUnit where
  | cluster (cl : Nat)
  | die (d : Nat)
deriving DecidableEq, Repr

/-- A request that a peer sends over the fabric (spec/26, R390, R392). -/
inductive FabricBody where
  | gather (gbase : Word) (w : Width) (offs : List Word)
  | record (ibox : Word) (key : BitVec 32) (hid : BitVec 11) (w : Width) (elems : List Word)
deriving DecidableEq, Repr

/-- A request from the fabric with its source chip and the ASID it names (spec/26, R385). -/
structure FabricReq where
  src : BitVec 12
  asid : BitVec 16
  body : FabricBody
deriving DecidableEq, Repr

/-- What a peer returns for a packed list of a remote gather (spec/26, R390). -/
inductive ListReply where
  | refused
  | values (vs : List Word) (poisoned : List Nat)
deriving DecidableEq, Repr

/-- What a peer returns for a forwarded record (spec/26, R392). -/
inductive InboxReply where
  | refused
  | full
  | stored (off : Word)
deriving DecidableEq, Repr

/-- A host access through BAR2 (spec/25, R371). -/
inductive BarAccess where
  | write (bytes : List Byte)
  | read (len : Nat)
deriving DecidableEq, Repr

/-- A sealed object, the tenant's encapsulated secret, and where Delveloth asks for the object to be unsealed (spec/25,
R371). -/
structure UnsealReq where
  pid : BitVec 5
  sealedKey : List Byte
  src : Nat
  len : Nat
  dst : Nat
  iv : List Byte
  tag : List Byte
deriving DecidableEq, Repr

/-- A stage image with its header and signature (spec/25, R372). -/
structure BootImage where
  bytes : List Byte
  publicKey : List Byte
  version : Nat
  signature : List Byte
deriving DecidableEq, Repr

/-- What the current and thermal caps do in a core cycle (spec/25, R376). -/
inductive CapEvent where
  | withhold
  | allow
deriving DecidableEq, Repr

/-- The instructions and events of the opcode table. -/
inductive Instr where
  /-- ADD (R82): Writes sa + sb modulo 2^64 to sd. -/
  | add (sd : SReg) (sa : SReg) (sb : SReg)
  /-- SUB (R82): Writes sa - sb modulo 2^64 to sd. -/
  | sub (sd : SReg) (sa : SReg) (sb : SReg)
  /-- AND (R82): Writes the bitwise AND of sa and sb to sd. -/
  | and (sd : SReg) (sa : SReg) (sb : SReg)
  /-- OR (R82): Writes the bitwise OR of sa and sb to sd. -/
  | or (sd : SReg) (sa : SReg) (sb : SReg)
  /-- XOR (R82): Writes the bitwise XOR of sa and sb to sd. -/
  | xor (sd : SReg) (sa : SReg) (sb : SReg)
  /-- SLL (R82): Shifts sa left by sb[5:0] into sd. -/
  | sll (sd : SReg) (sa : SReg) (sb : SReg)
  /-- SRL (R82): Shifts sa right logically by sb[5:0] into sd. -/
  | srl (sd : SReg) (sa : SReg) (sb : SReg)
  /-- SRA (R82): Shifts sa right arithmetically by sb[5:0] into sd. -/
  | sra (sd : SReg) (sa : SReg) (sb : SReg)
  /-- SLT (R82): Writes 1 to sd when sa < sb signed, else 0. -/
  | slt (sd : SReg) (sa : SReg) (sb : SReg)
  /-- SLTU (R82): Writes 1 to sd when sa < sb unsigned, else 0. -/
  | sltu (sd : SReg) (sa : SReg) (sb : SReg)
  /-- MUL (R82): Writes the low 64 bits of sa times sb to sd. -/
  | mul (sd : SReg) (sa : SReg) (sb : SReg)
  /-- MULH (R82): Writes the high 64 bits of the signed 128-bit product to sd. -/
  | mulh (sd : SReg) (sa : SReg) (sb : SReg)
  /-- MULHU (R82): Writes the high 64 bits of the unsigned 128-bit product to sd. -/
  | mulhu (sd : SReg) (sa : SReg) (sb : SReg)
  /-- DIV (R82): Signed division toward zero; division by zero gives all ones and raises DZ. -/
  | div (sd : SReg) (sa : SReg) (sb : SReg)
  /-- DIVU (R82): Unsigned division; division by zero gives all ones and raises DZ. -/
  | divu (sd : SReg) (sa : SReg) (sb : SReg)
  /-- REM (R82): Signed remainder with the sign of the dividend; by zero gives sa and raises DZ. -/
  | rem (sd : SReg) (sa : SReg) (sb : SReg)
  /-- REMU (R82): Unsigned remainder; by zero gives sa and raises DZ. -/
  | remu (sd : SReg) (sa : SReg) (sb : SReg)
  /-- MIN (R82): Writes the signed lesser of sa and sb to sd. -/
  | min (sd : SReg) (sa : SReg) (sb : SReg)
  /-- MAX (R82): Writes the signed greater of sa and sb to sd. -/
  | max (sd : SReg) (sa : SReg) (sb : SReg)
  /-- MINU (R82): Writes the unsigned lesser of sa and sb to sd. -/
  | minu (sd : SReg) (sa : SReg) (sb : SReg)
  /-- MAXU (R82): Writes the unsigned greater of sa and sb to sd. -/
  | maxu (sd : SReg) (sa : SReg) (sb : SReg)
  /-- CLZ (R82): Writes the count of leading zero bits of sa to sd. -/
  | clz (sd : SReg) (sa : SReg)
  /-- CTZ (R82): Writes the count of trailing zero bits of sa to sd. -/
  | ctz (sd : SReg) (sa : SReg)
  /-- POP (R82): Writes the number of 1 bits of sa to sd. -/
  | pop (sd : SReg) (sa : SReg)
  /-- ADDI (R83): Writes sa plus the sign-extended immediate to sd. -/
  | addi (sd : SReg) (sa : SReg) (imm : Imm16)
  /-- ANDI (R83): Writes sa AND the zero-extended immediate to sd. -/
  | andi (sd : SReg) (sa : SReg) (imm : Imm16)
  /-- ORI (R83): Writes sa OR the zero-extended immediate to sd. -/
  | ori (sd : SReg) (sa : SReg) (imm : Imm16)
  /-- XORI (R83): Writes sa XOR the zero-extended immediate to sd. -/
  | xori (sd : SReg) (sa : SReg) (imm : Imm16)
  /-- SLTI (R83): Writes 1 when sa is less than the sign-extended immediate, signed. -/
  | slti (sd : SReg) (sa : SReg) (imm : Imm16)
  /-- SLTIU (R83): Writes 1 when sa is less than the sign-extended immediate, unsigned. -/
  | sltiu (sd : SReg) (sa : SReg) (imm : Imm16)
  /-- SLLI (R83): Shifts sa left by the immediate amount. -/
  | slli (sd : SReg) (sa : SReg) (amt : Shamt)
  /-- SRLI (R83): Shifts sa right logically by the immediate amount. -/
  | srli (sd : SReg) (sa : SReg) (amt : Shamt)
  /-- SRAI (R83): Shifts sa right arithmetically by the immediate amount. -/
  | srai (sd : SReg) (sa : SReg) (amt : Shamt)
  /-- LHI (R84): Sets sd to the zero-extended immediate shifted left by 16. -/
  | lhi (sd : SReg) (imm : Imm16)
  /-- ADRP (R84): Writes the 64 KiB granule of the adrp plus off21 times 65,536 to sd. -/
  | adrp (sd : SReg) (off : Off21)
  /-- LRA (R84): Writes the 8-byte granule of the lra plus off21 times 8 to sd. -/
  | lra (sd : SReg) (off : Off21)
  /-- LD_B (R86): Loads a byte, sign-extended, relaxed. -/
  | ldB (sd : SReg) (sa : SReg) (imm : Imm16)
  /-- LD_H (R86): Loads a halfword, sign-extended, relaxed. -/
  | ldH (sd : SReg) (sa : SReg) (imm : Imm16)
  /-- LD_W (R86): Loads a word, sign-extended, relaxed. -/
  | ldW (sd : SReg) (sa : SReg) (imm : Imm16)
  /-- LD_D (R86): Loads a doubleword, relaxed. -/
  | ldD (sd : SReg) (sa : SReg) (imm : Imm16)
  /-- LD_BU (R86): Loads a byte, zero-extended, relaxed. -/
  | ldBu (sd : SReg) (sa : SReg) (imm : Imm16)
  /-- LD_HU (R86): Loads a halfword, zero-extended, relaxed. -/
  | ldHu (sd : SReg) (sa : SReg) (imm : Imm16)
  /-- LD_WU (R86): Loads a word, zero-extended, relaxed. -/
  | ldWu (sd : SReg) (sa : SReg) (imm : Imm16)
  /-- ST_B (R86): Stores the low byte of sd, relaxed. -/
  | stB (sd : SReg) (sa : SReg) (imm : Imm16)
  /-- ST_H (R86): Stores the low halfword of sd, relaxed. -/
  | stH (sd : SReg) (sa : SReg) (imm : Imm16)
  /-- ST_W (R86): Stores the low word of sd, relaxed. -/
  | stW (sd : SReg) (sa : SReg) (imm : Imm16)
  /-- ST_D (R86): Stores sd as a doubleword, relaxed. -/
  | stD (sd : SReg) (sa : SReg) (imm : Imm16)
  /-- LD_ACQ (R87): Ordered load with acquire order at the given scope. -/
  | ldAcq (x : OrdLoad)
  /-- LD_SC (R87): Ordered load with sc order at the given scope. -/
  | ldSc (x : OrdLoad)
  /-- ST_REL (R87): Ordered store with release order at the given scope. -/
  | stRel (x : OrdStore)
  /-- ST_SC (R87): Ordered store with sc order at the given scope. -/
  | stSc (x : OrdStore)
  /-- AMO_ADD (R88): Indivisible add at sa, returning the old value; with s0 and relaxed it is a reduce-add. -/
  | amoAdd (x : AmoOp)
  /-- AMO_AND (R88): Indivisible AND at sa, returning the old value. -/
  | amoAnd (x : AmoOp)
  /-- AMO_OR (R88): Indivisible OR at sa, returning the old value. -/
  | amoOr (x : AmoOp)
  /-- AMO_XOR (R88): Indivisible XOR at sa, returning the old value. -/
  | amoXor (x : AmoOp)
  /-- AMO_MIN (R88): Indivisible signed minimum at sa, returning the old value. -/
  | amoMin (x : AmoOp)
  /-- AMO_MAX (R88): Indivisible signed maximum at sa, returning the old value. -/
  | amoMax (x : AmoOp)
  /-- AMO_SWAP (R88): Indivisible swap at sa, returning the old value. -/
  | amoSwap (x : AmoOp)
  /-- CAS (R89): Compares the word at sa with sd and writes sb on a match, returning the old value. -/
  | cas (x : CasOp)
  /-- BEQ (R94): Branches when sa equals sb. -/
  | beq (sa : SReg) (sb : SReg) (off : Imm16)
  /-- BNE (R94): Branches when sa differs from sb. -/
  | bne (sa : SReg) (sb : SReg) (off : Imm16)
  /-- BLT (R94): Branches when sa < sb signed. -/
  | blt (sa : SReg) (sb : SReg) (off : Imm16)
  /-- BGE (R94): Branches when sa >= sb signed. -/
  | bge (sa : SReg) (sb : SReg) (off : Imm16)
  /-- BLTU (R94): Branches when sa < sb unsigned. -/
  | bltu (sa : SReg) (sb : SReg) (off : Imm16)
  /-- BGEU (R94): Branches when sa >= sb unsigned. -/
  | bgeu (sa : SReg) (sb : SReg) (off : Imm16)
  /-- JAL (R94): Sets sd to the return address and jumps by off21 words. -/
  | jal (sd : SReg) (off : Off21)
  /-- JALR (R94): Sets sd to the return address and jumps to sa plus the immediate. -/
  | jalr (sd : SReg) (sa : SReg) (imm : Imm16)
  /-- FADD (R95): Scalar floating-point add, rounded once. -/
  | fadd (ff : FpFmt) (rm : Rm) (sd : SReg) (sa : SReg) (sb : SReg)
  /-- FSUB (R95): Scalar floating-point subtract, rounded once. -/
  | fsub (ff : FpFmt) (rm : Rm) (sd : SReg) (sa : SReg) (sb : SReg)
  /-- FMUL (R95): Scalar floating-point multiply, rounded once. -/
  | fmul (ff : FpFmt) (rm : Rm) (sd : SReg) (sa : SReg) (sb : SReg)
  /-- FDIV (R95): Scalar floating-point divide, rounded once. -/
  | fdiv (ff : FpFmt) (rm : Rm) (sd : SReg) (sa : SReg) (sb : SReg)
  /-- FSQRT (R95): Scalar floating-point square root, rounded once. -/
  | fsqrt (ff : FpFmt) (rm : Rm) (sd : SReg) (sa : SReg)
  /-- FMADD (R95): Computes sa times sb plus sd with one rounding. -/
  | fmadd (ff : FpFmt) (rm : Rm) (sd : SReg) (sa : SReg) (sb : SReg)
  /-- FMIN (R95): IEEE minimum of sa and sb. -/
  | fmin (ff : FpFmt) (sd : SReg) (sa : SReg) (sb : SReg)
  /-- FMAX (R95): IEEE maximum of sa and sb. -/
  | fmax (ff : FpFmt) (sd : SReg) (sa : SReg) (sb : SReg)
  /-- FMIN_NUM (R95): minimumNumber of sa and sb. -/
  | fminNum (ff : FpFmt) (sd : SReg) (sa : SReg) (sb : SReg)
  /-- FMAX_NUM (R95): maximumNumber of sa and sb. -/
  | fmaxNum (ff : FpFmt) (sd : SReg) (sa : SReg) (sb : SReg)
  /-- FCMP_EQ (R96): Writes 1 when neither is NaN and sa equals sb. -/
  | fcmpEq (ff : FpFmt) (sd : SReg) (sa : SReg) (sb : SReg)
  /-- FCMP_LT (R96): Writes 1 when neither is NaN and sa < sb. -/
  | fcmpLt (ff : FpFmt) (sd : SReg) (sa : SReg) (sb : SReg)
  /-- FCMP_LE (R96): Writes 1 when neither is NaN and sa <= sb. -/
  | fcmpLe (ff : FpFmt) (sd : SReg) (sa : SReg) (sb : SReg)
  /-- FCMP_UN (R96): Writes 1 when either operand is NaN. -/
  | fcmpUn (ff : FpFmt) (sd : SReg) (sa : SReg) (sb : SReg)
  /-- FCLS (R96): Writes a one-hot class of sa to sd. -/
  | fcls (ff : FpFmt) (sd : SReg) (sa : SReg)
  /-- FCVT (R97): Converts sa between any two codes 0x00-0x0B, clamping into integers. -/
  | fcvt (dst : Fmt) (src : Fmt) (rm : Rm) (sd : SReg) (sa : SReg)
  /-- FNC_SS (R93): Orders earlier scalar accesses before later scalar accesses; waits. -/
  | fncSs (scope : Scope)
  /-- FNC_SV (R93): Makes later blocks' accesses wait for earlier scalar accesses. -/
  | fncSv (scope : Scope)
  /-- FNC_VS (R93): Waits until earlier blocks' accesses are performed at the scope. -/
  | fncVs (scope : Scope)
  /-- FNC_VV (R93): Makes later blocks' accesses wait for earlier blocks' accesses. -/
  | fncVv (scope : Scope)
  /-- CRD (R98): Reads a control word, waiting for the vector side when it is vector-side. -/
  | crd (sd : SReg) (idx : CwIdx)
  /-- CWR (R98): Writes a control word with its side effects. -/
  | cwr (sa : SReg) (idx : CwIdx)
  /-- NOP (R100): Has no effect. -/
  | nop
  /-- SYS (R99): Traps with system call cause 0x0D. -/
  | sys
  /-- TRP (R99): Traps with cause 0x0E when sa is nonzero. -/
  | trp (sa : SReg)
  /-- BRK (R99): Traps with breakpoint cause 0x0C. -/
  | brk
  /-- ERET (R42): Returns from a trap, restoring mode and ie and resuming the stream and queued blocks. -/
  | eret
  /-- WFE (R101): Waits for the event bit or a deadline. -/
  | wfe (sd : SReg) (sa : SReg)
  /-- END (R104): Drains the hart, ORs flags into the completion word and frees the context. -/
  | endL
  /-- VRECV (R103): Pops the oldest value of the read queue into sd. -/
  | vrecv (sd : SReg)
  /-- VF (R102): Queues a vector-fetch block with a snapshot of s16-s31. -/
  | vf (off : Off21)
  /-- TKJOIN (R314): Joins or leaves a tack channel and waits for the hub's answer. -/
  | tkjoin (sd : SReg) (sa : SReg)
  /-- TKARR (R315): Arrives at the channel's barrier after a release wait, without waiting for the release. -/
  | tkarr (sd : SReg) (sa : SReg)
  /-- TKWAIT (R316): Waits until the core's phase count passes the awaited phase. -/
  | tkwait (sd : SReg) (sa : SReg) (sb : SReg)
  /-- TKBAR (R317): Arrives and waits for the release of that phase, keeping an arrival record. -/
  | tkbar (sd : SReg) (sa : SReg)
  /-- TKBC (R318): Sends a 64-bit broadcast and completes when the hub accepts it. -/
  | tkbc (sd : SReg) (sa : SReg) (sb : SReg)
  /-- TKRCV (R319): Waits for and reads an unread broadcast from the latch. -/
  | tkrcv (sd : SReg) (sa : SReg)
  /-- LNCH (R354): Reads and checks a launch record and queues a device launch, returning a handle or status. -/
  | lnch (sd : SReg) (sa : SReg)
  /-- LWAIT (R356): Waits until a completion word has bit 63 set or a deadline passes. -/
  | lwait (sd : SReg) (sa : SReg) (sb : SReg)
  /-- LSTAT (R357): Returns the state of the launch named by a handle. -/
  | lstat (sd : SReg) (sa : SReg)
  /-- LCANC (R358): Cancels a queued launch, writing its completion word with why = 4. -/
  | lcanc (sd : SReg) (sa : SReg)
  /-- FWAIT (R281): Reads a future and parks on the wait table when it is empty. -/
  | fwait (sd : SReg) (sa : SReg) (sb : SReg)
  /-- FFILL (R282): Fills an empty future and wakes every hart parked on it. -/
  | ffill (sd : SReg) (sa : SReg) (sb : SReg)
  /-- CTAKE (R286): Takes one item from a cutting-table slot, stealing when the own list is empty. -/
  | ctake (sd : SReg) (sa : SReg)
  /-- PATLD (R284): Loads a pattern object into a cutting-table, route or location slot. -/
  | patld (sd : SReg) (sa : SReg) (sb : SReg)
  /-- GFORM (R289): Forms a gang of 2, 4 or 8 cores by reserving the member slots. -/
  | gform (sd : SReg) (sa : SReg)
  /-- GSPLIT (R289): Dissolves the hart's gang and returns it to its lowest core. -/
  | gsplit (sd : SReg)
  /-- TSPAWN (R303): Reads a task record and binds a task on the scoreboard. -/
  | tspawn (sd : SReg) (sa : SReg)
  /-- TABS (R304): Returns the task's input status as it stood at dispatch. -/
  | tabs (sd : SReg)
  /-- TWD (R305): Returns which bound outputs of the task are withdrawn. -/
  | twd (sd : SReg)
  /-- TDONE (R306): Drains the task, publishes its outputs, releases inputs and frees the context. -/
  | tdone
  /-- LGREL (R212): Releases lane groups down to a kept count, parking the context at 0 in K mode. -/
  | lgrel (sa : SReg)
  /-- TRIO (R217): Forms a trio of three harts of one core sharing one grant. -/
  | trio (sd : SReg) (sa : SReg)
  /-- VSETL (R105): Renegotiates the grant and sets c.vl to min(request, VLMAX). -/
  | vsetl (k : SP) (fs : SP) (gmax : BitVec 4)
  /-- VADD (R113): Element-wise integer or residue add. -/
  | vadd (x : VBin)
  /-- VSUB (R113): Element-wise integer or residue subtract. -/
  | vsub (x : VBin)
  /-- VMUL (R113): Element-wise integer or residue multiply. -/
  | vmul (x : VBin)
  /-- VMULH (R113): Element-wise high part of the product. -/
  | vmulh (x : VBin)
  /-- VDIV (R113): Element-wise integer division toward zero. -/
  | vdiv (x : VBin)
  /-- VREM (R113): Element-wise integer remainder. -/
  | vrem (x : VBin)
  /-- VMIN (R113): Element-wise integer minimum. -/
  | vmin (x : VBin)
  /-- VMAX (R113): Element-wise integer maximum. -/
  | vmax (x : VBin)
  /-- VAND (R113): Element-wise bitwise AND of patterns. -/
  | vand (x : VBin)
  /-- VOR (R113): Element-wise bitwise OR of patterns. -/
  | vor (x : VBin)
  /-- VXOR (R113): Element-wise bitwise XOR of patterns. -/
  | vxor (x : VBin)
  /-- VSLL (R113): Element-wise shift left. -/
  | vsll (x : VBin)
  /-- VSRL (R113): Element-wise logical shift right. -/
  | vsrl (x : VBin)
  /-- VSRA (R113): Element-wise arithmetic shift right. -/
  | vsra (x : VBin)
  /-- VMACC (R113): Element-wise a times b plus c. -/
  | vmacc (x : VTri)
  /-- VCLZ (R113): Element-wise count of leading zeros. -/
  | vclz (x : VUn)
  /-- VPOP (R113): Element-wise count of 1 bits. -/
  | vpop (x : VUn)
  /-- VABS (R113): Element-wise absolute value. -/
  | vabs (x : VUn)
  /-- VFADD (R114): Element-wise floating-point add. -/
  | vfadd (x : VBin)
  /-- VFSUB (R114): Element-wise floating-point subtract. -/
  | vfsub (x : VBin)
  /-- VFMUL (R114): Element-wise floating-point multiply. -/
  | vfmul (x : VBin)
  /-- VFDIV (R114): Element-wise floating-point divide. -/
  | vfdiv (x : VBin)
  /-- VFMA (R114): Element-wise fused multiply-add with one rounding. -/
  | vfma (x : VTri)
  /-- VFSQRT (R114): Element-wise square root. -/
  | vfsqrt (x : VUn)
  /-- VFMIN (R114): Element-wise IEEE minimum. -/
  | vfmin (x : VBin)
  /-- VFMAX (R114): Element-wise IEEE maximum. -/
  | vfmax (x : VBin)
  /-- VFMIN_NUM (R114): Element-wise minimumNumber. -/
  | vfminNum (x : VBin)
  /-- VFMAX_NUM (R114): Element-wise maximumNumber. -/
  | vfmaxNum (x : VBin)
  /-- VFABS (R114): Element-wise absolute value rounded into fmt.d. -/
  | vfabs (x : VUn)
  /-- VFNEG (R114): Element-wise negation rounded into fmt.d. -/
  | vfneg (x : VUn)
  /-- VFEXP2 (R115): Element-wise 2^a, correctly rounded. -/
  | vfexp2 (x : VUn)
  /-- VFLOG2 (R115): Element-wise log2(a), correctly rounded. -/
  | vflog2 (x : VUn)
  /-- VFREC (R115): Element-wise reciprocal, correctly rounded. -/
  | vfrec (x : VUn)
  /-- VFRSQ (R115): Element-wise reciprocal square root, correctly rounded. -/
  | vfrsq (x : VUn)
  /-- VFTANH (R115): Element-wise tanh, correctly rounded. -/
  | vftanh (x : VUn)
  /-- VCMP_EQ (R116): Writes a predicate of a = b. -/
  | vcmpEq (x : VCmp)
  /-- VCMP_NE (R116): Writes a predicate of a != b or unordered. -/
  | vcmpNe (x : VCmp)
  /-- VCMP_LT (R116): Writes a predicate of a < b. -/
  | vcmpLt (x : VCmp)
  /-- VCMP_LE (R116): Writes a predicate of a <= b. -/
  | vcmpLe (x : VCmp)
  /-- VCMP_GT (R116): Writes a predicate of a > b. -/
  | vcmpGt (x : VCmp)
  /-- VCMP_GE (R116): Writes a predicate of a >= b. -/
  | vcmpGe (x : VCmp)
  /-- VCMP_UN (R116): Writes a predicate of either operand NaN or NaR. -/
  | vcmpUn (x : VCmp)
  /-- VCVT (R117): Converts each element by R70 with scale 2^e. -/
  | vcvt (x : VUn)
  /-- VCVT_ROW (R119): Converts rows of BF16 or FP16 into RQ16 or INT16 with one power-of-two scale per row. -/
  | vcvtRow (x : VCvtRow)
  /-- VCRT (R118): Reconstructs residues and scales them by an FP32 factor. -/
  | vcrt (x : VBin)
  /-- VSEG (R132): Gives the elements one selvedge level from a vector of lengths. -/
  | vseg (x : VSegOp)
  /-- VSEGC (R133): Builds one selvedge level from head flags in a predicate. -/
  | vsegc (x : VSegOp)
  /-- VNEST (R134): Adds one selvedge level outside the register's levels. -/
  | vnest (x : VSegOp)
  /-- VFLAT (R135): Copies a register keeping only levels below the depth. -/
  | vflat (vd : VReg5) (va : VReg5) (dep : Dep)
  /-- VRED_ADD (R136): Reduces each segment by add. -/
  | vredAdd (x : VRed)
  /-- VRED_MUL (R136): Reduces each segment by multiply. -/
  | vredMul (x : VRed)
  /-- VRED_MIN (R136): Reduces each segment by minimum. -/
  | vredMin (x : VRed)
  /-- VRED_MAX (R136): Reduces each segment by maximum. -/
  | vredMax (x : VRed)
  /-- VRED_AND (R136): Reduces each segment by AND. -/
  | vredAnd (x : VRed)
  /-- VRED_OR (R136): Reduces each segment by OR. -/
  | vredOr (x : VRed)
  /-- VRED_XOR (R136): Reduces each segment by XOR. -/
  | vredXor (x : VRed)
  /-- VRED_MIN_NUM (R136): Reduces each segment by minimumNumber. -/
  | vredMinNum (x : VRed)
  /-- VRED_MAX_NUM (R136): Reduces each segment by maximumNumber. -/
  | vredMaxNum (x : VRed)
  /-- VSCAN_ADD (R137): Scans each segment by add. -/
  | vscanAdd (x : VScan)
  /-- VSCAN_MUL (R137): Scans each segment by multiply. -/
  | vscanMul (x : VScan)
  /-- VSCAN_MIN (R137): Scans each segment by minimum. -/
  | vscanMin (x : VScan)
  /-- VSCAN_MAX (R137): Scans each segment by maximum. -/
  | vscanMax (x : VScan)
  /-- VSCAN_AND (R137): Scans each segment by AND. -/
  | vscanAnd (x : VScan)
  /-- VSCAN_OR (R137): Scans each segment by OR. -/
  | vscanOr (x : VScan)
  /-- VSCAN_XOR (R137): Scans each segment by XOR. -/
  | vscanXor (x : VScan)
  /-- VSCAN_MIN_NUM (R137): Scans each segment by minimumNumber. -/
  | vscanMinNum (x : VScan)
  /-- VSCAN_MAX_NUM (R137): Scans each segment by maximumNumber. -/
  | vscanMaxNum (x : VScan)
  /-- VDIST (R138): Distributes one value per segment over that segment's elements. -/
  | vdist (x : VDist)
  /-- VPACK (R140): Removes inactive elements or segments and keeps the tree in order. -/
  | vpack (x : VRed)
  /-- VPART (R141): Partitions each segment stably into K buckets. -/
  | vpart (x : VPart)
  /-- VCAT (R142): Joins two registers and sets c.vl to the result length. -/
  | vcat (x : VCat)
  /-- VSORT (R143): Sorts each segment stably, ascending or descending. -/
  | vsort (x : VSort)
  /-- VSIDX_SEG (R139): Writes each element's segment index. -/
  | vsidxSeg (x : VSidx)
  /-- VSIDX_OFF (R139): Writes each element's offset within its segment. -/
  | vsidxOff (x : VSidx)
  /-- VCARRY (R144): Combines the carry from the previous strip into a strip's reduce results and marks final elements. -/
  | vcarry (x : VCarry)
  /-- VCARRY_SCAN (R144): Combines the carry into the first segment of a strip's scan results and marks final elements. -/
  | vcarryScan (x : VCarry)
  /-- VLD (R150): Contiguous vector load in element order. -/
  | vld (x : VLoad)
  /-- VST (R150): Contiguous vector store, with prefix visibility unless unordered. -/
  | vst (x : VStore)
  /-- VLDS (R150): Strided vector load. -/
  | vlds (x : VLoadS)
  /-- VSTS (R150): Strided vector store. -/
  | vsts (x : VStoreS)
  /-- VLDX (R158): Indexed gather with kc progress and gather fault records. -/
  | vldx (x : VLoadX)
  /-- VSTX (R157): Indexed scatter with kc progress. -/
  | vstx (x : VStoreX)
  /-- VSCA (R157): Indexed scatter-add performed at the memory side. -/
  | vsca (x : VScatAdd)
  /-- VLDSEG (R153): Loads records and splits their fields into consecutive registers with conversion. -/
  | vldseg (x : VLoadSeg)
  /-- VSTSEG (R153): Interleaves fields from consecutive registers into records in memory. -/
  | vstseg (x : VStoreSeg)
  /-- VTLD (R155): Loads a tensor tile with fill outside the tensor and sets c.vl. -/
  | vtld (vd : VReg5) (va : VReg5) (dep : Dep) (m : VMask)
  /-- VTST (R155): Stores a tensor tile, skipping elements outside the tensor. -/
  | vtst (vd : VReg5) (va : VReg5) (uo : Bool) (m : VMask)
  /-- VLDFF (R151): Contiguous load that trims c.vl at a fault after the first element. -/
  | vldff (x : VLoad)
  /-- VLDN (R159): Loads one strip of a nested image, with an optional cursor. -/
  | vldn (vd : VReg5) (cur : Option VReg5) (bs : SP)
  /-- VSTN (R160): Writes a register as one nested image. -/
  | vstn (vd : VReg5) (uo : Bool) (bs : SP)
  /-- VLDF (R174): Decodes level-0 positions of a fibre tree into values and coordinates. -/
  | vldf (vd : VReg5) (va : VReg5)
  /-- VSAVE (R221): Saves one vector register with its header to an image. -/
  | vsave (vd : VReg5) (bs : SP)
  /-- VSAVE_P (R221): Saves one predicate register or kc. -/
  | vsaveP (pd : PReg) (bs : SP)
  /-- VSAVE_RQ (R221): Saves and empties the read queue. -/
  | vsaveRq (bs : SP)
  /-- VSAVE_VQ (R221): Saves and removes the U-mode vector queue and wl. -/
  | vsaveVq (bs : SP)
  /-- VREST (R223): Restores one vector register from an image. -/
  | vrest (vd : VReg5) (bs : SP)
  /-- VREST_P (R223): Restores one predicate register or kc. -/
  | vrestP (pd : PReg) (bs : SP)
  /-- VREST_RQ (R223): Restores the read queue. -/
  | vrestRq (bs : SP)
  /-- VREST_VQ (R223): Restores the U-mode vector queue and wl. -/
  | vrestVq (bs : SP)
  /-- ZLD (R165): Loads a sparse register image. -/
  | zld (zd : ZReg3) (bs : SP)
  /-- ZST (R166): Stores a sparse register image, pairs before header. -/
  | zst (zd : ZReg3) (bs : SP)
  /-- ZADD (R167): Union of two sparse registers with values added. -/
  | zadd (zd : ZReg3) (za : ZReg3) (zb : ZReg3) (fs : SP)
  /-- ZMUL (R167): Intersection of two sparse registers with values multiplied. -/
  | zmul (zd : ZReg3) (za : ZReg3) (zb : ZReg3) (fs : SP)
  /-- ZINT (R167): Writes the common coordinates of two sparse registers to a vector. -/
  | zint (vd : VReg5) (za : ZReg3) (zb : ZReg3)
  /-- ZFROM (R168): Builds a sparse register from vectors in pair or dense form. -/
  | zfrom (x : ZFrom)
  /-- ZTO_D (R169): Scatters a sparse register into dense form. -/
  | ztoD (vd : VReg5) (za : ZReg3) (pm : PReg)
  /-- ZTO_C (R169): Writes coordinates of a sparse register from an offset. -/
  | ztoC (vd : VReg5) (za : ZReg3) (xs : SP)
  /-- ZTO_V (R169): Writes values of a sparse register from an offset. -/
  | ztoV (vd : VReg5) (za : ZReg3) (xs : SP)
  /-- ZLEN (R170): Writes a sparse register's pair count. -/
  | zlen (vd : VReg5) (za : ZReg3)
  /-- FRCFG (R192): Configures a front register and clears it. -/
  | frcfg (fd : FReg2) (k : SP)
  /-- FRCLR (R192): Clears a front register keeping its configuration. -/
  | frclr (fd : FReg2)
  /-- FRINS (R193): Offers one tuple per active element to a front. -/
  | frins (fd : FReg2) (va : VReg5) (vb : VReg5) (pm : PReg)
  /-- FRMRG (R194): Offers the tuples of one front to another. -/
  | frmrg (fd : FReg2) (fa : FReg2)
  /-- FRRD (R196): Reads tuples of a front into vector registers. -/
  | frrd (vd : VReg5) (fa : FReg2) (xs : SP)
  /-- FRCNT (R197): Writes a front's tuple count. -/
  | frcnt (vd : VReg5) (fa : FReg2)
  /-- FRST (R199): Stores a front image, tuples before header. -/
  | frst (fd : FReg2) (bs : SP)
  /-- FRLD (R200): Loads and validates a front image. -/
  | frld (fd : FReg2) (bs : SP)
  /-- FRTEST (R195): Tests each candidate tuple against a front without inserting. -/
  | frtest (pd : PReg) (fa : FReg2) (va : VReg5) (m : VMask)
  /-- VMAXCLR (R179): Chooses the greatest candidate of each segment and clears its predicate bit. -/
  | vmaxclr (vd : VReg5) (va : VReg5) (pk : PReg) (dep : Dep) (fs : SP)
  /-- VSELK (R180): Chooses the top c.k elements of each segment. -/
  | vselk (vd : VReg5) (va : VReg5) (pk : PReg) (dep : Dep) (pm : PReg) (fs : SP)
  /-- VHIST (R181): Counts keys per bucket in each segment. -/
  | vhist (x : VHist)
  /-- VRANK (R182): Writes each element's rank among equal keys in its segment. -/
  | vrank (x : VScan)
  /-- XFWD_T (R392): Forwards each segment as a record to the inbox of its key's holder. -/
  | xfwdT (vd : VReg5) (va : VReg5) (vb : VReg5) (dep : Dep) (slot : BitVec 2)
  /-- XFWD_G (R390): Remote gather of a distributed array through location entries. -/
  | xfwdG (vd : VReg5) (va : VReg5) (w : Width) (slot : BitVec 2) (m : VMask)
  /-- XLOC (R389): Looks up the chip number of each key. -/
  | xloc (vd : VReg5) (va : VReg5) (slot : BitVec 2) (m : VMask)
  /-- MSHP (R230): Writes the matrix shape word and optionally acquires tile registers. -/
  | mshp (k : SP) (acq : Bool) (mask : BitVec 8)
  /-- MTLD (R232): Queues a dense tile load into a sleeve. -/
  | mtld (t : TReg3) (bs : SP) (xs : SP) (pm : PReg)
  /-- MTLD_I (R243): Queues a restore of a tile image into a held tile. -/
  | mtldI (t : TReg3) (bs : SP)
  /-- MTLDZ (R234): Queues a compacted tile load with row indices. -/
  | mtldz (t : TReg3) (vb : VReg5) (bs : SP) (xs : SP) (pm : PReg)
  /-- MMA (R235): Queues a row of A times a dense tile into RA48 accumulators. -/
  | mma (vd : VReg5) (a : VOrB) (t : TReg3) (pm : PReg)
  /-- MMAZ (R236): Queues a logical row of A times a compacted tile into RA48 accumulators. -/
  | mmaz (vd : VReg5) (a : VOrB) (t : TReg3) (ix : Option VOrB) (pm : PReg)
  /-- MTREL (R243): Releases a tile register without saving. -/
  | mtrel (t : TReg3)
  /-- MTREL_S (R243): Saves a tile image and releases the tile. -/
  | mtrelS (t : TReg3) (k : SP)
  /-- BOPEN (R247): Opens a stream or transfer bobbin. -/
  | bopen (b : BReg4) (xs : SP) (bs : SP)
  /-- BOPEN_R (R257): Reopens a bobbin from a saved image in K mode. -/
  | bopenR (b : BReg4) (bs : SP)
  /-- BCOPY (R248): Issues one asynchronous copy to a bobbin. -/
  | bcopy (b : BReg4) (form : CopyForm) (cv : Option SP) (pm : PReg)
  /-- BCLOSE (R247): Waits for or discards a bobbin's copies and closes it. -/
  | bclose (b : BReg4)
  /-- BCLOSE_S (R257): Stops a bobbin's copies, saves its image and closes it in K mode. -/
  | bcloseS (b : BReg4) (bs : SP)
  /-- BWAIT (R247): Waits until a bobbin's earlier entries complete. -/
  | bwait (b : BReg4)
  /-- BSTAT (R255): Writes a bobbin's status into a vector. -/
  | bstat (vd : VReg5) (b : BReg4)
  /-- BPOST (R254): Places a post of nominal bytes in a bobbin's queue. -/
  | bpost (b : BReg4) (bs : SP) (scope : Scope)
  /-- PAND (R120): Predicate AND. -/
  | pand (pd : PReg) (pa : PReg) (pb : PReg) (m : VMask)
  /-- POR (R120): Predicate OR. -/
  | por (pd : PReg) (pa : PReg) (pb : PReg) (m : VMask)
  /-- PXOR (R120): Predicate XOR. -/
  | pxor (pd : PReg) (pa : PReg) (pb : PReg) (m : VMask)
  /-- PNOT (R120): Predicate NOT. -/
  | pnot (pd : PReg) (pa : PReg) (m : VMask)
  /-- PFIRST (R120): Keeps only the lowest active true bit. -/
  | pfirst (pd : PReg) (pa : PReg) (pm : PReg)
  /-- PCOUNT (R120): Counts the active true bits into a vector. -/
  | pcount (vd : VReg5) (pa : PReg) (pm : PReg)
  /-- VPERM (R123): Permutes elements by an index vector. -/
  | vperm (vd : VReg5) (va : VReg5) (vb : VReg5) (m : VMask) (fs : SP)
  /-- VSLIDE (R123): Slides elements by a signed offset. -/
  | vslide (vd : VReg5) (va : VReg5) (k : SP) (m : VMask) (fs : SP)
  /-- VREV (R123): Reverses elements within each segment. -/
  | vrev (vd : VReg5) (va : VReg5) (dep : Dep) (fs : SP)
  /-- VBCAST (R123): Broadcasts a scalar to every element. -/
  | vbcast (vd : VReg5) (k : SP) (m : VMask) (fs : SP)
  /-- VINS (R123): Inserts a scalar at one element. -/
  | vins (vd : VReg5) (k : SP) (xs : SP) (fs : SP)
  /-- VEXT (R123): Extracts one element to element 0. -/
  | vext (vd : VReg5) (va : VReg5) (xs : SP) (fs : SP)
  /-- VCOMPRESS (R123): Packs active elements to the front. -/
  | vcompress (vd : VReg5) (va : VReg5) (pm : PReg) (fs : SP)
  /-- VEXPAND (R123): Spreads consecutive elements to active positions. -/
  | vexpand (vd : VReg5) (va : VReg5) (m : VMask) (fs : SP)
  /-- VMV (R123): Copies a whole register with its header. -/
  | vmv (vd : VReg5) (va : VReg5)
  /-- VSND (R124): Posts element 0 to the read queue, waiting for room. -/
  | vsnd (va : VReg5)
  /-- QPUT (R219): Moves a register's storage to the tail of a trio ring. -/
  | qput (q : QReg2) (va : VReg5)
  /-- QGET (R219): Binds a register to the head of a trio ring or reads end of stream. -/
  | qget (vd : VReg5) (q : QReg2) (pq : Bool)
  /-- QEOS (R219): Records the role's end-of-stream token on a ring. -/
  | qeos (q : QReg2)
  /-- XROUTE_OFF (R278): Makes later indexed V-words of the block compute routes. -/
  | xrouteOff (n : BitVec 3)
  /-- XROUTE_USE (R278): Makes later indexed V-words try a preset route slot. -/
  | xrouteUse (n : BitVec 3)
  /-- XROUTE_SAVE (R278): Makes later indexed V-words save computed routes into a slot. -/
  | xrouteSave (n : BitVec 3)
  /-- TSUM (R307): Folds active elements into an output's running summary. -/
  | tsum (n : Bool) (va : VReg5) (pm : PReg) (fs : SP)
  /-- VSTOP (R59): Ends a vector-fetch block. -/
  | vstop
  /-- TRAP_ENTRY (R38): Takes a trap: stops the stream, writes trap words and enters K mode. -/
  | trapEntry (h : Nat) (t : TrapReq)
  /-- ASYNC_EVENT_TAKEN (R38): A pending asynchronous event is taken once ie is 1 in U mode. -/
  | asyncEventTaken (h : Nat)
  /-- RESUMPTION (R211): A context holding no group renegotiates at its first U-mode V-word dispatch. -/
  | resumption (h : Nat)
  /-- WAITER_SERVED (R209): The oldest waiting context receives groups once enough are free. -/
  | waiterServed (core : Nat)
  /-- FREE_PARKED_CONTEXT (R206): A write of 1 to fr frees a parked context. -/
  | freeParkedContext (h : Nat)
  /-- COPY_ELEMENT_DELIVERY (R248): The copy engine performs elements of a queued copy and advances D. -/
  | copyElementDelivery (h : Nat) (b : BReg4) (n : Nat)
  /-- COPY_FAULT (R252): A copy element fails a check, stops the bobbin and traps with src 2. -/
  | copyFault (h : Nat) (b : BReg4)
  /-- POST_PERFORMED (R254): The engine adds nominal bytes to the post counter after earlier entries complete. -/
  | postPerformed (h : Nat) (b : BReg4)
  /-- MATRIX_ISSUE (R240): A queued matrix command issues to its sleeve when its sources and bobbin elements are ready. -/
  | matrixIssue (core : Nat) (i : Nat)
  /-- MATRIX_COMPLETE (R235): A matrix command finishes broadcast and accumulate into vD or the tile. -/
  | matrixComplete (core : Nat) (i : Nat)
  /-- FRAME_TICK (R322): Every 2,048 cycles unless held, c.time and c.ftick update and quotas refill. -/
  | frameTick
  /-- HELD_TICK_RELEASE (R327): A held tick is sent in the first cycle no flit of age 32 or more is held. -/
  | heldTickRelease
  /-- SPILL_MODE_EXIT (R364): A receive buffer leaves spill mode when the spill ring empties. -/
  | spillModeExit (d : Nat)
  /-- SPILL_RING_FULL (R364): The spill ring fills, the receiver stops accepting and spfull counts. -/
  | spillRingFull (d : Nat)
  /-- TACK_HUB_CYCLE (R311): The hub applies arrivals, leaves, a release and joins for a channel each cycle. -/
  | tackHubCycle (hub : Nat) (ch : Nat)
  /-- TACK_RELEASE_ARRIVAL (R312): A release reaches every member core and sets their event bits. -/
  | tackReleaseArrival (hub : Nat) (ch : Nat)
  /-- BROADCAST_ACCEPT (R318): The hub accepts the lowest-numbered held broadcast when the slot is free. -/
  | broadcastAccept (hub : Nat) (ch : Nat)
  /-- BROADCAST_DELIVERY (R318): An accepted broadcast reaches the latches of the other members. -/
  | broadcastDelivery (hub : Nat) (ch : Nat)
  /-- PREEMPT_COMMAND_WRITE (R323): A write to the pre-emption command register starts one signal. -/
  | preemptCommandWrite (d : Nat) (value : Word)
  /-- PREEMPTION_REQUEST (R323): A pre-emption signal reaches its target harts as cause 0x11. -/
  | preemptionRequest (h : Nat) (ch : Nat)
  /-- FWAIT_WAKE (R281): A parked hart wakes 8 cycles after the ffill with the filled word. -/
  | fwaitWake (h : Nat)
  /-- FWAIT_TIMEOUT (R281): A parked fwait reaches its deadline and returns the word. -/
  | fwaitTimeout (h : Nat)
  /-- WFE_DEADLINE (R101): wfe completes with 0 when c.time reaches the deadline. -/
  | wfeDeadline (h : Nat)
  /-- LWAIT_DEADLINE (R356): lwait completes with the last word read when the deadline passes. -/
  | lwaitDeadline (h : Nat)
  /-- CTAKE_SERVED (R286): The cutting table serves one ctake per arithmetic cycle in rotating core order. -/
  | ctakeServed (cl : Nat)
  /-- HOST_LAUNCH_PUSH (R341): A 128-byte host write pushes a launch record into a FIFO, or is discarded and counted. -/
  | hostLaunchPush (off : Nat) (bytes : List Byte)
  /-- RECORD_ENTERS_POOL (R341): A FIFO's head record enters the pool when room and its queue allow. -/
  | recordEntersPool (d : Nat) (f : Nat)
  /-- LAUNCH_DISPATCH (R347): The die dispatches one ready launch whole onto free contexts. -/
  | launchDispatch (d : Nat)
  /-- LAUNCH_COMPLETION (R350): After the last end and tasks, the die writes the completion word and sends MSI-X. -/
  | launchCompletion (d : Nat) (e : Nat)
  /-- TASK_FIRE (R299): A non-strict task fires and releases its pending inputs. -/
  | taskFire (cl : Nat) (i : Nat)
  /-- TASK_RETIRE (R299): A waiting producer with every output withdrawn is retired unrun. -/
  | taskRetire (cl : Nat) (i : Nat)
  /-- TASK_DISPATCH (R297): A ready task is dispatched onto a free task-pool context. -/
  | taskDispatch (cl : Nat)
  /-- WITHDRAW_MARK (R300): A withdrawal mark reaches a running producer and its later writes are discarded. -/
  | withdrawMark (h : Nat) (j : Nat)
  /-- CLUSTER_RESET (R291): Delveloth's cluster reset stops every hart and clears cluster state. -/
  | clusterReset (cl : Nat)
  /-- PACKET_ARRIVAL (R329): A packet reaches its point of performance and its writes or adds take effect. -/
  | packetArrival (i : Nat)
  /-- TLB_INVALIDATE_PAGE (R337): Invalidates the 64 KiB page of an ASID on every core. -/
  | tlbInvalidatePage (d : Nat) (asid : BitVec 16) (vpn : BitVec 40)
  /-- TLB_INVALIDATE_ASID (R337): Invalidates every page of an ASID on every core. -/
  | tlbInvalidateAsid (d : Nat) (asid : BitVec 16)
  /-- TLB_INVALIDATE_ALL (R337): Invalidates every translation on every core. -/
  | tlbInvalidateAll (d : Nat)
  /-- INVALIDATION_COMPLETE (R337): busy returns to 0 once holders of invalidated translations have performed their accesses. -/
  | invalidationComplete (d : Nat)
  /-- READ_NPOIS (R328): A read of the poisoned-packet count returns and clears it. -/
  | readNpois (d : Nat)
  /-- READ_DROPS (R342): A read of a FIFO drop count returns and clears it. -/
  | readDrops (d : Nat) (f : Nat)
  /-- READ_SPFULL (R365): A read of spfull returns and clears it. -/
  | readSpfull (d : Nat)
  /-- READ_RTRY (R382): A read of a port's retry count returns and clears it. -/
  | readRtry (port : Nat)
  /-- READ_FAULT_DROPS (R378): A read of the fault-ring drop count returns and clears it. -/
  | readFaultDrops
  /-- FAULT_RECORD_POST (R378): A fault record is written to the boot-SRAM ring or dropped when full. -/
  | faultRecordPost (r : FaultRec)
  /-- RANGE_REGISTER_WRITE (R369): A write to a memory range register is checked and applied or ignored whole. -/
  | rangeRegisterWrite (d : Nat) (i : Nat) (second : Bool) (value : Word)
  /-- CLUSTER_PARTITION_WRITE (R368): A write assigning a cluster is ignored while any context is occupied. -/
  | clusterPartitionWrite (cl : Nat) (value : Word)
  /-- REGISTER_WRITE (R6): A write to a configuration register without behaviour of its own. -/
  | registerWrite (pa : Nat) (value : Word)
  /-- PATROL_SCRUB (R366): A controller scrubs its stack, correcting or poisoning lines. -/
  | patrolScrub (d : Nat) (stack : Nat) (found : List LineError)
  /-- UNCORRECTABLE_ERROR (R366): An uncorrectable memory error poisons the line and posts a report. -/
  | uncorrectableError (loc : Nat)
  /-- UNCONTAINED_FAILURE (R377): A failure at cycle T fails every launch of the affected partitions. -/
  | uncontainedFailure (u : FailedUnit)
  /-- THERMAL_STOP (R376): At 115 C or a rail fault the package stops all compute. -/
  | thermalStop
  /-- BRIDGE_FAILURE (R377): Eight failed retries of a bridge flit fail every partition. -/
  | bridgeFailure
  /-- PORT_TRAINING (R383): A port trains and the two Thimbles establish a link session key. -/
  | portTraining (port : Nat) (r : TrainReq)
  /-- PORT_FAILURE (R384): A port fails, routes through it are invalidated and affected partitions fail. -/
  | portFailure (port : Nat)
  /-- FABRIC_REQUEST_ARRIVAL (R385): A chip performs or refuses a fabric request under its import table. -/
  | fabricRequestArrival (r : FabricReq)
  /-- GATHER_LIST_RETURN (R390): A peer's returned elements fill a remote gather and set kc. -/
  | gatherListReturn (h : Nat) (chip : Nat) (r : ListReply)
  /-- INBOX_RECORD (R392): The holder reserves inbox space and writes a forwarded record or counts a drop. -/
  | inboxRecord (h : Nat) (j : Nat) (r : InboxReply)
  /-- HOST_BAR2_ACCESS (R371): A host read or write through BAR2 to HBM, allowed only in host-visible ranges. -/
  | hostBar2Access (off : Nat) (a : BarAccess)
  /-- KEY_REQUEST (R370): Delveloth asks Thimble for a key into a slot. -/
  | keyRequest (d : Nat) (slot : Nat)
  /-- KEY_ZEROISE (R370): Delveloth asks Thimble to zeroise a key slot. -/
  | keyZeroise (d : Nat) (slot : Nat)
  /-- SESSION_UNSEAL (R371): Thimble unseals a staged object into the tenant's encrypted range. -/
  | sessionUnseal (r : UnsealReq)
  /-- ATTESTATION_REPORT (R375): Thimble signs an attestation report with the next index. -/
  | attestationReport (pid : Nat) (nonce : List Byte)
  /-- BOOT_STAGE (R372): Thimble loads and verifies the next boot image and extends measurements. -/
  | bootStage (img : BootImage)
  /-- PACKAGE_RESET (R8): A package reset sets every field to its reset value. -/
  | packageReset
  /-- CURRENT_AND_THERMAL_CAPS (R376): When module power, a rail current or die junction temperature reaches its cap, the hardware withholds arithmetic-cycle issue slots from lanes and sleeves. -/
  | currentAndThermalCaps (c : CapEvent)
  /-- PERST_DEASSERTION (R375): Deassertion of PERST# on the host link, after which the link answers configuration requests within 100 ms with the BAR0 FIFOs disabled. -/
  | perstDeassertion
  /-- MEASUREMENT_EXTEND (R373): Delveloth asks Thimble to extend the measurement chain with its policy tables. -/
  | measurementExtend (data : List Byte)
  /-- JOIN_ANSWER_ARRIVAL (R314): The hub's answer to a join or leave reaches the core one latency after it left, and tkjoin completes with its phase. -/
  | joinAnswerArrival (h : Nat)
deriving DecidableEq, Repr

end Sys2Proof
end

