-- ==== Sys2Proof/WellFormed.lean ====
section
/-!
DEFINITION. WellFormed.lean: what an instruction or event must satisfy beyond its types.

An instruction is well formed when some word of the spec's encoding decodes to it; an event is well formed when it names
agents the package has.
-/
namespace Sys2Proof

/-- zm = 1 with pm = 0 is refused on every instruction (spec/03, R58). -/
def VMask.ok (m : VMask) : Bool := !(m.zm && m.pm == 0)

/-- The unsigned form exists below 64 bits only (spec/03, R51). -/
def OrdLoad.ok (x : OrdLoad) : Bool := !(x.u && x.w == .w64)

/-- fcvt takes the codes 0x00 to 0x0B (spec/03, R50). -/
def Fmt.scalarOk (f : Fmt) : Bool := f != .rq8 && f != .rq16 && f != .ra48

/-- vd + nf stays within v31 (spec/03, R57). -/
def segOk (vd : VReg5) (nf : BitVec 3) : Bool := vd.toNat + nf.toNat ≤ 31

/-- A hart number (spec/00, R2). -/
def hartOk (h : Nat) : Bool := h < 1536

/-- A core number, 0 to 191 over the package (spec/00, R1). -/
def coreOk (c : Nat) : Bool := c < 192

/-- A cluster number, 0 to 23 over the package (spec/00, R1). -/
def clusterOk (c : Nat) : Bool := c < 24

/-- A die number (spec/00, R2). -/
def dieOk (d : Nat) : Bool := d < 2

/-- The well-formedness of an instruction or event. -/
def Instr.wellFormed (i : Instr) : Bool :=
  match i with
  | .add _ _ _ => true
  | .sub _ _ _ => true
  | .and _ _ _ => true
  | .or _ _ _ => true
  | .xor _ _ _ => true
  | .sll _ _ _ => true
  | .srl _ _ _ => true
  | .sra _ _ _ => true
  | .slt _ _ _ => true
  | .sltu _ _ _ => true
  | .mul _ _ _ => true
  | .mulh _ _ _ => true
  | .mulhu _ _ _ => true
  | .div _ _ _ => true
  | .divu _ _ _ => true
  | .rem _ _ _ => true
  | .remu _ _ _ => true
  | .min _ _ _ => true
  | .max _ _ _ => true
  | .minu _ _ _ => true
  | .maxu _ _ _ => true
  | .clz _ _ => true
  | .ctz _ _ => true
  | .pop _ _ => true
  | .addi _ _ _ => true
  | .andi _ _ _ => true
  | .ori _ _ _ => true
  | .xori _ _ _ => true
  | .slti _ _ _ => true
  | .sltiu _ _ _ => true
  | .slli _ _ _ => true
  | .srli _ _ _ => true
  | .srai _ _ _ => true
  | .lhi _ _ => true
  | .adrp _ _ => true
  | .lra _ _ => true
  | .ldB _ _ _ => true
  | .ldH _ _ _ => true
  | .ldW _ _ _ => true
  | .ldD _ _ _ => true
  | .ldBu _ _ _ => true
  | .ldHu _ _ _ => true
  | .ldWu _ _ _ => true
  | .stB _ _ _ => true
  | .stH _ _ _ => true
  | .stW _ _ _ => true
  | .stD _ _ _ => true
  | .ldAcq x => x.ok
  | .ldSc x => x.ok
  | .stRel _ => true
  | .stSc _ => true
  | .amoAdd _ => true
  | .amoAnd _ => true
  | .amoOr _ => true
  | .amoXor _ => true
  | .amoMin _ => true
  | .amoMax _ => true
  | .amoSwap _ => true
  | .cas _ => true
  | .beq _ _ _ => true
  | .bne _ _ _ => true
  | .blt _ _ _ => true
  | .bge _ _ _ => true
  | .bltu _ _ _ => true
  | .bgeu _ _ _ => true
  | .jal _ _ => true
  | .jalr _ _ _ => true
  | .fadd _ _ _ _ _ => true
  | .fsub _ _ _ _ _ => true
  | .fmul _ _ _ _ _ => true
  | .fdiv _ _ _ _ _ => true
  | .fsqrt _ _ _ _ => true
  | .fmadd _ _ _ _ _ => true
  | .fmin _ _ _ _ => true
  | .fmax _ _ _ _ => true
  | .fminNum _ _ _ _ => true
  | .fmaxNum _ _ _ _ => true
  | .fcmpEq _ _ _ _ => true
  | .fcmpLt _ _ _ _ => true
  | .fcmpLe _ _ _ _ => true
  | .fcmpUn _ _ _ _ => true
  | .fcls _ _ _ => true
  | .fcvt dst src _ _ _ => dst.scalarOk && src.scalarOk
  | .fncSs _ => true
  | .fncSv _ => true
  | .fncVs _ => true
  | .fncVv _ => true
  | .crd _ _ => true
  | .cwr _ _ => true
  | .nop => true
  | .sys => true
  | .trp _ => true
  | .brk => true
  | .eret => true
  | .wfe _ _ => true
  | .endL => true
  | .vrecv _ => true
  | .vf _ => true
  | .tkjoin _ _ => true
  | .tkarr _ _ => true
  | .tkwait _ _ _ => true
  | .tkbar _ _ => true
  | .tkbc _ _ _ => true
  | .tkrcv _ _ => true
  | .lnch _ _ => true
  | .lwait _ _ _ => true
  | .lstat _ _ => true
  | .lcanc _ _ => true
  | .fwait _ _ _ => true
  | .ffill _ _ _ => true
  | .ctake _ _ => true
  | .patld _ _ _ => true
  | .gform _ _ => true
  | .gsplit _ => true
  | .tspawn _ _ => true
  | .tabs _ => true
  | .twd _ => true
  | .tdone => true
  | .lgrel _ => true
  | .trio _ _ => true
  | .vsetl _ _ gmax => decide (gmax.toNat ≤ 8)
  | .vadd x => x.m.ok
  | .vsub x => x.m.ok
  | .vmul x => x.m.ok
  | .vmulh x => x.m.ok
  | .vdiv x => x.m.ok
  | .vrem x => x.m.ok
  | .vmin x => x.m.ok
  | .vmax x => x.m.ok
  | .vand x => x.m.ok
  | .vor x => x.m.ok
  | .vxor x => x.m.ok
  | .vsll x => x.m.ok
  | .vsrl x => x.m.ok
  | .vsra x => x.m.ok
  | .vmacc x => x.m.ok
  | .vclz x => x.m.ok
  | .vpop x => x.m.ok
  | .vabs x => x.m.ok
  | .vfadd x => x.m.ok
  | .vfsub x => x.m.ok
  | .vfmul x => x.m.ok
  | .vfdiv x => x.m.ok
  | .vfma x => x.m.ok
  | .vfsqrt x => x.m.ok
  | .vfmin x => x.m.ok
  | .vfmax x => x.m.ok
  | .vfminNum x => x.m.ok
  | .vfmaxNum x => x.m.ok
  | .vfabs x => x.m.ok
  | .vfneg x => x.m.ok
  | .vfexp2 x => x.m.ok
  | .vflog2 x => x.m.ok
  | .vfrec x => x.m.ok
  | .vfrsq x => x.m.ok
  | .vftanh x => x.m.ok
  | .vcmpEq x => x.m.ok
  | .vcmpNe x => x.m.ok
  | .vcmpLt x => x.m.ok
  | .vcmpLe x => x.m.ok
  | .vcmpGt x => x.m.ok
  | .vcmpGe x => x.m.ok
  | .vcmpUn x => x.m.ok
  | .vcvt x => x.m.ok
  | .vcvtRow x => x.m.ok
  | .vcrt x => x.m.ok
  | .vseg _ => true
  | .vsegc _ => true
  | .vnest _ => true
  | .vflat _ _ _ => true
  | .vredAdd _ => true
  | .vredMul _ => true
  | .vredMin _ => true
  | .vredMax _ => true
  | .vredAnd _ => true
  | .vredOr _ => true
  | .vredXor _ => true
  | .vredMinNum _ => true
  | .vredMaxNum _ => true
  | .vscanAdd x => x.m.ok
  | .vscanMul x => x.m.ok
  | .vscanMin x => x.m.ok
  | .vscanMax x => x.m.ok
  | .vscanAnd x => x.m.ok
  | .vscanOr x => x.m.ok
  | .vscanXor x => x.m.ok
  | .vscanMinNum x => x.m.ok
  | .vscanMaxNum x => x.m.ok
  | .vdist x => x.m.ok
  | .vpack _ => true
  | .vpart _ => true
  | .vcat _ => true
  | .vsort _ => true
  | .vsidxSeg x => x.m.ok
  | .vsidxOff x => x.m.ok
  | .vcarry _ => true
  | .vcarryScan _ => true
  | .vld x => x.m.ok
  | .vst x => x.m.ok
  | .vlds x => x.m.ok
  | .vsts x => x.m.ok
  | .vldx x => x.m.ok
  | .vstx x => x.m.ok
  | .vsca x => x.m.ok
  | .vldseg x => (x.m.ok && segOk x.vd x.nf)
  | .vstseg x => (x.m.ok && segOk x.vd x.nf)
  | .vtld _ _ _ m => m.ok
  | .vtst _ _ _ m => m.ok
  | .vldff x => x.m.ok
  | .vldn _ _ _ => true
  | .vstn _ _ _ => true
  | .vldf _ _ => true
  | .vsave _ _ => true
  | .vsaveP _ _ => true
  | .vsaveRq _ => true
  | .vsaveVq _ => true
  | .vrest _ _ => true
  | .vrestP _ _ => true
  | .vrestRq _ => true
  | .vrestVq _ => true
  | .zld _ _ => true
  | .zst _ _ => true
  | .zadd _ _ _ _ => true
  | .zmul _ _ _ _ => true
  | .zint _ _ _ => true
  | .zfrom _ => true
  | .ztoD _ _ _ => true
  | .ztoC _ _ _ => true
  | .ztoV _ _ _ => true
  | .zlen _ _ => true
  | .frcfg _ _ => true
  | .frclr _ => true
  | .frins _ _ _ _ => true
  | .frmrg _ _ => true
  | .frrd _ _ _ => true
  | .frcnt _ _ => true
  | .frst _ _ => true
  | .frld _ _ => true
  | .frtest _ _ _ m => m.ok
  | .vmaxclr _ _ _ _ _ => true
  | .vselk _ _ _ _ _ _ => true
  | .vhist _ => true
  | .vrank x => x.m.ok
  | .xfwdT _ _ _ _ _ => true
  | .xfwdG _ _ _ _ m => m.ok
  | .xloc _ _ _ m => m.ok
  | .mshp _ _ _ => true
  | .mtld _ _ _ _ => true
  | .mtldI _ _ => true
  | .mtldz _ _ _ _ _ => true
  | .mma _ _ _ _ => true
  | .mmaz _ _ _ _ _ => true
  | .mtrel _ => true
  | .mtrelS _ _ => true
  | .bopen _ _ _ => true
  | .bopenR _ _ => true
  | .bcopy _ _ _ _ => true
  | .bclose _ => true
  | .bcloseS _ _ => true
  | .bwait _ => true
  | .bstat _ _ => true
  | .bpost _ _ _ => true
  | .pand _ _ _ m => m.ok
  | .por _ _ _ m => m.ok
  | .pxor _ _ _ m => m.ok
  | .pnot _ _ m => m.ok
  | .pfirst _ _ _ => true
  | .pcount _ _ _ => true
  | .vperm _ _ _ m _ => m.ok
  | .vslide _ _ _ m _ => m.ok
  | .vrev _ _ _ _ => true
  | .vbcast _ _ m _ => m.ok
  | .vins _ _ _ _ => true
  | .vext _ _ _ _ => true
  | .vcompress _ _ _ _ => true
  | .vexpand _ _ m _ => m.ok
  | .vmv _ _ => true
  | .vsnd _ => true
  | .qput _ _ => true
  | .qget _ _ _ => true
  | .qeos _ => true
  | .xrouteOff _ => true
  | .xrouteUse _ => true
  | .xrouteSave _ => true
  | .tsum _ _ _ _ => true
  | .vstop => true
  | .trapEntry h _ => hartOk h
  | .asyncEventTaken h => hartOk h
  | .resumption h => hartOk h
  | .waiterServed core => coreOk core
  | .freeParkedContext h => hartOk h
  | .copyElementDelivery h _ _ => hartOk h
  | .copyFault h _ => hartOk h
  | .postPerformed h _ => hartOk h
  | .matrixIssue core _ => coreOk core
  | .matrixComplete core _ => coreOk core
  | .frameTick => true
  | .heldTickRelease => true
  | .spillModeExit d => dieOk d
  | .spillRingFull d => dieOk d
  | .tackHubCycle hub _ => decide (hub < 3)
  | .tackReleaseArrival hub _ => decide (hub < 3)
  | .broadcastAccept hub _ => decide (hub < 3)
  | .broadcastDelivery hub _ => decide (hub < 3)
  | .preemptCommandWrite d _ => dieOk d
  | .preemptionRequest h _ => hartOk h
  | .fwaitWake h => hartOk h
  | .fwaitTimeout h => hartOk h
  | .wfeDeadline h => hartOk h
  | .lwaitDeadline h => hartOk h
  | .ctakeServed cl => clusterOk cl
  | .hostLaunchPush _ _ => true
  | .recordEntersPool d _ => dieOk d
  | .launchDispatch d => dieOk d
  | .launchCompletion d _ => dieOk d
  | .taskFire cl _ => clusterOk cl
  | .taskRetire cl _ => clusterOk cl
  | .taskDispatch cl => clusterOk cl
  | .withdrawMark h _ => hartOk h
  | .clusterReset cl => clusterOk cl
  | .packetArrival _ => true
  | .tlbInvalidatePage d _ _ => dieOk d
  | .tlbInvalidateAsid d _ => dieOk d
  | .tlbInvalidateAll d => dieOk d
  | .invalidationComplete d => dieOk d
  | .readNpois d => dieOk d
  | .readDrops d _ => dieOk d
  | .readSpfull d => dieOk d
  | .readRtry port => decide (port < 16)
  | .readFaultDrops => true
  | .faultRecordPost _ => true
  | .rangeRegisterWrite d _ _ _ => dieOk d
  | .clusterPartitionWrite cl _ => clusterOk cl
  | .registerWrite _ _ => true
  | .patrolScrub d _ _ => dieOk d
  | .uncorrectableError _ => true
  | .uncontainedFailure u => match u with
    | .cluster cl => decide (cl < 24)
    | .die d => decide (d < 2)
  | .thermalStop => true
  | .bridgeFailure => true
  | .portTraining port r => decide (port < 16 ∧ r.nonce.length = 32)
  | .portFailure port => decide (port < 16)
  | .fabricRequestArrival _ => true
  | .gatherListReturn h _ _ => hartOk h
  | .inboxRecord h _ _ => hartOk h
  | .hostBar2Access _ _ => true
  | .keyRequest d _ => dieOk d
  | .keyZeroise d _ => dieOk d
  | .sessionUnseal _ => true
  | .attestationReport pid nonce => decide (pid < 32 ∧ nonce.length = 32)
  | .bootStage _ => true
  | .packageReset => true
  | .currentAndThermalCaps _ => true
  | .perstDeassertion => true
  | .measurementExtend _ => true
  | .joinAnswerArrival h => hartOk h

end Sys2Proof
end

