-- ==== Sys2Proof/Decode.lean ====
section
/-!
DEFINITION. Decode.lean: from words to instructions and back (spec/03).

A word is cut into the fields of its layout once; the decoder works on the fields, in the order of the checks of R58:
major opcode, then function value, then the fields the instruction does not use. The encoder fills the same fields.
-/
namespace Sys2Proof

/-- Why a word is not an instruction; the subcodes 1, 2 and 3 of cause 0x01 (spec/03, R58). -/
inductive DecodeErr where
  | reservedOpcode
  | reservedFunction
  | nonzeroField
deriving DecidableEq, Repr

/-- The subcode of an illegal instruction (spec/02, R37). -/
def DecodeErr.sub : DecodeErr → BitVec 8
  | .reservedOpcode => 1
  | .reservedFunction => 2
  | .nonzeroField => 3

/-- The fields of an S-word; lo is imm16, off16, or sb and fn (spec/03, R45). -/
structure SFields where
  op : BitVec 6
  d : BitVec 5
  a : BitVec 5
  lo : BitVec 16
deriving DecidableEq, Repr

/-- The sb field of layouts SR and SM (spec/03, R45). -/
def SFields.b (f : SFields) : BitVec 5 := f.lo.extractLsb' 11 5

/-- The fn field of layout SR (spec/03, R45). -/
def SFields.fn (f : SFields) : BitVec 11 := f.lo.extractLsb' 0 11

/-- Cuts a word into fields. -/
def SFields.ofWord (w : BitVec 32) : SFields :=
  ⟨w.extractLsb' 26 6, w.extractLsb' 21 5, w.extractLsb' 16 5, w.extractLsb' 0 16⟩

/-- Joins the fields into a word. -/
def SFields.word (f : SFields) : BitVec 32 := f.op ++ f.d ++ f.a ++ f.lo

/-- The fields of a V-word (spec/03, R53). -/
structure VFields where
  op : BitVec 8
  vd : BitVec 5
  va : BitVec 5
  vb : BitVec 5
  vc : BitVec 5
  pm : BitVec 5
  zm : BitVec 1
  dep : BitVec 2
  fs : BitVec 4
  fn : BitVec 12
  imm : BitVec 12
deriving DecidableEq, Repr

/-- Cuts a word into fields. -/
def VFields.ofWord (w : BitVec 64) : VFields :=
  ⟨w.extractLsb' 56 8, w.extractLsb' 51 5, w.extractLsb' 46 5, w.extractLsb' 41 5, w.extractLsb' 36 5,
   w.extractLsb' 31 5, w.extractLsb' 30 1, w.extractLsb' 28 2, w.extractLsb' 24 4, w.extractLsb' 12 12,
   w.extractLsb' 0 12⟩

/-- Joins the fields into a word. -/
def VFields.word (f : VFields) : BitVec 64 :=
  f.op ++ f.vd ++ f.va ++ f.vb ++ f.vc ++ f.pm ++ f.zm ++ f.dep ++ f.fs ++ f.fn ++ f.imm

/-- A decoding result. -/
abbrev Dec := Except DecodeErr Instr

/-- The reserved function value (spec/03, R58, check 2). -/
def badFn : Dec := .error .reservedFunction

/-- The reserved opcode (spec/03, R58, check 1). -/
def badOp : Dec := .error .reservedOpcode

/-- The instruction, when the fields it does not use are zero (spec/03, R58, check 3). -/
def needs (clean : Bool) (i : Instr) : Dec := if clean then .ok i else .error .nonzeroField

/-! ### Codes -/

/-- Scope codes; 6 and 7 are reserved (spec/03, R47). -/
def Scope.ofCode (c : BitVec 3) : Option Scope :=
  match c.toNat with
  | 0 => some .hart
  | 1 => some .core
  | 2 => some .cluster
  | 3 => some .die
  | 4 => some .pkg
  | 5 => some .sys
  | _ => none

/-- The code of a scope (spec/03, R47). -/
def Scope.code : Scope → BitVec 3
  | .hart => 0
  | .core => 1
  | .cluster => 2
  | .die => 3
  | .pkg => 4
  | .sys => 5

/-- Order codes; 5 to 7 are reserved (spec/03, R47). -/
def Order.ofCode (c : BitVec 3) : Option Order :=
  match c.toNat with
  | 0 => some .relaxed
  | 1 => some .acq
  | 2 => some .rel
  | 3 => some .ar
  | 4 => some .sc
  | _ => none

/-- The code of an order (spec/03, R47). -/
def Order.code : Order → BitVec 3
  | .relaxed => 0
  | .acq => 1
  | .rel => 2
  | .ar => 3
  | .sc => 4

/-- Width codes (spec/03, R47). -/
def Width.ofCode (c : BitVec 2) : Width :=
  match c.toNat with
  | 0 => .w8
  | 1 => .w16
  | 2 => .w32
  | _ => .w64

/-- The code of a width (spec/03, R47). -/
def Width.code : Width → BitVec 2
  | .w8 => 0
  | .w16 => 1
  | .w32 => 2
  | .w64 => 3

/-- Rounding codes; 5 to 7 are reserved (spec/03, R50; spec/04, R62). -/
def Rm.ofCode (c : BitVec 3) : Option Rm :=
  match c.toNat with
  | 0 => some .rne
  | 1 => some .rtz
  | 2 => some .rdn
  | 3 => some .rup
  | 4 => some .rna
  | _ => none

/-- The code of a rounding mode. -/
def Rm.code : Rm → BitVec 3
  | .rne => 0
  | .rtz => 1
  | .rdn => 2
  | .rup => 3
  | .rna => 4

/-- Format codes (spec/04, R61). -/
def Fmt.ofCode (c : BitVec 5) : Option Fmt :=
  match c.toNat with
  | 0x00 => some .int8
  | 0x01 => some .int16
  | 0x02 => some .int32
  | 0x03 => some .int64
  | 0x04 => some .uint8
  | 0x05 => some .uint16
  | 0x06 => some .uint32
  | 0x07 => some .uint64
  | 0x08 => some .fp16
  | 0x09 => some .bf16
  | 0x0A => some .fp32
  | 0x0B => some .fp64
  | 0x0C => some .rq8
  | 0x0D => some .rq16
  | 0x0E => some .ra48
  | _ => none

/-- The code of a format. -/
def Fmt.code : Fmt → BitVec 5
  | .int8 => 0x00
  | .int16 => 0x01
  | .int32 => 0x02
  | .int64 => 0x03
  | .uint8 => 0x04
  | .uint16 => 0x05
  | .uint32 => 0x06
  | .uint64 => 0x07
  | .fp16 => 0x08
  | .bf16 => 0x09
  | .fp32 => 0x0A
  | .fp64 => 0x0B
  | .rq8 => 0x0C
  | .rq16 => 0x0D
  | .ra48 => 0x0E

/-- Format codes of the scalar floating-point group (spec/03, R50). -/
def FpFmt.ofCode (c : BitVec 2) : FpFmt :=
  match c.toNat with
  | 0 => .fp16
  | 1 => .bf16
  | 2 => .fp32
  | _ => .fp64

/-- The code of a scalar floating-point format. -/
def FpFmt.code : FpFmt → BitVec 2
  | .fp16 => 0
  | .bf16 => 1
  | .fp32 => 2
  | .fp64 => 3

/-- The code of a reduction operation (spec/03, R57). -/
def RedOp.code : RedOp → BitVec 4
  | .add => 0
  | .mul => 1
  | .min => 2
  | .max => 3
  | .and => 4
  | .or => 5
  | .xor => 6
  | .minNum => 7
  | .maxNum => 8

/-- Reduction codes; above 8 reserved (spec/07, R128). -/
def RedOp.ofCode (c : BitVec 4) : Option RedOp :=
  match c.toNat with
  | 0 => some .add
  | 1 => some .mul
  | 2 => some .min
  | 3 => some .max
  | 4 => some .and
  | 5 => some .or
  | 6 => some .xor
  | 7 => some .minNum
  | 8 => some .maxNum
  | _ => none

/-- A bit of a field as a Bool. -/
def bit1 (x : Bool) : BitVec 1 := BitVec.ofBool x

/-! ### S-words -/

/-- The integer group (spec/03, R49). -/
def decodeInt (f : SFields) : Dec :=
  match f.fn.toNat with
  | 0x000 => .ok (.add f.d f.a f.b)
  | 0x001 => .ok (.sub f.d f.a f.b)
  | 0x002 => .ok (.and f.d f.a f.b)
  | 0x003 => .ok (.or f.d f.a f.b)
  | 0x004 => .ok (.xor f.d f.a f.b)
  | 0x005 => .ok (.sll f.d f.a f.b)
  | 0x006 => .ok (.srl f.d f.a f.b)
  | 0x007 => .ok (.sra f.d f.a f.b)
  | 0x008 => .ok (.slt f.d f.a f.b)
  | 0x009 => .ok (.sltu f.d f.a f.b)
  | 0x010 => .ok (.mul f.d f.a f.b)
  | 0x011 => .ok (.mulh f.d f.a f.b)
  | 0x012 => .ok (.mulhu f.d f.a f.b)
  | 0x013 => .ok (.div f.d f.a f.b)
  | 0x014 => .ok (.divu f.d f.a f.b)
  | 0x015 => .ok (.rem f.d f.a f.b)
  | 0x016 => .ok (.remu f.d f.a f.b)
  | 0x018 => .ok (.min f.d f.a f.b)
  | 0x019 => .ok (.max f.d f.a f.b)
  | 0x01A => .ok (.minu f.d f.a f.b)
  | 0x01B => .ok (.maxu f.d f.a f.b)
  | 0x020 => needs (f.b == 0) (.clz f.d f.a)
  | 0x021 => needs (f.b == 0) (.ctz f.d f.a)
  | 0x022 => needs (f.b == 0) (.pop f.d f.a)
  | _ => badFn

/-- The shift-immediate group (spec/03, R48). -/
def decodeShift (f : SFields) : Dec :=
  let amt : Shamt := f.lo.extractLsb' 0 6
  let clean := f.lo.extractLsb' 8 8 == 0
  match (f.lo.extractLsb' 6 2).toNat with
  | 0 => needs clean (.slli f.d f.a amt)
  | 1 => needs clean (.srli f.d f.a amt)
  | 2 => needs clean (.srai f.d f.a amt)
  | _ => badFn

/-- The scalar floating-point group (spec/03, R50). -/
def decodeFp (f : SFields) : Dec :=
  let ff := FpFmt.ofCode (f.lo.extractLsb' 9 2)
  let rmc : BitVec 3 := f.lo.extractLsb' 6 3
  let plain (i : Instr) (clean : Bool) : Dec := if rmc == 0 then needs clean i else badFn
  match (f.lo.extractLsb' 0 6).toNat, Rm.ofCode rmc with
  | 0x00, some rm => .ok (.fadd ff rm f.d f.a f.b)
  | 0x01, some rm => .ok (.fsub ff rm f.d f.a f.b)
  | 0x02, some rm => .ok (.fmul ff rm f.d f.a f.b)
  | 0x03, some rm => .ok (.fdiv ff rm f.d f.a f.b)
  | 0x04, some rm => needs (f.b == 0) (.fsqrt ff rm f.d f.a)
  | 0x05, some rm => .ok (.fmadd ff rm f.d f.a f.b)
  | 0x06, _ => plain (.fmin ff f.d f.a f.b) true
  | 0x07, _ => plain (.fmax ff f.d f.a f.b) true
  | 0x08, _ => plain (.fminNum ff f.d f.a f.b) true
  | 0x09, _ => plain (.fmaxNum ff f.d f.a f.b) true
  | 0x10, _ => plain (.fcmpEq ff f.d f.a f.b) true
  | 0x11, _ => plain (.fcmpLt ff f.d f.a f.b) true
  | 0x12, _ => plain (.fcmpLe ff f.d f.a f.b) true
  | 0x13, _ => plain (.fcmpUn ff f.d f.a f.b) true
  | 0x18, _ => plain (.fcls ff f.d f.a) (f.b == 0)
  | _, _ => badFn

/-- fcvt: source code in sb, destination code in fn[10:6] (spec/03, R50). -/
def decodeFcvt (f : SFields) : Dec :=
  match Fmt.ofCode (f.lo.extractLsb' 6 5), Fmt.ofCode f.b, Rm.ofCode (f.lo.extractLsb' 3 3) with
  | some dst, some src, some rm =>
    if dst.scalarOk && src.scalarOk && f.lo.extractLsb' 0 3 == 0 then .ok (.fcvt dst src rm f.d f.a) else badFn
  | _, _, _ => badFn

/-- Ordered loads: xf[2] = 1 is unsigned, below 64 bits only (spec/03, R51). -/
def decodeOrdLoad (f : SFields) : Dec :=
  let w := Width.ofCode (f.lo.extractLsb' 3 2)
  let u := f.lo.getLsbD 2
  match Scope.ofCode (f.lo.extractLsb' 8 3), Order.ofCode (f.lo.extractLsb' 5 3) with
  | some sc, some ord =>
    let x : OrdLoad := ⟨f.d, f.a, f.b, w, u, sc⟩
    if f.lo.extractLsb' 0 2 == 0 && x.ok then
      match ord with
      | .acq => .ok (.ldAcq x)
      | .sc => .ok (.ldSc x)
      | _ => badFn
    else badFn
  | _, _ => badFn

/-- Ordered stores (spec/03, R51). -/
def decodeOrdStore (f : SFields) : Dec :=
  match Scope.ofCode (f.lo.extractLsb' 8 3), Order.ofCode (f.lo.extractLsb' 5 3) with
  | some sc, some ord =>
    let x : OrdStore := ⟨f.d, f.a, f.b, Width.ofCode (f.lo.extractLsb' 3 2), sc⟩
    if f.lo.extractLsb' 0 3 == 0 then
      match ord with
      | .rel => .ok (.stRel x)
      | .sc => .ok (.stSc x)
      | _ => badFn
    else badFn
  | _, _ => badFn

/-- Atomics: wd 2 or 3 (spec/03, R51). -/
def decodeAmo (f : SFields) : Dec :=
  match Scope.ofCode (f.lo.extractLsb' 8 3), Order.ofCode (f.lo.extractLsb' 5 3) with
  | some sc, some ord =>
    let x : AmoOp := ⟨f.d, f.a, f.b, f.lo.getLsbD 3, ord, sc⟩
    if f.lo.getLsbD 4 then
      match (f.lo.extractLsb' 0 3).toNat with
      | 0 => .ok (.amoAdd x)
      | 1 => .ok (.amoAnd x)
      | 2 => .ok (.amoOr x)
      | 3 => .ok (.amoXor x)
      | 4 => .ok (.amoMin x)
      | 5 => .ok (.amoMax x)
      | 6 => .ok (.amoSwap x)
      | _ => badFn
    else badFn
  | _, _ => badFn

/-- cas: failure order 0 relaxed or 1 acquire (spec/03, R51). -/
def decodeCas (f : SFields) : Dec :=
  match Scope.ofCode (f.lo.extractLsb' 8 3), Order.ofCode (f.lo.extractLsb' 5 3) with
  | some sc, some ord =>
    if f.lo.getLsbD 4 && f.lo.extractLsb' 1 2 == 0 then
      .ok (.cas ⟨f.d, f.a, f.b, f.lo.getLsbD 3, ord, f.lo.getLsbD 0, sc⟩)
    else badFn
  | _, _ => badFn

/-- fnc: scope, then fn[7:2] zero, then the type (spec/03, R51). -/
def decodeFnc (f : SFields) : Dec :=
  let clean := f.d == 0 && f.a == 0 && f.b == 0
  match Scope.ofCode (f.lo.extractLsb' 8 3), (f.lo.extractLsb' 0 8).toNat with
  | some sc, 0 => needs clean (.fncSs sc)
  | some sc, 1 => needs clean (.fncSv sc)
  | some sc, 2 => needs clean (.fncVs sc)
  | some sc, 3 => needs clean (.fncVv sc)
  | _, _ => badFn

/-- The system group, op 0x2D (spec/03, R52). -/
def decodeSys (f : SFields) : Dec :=
  match f.fn.toNat with
  | 0x00 => needs (f.d == 0 && f.a == 0 && f.b == 0) .nop
  | 0x01 => needs (f.d == 0 && f.a == 0 && f.b == 0) .sys
  | 0x02 => needs (f.d == 0 && f.b == 0) (.trp f.a)
  | 0x03 => needs (f.d == 0 && f.a == 0 && f.b == 0) .brk
  | 0x04 => needs (f.d == 0 && f.a == 0 && f.b == 0) .eret
  | 0x05 => needs (f.b == 0) (.wfe f.d f.a)
  | 0x06 => needs (f.d == 0 && f.a == 0 && f.b == 0) .endL
  | 0x07 => needs (f.a == 0 && f.b == 0) (.vrecv f.d)
  | _ => badFn

/-- The tack group, op 0x30 (spec/03, R52). -/
def decodeTack (f : SFields) : Dec :=
  match f.fn.toNat with
  | 0x00 => needs (f.b == 0) (.tkjoin f.d f.a)
  | 0x01 => needs (f.b == 0) (.tkarr f.d f.a)
  | 0x02 => .ok (.tkwait f.d f.a f.b)
  | 0x03 => needs (f.b == 0) (.tkbar f.d f.a)
  | 0x04 => .ok (.tkbc f.d f.a f.b)
  | 0x05 => needs (f.b == 0) (.tkrcv f.d f.a)
  | _ => badFn

/-- The launch group, op 0x31 (spec/03, R52). -/
def decodeLaunch (f : SFields) : Dec :=
  match f.fn.toNat with
  | 0x00 => needs (f.b == 0) (.lnch f.d f.a)
  | 0x01 => .ok (.lwait f.d f.a f.b)
  | 0x02 => needs (f.b == 0) (.lstat f.d f.a)
  | 0x03 => needs (f.b == 0) (.lcanc f.d f.a)
  | _ => badFn

/-- The cluster group, op 0x32 (spec/03, R52). -/
def decodeCluster (f : SFields) : Dec :=
  match f.fn.toNat with
  | 0x00 => .ok (.fwait f.d f.a f.b)
  | 0x01 => .ok (.ffill f.d f.a f.b)
  | 0x02 => needs (f.b == 0) (.ctake f.d f.a)
  | 0x03 => .ok (.patld f.d f.a f.b)
  | 0x04 => needs (f.b == 0) (.gform f.d f.a)
  | 0x05 => needs (f.a == 0 && f.b == 0) (.gsplit f.d)
  | _ => badFn

/-- The task group, op 0x33 (spec/03, R52). -/
def decodeTask (f : SFields) : Dec :=
  match f.fn.toNat with
  | 0x00 => needs (f.b == 0) (.tspawn f.d f.a)
  | 0x01 => needs (f.a == 0 && f.b == 0) (.tabs f.d)
  | 0x02 => needs (f.a == 0 && f.b == 0) (.twd f.d)
  | 0x03 => needs (f.d == 0 && f.a == 0 && f.b == 0) .tdone
  | _ => badFn

/-- The core group, op 0x34 (spec/03, R52). -/
def decodeCore (f : SFields) : Dec :=
  match f.fn.toNat with
  | 0x00 => needs (f.d == 0 && f.b == 0) (.lgrel f.a)
  | 0x01 => needs (f.b == 0) (.trio f.d f.a)
  | _ => badFn

/-- The S-word opcode map (spec/03, R48). -/
def decodeSFields (f : SFields) : Dec :=
  match f.op.toNat with
  | 0x01 => decodeInt f
  | 0x02 => .ok (.addi f.d f.a f.lo)
  | 0x03 => .ok (.andi f.d f.a f.lo)
  | 0x04 => .ok (.ori f.d f.a f.lo)
  | 0x05 => .ok (.xori f.d f.a f.lo)
  | 0x06 => .ok (.slti f.d f.a f.lo)
  | 0x07 => .ok (.sltiu f.d f.a f.lo)
  | 0x08 => decodeShift f
  | 0x09 => needs (f.a == 0) (.lhi f.d f.lo)
  | 0x0A => .ok (.adrp f.d (f.a ++ f.lo))
  | 0x0B => .ok (.lra f.d (f.a ++ f.lo))
  | 0x10 => .ok (.ldB f.d f.a f.lo)
  | 0x11 => .ok (.ldH f.d f.a f.lo)
  | 0x12 => .ok (.ldW f.d f.a f.lo)
  | 0x13 => .ok (.ldD f.d f.a f.lo)
  | 0x14 => .ok (.ldBu f.d f.a f.lo)
  | 0x15 => .ok (.ldHu f.d f.a f.lo)
  | 0x16 => .ok (.ldWu f.d f.a f.lo)
  | 0x18 => .ok (.stB f.d f.a f.lo)
  | 0x19 => .ok (.stH f.d f.a f.lo)
  | 0x1A => .ok (.stW f.d f.a f.lo)
  | 0x1B => .ok (.stD f.d f.a f.lo)
  | 0x1C => decodeOrdLoad f
  | 0x1D => decodeOrdStore f
  | 0x1E => decodeAmo f
  | 0x1F => decodeCas f
  | 0x20 => .ok (.beq f.d f.a f.lo)
  | 0x21 => .ok (.bne f.d f.a f.lo)
  | 0x22 => .ok (.blt f.d f.a f.lo)
  | 0x23 => .ok (.bge f.d f.a f.lo)
  | 0x24 => .ok (.bltu f.d f.a f.lo)
  | 0x25 => .ok (.bgeu f.d f.a f.lo)
  | 0x26 => .ok (.jal f.d (f.a ++ f.lo))
  | 0x27 => .ok (.jalr f.d f.a f.lo)
  | 0x28 => decodeFp f
  | 0x29 => decodeFcvt f
  | 0x2A => decodeFnc f
  | 0x2B => needs (f.a == 0 && f.lo.extractLsb' 12 4 == 0) (.crd f.d (f.lo.extractLsb' 0 12))
  | 0x2C => needs (f.d == 0 && f.lo.extractLsb' 12 4 == 0) (.cwr f.a (f.lo.extractLsb' 0 12))
  | 0x2D => decodeSys f
  | 0x2E => needs (f.d == 0) (.vf (f.a ++ f.lo))
  | 0x30 => decodeTack f
  | 0x31 => decodeLaunch f
  | 0x32 => decodeCluster f
  | 0x33 => decodeTask f
  | 0x34 => decodeCore f
  | _ => badOp

/-- Decodes an S-word. -/
def decodeS (w : BitVec 32) : Dec := decodeSFields (SFields.ofWord w)

/-! ### V-words -/

/-- Which bits of each field an instruction uses; the rest must be zero (spec/03, R58, check 3). -/
structure VUse where
  vd : BitVec 5 := 0
  va : BitVec 5 := 0
  vb : BitVec 5 := 0
  vc : BitVec 5 := 0
  pm : Bool := false
  zm : Bool := false
  dep : Bool := false
  fs : Bool := false
  imm : BitVec 12 := 0

/-- No field holds a bit that the instruction does not use, and zm = 1 needs pm (spec/03, R58). -/
def VFields.clean (f : VFields) (u : VUse) : Bool :=
  (f.vd &&& ~~~u.vd) == 0 && (f.va &&& ~~~u.va) == 0 && (f.vb &&& ~~~u.vb) == 0 && (f.vc &&& ~~~u.vc) == 0
    && (u.pm || f.pm == 0) && (u.zm || f.zm == 0) && !(f.zm == 1 && f.pm == 0) && (u.dep || f.dep == 0)
    && (u.fs || f.fs == 0) && (f.imm &&& ~~~u.imm) == 0

/-- The instruction, when fn is as the instruction assigns it and the unused fields are zero. -/
def VFields.ask (f : VFields) (fnOk : Bool) (u : VUse) (i : Instr) : Dec :=
  if fnOk then needs (f.clean u) i else badFn

/-- The mask of pm and zm. -/
def VFields.mask (f : VFields) : VMask := ⟨f.pm, f.zm == 1⟩

/-- Source A: a bobbin when ab = 1 (spec/03, R55). -/
def VFields.srcA (f : VFields) : SrcA :=
  if f.imm.getLsbD 11 then .bob (f.va.setWidth 4) (f.imm.getLsbD 9) else .vec f.va

/-- The bits of va that source A uses. -/
def VFields.useA (f : VFields) : BitVec 5 := if f.imm.getLsbD 11 then 0x0F else 0x1F

/-- The bits of imm12 that source A uses: ab, and av where ab is set. -/
def VFields.immA (f : VFields) : BitVec 12 := if f.imm.getLsbD 11 then 0xA00 else 0

/-- Source B: a passing register when sb = 1 (spec/06, R107). -/
def VFields.srcB (f : VFields) : SrcB :=
  if f.imm.getLsbD 8 then .sca (f.vb.setWidth 4) else .vec f.vb

/-- The bits of vb that source B uses. -/
def VFields.useB (f : VFields) : BitVec 5 := if f.imm.getLsbD 8 then 0x0F else 0x1F

/-- bs of layout VM (spec/03, R53). -/
def VFields.bs (f : VFields) : SP := f.imm.extractLsb' 8 4

/-- xs of layout VM, and of the VA words that use it (spec/03, R53; spec/06, R121). -/
def VFields.xs (f : VFields) : SP := f.imm.extractLsb' 4 4

/-- A passing register in vb[3:0] (spec/03, R54). -/
def VFields.kb (f : VFields) : SP := f.vb.setWidth 4

/-- w of the memory class (spec/03, R57). -/
def VFields.mw (f : VFields) : Width := Width.ofCode (f.fn.extractLsb' 10 2)

/-- The store width: none when tg = 1 (spec/03, R57). -/
def VFields.tw (f : VFields) : Option Width := if f.fn.getLsbD 9 then none else some f.mw

/-- fn holds no bit outside the mask, and w = 0 when tg = 1 (spec/03, R57). -/
def VFields.fnIn (f : VFields) (m : BitVec 12) : Bool :=
  (f.fn &&& ~~~m) == 0 && !(f.fn.getLsbD 9 && f.fn.extractLsb' 10 2 != 0)

/-- The bounded index form (spec/03, R57). -/
def VFields.bnd (f : VFields) : Option Bound := if f.fn.getLsbD 7 then some ⟨f.vb, f.xs⟩ else none

/-- The bits of vb that the index form uses. -/
def VFields.useBnd (f : VFields) : BitVec 5 := if f.fn.getLsbD 7 then 0x1F else 0

/-- The bits of imm12 that the index form uses. -/
def VFields.immX (f : VFields) : BitVec 12 := if f.fn.getLsbD 7 then 0xFF0 else 0xF00

/-- A two-source element-wise word. -/
def VFields.bin (f : VFields) (i : VBin → Instr) : Dec :=
  f.ask (f.fn == 0) { vd := 31, va := f.useA, vb := f.useB, pm := true, zm := true, fs := true, imm := f.immA ||| 0x100 }
    (i ⟨f.vd, f.srcA, f.srcB, f.mask, f.fs⟩)

/-- A one-source element-wise word. -/
def VFields.un (f : VFields) (i : VUn → Instr) : Dec :=
  f.ask (f.fn == 0) { vd := 31, va := f.useA, pm := true, zm := true, fs := true, imm := f.immA }
    (i ⟨f.vd, f.srcA, f.mask, f.fs⟩)

/-- A three-source element-wise word. -/
def VFields.tri (f : VFields) (i : VTri → Instr) : Dec :=
  f.ask (f.fn == 0)
    { vd := 31, va := f.useA, vb := f.useB, vc := 31, pm := true, zm := true, fs := true, imm := f.immA ||| 0x100 }
    (i ⟨f.vd, f.srcA, f.srcB, f.vc, f.mask, f.fs⟩)

/-- A compare with its condition known. -/
def VFields.cmp (f : VFields) (i : VCmp → Instr) : Dec :=
  f.ask true { vd := 31, va := f.useA, vb := f.useB, pm := true, zm := true, fs := true, imm := f.immA ||| 0x100 }
    (i ⟨f.vd, f.srcA, f.srcB, f.mask, f.fs⟩)

/-- vcmp (spec/03, R57). -/
def decodeVcmp (f : VFields) : Dec :=
  match f.fn.toNat with
  | 0 => f.cmp .vcmpEq
  | 1 => f.cmp .vcmpNe
  | 2 => f.cmp .vcmpLt
  | 3 => f.cmp .vcmpLe
  | 4 => f.cmp .vcmpGt
  | 5 => f.cmp .vcmpGe
  | 6 => f.cmp .vcmpUn
  | _ => badFn

/-- vred (spec/03, R57; spec/07, R128). -/
def decodeVred (f : VFields) : Dec :=
  let x : VRed := ⟨f.vd, f.va, f.dep, f.pm, f.fs⟩
  let c := f.clean { vd := 31, va := 31, pm := true, dep := true, fs := true }
  match f.fn.toNat with
  | 0 => needs c (.vredAdd x)
  | 1 => needs c (.vredMul x)
  | 2 => needs c (.vredMin x)
  | 3 => needs c (.vredMax x)
  | 4 => needs c (.vredAnd x)
  | 5 => needs c (.vredOr x)
  | 6 => needs c (.vredXor x)
  | 7 => needs c (.vredMinNum x)
  | 8 => needs c (.vredMaxNum x)
  | _ => badFn

/-- vscan (spec/03, R57; spec/07, R128). -/
def decodeVscan (f : VFields) : Dec :=
  let x : VScan := ⟨f.vd, f.va, f.dep, f.mask, f.fs⟩
  let c := f.clean { vd := 31, va := 31, pm := true, zm := true, dep := true, fs := true }
  match f.fn.toNat with
  | 0 => needs c (.vscanAdd x)
  | 1 => needs c (.vscanMul x)
  | 2 => needs c (.vscanMin x)
  | 3 => needs c (.vscanMax x)
  | 4 => needs c (.vscanAnd x)
  | 5 => needs c (.vscanOr x)
  | 6 => needs c (.vscanXor x)
  | 7 => needs c (.vscanMinNum x)
  | 8 => needs c (.vscanMaxNum x)
  | _ => badFn

/-- vcarry: fn[3:0] the operation, fn[4] the scan form (spec/07, R128). -/
def decodeVcarry (f : VFields) : Dec :=
  match RedOp.ofCode (f.fn.extractLsb' 0 4) with
  | some op =>
    let x : VCarry := ⟨f.vd, f.va, f.vb, f.vc, f.dep, op, f.imm.extractLsb' 0 5, f.fs⟩
    f.ask (f.fnIn 0x01F) { vd := 31, va := 31, vb := 31, vc := 31, dep := true, fs := true, imm := 0x01F }
      (if f.fn.getLsbD 4 then .vcarryScan x else .vcarry x)
  | none => badFn

/-- vsave: the kind in fn[1:0] (spec/12, R221). -/
def decodeSave (f : VFields) : Dec :=
  match f.fn.toNat with
  | 0 => needs (f.clean { vd := 31, imm := 0xF00 }) (.vsave f.vd f.bs)
  | 1 => needs (f.clean { vd := 31, imm := 0xF00 }) (.vsaveP f.vd f.bs)
  | 2 => needs (f.clean { imm := 0xF00 }) (.vsaveRq f.bs)
  | 3 => needs (f.clean { imm := 0xF00 }) (.vsaveVq f.bs)
  | _ => badFn

/-- vrest: the kind in fn[1:0] (spec/12, R221). -/
def decodeRest (f : VFields) : Dec :=
  match f.fn.toNat with
  | 0 => needs (f.clean { vd := 31, imm := 0xF00 }) (.vrest f.vd f.bs)
  | 1 => needs (f.clean { vd := 31, imm := 0xF00 }) (.vrestP f.vd f.bs)
  | 2 => needs (f.clean { imm := 0xF00 }) (.vrestRq f.bs)
  | 3 => needs (f.clean { imm := 0xF00 }) (.vrestVq f.bs)
  | _ => badFn

/-- zto: the form in fn[1:0] (spec/09, R163). -/
def decodeZto (f : VFields) : Dec :=
  match f.fn.toNat with
  | 0 => needs (f.clean { vd := 31, va := 7, pm := true }) (.ztoD f.vd (f.va.setWidth 3) f.pm)
  | 1 => needs (f.clean { vd := 31, va := 7, imm := 0x0F0 }) (.ztoC f.vd (f.va.setWidth 3) f.xs)
  | 2 => needs (f.clean { vd := 31, va := 7, imm := 0x0F0 }) (.ztoV f.vd (f.va.setWidth 3) f.xs)
  | _ => badFn

/-- xfwd: the form in fn[1:0], w in fn[11:10] for .g (spec/26, R387). -/
noncomputable def decodeXfwd (f : VFields) : Dec :=
  let slot : BitVec 2 := f.imm.extractLsb' 0 2
  match (f.fn.extractLsb' 0 10).toNat with
  | 0 => f.ask (f.fn == 0) { vd := 31, va := 31, vb := 31, dep := true, imm := 3 } (.xfwdT f.vd f.va f.vb f.dep slot)
  | 1 => needs (f.clean { vd := 31, va := 31, pm := true, zm := true, imm := 3 }) (.xfwdG f.vd f.va f.mw slot f.mask)
  | _ => badFn

/-- mtld and mtld.i (spec/13, R229). -/
noncomputable def decodeMtld (f : VFields) : Dec :=
  match f.fn.toNat with
  | 0 => needs (f.clean { vd := 7, pm := true, imm := 0xFF0 }) (.mtld (f.vd.setWidth 3) f.bs f.xs f.pm)
  | 1 => needs (f.clean { vd := 7, imm := 0xF00 }) (.mtldI (f.vd.setWidth 3) f.bs)
  | _ => badFn

/-- A matrix source A (spec/13, R229). -/
def VFields.vOrB (f : VFields) : VOrB := if f.imm.getLsbD 11 then .bob (f.va.setWidth 4) else .vec f.va

/-- mmaz: indices from source C when fn[0] = 1 (spec/13, R229). -/
noncomputable def decodeMmaz (f : VFields) : Dec :=
  let immM : BitVec 12 := if f.imm.getLsbD 11 then 0x800 else 0
  match f.fn.toNat with
  | 0 => needs (f.clean { vd := 31, va := f.useA, vb := 7, pm := true, imm := immM })
      (.mmaz f.vd f.vOrB (f.vb.setWidth 3) none f.pm)
  | 1 =>
    if f.imm.getLsbD 10 then
      needs (f.clean { vd := 31, va := f.useA, vb := 7, vc := 0x0F, pm := true, imm := immM ||| 0x400 })
        (.mmaz f.vd f.vOrB (f.vb.setWidth 3) (some (.bob (f.vc.setWidth 4))) f.pm)
    else
      needs (f.clean { vd := 31, va := f.useA, vb := 7, vc := 31, pm := true, imm := immM })
        (.mmaz f.vd f.vOrB (f.vb.setWidth 3) (some (.vec f.vc)) f.pm)
  | _ => badFn

/-- mtrel and mtrel.s (spec/13, R229). -/
noncomputable def decodeMtrel (f : VFields) : Dec :=
  match f.fn.toNat with
  | 0 => needs (f.clean { vd := 7 }) (.mtrel (f.vd.setWidth 3))
  | 1 => needs (f.clean { vd := 7, vb := 0x0F }) (.mtrelS (f.vd.setWidth 3) f.kb)
  | _ => badFn

/-- bopen and bopen.r (spec/14, R246). -/
noncomputable def decodeBopen (f : VFields) : Dec :=
  match f.fn.toNat with
  | 0 => needs (f.clean { vd := 0x0F, imm := 0xFF0 }) (.bopen (f.vd.setWidth 4) f.xs f.bs)
  | 1 => needs (f.clean { vd := 0x0F, imm := 0xF00 }) (.bopenR (f.vd.setWidth 4) f.bs)
  | _ => badFn

/-- bcopy: the form in fn[1:0], cv in fn[2] (spec/14, R246). -/
noncomputable def decodeBcopy (f : VFields) : Dec :=
  let cv : Option SP := if f.fn.getLsbD 2 then some f.fs else none
  let b : BReg4 := f.vd.setWidth 4
  let fnOk := f.fnIn 7
  match (f.fn.extractLsb' 0 2).toNat with
  | 0 => f.ask fnOk { vd := 0x0F, pm := true, fs := f.fn.getLsbD 2, imm := 0xF00 } (.bcopy b (.contig f.bs) cv f.pm)
  | 1 => f.ask fnOk { vd := 0x0F, pm := true, fs := f.fn.getLsbD 2, imm := 0xFF0 } (.bcopy b (.strided f.bs f.xs) cv f.pm)
  | 2 => f.ask fnOk { vd := 0x0F, va := 31, pm := true, fs := f.fn.getLsbD 2 } (.bcopy b (.tensor f.va) cv f.pm)
  | _ => f.ask fnOk { vd := 0x0F, va := 31, pm := true, fs := f.fn.getLsbD 2, imm := 0xF00 }
      (.bcopy b (.indexed f.bs f.va) cv f.pm)

/-- bclose and bclose.s (spec/14, R246). -/
noncomputable def decodeBclose (f : VFields) : Dec :=
  match f.fn.toNat with
  | 0 => needs (f.clean { vd := 0x0F }) (.bclose (f.vd.setWidth 4))
  | 1 => needs (f.clean { vd := 0x0F, imm := 0xF00 }) (.bcloseS (f.vd.setWidth 4) f.bs)
  | _ => badFn

/-- bpost: the scope in fn[2:0] (spec/14, R246). -/
noncomputable def decodeBpost (f : VFields) : Dec :=
  match Scope.ofCode (f.fn.extractLsb' 0 3) with
  | some sc => f.ask (f.fnIn 7) { vd := 0x0F, imm := 0xF00 } (.bpost (f.vd.setWidth 4) f.bs sc)
  | none => badFn

/-- xroute: the mode in imm12[4:3] (spec/18, R278). -/
noncomputable def decodeXroute (f : VFields) : Dec :=
  let n : BitVec 3 := f.imm.extractLsb' 0 3
  match (f.imm.extractLsb' 3 2).toNat with
  | 0 => f.ask (f.fn == 0) { imm := 0x007 } (.xrouteOff n)
  | 1 => f.ask (f.fn == 0) { imm := 0x00F } (.xrouteUse n)
  | 2 => f.ask (f.fn == 0) { imm := 0x017 } (.xrouteSave n)
  | _ => badFn

/-- The V-word opcode map (spec/03, R56). -/
noncomputable def decodeVFields (f : VFields) : Dec :=
  match f.op.toNat with
  | 0x01 => f.bin .vadd
  | 0x02 => f.bin .vsub
  | 0x03 => f.bin .vmul
  | 0x04 => f.bin .vmulh
  | 0x05 => f.bin .vdiv
  | 0x06 => f.bin .vrem
  | 0x07 => f.bin .vmin
  | 0x08 => f.bin .vmax
  | 0x09 => f.bin .vand
  | 0x0A => f.bin .vor
  | 0x0B => f.bin .vxor
  | 0x0C => f.bin .vsll
  | 0x0D => f.bin .vsrl
  | 0x0E => f.bin .vsra
  | 0x0F => f.tri .vmacc
  | 0x10 => f.un .vclz
  | 0x11 => f.un .vpop
  | 0x12 => f.un .vabs
  | 0x18 => f.bin .vfadd
  | 0x19 => f.bin .vfsub
  | 0x1A => f.bin .vfmul
  | 0x1B => f.bin .vfdiv
  | 0x1C => f.tri .vfma
  | 0x1D => f.un .vfsqrt
  | 0x1E => f.bin .vfmin
  | 0x1F => f.bin .vfmax
  | 0x20 => f.bin .vfminNum
  | 0x21 => f.bin .vfmaxNum
  | 0x22 => f.un .vfabs
  | 0x23 => f.un .vfneg
  | 0x28 => f.un .vfexp2
  | 0x29 => f.un .vflog2
  | 0x2A => f.un .vfrec
  | 0x2B => f.un .vfrsq
  | 0x2C => f.un .vftanh
  | 0x30 => decodeVcmp f
  | 0x31 => f.un .vcvt
  | 0x32 => f.ask (f.fn == 0) { vd := 31, va := f.useA, vc := 31, pm := true, zm := true, dep := true, fs := true, imm := f.immA }
      (.vcvtRow ⟨f.vd, f.vc, f.srcA, f.dep, f.mask, f.fs⟩)
  | 0x33 => f.bin .vcrt
  | 0x3F => f.ask (f.fn == 0 && (f.imm.extractLsb' 0 4).toNat ≤ 8) { vb := 0x0F, fs := true, imm := 0x00F } (.vsetl f.kb f.fs (f.imm.extractLsb' 0 4))
  | 0x40 => f.ask (f.fn == 0) { vd := 31, va := 31, vb := 31, fs := true, imm := 3 } (.vseg ⟨f.vd, f.va, f.vb, f.fs, f.imm.getLsbD 0, f.imm.getLsbD 1⟩)
  | 0x41 => f.ask (f.fn == 0) { vd := 31, va := 31, vb := 31, fs := true, imm := 3 } (.vsegc ⟨f.vd, f.va, f.vb, f.fs, f.imm.getLsbD 0, f.imm.getLsbD 1⟩)
  | 0x42 => f.ask (f.fn == 0) { vd := 31, va := 31, vb := 31, fs := true, imm := 3 } (.vnest ⟨f.vd, f.va, f.vb, f.fs, f.imm.getLsbD 0, f.imm.getLsbD 1⟩)
  | 0x43 => f.ask (f.fn == 0) { vd := 31, va := 31, dep := true } (.vflat f.vd f.va f.dep)
  | 0x44 => decodeVred f
  | 0x45 => decodeVscan f
  | 0x46 => f.ask (f.fn == 0) { vd := 31, va := 31, vb := 31, pm := true, zm := true, dep := true, fs := true }
      (.vdist ⟨f.vd, f.va, f.vb, f.dep, f.mask, f.fs⟩)
  | 0x47 => f.ask (f.fn == 0) { vd := 31, va := 31, pm := true, dep := true, fs := true } (.vpack ⟨f.vd, f.va, f.dep, f.pm, f.fs⟩)
  | 0x48 => f.ask (f.fn == 0) { vd := 31, va := 31, vb := 31, pm := true, dep := true, fs := true, imm := 0x0FF }
      (.vpart ⟨f.vd, f.va, f.vb, f.dep, f.imm.extractLsb' 0 8, f.pm, f.fs⟩)
  | 0x49 => f.ask (f.fn == 0) { vd := 31, va := 31, vb := 31, dep := true, fs := true } (.vcat ⟨f.vd, f.va, f.vb, f.dep, f.fs⟩)
  | 0x4A => f.ask (f.fnIn 1) { vd := 31, va := 31, dep := true, fs := true } (.vsort ⟨f.vd, f.va, f.dep, f.fn.getLsbD 0, f.fs⟩)
  | 0x4B => f.ask (f.fnIn 1) { vd := 31, va := 31, pm := true, zm := true, dep := true }
      (if f.fn.getLsbD 0 then .vsidxOff ⟨f.vd, f.va, f.dep, f.mask⟩ else .vsidxSeg ⟨f.vd, f.va, f.dep, f.mask⟩)
  | 0x4C => decodeVcarry f
  | 0x60 => f.ask (f.fnIn 0xC00) { vd := 31, pm := true, zm := true, imm := 0xF00 } (.vld ⟨f.vd, f.mw, f.mask, f.bs⟩)
  | 0x61 => f.ask (f.fnIn 0xF00) { vd := 31, pm := true, zm := true, imm := 0xF00 } (.vst ⟨f.vd, f.tw, f.fn.getLsbD 8, f.mask, f.bs⟩)
  | 0x62 => f.ask (f.fnIn 0xC00) { vd := 31, pm := true, zm := true, imm := 0xFF0 } (.vlds ⟨f.vd, f.mw, f.mask, f.bs, f.xs⟩)
  | 0x63 => f.ask (f.fnIn 0xF00) { vd := 31, pm := true, zm := true, imm := 0xFF0 } (.vsts ⟨f.vd, f.tw, f.fn.getLsbD 8, f.mask, f.bs, f.xs⟩)
  | 0x64 => f.ask (f.fnIn 0xC80) { vd := 31, va := 31, vb := f.useBnd, pm := true, zm := true, imm := f.immX } (.vldx ⟨f.vd, f.va, f.mw, f.bnd, f.mask, f.bs⟩)
  | 0x65 => f.ask (f.fnIn 0xF80) { vd := 31, va := 31, vb := f.useBnd, pm := true, zm := true, imm := f.immX }
      (.vstx ⟨f.vd, f.va, f.tw, f.fn.getLsbD 8, f.bnd, f.mask, f.bs⟩)
  | 0x66 => f.ask (f.fnIn 0xF80) { vd := 31, va := 31, vb := f.useBnd, pm := true, zm := true, fs := true, imm := f.immX }
      (.vsca ⟨f.vd, f.va, f.tw, f.fn.getLsbD 8, f.bnd, f.mask, f.fs, f.bs⟩)
  | 0x67 => f.ask (f.fnIn 0x070 && segOk f.vd (f.fn.extractLsb' 4 3)) { vd := 31, pm := true, zm := true, fs := true, imm := 0xF00 }
      (.vldseg ⟨f.vd, f.fn.extractLsb' 4 3, f.mask, f.fs, f.bs⟩)
  | 0x68 => f.ask (f.fnIn 0x170 && segOk f.vd (f.fn.extractLsb' 4 3)) { vd := 31, pm := true, zm := true, fs := true, imm := 0xF00 }
      (.vstseg ⟨f.vd, f.fn.extractLsb' 4 3, f.fn.getLsbD 8, f.mask, f.fs, f.bs⟩)
  | 0x69 => f.ask (f.fn == 0) { vd := 31, va := 31, pm := true, zm := true, dep := true } (.vtld f.vd f.va f.dep f.mask)
  | 0x6A => f.ask (f.fnIn 0x100) { vd := 31, va := 31, pm := true, zm := true } (.vtst f.vd f.va (f.fn.getLsbD 8) f.mask)
  | 0x6B => f.ask (f.fnIn 0xC00) { vd := 31, pm := true, zm := true, imm := 0xF00 } (.vldff ⟨f.vd, f.mw, f.mask, f.bs⟩)
  | 0x6C => f.ask (f.fnIn 1) { vd := 31, vb := if f.fn.getLsbD 0 then 31 else 0, imm := 0xF00 }
      (.vldn f.vd (if f.fn.getLsbD 0 then some f.vb else none) f.bs)
  | 0x6D => f.ask (f.fnIn 0x100) { vd := 31, imm := 0xF00 } (.vstn f.vd (f.fn.getLsbD 8) f.bs)
  | 0x6E => f.ask (f.fn == 0) { vd := 31, va := 31 } (.vldf f.vd f.va)
  | 0x70 => decodeSave f
  | 0x71 => decodeRest f
  | 0x80 => f.ask (f.fn == 0) { vd := 7, imm := 0xF00 } (.zld (f.vd.setWidth 3) f.bs)
  | 0x81 => f.ask (f.fn == 0) { vd := 7, imm := 0xF00 } (.zst (f.vd.setWidth 3) f.bs)
  | 0x82 => f.ask (f.fn == 0) { vd := 7, va := 7, vb := 7, fs := true }
      (.zadd (f.vd.setWidth 3) (f.va.setWidth 3) (f.vb.setWidth 3) f.fs)
  | 0x83 => f.ask (f.fn == 0) { vd := 7, va := 7, vb := 7, fs := true }
      (.zmul (f.vd.setWidth 3) (f.va.setWidth 3) (f.vb.setWidth 3) f.fs)
  | 0x84 => f.ask (f.fn == 0) { vd := 31, va := 7, vb := 7 } (.zint f.vd (f.va.setWidth 3) (f.vb.setWidth 3))
  | 0x85 => f.ask (f.fnIn 3) { vd := 7, va := 31, vb := if f.fn.getLsbD 0 then 0 else 31, pm := true, fs := true }
      (.zfrom ⟨f.vd.setWidth 3, f.va, if f.fn.getLsbD 0 then none else some f.vb, f.fn.getLsbD 1, f.pm, f.fs⟩)
  | 0x86 => decodeZto f
  | 0x87 => f.ask (f.fn == 0) { vd := 31, va := 7 } (.zlen f.vd (f.va.setWidth 3))
  | 0x90 => f.ask (f.fn == 0) { vd := 3, vb := 0x0F } (.frcfg (f.vd.setWidth 2) f.kb)
  | 0x91 => f.ask (f.fn == 0) { vd := 3 } (.frclr (f.vd.setWidth 2))
  | 0x92 => f.ask (f.fn == 0) { vd := 3, va := 31, vb := 31, pm := true } (.frins (f.vd.setWidth 2) f.va f.vb f.pm)
  | 0x93 => f.ask (f.fn == 0) { vd := 3, va := 3 } (.frmrg (f.vd.setWidth 2) (f.va.setWidth 2))
  | 0x94 => f.ask (f.fn == 0) { vd := 31, va := 3, imm := 0x0F0 } (.frrd f.vd (f.va.setWidth 2) f.xs)
  | 0x95 => f.ask (f.fn == 0) { vd := 31, va := 3 } (.frcnt f.vd (f.va.setWidth 2))
  | 0x96 => f.ask (f.fnIn 1) { vd := 3, imm := 0xF00 }
      (if f.fn.getLsbD 0 then .frld (f.vd.setWidth 2) f.bs else .frst (f.vd.setWidth 2) f.bs)
  | 0x97 => f.ask (f.fn == 0) { vd := 31, va := 31, vb := 3, pm := true, zm := true } (.frtest f.vd (f.vb.setWidth 2) f.va f.mask)
  | 0x98 => f.ask (f.fn == 0) { vd := 31, va := 31, vb := 31, dep := true, fs := true } (.vmaxclr f.vd f.va f.vb f.dep f.fs)
  | 0x99 => f.ask (f.fn == 0) { vd := 31, va := 31, vb := 31, pm := true, dep := true, fs := true } (.vselk f.vd f.va f.vb f.dep f.pm f.fs)
  | 0x9A => f.ask (f.fn == 0) { vd := 31, va := 31, pm := true, dep := true, fs := true, imm := 0x0FF }
      (.vhist ⟨f.vd, f.va, f.imm.extractLsb' 0 8, f.dep, f.pm, f.fs⟩)
  | 0x9B => f.ask (f.fn == 0) { vd := 31, va := 31, pm := true, zm := true, dep := true, fs := true } (.vrank ⟨f.vd, f.va, f.dep, f.mask, f.fs⟩)
  | 0x9C => decodeXfwd f
  | 0x9D => f.ask (f.fn == 0) { vd := 31, va := 31, pm := true, zm := true, imm := 3 } (.xloc f.vd f.va (f.imm.extractLsb' 0 2) f.mask)
  | 0xA0 => f.ask (f.fn == 0) { vb := 0x0F, imm := 0x1FF } (.mshp f.kb (f.imm.getLsbD 8) (f.imm.extractLsb' 0 8))
  | 0xA1 => decodeMtld f
  | 0xA2 => f.ask (f.fn == 0) { vd := 7, vb := 31, pm := true, imm := 0xFF0 } (.mtldz (f.vd.setWidth 3) f.vb f.bs f.xs f.pm)
  | 0xA3 => f.ask (f.fn == 0) { vd := 31, va := f.useA, vb := 7, pm := true, imm := if f.imm.getLsbD 11 then 0x800 else 0 }
      (.mma f.vd f.vOrB (f.vb.setWidth 3) f.pm)
  | 0xA4 => decodeMmaz f
  | 0xA5 => decodeMtrel f
  | 0xB0 => decodeBopen f
  | 0xB1 => decodeBcopy f
  | 0xB2 => decodeBclose f
  | 0xB3 => f.ask (f.fn == 0) { vd := 0x0F } (.bwait (f.vd.setWidth 4))
  | 0xB4 => f.ask (f.fn == 0) { vd := 0x0F, vb := 31 } (.bstat f.vb (f.vd.setWidth 4))
  | 0xB5 => decodeBpost f
  | 0xC0 => f.ask (f.fn == 0) { vd := 31, va := 31, vb := 31, pm := true, zm := true } (.pand f.vd f.va f.vb f.mask)
  | 0xC1 => f.ask (f.fn == 0) { vd := 31, va := 31, vb := 31, pm := true, zm := true } (.por f.vd f.va f.vb f.mask)
  | 0xC2 => f.ask (f.fn == 0) { vd := 31, va := 31, vb := 31, pm := true, zm := true } (.pxor f.vd f.va f.vb f.mask)
  | 0xC3 => f.ask (f.fn == 0) { vd := 31, va := 31, pm := true, zm := true } (.pnot f.vd f.va f.mask)
  | 0xC4 => f.ask (f.fn == 0) { vd := 31, va := 31, pm := true } (.pfirst f.vd f.va f.pm)
  | 0xC5 => f.ask (f.fn == 0) { vd := 31, va := 31, pm := true } (.pcount f.vd f.va f.pm)
  | 0xD0 => f.ask (f.fn == 0) { vd := 31, va := 31, vb := 31, pm := true, zm := true, fs := true } (.vperm f.vd f.va f.vb f.mask f.fs)
  | 0xD1 => f.ask (f.fn == 0) { vd := 31, va := 31, vb := 0x0F, pm := true, zm := true, fs := true } (.vslide f.vd f.va f.kb f.mask f.fs)
  | 0xD2 => f.ask (f.fn == 0) { vd := 31, va := 31, dep := true, fs := true } (.vrev f.vd f.va f.dep f.fs)
  | 0xD3 => f.ask (f.fn == 0) { vd := 31, vb := 0x0F, pm := true, zm := true, fs := true } (.vbcast f.vd f.kb f.mask f.fs)
  | 0xD4 => f.ask (f.fn == 0) { vd := 31, vb := 0x0F, fs := true, imm := 0x0F0 } (.vins f.vd f.kb f.xs f.fs)
  | 0xD5 => f.ask (f.fn == 0) { vd := 31, va := 31, fs := true, imm := 0x0F0 } (.vext f.vd f.va f.xs f.fs)
  | 0xD6 => f.ask (f.fn == 0) { vd := 31, va := 31, pm := true, fs := true } (.vcompress f.vd f.va f.pm f.fs)
  | 0xD7 => f.ask (f.fn == 0) { vd := 31, va := 31, pm := true, zm := true, fs := true } (.vexpand f.vd f.va f.mask f.fs)
  | 0xD8 => f.ask (f.fn == 0) { vd := 31, va := 31 } (.vmv f.vd f.va)
  | 0xD9 => f.ask (f.fn == 0) { va := 31 } (.vsnd f.va)
  | 0xDA => f.ask (f.fn == 0) { vd := 3, va := 31 } (.qput (f.vd.setWidth 2) f.va)
  | 0xDB => f.ask (f.fn == 0) { vd := 31, va := 3, imm := 1 } (.qget f.vd (f.va.setWidth 2) (f.imm.getLsbD 0))
  | 0xDC => f.ask (f.fn == 0) { vd := 3 } (.qeos (f.vd.setWidth 2))
  | 0xE0 => decodeXroute f
  | 0xE1 => f.ask (f.fn == 0) { va := 31, pm := true, fs := true, imm := 1 } (.tsum (f.imm.getLsbD 0) f.va f.pm f.fs)
  | 0xFF => f.ask (f.fn == 0) {} .vstop
  | _ => badOp

/-- Decodes a V-word. -/
noncomputable def decodeV (w : BitVec 64) : Dec := decodeVFields (VFields.ofWord w)

/-- The instruction the decoder reads from an instruction whose bits are w: an S-word up to 32 bits, else a V-word. -/
noncomputable def decodeTableWord (nbits w : Nat) : Option Instr :=
  match (if nbits ≤ 32 then decodeS (BitVec.ofNat 32 w) else decodeV (BitVec.ofNat 64 w)) with
  | .ok i => some i
  | .error _ => none

/-! ### The encoder -/

/-- What an instruction is stored as: an S-word, a V-word, or nothing (an event). -/
inductive Enc where
  | s (f : SFields)
  | v (f : VFields)
  | event
deriving DecidableEq, Repr

/-- Fields of layout SR. -/
def srWord (op : BitVec 6) (sd sa sb : BitVec 5) (fn : BitVec 11) : SFields := ⟨op, sd, sa, sb ++ fn⟩

/-- Fields of the scalar floating-point group. -/
def fpWord (ff : FpFmt) (rm : BitVec 3) (sd sa sb : BitVec 5) (o : BitVec 6) : SFields :=
  ⟨0x28, sd, sa, sb ++ ff.code ++ rm ++ o⟩

/-- The va field of source A. -/
def SrcA.reg : SrcA → BitVec 5
  | .vec v => v
  | .bob b _ => (0 : BitVec 1) ++ b

/-- The imm12 bits of source A. -/
def SrcA.imm : SrcA → BitVec 12
  | .vec _ => 0
  | .bob _ av => (2 : BitVec 2) ++ bit1 av ++ (0 : BitVec 9)

/-- The vb field of source B. -/
def SrcB.reg : SrcB → BitVec 5
  | .vec v => v
  | .sca k => (0 : BitVec 1) ++ k

/-- The imm12 bits of source B. -/
def SrcB.imm : SrcB → BitVec 12
  | .vec _ => 0
  | .sca _ => 0x100

/-- The register field of a matrix source. -/
def VOrB.reg : VOrB → BitVec 5
  | .vec v => v
  | .bob b => (0 : BitVec 1) ++ b

/-- The ab or cb bit of a matrix source. -/
def VOrB.bit : VOrB → BitVec 1
  | .vec _ => 0
  | .bob _ => 1

/-- The vc field of mmaz. -/
def ixReg : Option VOrB → BitVec 5
  | none => 0
  | some x => x.reg

/-- The cb bit of mmaz. -/
def ixBit : Option VOrB → BitVec 1
  | none => 0
  | some x => x.bit

/-- fn[11:9] of a store: w and tg. -/
def twCode : Option Width → BitVec 3
  | none => 1
  | some w => w.code ++ (0 : BitVec 1)

/-- The vb field of an index form. -/
def bndPb : Option Bound → BitVec 5
  | none => 0
  | some b => b.pb

/-- The xs field of an index form. -/
def bndXs : Option Bound → SP
  | none => 0
  | some b => b.xs

/-- The va field of bcopy. -/
def CopyForm.va : CopyForm → BitVec 5
  | .contig _ => 0
  | .strided _ _ => 0
  | .tensor v => v
  | .indexed _ v => v

/-- fn[1:0] of bcopy. -/
def CopyForm.code : CopyForm → BitVec 2
  | .contig _ => 0
  | .strided _ _ => 1
  | .tensor _ => 2
  | .indexed _ _ => 3

/-- imm12 of bcopy. -/
def CopyForm.imm : CopyForm → BitVec 12
  | .contig bs => bs ++ (0 : BitVec 8)
  | .strided bs xs => bs ++ xs ++ (0 : BitVec 4)
  | .tensor _ => 0
  | .indexed bs _ => bs ++ (0 : BitVec 8)

/-- Fields of a two-source element-wise word. -/
def binWord (op : BitVec 8) (x : VBin) : VFields :=
  { op := op, vd := x.vd, va := x.a.reg, vb := x.b.reg, vc := 0, pm := x.m.pm, zm := bit1 x.m.zm, dep := 0, fs := x.fs,
    fn := 0, imm := x.a.imm ||| x.b.imm }

/-- Fields of a one-source element-wise word. -/
def unWord (op : BitVec 8) (x : VUn) : VFields :=
  { op := op, vd := x.vd, va := x.a.reg, vb := 0, vc := 0, pm := x.m.pm, zm := bit1 x.m.zm, dep := 0, fs := x.fs,
    fn := 0, imm := x.a.imm }

/-- Fields of a three-source element-wise word. -/
def triWord (op : BitVec 8) (x : VTri) : VFields :=
  { op := op, vd := x.vd, va := x.a.reg, vb := x.b.reg, vc := x.c, pm := x.m.pm, zm := bit1 x.m.zm, dep := 0, fs := x.fs,
    fn := 0, imm := x.a.imm ||| x.b.imm }

/-- Fields of a compare with condition c. -/
def cmpWord (c : BitVec 12) (x : VCmp) : VFields :=
  { op := 0x30, vd := x.pd, va := x.a.reg, vb := x.b.reg, vc := 0, pm := x.m.pm, zm := bit1 x.m.zm, dep := 0, fs := x.fs,
    fn := c, imm := x.a.imm ||| x.b.imm }

/-- The fields of an instruction, from the encoding tables of spec/03 and of the chapters they name. -/
def encode (i : Instr) : Enc :=
  match i with
  | .add sd sa sb => .s (srWord 0x01 sd sa sb 0x000)
  | .sub sd sa sb => .s (srWord 0x01 sd sa sb 0x001)
  | .and sd sa sb => .s (srWord 0x01 sd sa sb 0x002)
  | .or sd sa sb => .s (srWord 0x01 sd sa sb 0x003)
  | .xor sd sa sb => .s (srWord 0x01 sd sa sb 0x004)
  | .sll sd sa sb => .s (srWord 0x01 sd sa sb 0x005)
  | .srl sd sa sb => .s (srWord 0x01 sd sa sb 0x006)
  | .sra sd sa sb => .s (srWord 0x01 sd sa sb 0x007)
  | .slt sd sa sb => .s (srWord 0x01 sd sa sb 0x008)
  | .sltu sd sa sb => .s (srWord 0x01 sd sa sb 0x009)
  | .mul sd sa sb => .s (srWord 0x01 sd sa sb 0x010)
  | .mulh sd sa sb => .s (srWord 0x01 sd sa sb 0x011)
  | .mulhu sd sa sb => .s (srWord 0x01 sd sa sb 0x012)
  | .div sd sa sb => .s (srWord 0x01 sd sa sb 0x013)
  | .divu sd sa sb => .s (srWord 0x01 sd sa sb 0x014)
  | .rem sd sa sb => .s (srWord 0x01 sd sa sb 0x015)
  | .remu sd sa sb => .s (srWord 0x01 sd sa sb 0x016)
  | .min sd sa sb => .s (srWord 0x01 sd sa sb 0x018)
  | .max sd sa sb => .s (srWord 0x01 sd sa sb 0x019)
  | .minu sd sa sb => .s (srWord 0x01 sd sa sb 0x01A)
  | .maxu sd sa sb => .s (srWord 0x01 sd sa sb 0x01B)
  | .clz sd sa => .s (srWord 0x01 sd sa 0 0x020)
  | .ctz sd sa => .s (srWord 0x01 sd sa 0 0x021)
  | .pop sd sa => .s (srWord 0x01 sd sa 0 0x022)
  | .addi sd sa imm => .s ⟨0x02, sd, sa, imm⟩
  | .andi sd sa imm => .s ⟨0x03, sd, sa, imm⟩
  | .ori sd sa imm => .s ⟨0x04, sd, sa, imm⟩
  | .xori sd sa imm => .s ⟨0x05, sd, sa, imm⟩
  | .slti sd sa imm => .s ⟨0x06, sd, sa, imm⟩
  | .sltiu sd sa imm => .s ⟨0x07, sd, sa, imm⟩
  | .slli sd sa amt => .s ⟨0x08, sd, sa, (0 : BitVec 8) ++ (0 : BitVec 2) ++ amt⟩
  | .srli sd sa amt => .s ⟨0x08, sd, sa, (0 : BitVec 8) ++ (1 : BitVec 2) ++ amt⟩
  | .srai sd sa amt => .s ⟨0x08, sd, sa, (0 : BitVec 8) ++ (2 : BitVec 2) ++ amt⟩
  | .lhi sd imm => .s ⟨0x09, sd, 0, imm⟩
  | .adrp sd off => .s ⟨0x0A, sd, off.extractLsb' 16 5, off.extractLsb' 0 16⟩
  | .lra sd off => .s ⟨0x0B, sd, off.extractLsb' 16 5, off.extractLsb' 0 16⟩
  | .ldB sd sa imm => .s ⟨0x10, sd, sa, imm⟩
  | .ldH sd sa imm => .s ⟨0x11, sd, sa, imm⟩
  | .ldW sd sa imm => .s ⟨0x12, sd, sa, imm⟩
  | .ldD sd sa imm => .s ⟨0x13, sd, sa, imm⟩
  | .ldBu sd sa imm => .s ⟨0x14, sd, sa, imm⟩
  | .ldHu sd sa imm => .s ⟨0x15, sd, sa, imm⟩
  | .ldWu sd sa imm => .s ⟨0x16, sd, sa, imm⟩
  | .stB sd sa imm => .s ⟨0x18, sd, sa, imm⟩
  | .stH sd sa imm => .s ⟨0x19, sd, sa, imm⟩
  | .stW sd sa imm => .s ⟨0x1A, sd, sa, imm⟩
  | .stD sd sa imm => .s ⟨0x1B, sd, sa, imm⟩
  | .ldAcq x => .s ⟨0x1C, x.sd, x.sa, x.off ++ x.scope.code ++ (1 : BitVec 3) ++ x.w.code ++ bit1 x.u ++ (0 : BitVec 2)⟩
  | .ldSc x => .s ⟨0x1C, x.sd, x.sa, x.off ++ x.scope.code ++ (4 : BitVec 3) ++ x.w.code ++ bit1 x.u ++ (0 : BitVec 2)⟩
  | .stRel x => .s ⟨0x1D, x.sd, x.sa, x.off ++ x.scope.code ++ (2 : BitVec 3) ++ x.w.code ++ (0 : BitVec 3)⟩
  | .stSc x => .s ⟨0x1D, x.sd, x.sa, x.off ++ x.scope.code ++ (4 : BitVec 3) ++ x.w.code ++ (0 : BitVec 3)⟩
  | .amoAdd x => .s ⟨0x1E, x.sd, x.sa, x.sb ++ x.scope.code ++ x.ord.code ++ (1 : BitVec 1) ++ bit1 x.dbl ++ (0 : BitVec 3)⟩
  | .amoAnd x => .s ⟨0x1E, x.sd, x.sa, x.sb ++ x.scope.code ++ x.ord.code ++ (1 : BitVec 1) ++ bit1 x.dbl ++ (1 : BitVec 3)⟩
  | .amoOr x => .s ⟨0x1E, x.sd, x.sa, x.sb ++ x.scope.code ++ x.ord.code ++ (1 : BitVec 1) ++ bit1 x.dbl ++ (2 : BitVec 3)⟩
  | .amoXor x => .s ⟨0x1E, x.sd, x.sa, x.sb ++ x.scope.code ++ x.ord.code ++ (1 : BitVec 1) ++ bit1 x.dbl ++ (3 : BitVec 3)⟩
  | .amoMin x => .s ⟨0x1E, x.sd, x.sa, x.sb ++ x.scope.code ++ x.ord.code ++ (1 : BitVec 1) ++ bit1 x.dbl ++ (4 : BitVec 3)⟩
  | .amoMax x => .s ⟨0x1E, x.sd, x.sa, x.sb ++ x.scope.code ++ x.ord.code ++ (1 : BitVec 1) ++ bit1 x.dbl ++ (5 : BitVec 3)⟩
  | .amoSwap x => .s ⟨0x1E, x.sd, x.sa, x.sb ++ x.scope.code ++ x.ord.code ++ (1 : BitVec 1) ++ bit1 x.dbl ++ (6 : BitVec 3)⟩
  | .cas x => .s ⟨0x1F, x.sd, x.sa, x.sb ++ x.scope.code ++ x.ord.code ++ (1 : BitVec 1) ++ bit1 x.dbl ++ (0 : BitVec 2) ++ bit1 x.facq⟩
  | .beq sa sb off => .s ⟨0x20, sa, sb, off⟩
  | .bne sa sb off => .s ⟨0x21, sa, sb, off⟩
  | .blt sa sb off => .s ⟨0x22, sa, sb, off⟩
  | .bge sa sb off => .s ⟨0x23, sa, sb, off⟩
  | .bltu sa sb off => .s ⟨0x24, sa, sb, off⟩
  | .bgeu sa sb off => .s ⟨0x25, sa, sb, off⟩
  | .jal sd off => .s ⟨0x26, sd, off.extractLsb' 16 5, off.extractLsb' 0 16⟩
  | .jalr sd sa imm => .s ⟨0x27, sd, sa, imm⟩
  | .fadd ff rm sd sa sb => .s (fpWord ff (rm.code) sd sa sb 0x00)
  | .fsub ff rm sd sa sb => .s (fpWord ff (rm.code) sd sa sb 0x01)
  | .fmul ff rm sd sa sb => .s (fpWord ff (rm.code) sd sa sb 0x02)
  | .fdiv ff rm sd sa sb => .s (fpWord ff (rm.code) sd sa sb 0x03)
  | .fsqrt ff rm sd sa => .s (fpWord ff (rm.code) sd sa 0 0x04)
  | .fmadd ff rm sd sa sb => .s (fpWord ff (rm.code) sd sa sb 0x05)
  | .fmin ff sd sa sb => .s (fpWord ff 0 sd sa sb 0x06)
  | .fmax ff sd sa sb => .s (fpWord ff 0 sd sa sb 0x07)
  | .fminNum ff sd sa sb => .s (fpWord ff 0 sd sa sb 0x08)
  | .fmaxNum ff sd sa sb => .s (fpWord ff 0 sd sa sb 0x09)
  | .fcmpEq ff sd sa sb => .s (fpWord ff 0 sd sa sb 0x10)
  | .fcmpLt ff sd sa sb => .s (fpWord ff 0 sd sa sb 0x11)
  | .fcmpLe ff sd sa sb => .s (fpWord ff 0 sd sa sb 0x12)
  | .fcmpUn ff sd sa sb => .s (fpWord ff 0 sd sa sb 0x13)
  | .fcls ff sd sa => .s (fpWord ff 0 sd sa 0 0x18)
  | .fcvt dst src rm sd sa => .s ⟨0x29, sd, sa, src.code ++ dst.code ++ rm.code ++ (0 : BitVec 3)⟩
  | .fncSs scope => .s ⟨0x2A, 0, 0, (0 : BitVec 5) ++ scope.code ++ (0 : BitVec 8)⟩
  | .fncSv scope => .s ⟨0x2A, 0, 0, (0 : BitVec 5) ++ scope.code ++ (1 : BitVec 8)⟩
  | .fncVs scope => .s ⟨0x2A, 0, 0, (0 : BitVec 5) ++ scope.code ++ (2 : BitVec 8)⟩
  | .fncVv scope => .s ⟨0x2A, 0, 0, (0 : BitVec 5) ++ scope.code ++ (3 : BitVec 8)⟩
  | .crd sd idx => .s ⟨0x2B, sd, 0, (0 : BitVec 4) ++ idx⟩
  | .cwr sa idx => .s ⟨0x2C, 0, sa, (0 : BitVec 4) ++ idx⟩
  | .nop => .s (srWord 0x2D 0 0 0 0x000)
  | .sys => .s (srWord 0x2D 0 0 0 0x001)
  | .trp sa => .s (srWord 0x2D 0 sa 0 0x002)
  | .brk => .s (srWord 0x2D 0 0 0 0x003)
  | .eret => .s (srWord 0x2D 0 0 0 0x004)
  | .wfe sd sa => .s (srWord 0x2D sd sa 0 0x005)
  | .endL => .s (srWord 0x2D 0 0 0 0x006)
  | .vrecv sd => .s (srWord 0x2D sd 0 0 0x007)
  | .vf off => .s ⟨0x2E, 0, off.extractLsb' 16 5, off.extractLsb' 0 16⟩
  | .tkjoin sd sa => .s (srWord 0x30 sd sa 0 0x000)
  | .tkarr sd sa => .s (srWord 0x30 sd sa 0 0x001)
  | .tkwait sd sa sb => .s (srWord 0x30 sd sa sb 0x002)
  | .tkbar sd sa => .s (srWord 0x30 sd sa 0 0x003)
  | .tkbc sd sa sb => .s (srWord 0x30 sd sa sb 0x004)
  | .tkrcv sd sa => .s (srWord 0x30 sd sa 0 0x005)
  | .lnch sd sa => .s (srWord 0x31 sd sa 0 0x000)
  | .lwait sd sa sb => .s (srWord 0x31 sd sa sb 0x001)
  | .lstat sd sa => .s (srWord 0x31 sd sa 0 0x002)
  | .lcanc sd sa => .s (srWord 0x31 sd sa 0 0x003)
  | .fwait sd sa sb => .s (srWord 0x32 sd sa sb 0x000)
  | .ffill sd sa sb => .s (srWord 0x32 sd sa sb 0x001)
  | .ctake sd sa => .s (srWord 0x32 sd sa 0 0x002)
  | .patld sd sa sb => .s (srWord 0x32 sd sa sb 0x003)
  | .gform sd sa => .s (srWord 0x32 sd sa 0 0x004)
  | .gsplit sd => .s (srWord 0x32 sd 0 0 0x005)
  | .tspawn sd sa => .s (srWord 0x33 sd sa 0 0x000)
  | .tabs sd => .s (srWord 0x33 sd 0 0 0x001)
  | .twd sd => .s (srWord 0x33 sd 0 0 0x002)
  | .tdone => .s (srWord 0x33 0 0 0 0x003)
  | .lgrel sa => .s (srWord 0x34 0 sa 0 0x000)
  | .trio sd sa => .s (srWord 0x34 sd sa 0 0x001)
  | .vsetl k fs gmax => .v { op := 0x3F, vd := 0, va := 0, vb := (0 : BitVec 1) ++ k, vc := 0, pm := 0, zm := 0, dep := 0, fs := fs, fn := 0, imm := (0 : BitVec 8) ++ gmax }
  | .vadd x => .v (binWord 0x01 x)
  | .vsub x => .v (binWord 0x02 x)
  | .vmul x => .v (binWord 0x03 x)
  | .vmulh x => .v (binWord 0x04 x)
  | .vdiv x => .v (binWord 0x05 x)
  | .vrem x => .v (binWord 0x06 x)
  | .vmin x => .v (binWord 0x07 x)
  | .vmax x => .v (binWord 0x08 x)
  | .vand x => .v (binWord 0x09 x)
  | .vor x => .v (binWord 0x0A x)
  | .vxor x => .v (binWord 0x0B x)
  | .vsll x => .v (binWord 0x0C x)
  | .vsrl x => .v (binWord 0x0D x)
  | .vsra x => .v (binWord 0x0E x)
  | .vmacc x => .v (triWord 0x0F x)
  | .vclz x => .v (unWord 0x10 x)
  | .vpop x => .v (unWord 0x11 x)
  | .vabs x => .v (unWord 0x12 x)
  | .vfadd x => .v (binWord 0x18 x)
  | .vfsub x => .v (binWord 0x19 x)
  | .vfmul x => .v (binWord 0x1A x)
  | .vfdiv x => .v (binWord 0x1B x)
  | .vfma x => .v (triWord 0x1C x)
  | .vfsqrt x => .v (unWord 0x1D x)
  | .vfmin x => .v (binWord 0x1E x)
  | .vfmax x => .v (binWord 0x1F x)
  | .vfminNum x => .v (binWord 0x20 x)
  | .vfmaxNum x => .v (binWord 0x21 x)
  | .vfabs x => .v (unWord 0x22 x)
  | .vfneg x => .v (unWord 0x23 x)
  | .vfexp2 x => .v (unWord 0x28 x)
  | .vflog2 x => .v (unWord 0x29 x)
  | .vfrec x => .v (unWord 0x2A x)
  | .vfrsq x => .v (unWord 0x2B x)
  | .vftanh x => .v (unWord 0x2C x)
  | .vcmpEq x => .v (cmpWord 0 x)
  | .vcmpNe x => .v (cmpWord 1 x)
  | .vcmpLt x => .v (cmpWord 2 x)
  | .vcmpLe x => .v (cmpWord 3 x)
  | .vcmpGt x => .v (cmpWord 4 x)
  | .vcmpGe x => .v (cmpWord 5 x)
  | .vcmpUn x => .v (cmpWord 6 x)
  | .vcvt x => .v (unWord 0x31 x)
  | .vcvtRow x => .v { op := 0x32, vd := x.vd, va := x.a.reg, vb := 0, vc := x.vc, pm := x.m.pm, zm := bit1 x.m.zm, dep := x.dep, fs := x.fs, fn := 0, imm := x.a.imm }
  | .vcrt x => .v (binWord 0x33 x)
  | .vseg x => .v { op := 0x40, vd := x.vd, va := x.va, vb := x.vb, vc := 0, pm := 0, zm := 0, dep := 0, fs := x.fs, fn := 0, imm := (0 : BitVec 10) ++ bit1 x.co ++ bit1 x.ci }
  | .vsegc x => .v { op := 0x41, vd := x.vd, va := x.va, vb := x.vb, vc := 0, pm := 0, zm := 0, dep := 0, fs := x.fs, fn := 0, imm := (0 : BitVec 10) ++ bit1 x.co ++ bit1 x.ci }
  | .vnest x => .v { op := 0x42, vd := x.vd, va := x.va, vb := x.vb, vc := 0, pm := 0, zm := 0, dep := 0, fs := x.fs, fn := 0, imm := (0 : BitVec 10) ++ bit1 x.co ++ bit1 x.ci }
  | .vflat vd va dep => .v { op := 0x43, vd := vd, va := va, vb := 0, vc := 0, pm := 0, zm := 0, dep := dep, fs := 0, fn := 0, imm := 0 }
  | .vredAdd x => .v { op := 0x44, vd := x.vd, va := x.va, vb := 0, vc := 0, pm := x.pm, zm := 0, dep := x.dep, fs := x.fs, fn := 0, imm := 0 }
  | .vredMul x => .v { op := 0x44, vd := x.vd, va := x.va, vb := 0, vc := 0, pm := x.pm, zm := 0, dep := x.dep, fs := x.fs, fn := 1, imm := 0 }
  | .vredMin x => .v { op := 0x44, vd := x.vd, va := x.va, vb := 0, vc := 0, pm := x.pm, zm := 0, dep := x.dep, fs := x.fs, fn := 2, imm := 0 }
  | .vredMax x => .v { op := 0x44, vd := x.vd, va := x.va, vb := 0, vc := 0, pm := x.pm, zm := 0, dep := x.dep, fs := x.fs, fn := 3, imm := 0 }
  | .vredAnd x => .v { op := 0x44, vd := x.vd, va := x.va, vb := 0, vc := 0, pm := x.pm, zm := 0, dep := x.dep, fs := x.fs, fn := 4, imm := 0 }
  | .vredOr x => .v { op := 0x44, vd := x.vd, va := x.va, vb := 0, vc := 0, pm := x.pm, zm := 0, dep := x.dep, fs := x.fs, fn := 5, imm := 0 }
  | .vredXor x => .v { op := 0x44, vd := x.vd, va := x.va, vb := 0, vc := 0, pm := x.pm, zm := 0, dep := x.dep, fs := x.fs, fn := 6, imm := 0 }
  | .vredMinNum x => .v { op := 0x44, vd := x.vd, va := x.va, vb := 0, vc := 0, pm := x.pm, zm := 0, dep := x.dep, fs := x.fs, fn := 7, imm := 0 }
  | .vredMaxNum x => .v { op := 0x44, vd := x.vd, va := x.va, vb := 0, vc := 0, pm := x.pm, zm := 0, dep := x.dep, fs := x.fs, fn := 8, imm := 0 }
  | .vscanAdd x => .v { op := 0x45, vd := x.vd, va := x.va, vb := 0, vc := 0, pm := x.m.pm, zm := bit1 x.m.zm, dep := x.dep, fs := x.fs, fn := 0, imm := 0 }
  | .vscanMul x => .v { op := 0x45, vd := x.vd, va := x.va, vb := 0, vc := 0, pm := x.m.pm, zm := bit1 x.m.zm, dep := x.dep, fs := x.fs, fn := 1, imm := 0 }
  | .vscanMin x => .v { op := 0x45, vd := x.vd, va := x.va, vb := 0, vc := 0, pm := x.m.pm, zm := bit1 x.m.zm, dep := x.dep, fs := x.fs, fn := 2, imm := 0 }
  | .vscanMax x => .v { op := 0x45, vd := x.vd, va := x.va, vb := 0, vc := 0, pm := x.m.pm, zm := bit1 x.m.zm, dep := x.dep, fs := x.fs, fn := 3, imm := 0 }
  | .vscanAnd x => .v { op := 0x45, vd := x.vd, va := x.va, vb := 0, vc := 0, pm := x.m.pm, zm := bit1 x.m.zm, dep := x.dep, fs := x.fs, fn := 4, imm := 0 }
  | .vscanOr x => .v { op := 0x45, vd := x.vd, va := x.va, vb := 0, vc := 0, pm := x.m.pm, zm := bit1 x.m.zm, dep := x.dep, fs := x.fs, fn := 5, imm := 0 }
  | .vscanXor x => .v { op := 0x45, vd := x.vd, va := x.va, vb := 0, vc := 0, pm := x.m.pm, zm := bit1 x.m.zm, dep := x.dep, fs := x.fs, fn := 6, imm := 0 }
  | .vscanMinNum x => .v { op := 0x45, vd := x.vd, va := x.va, vb := 0, vc := 0, pm := x.m.pm, zm := bit1 x.m.zm, dep := x.dep, fs := x.fs, fn := 7, imm := 0 }
  | .vscanMaxNum x => .v { op := 0x45, vd := x.vd, va := x.va, vb := 0, vc := 0, pm := x.m.pm, zm := bit1 x.m.zm, dep := x.dep, fs := x.fs, fn := 8, imm := 0 }
  | .vdist x => .v { op := 0x46, vd := x.vd, va := x.va, vb := x.vb, vc := 0, pm := x.m.pm, zm := bit1 x.m.zm, dep := x.dep, fs := x.fs, fn := 0, imm := 0 }
  | .vpack x => .v { op := 0x47, vd := x.vd, va := x.va, vb := 0, vc := 0, pm := x.pm, zm := 0, dep := x.dep, fs := x.fs, fn := 0, imm := 0 }
  | .vpart x => .v { op := 0x48, vd := x.vd, va := x.va, vb := x.vb, vc := 0, pm := x.pm, zm := 0, dep := x.dep, fs := x.fs, fn := 0, imm := (0 : BitVec 4) ++ x.k1 }
  | .vcat x => .v { op := 0x49, vd := x.vd, va := x.va, vb := x.vb, vc := 0, pm := 0, zm := 0, dep := x.dep, fs := x.fs, fn := 0, imm := 0 }
  | .vsort x => .v { op := 0x4A, vd := x.vd, va := x.va, vb := 0, vc := 0, pm := 0, zm := 0, dep := x.dep, fs := x.fs, fn := (0 : BitVec 11) ++ bit1 x.ds, imm := 0 }
  | .vsidxSeg x => .v { op := 0x4B, vd := x.vd, va := x.va, vb := 0, vc := 0, pm := x.m.pm, zm := bit1 x.m.zm, dep := x.dep, fs := 0, fn := 0, imm := 0 }
  | .vsidxOff x => .v { op := 0x4B, vd := x.vd, va := x.va, vb := 0, vc := 0, pm := x.m.pm, zm := bit1 x.m.zm, dep := x.dep, fs := 0, fn := 1, imm := 0 }
  | .vcarry x => .v { op := 0x4C, vd := x.vd, va := x.va, vb := x.vb, vc := x.vc, pm := 0, zm := 0, dep := x.dep, fs := x.fs, fn := (0 : BitVec 7) ++ (0 : BitVec 1) ++ x.op.code, imm := (0 : BitVec 7) ++ x.pk }
  | .vcarryScan x => .v { op := 0x4C, vd := x.vd, va := x.va, vb := x.vb, vc := x.vc, pm := 0, zm := 0, dep := x.dep, fs := x.fs, fn := (0 : BitVec 7) ++ (1 : BitVec 1) ++ x.op.code, imm := (0 : BitVec 7) ++ x.pk }
  | .vld x => .v { op := 0x60, vd := x.vd, va := 0, vb := 0, vc := 0, pm := x.m.pm, zm := bit1 x.m.zm, dep := 0, fs := 0, fn := x.w.code ++ (0 : BitVec 10), imm := x.bs ++ (0 : BitVec 8) }
  | .vst x => .v { op := 0x61, vd := x.vd, va := 0, vb := 0, vc := 0, pm := x.m.pm, zm := bit1 x.m.zm, dep := 0, fs := 0, fn := twCode x.tw ++ bit1 x.uo ++ (0 : BitVec 8), imm := x.bs ++ (0 : BitVec 8) }
  | .vlds x => .v { op := 0x62, vd := x.vd, va := 0, vb := 0, vc := 0, pm := x.m.pm, zm := bit1 x.m.zm, dep := 0, fs := 0, fn := x.w.code ++ (0 : BitVec 10), imm := x.bs ++ x.xs ++ (0 : BitVec 4) }
  | .vsts x => .v { op := 0x63, vd := x.vd, va := 0, vb := 0, vc := 0, pm := x.m.pm, zm := bit1 x.m.zm, dep := 0, fs := 0, fn := twCode x.tw ++ bit1 x.uo ++ (0 : BitVec 8), imm := x.bs ++ x.xs ++ (0 : BitVec 4) }
  | .vldx x => .v { op := 0x64, vd := x.vd, va := x.va, vb := bndPb x.bnd, vc := 0, pm := x.m.pm, zm := bit1 x.m.zm, dep := 0, fs := 0, fn := x.w.code ++ (0 : BitVec 2) ++ bit1 x.bnd.isSome ++ (0 : BitVec 7), imm := x.bs ++ bndXs x.bnd ++ (0 : BitVec 4) }
  | .vstx x => .v { op := 0x65, vd := x.vd, va := x.va, vb := bndPb x.bnd, vc := 0, pm := x.m.pm, zm := bit1 x.m.zm, dep := 0, fs := 0, fn := twCode x.tw ++ bit1 x.uo ++ bit1 x.bnd.isSome ++ (0 : BitVec 7), imm := x.bs ++ bndXs x.bnd ++ (0 : BitVec 4) }
  | .vsca x => .v { op := 0x66, vd := x.vd, va := x.va, vb := bndPb x.bnd, vc := 0, pm := x.m.pm, zm := bit1 x.m.zm, dep := 0, fs := x.fs, fn := twCode x.tw ++ bit1 x.uo ++ bit1 x.bnd.isSome ++ (0 : BitVec 7), imm := x.bs ++ bndXs x.bnd ++ (0 : BitVec 4) }
  | .vldseg x => .v { op := 0x67, vd := x.vd, va := 0, vb := 0, vc := 0, pm := x.m.pm, zm := bit1 x.m.zm, dep := 0, fs := x.fs, fn := (0 : BitVec 5) ++ x.nf ++ (0 : BitVec 4), imm := x.bs ++ (0 : BitVec 8) }
  | .vstseg x => .v { op := 0x68, vd := x.vd, va := 0, vb := 0, vc := 0, pm := x.m.pm, zm := bit1 x.m.zm, dep := 0, fs := x.fs, fn := (0 : BitVec 3) ++ bit1 x.uo ++ (0 : BitVec 1) ++ x.nf ++ (0 : BitVec 4), imm := x.bs ++ (0 : BitVec 8) }
  | .vtld vd va dep m => .v { op := 0x69, vd := vd, va := va, vb := 0, vc := 0, pm := m.pm, zm := bit1 m.zm, dep := dep, fs := 0, fn := 0, imm := 0 }
  | .vtst vd va uo m => .v { op := 0x6A, vd := vd, va := va, vb := 0, vc := 0, pm := m.pm, zm := bit1 m.zm, dep := 0, fs := 0, fn := (0 : BitVec 3) ++ bit1 uo ++ (0 : BitVec 8), imm := 0 }
  | .vldff x => .v { op := 0x6B, vd := x.vd, va := 0, vb := 0, vc := 0, pm := x.m.pm, zm := bit1 x.m.zm, dep := 0, fs := 0, fn := x.w.code ++ (0 : BitVec 10), imm := x.bs ++ (0 : BitVec 8) }
  | .vldn vd cur bs => .v { op := 0x6C, vd := vd, va := 0, vb := cur.getD 0, vc := 0, pm := 0, zm := 0, dep := 0, fs := 0, fn := (0 : BitVec 11) ++ bit1 cur.isSome, imm := bs ++ (0 : BitVec 8) }
  | .vstn vd uo bs => .v { op := 0x6D, vd := vd, va := 0, vb := 0, vc := 0, pm := 0, zm := 0, dep := 0, fs := 0, fn := (0 : BitVec 3) ++ bit1 uo ++ (0 : BitVec 8), imm := bs ++ (0 : BitVec 8) }
  | .vldf vd va => .v { op := 0x6E, vd := vd, va := va, vb := 0, vc := 0, pm := 0, zm := 0, dep := 0, fs := 0, fn := 0, imm := 0 }
  | .vsave vd bs => .v { op := 0x70, vd := vd, va := 0, vb := 0, vc := 0, pm := 0, zm := 0, dep := 0, fs := 0, fn := 0, imm := bs ++ (0 : BitVec 8) }
  | .vsaveP pd bs => .v { op := 0x70, vd := pd, va := 0, vb := 0, vc := 0, pm := 0, zm := 0, dep := 0, fs := 0, fn := 1, imm := bs ++ (0 : BitVec 8) }
  | .vsaveRq bs => .v { op := 0x70, vd := 0, va := 0, vb := 0, vc := 0, pm := 0, zm := 0, dep := 0, fs := 0, fn := 2, imm := bs ++ (0 : BitVec 8) }
  | .vsaveVq bs => .v { op := 0x70, vd := 0, va := 0, vb := 0, vc := 0, pm := 0, zm := 0, dep := 0, fs := 0, fn := 3, imm := bs ++ (0 : BitVec 8) }
  | .vrest vd bs => .v { op := 0x71, vd := vd, va := 0, vb := 0, vc := 0, pm := 0, zm := 0, dep := 0, fs := 0, fn := 0, imm := bs ++ (0 : BitVec 8) }
  | .vrestP pd bs => .v { op := 0x71, vd := pd, va := 0, vb := 0, vc := 0, pm := 0, zm := 0, dep := 0, fs := 0, fn := 1, imm := bs ++ (0 : BitVec 8) }
  | .vrestRq bs => .v { op := 0x71, vd := 0, va := 0, vb := 0, vc := 0, pm := 0, zm := 0, dep := 0, fs := 0, fn := 2, imm := bs ++ (0 : BitVec 8) }
  | .vrestVq bs => .v { op := 0x71, vd := 0, va := 0, vb := 0, vc := 0, pm := 0, zm := 0, dep := 0, fs := 0, fn := 3, imm := bs ++ (0 : BitVec 8) }
  | .zld zd bs => .v { op := 0x80, vd := (0 : BitVec 2) ++ zd, va := 0, vb := 0, vc := 0, pm := 0, zm := 0, dep := 0, fs := 0, fn := 0, imm := bs ++ (0 : BitVec 8) }
  | .zst zd bs => .v { op := 0x81, vd := (0 : BitVec 2) ++ zd, va := 0, vb := 0, vc := 0, pm := 0, zm := 0, dep := 0, fs := 0, fn := 0, imm := bs ++ (0 : BitVec 8) }
  | .zadd zd za zb fs => .v { op := 0x82, vd := (0 : BitVec 2) ++ zd, va := (0 : BitVec 2) ++ za, vb := (0 : BitVec 2) ++ zb, vc := 0, pm := 0, zm := 0, dep := 0, fs := fs, fn := 0, imm := 0 }
  | .zmul zd za zb fs => .v { op := 0x83, vd := (0 : BitVec 2) ++ zd, va := (0 : BitVec 2) ++ za, vb := (0 : BitVec 2) ++ zb, vc := 0, pm := 0, zm := 0, dep := 0, fs := fs, fn := 0, imm := 0 }
  | .zint vd za zb => .v { op := 0x84, vd := vd, va := (0 : BitVec 2) ++ za, vb := (0 : BitVec 2) ++ zb, vc := 0, pm := 0, zm := 0, dep := 0, fs := 0, fn := 0, imm := 0 }
  | .zfrom x => .v { op := 0x85, vd := (0 : BitVec 2) ++ x.zd, va := x.va, vb := x.vb.getD 0, vc := 0, pm := x.pm, zm := 0, dep := 0, fs := x.fs, fn := (0 : BitVec 10) ++ bit1 x.ap ++ bit1 x.vb.isNone, imm := 0 }
  | .ztoD vd za pm => .v { op := 0x86, vd := vd, va := (0 : BitVec 2) ++ za, vb := 0, vc := 0, pm := pm, zm := 0, dep := 0, fs := 0, fn := 0, imm := 0 }
  | .ztoC vd za xs => .v { op := 0x86, vd := vd, va := (0 : BitVec 2) ++ za, vb := 0, vc := 0, pm := 0, zm := 0, dep := 0, fs := 0, fn := 1, imm := (0 : BitVec 4) ++ xs ++ (0 : BitVec 4) }
  | .ztoV vd za xs => .v { op := 0x86, vd := vd, va := (0 : BitVec 2) ++ za, vb := 0, vc := 0, pm := 0, zm := 0, dep := 0, fs := 0, fn := 2, imm := (0 : BitVec 4) ++ xs ++ (0 : BitVec 4) }
  | .zlen vd za => .v { op := 0x87, vd := vd, va := (0 : BitVec 2) ++ za, vb := 0, vc := 0, pm := 0, zm := 0, dep := 0, fs := 0, fn := 0, imm := 0 }
  | .frcfg fd k => .v { op := 0x90, vd := (0 : BitVec 3) ++ fd, va := 0, vb := (0 : BitVec 1) ++ k, vc := 0, pm := 0, zm := 0, dep := 0, fs := 0, fn := 0, imm := 0 }
  | .frclr fd => .v { op := 0x91, vd := (0 : BitVec 3) ++ fd, va := 0, vb := 0, vc := 0, pm := 0, zm := 0, dep := 0, fs := 0, fn := 0, imm := 0 }
  | .frins fd va vb pm => .v { op := 0x92, vd := (0 : BitVec 3) ++ fd, va := va, vb := vb, vc := 0, pm := pm, zm := 0, dep := 0, fs := 0, fn := 0, imm := 0 }
  | .frmrg fd fa => .v { op := 0x93, vd := (0 : BitVec 3) ++ fd, va := (0 : BitVec 3) ++ fa, vb := 0, vc := 0, pm := 0, zm := 0, dep := 0, fs := 0, fn := 0, imm := 0 }
  | .frrd vd fa xs => .v { op := 0x94, vd := vd, va := (0 : BitVec 3) ++ fa, vb := 0, vc := 0, pm := 0, zm := 0, dep := 0, fs := 0, fn := 0, imm := (0 : BitVec 4) ++ xs ++ (0 : BitVec 4) }
  | .frcnt vd fa => .v { op := 0x95, vd := vd, va := (0 : BitVec 3) ++ fa, vb := 0, vc := 0, pm := 0, zm := 0, dep := 0, fs := 0, fn := 0, imm := 0 }
  | .frst fd bs => .v { op := 0x96, vd := (0 : BitVec 3) ++ fd, va := 0, vb := 0, vc := 0, pm := 0, zm := 0, dep := 0, fs := 0, fn := 0, imm := bs ++ (0 : BitVec 8) }
  | .frld fd bs => .v { op := 0x96, vd := (0 : BitVec 3) ++ fd, va := 0, vb := 0, vc := 0, pm := 0, zm := 0, dep := 0, fs := 0, fn := 1, imm := bs ++ (0 : BitVec 8) }
  | .frtest pd fa va m => .v { op := 0x97, vd := pd, va := va, vb := (0 : BitVec 3) ++ fa, vc := 0, pm := m.pm, zm := bit1 m.zm, dep := 0, fs := 0, fn := 0, imm := 0 }
  | .vmaxclr vd va pk dep fs => .v { op := 0x98, vd := vd, va := va, vb := pk, vc := 0, pm := 0, zm := 0, dep := dep, fs := fs, fn := 0, imm := 0 }
  | .vselk vd va pk dep pm fs => .v { op := 0x99, vd := vd, va := va, vb := pk, vc := 0, pm := pm, zm := 0, dep := dep, fs := fs, fn := 0, imm := 0 }
  | .vhist x => .v { op := 0x9A, vd := x.vd, va := x.va, vb := 0, vc := 0, pm := x.pm, zm := 0, dep := x.dep, fs := x.fs, fn := 0, imm := (0 : BitVec 4) ++ x.k1 }
  | .vrank x => .v { op := 0x9B, vd := x.vd, va := x.va, vb := 0, vc := 0, pm := x.m.pm, zm := bit1 x.m.zm, dep := x.dep, fs := x.fs, fn := 0, imm := 0 }
  | .xfwdT vd va vb dep slot => .v { op := 0x9C, vd := vd, va := va, vb := vb, vc := 0, pm := 0, zm := 0, dep := dep, fs := 0, fn := 0, imm := (0 : BitVec 10) ++ slot }
  | .xfwdG vd va w slot m => .v { op := 0x9C, vd := vd, va := va, vb := 0, vc := 0, pm := m.pm, zm := bit1 m.zm, dep := 0, fs := 0, fn := w.code ++ (1 : BitVec 10), imm := (0 : BitVec 10) ++ slot }
  | .xloc vd va slot m => .v { op := 0x9D, vd := vd, va := va, vb := 0, vc := 0, pm := m.pm, zm := bit1 m.zm, dep := 0, fs := 0, fn := 0, imm := (0 : BitVec 10) ++ slot }
  | .mshp k acq mask => .v { op := 0xA0, vd := 0, va := 0, vb := (0 : BitVec 1) ++ k, vc := 0, pm := 0, zm := 0, dep := 0, fs := 0, fn := 0, imm := (0 : BitVec 3) ++ bit1 acq ++ mask }
  | .mtld t bs xs pm => .v { op := 0xA1, vd := (0 : BitVec 2) ++ t, va := 0, vb := 0, vc := 0, pm := pm, zm := 0, dep := 0, fs := 0, fn := 0, imm := bs ++ xs ++ (0 : BitVec 4) }
  | .mtldI t bs => .v { op := 0xA1, vd := (0 : BitVec 2) ++ t, va := 0, vb := 0, vc := 0, pm := 0, zm := 0, dep := 0, fs := 0, fn := 1, imm := bs ++ (0 : BitVec 8) }
  | .mtldz t vb bs xs pm => .v { op := 0xA2, vd := (0 : BitVec 2) ++ t, va := 0, vb := vb, vc := 0, pm := pm, zm := 0, dep := 0, fs := 0, fn := 0, imm := bs ++ xs ++ (0 : BitVec 4) }
  | .mma vd a t pm => .v { op := 0xA3, vd := vd, va := a.reg, vb := (0 : BitVec 2) ++ t, vc := 0, pm := pm, zm := 0, dep := 0, fs := 0, fn := 0, imm := a.bit ++ (0 : BitVec 11) }
  | .mmaz vd a t ix pm => .v { op := 0xA4, vd := vd, va := a.reg, vb := (0 : BitVec 2) ++ t, vc := ixReg ix, pm := pm, zm := 0, dep := 0, fs := 0, fn := (0 : BitVec 11) ++ bit1 ix.isSome, imm := a.bit ++ ixBit ix ++ (0 : BitVec 10) }
  | .mtrel t => .v { op := 0xA5, vd := (0 : BitVec 2) ++ t, va := 0, vb := 0, vc := 0, pm := 0, zm := 0, dep := 0, fs := 0, fn := 0, imm := 0 }
  | .mtrelS t k => .v { op := 0xA5, vd := (0 : BitVec 2) ++ t, va := 0, vb := (0 : BitVec 1) ++ k, vc := 0, pm := 0, zm := 0, dep := 0, fs := 0, fn := 1, imm := 0 }
  | .bopen b xs bs => .v { op := 0xB0, vd := (0 : BitVec 1) ++ b, va := 0, vb := 0, vc := 0, pm := 0, zm := 0, dep := 0, fs := 0, fn := 0, imm := bs ++ xs ++ (0 : BitVec 4) }
  | .bopenR b bs => .v { op := 0xB0, vd := (0 : BitVec 1) ++ b, va := 0, vb := 0, vc := 0, pm := 0, zm := 0, dep := 0, fs := 0, fn := 1, imm := bs ++ (0 : BitVec 8) }
  | .bcopy b form cv pm => .v { op := 0xB1, vd := (0 : BitVec 1) ++ b, va := form.va, vb := 0, vc := 0, pm := pm, zm := 0, dep := 0, fs := cv.getD 0, fn := (0 : BitVec 9) ++ bit1 cv.isSome ++ form.code, imm := form.imm }
  | .bclose b => .v { op := 0xB2, vd := (0 : BitVec 1) ++ b, va := 0, vb := 0, vc := 0, pm := 0, zm := 0, dep := 0, fs := 0, fn := 0, imm := 0 }
  | .bcloseS b bs => .v { op := 0xB2, vd := (0 : BitVec 1) ++ b, va := 0, vb := 0, vc := 0, pm := 0, zm := 0, dep := 0, fs := 0, fn := 1, imm := bs ++ (0 : BitVec 8) }
  | .bwait b => .v { op := 0xB3, vd := (0 : BitVec 1) ++ b, va := 0, vb := 0, vc := 0, pm := 0, zm := 0, dep := 0, fs := 0, fn := 0, imm := 0 }
  | .bstat vd b => .v { op := 0xB4, vd := (0 : BitVec 1) ++ b, va := 0, vb := vd, vc := 0, pm := 0, zm := 0, dep := 0, fs := 0, fn := 0, imm := 0 }
  | .bpost b bs scope => .v { op := 0xB5, vd := (0 : BitVec 1) ++ b, va := 0, vb := 0, vc := 0, pm := 0, zm := 0, dep := 0, fs := 0, fn := (0 : BitVec 9) ++ scope.code, imm := bs ++ (0 : BitVec 8) }
  | .pand pd pa pb m => .v { op := 0xC0, vd := pd, va := pa, vb := pb, vc := 0, pm := m.pm, zm := bit1 m.zm, dep := 0, fs := 0, fn := 0, imm := 0 }
  | .por pd pa pb m => .v { op := 0xC1, vd := pd, va := pa, vb := pb, vc := 0, pm := m.pm, zm := bit1 m.zm, dep := 0, fs := 0, fn := 0, imm := 0 }
  | .pxor pd pa pb m => .v { op := 0xC2, vd := pd, va := pa, vb := pb, vc := 0, pm := m.pm, zm := bit1 m.zm, dep := 0, fs := 0, fn := 0, imm := 0 }
  | .pnot pd pa m => .v { op := 0xC3, vd := pd, va := pa, vb := 0, vc := 0, pm := m.pm, zm := bit1 m.zm, dep := 0, fs := 0, fn := 0, imm := 0 }
  | .pfirst pd pa pm => .v { op := 0xC4, vd := pd, va := pa, vb := 0, vc := 0, pm := pm, zm := 0, dep := 0, fs := 0, fn := 0, imm := 0 }
  | .pcount vd pa pm => .v { op := 0xC5, vd := vd, va := pa, vb := 0, vc := 0, pm := pm, zm := 0, dep := 0, fs := 0, fn := 0, imm := 0 }
  | .vperm vd va vb m fs => .v { op := 0xD0, vd := vd, va := va, vb := vb, vc := 0, pm := m.pm, zm := bit1 m.zm, dep := 0, fs := fs, fn := 0, imm := 0 }
  | .vslide vd va k m fs => .v { op := 0xD1, vd := vd, va := va, vb := (0 : BitVec 1) ++ k, vc := 0, pm := m.pm, zm := bit1 m.zm, dep := 0, fs := fs, fn := 0, imm := 0 }
  | .vrev vd va dep fs => .v { op := 0xD2, vd := vd, va := va, vb := 0, vc := 0, pm := 0, zm := 0, dep := dep, fs := fs, fn := 0, imm := 0 }
  | .vbcast vd k m fs => .v { op := 0xD3, vd := vd, va := 0, vb := (0 : BitVec 1) ++ k, vc := 0, pm := m.pm, zm := bit1 m.zm, dep := 0, fs := fs, fn := 0, imm := 0 }
  | .vins vd k xs fs => .v { op := 0xD4, vd := vd, va := 0, vb := (0 : BitVec 1) ++ k, vc := 0, pm := 0, zm := 0, dep := 0, fs := fs, fn := 0, imm := (0 : BitVec 4) ++ xs ++ (0 : BitVec 4) }
  | .vext vd va xs fs => .v { op := 0xD5, vd := vd, va := va, vb := 0, vc := 0, pm := 0, zm := 0, dep := 0, fs := fs, fn := 0, imm := (0 : BitVec 4) ++ xs ++ (0 : BitVec 4) }
  | .vcompress vd va pm fs => .v { op := 0xD6, vd := vd, va := va, vb := 0, vc := 0, pm := pm, zm := 0, dep := 0, fs := fs, fn := 0, imm := 0 }
  | .vexpand vd va m fs => .v { op := 0xD7, vd := vd, va := va, vb := 0, vc := 0, pm := m.pm, zm := bit1 m.zm, dep := 0, fs := fs, fn := 0, imm := 0 }
  | .vmv vd va => .v { op := 0xD8, vd := vd, va := va, vb := 0, vc := 0, pm := 0, zm := 0, dep := 0, fs := 0, fn := 0, imm := 0 }
  | .vsnd va => .v { op := 0xD9, vd := 0, va := va, vb := 0, vc := 0, pm := 0, zm := 0, dep := 0, fs := 0, fn := 0, imm := 0 }
  | .qput q va => .v { op := 0xDA, vd := (0 : BitVec 3) ++ q, va := va, vb := 0, vc := 0, pm := 0, zm := 0, dep := 0, fs := 0, fn := 0, imm := 0 }
  | .qget vd q pq => .v { op := 0xDB, vd := vd, va := (0 : BitVec 3) ++ q, vb := 0, vc := 0, pm := 0, zm := 0, dep := 0, fs := 0, fn := 0, imm := (0 : BitVec 11) ++ bit1 pq }
  | .qeos q => .v { op := 0xDC, vd := (0 : BitVec 3) ++ q, va := 0, vb := 0, vc := 0, pm := 0, zm := 0, dep := 0, fs := 0, fn := 0, imm := 0 }
  | .xrouteOff n => .v { op := 0xE0, vd := 0, va := 0, vb := 0, vc := 0, pm := 0, zm := 0, dep := 0, fs := 0, fn := 0, imm := (0 : BitVec 7) ++ (0 : BitVec 2) ++ n }
  | .xrouteUse n => .v { op := 0xE0, vd := 0, va := 0, vb := 0, vc := 0, pm := 0, zm := 0, dep := 0, fs := 0, fn := 0, imm := (0 : BitVec 7) ++ (1 : BitVec 2) ++ n }
  | .xrouteSave n => .v { op := 0xE0, vd := 0, va := 0, vb := 0, vc := 0, pm := 0, zm := 0, dep := 0, fs := 0, fn := 0, imm := (0 : BitVec 7) ++ (2 : BitVec 2) ++ n }
  | .tsum n va pm fs => .v { op := 0xE1, vd := 0, va := va, vb := 0, vc := 0, pm := pm, zm := 0, dep := 0, fs := fs, fn := 0, imm := (0 : BitVec 11) ++ bit1 n }
  | .vstop => .v { op := 0xFF, vd := 0, va := 0, vb := 0, vc := 0, pm := 0, zm := 0, dep := 0, fs := 0, fn := 0, imm := 0 }
  | .trapEntry _ _ => .event
  | .asyncEventTaken _ => .event
  | .resumption _ => .event
  | .waiterServed _ => .event
  | .freeParkedContext _ => .event
  | .copyElementDelivery _ _ _ => .event
  | .copyFault _ _ => .event
  | .postPerformed _ _ => .event
  | .matrixIssue _ _ => .event
  | .matrixComplete _ _ => .event
  | .frameTick => .event
  | .heldTickRelease => .event
  | .spillModeExit _ => .event
  | .spillRingFull _ => .event
  | .tackHubCycle _ _ => .event
  | .tackReleaseArrival _ _ => .event
  | .broadcastAccept _ _ => .event
  | .broadcastDelivery _ _ => .event
  | .preemptCommandWrite _ _ => .event
  | .preemptionRequest _ _ => .event
  | .fwaitWake _ => .event
  | .fwaitTimeout _ => .event
  | .wfeDeadline _ => .event
  | .lwaitDeadline _ => .event
  | .ctakeServed _ => .event
  | .hostLaunchPush _ _ => .event
  | .recordEntersPool _ _ => .event
  | .launchDispatch _ => .event
  | .launchCompletion _ _ => .event
  | .taskFire _ _ => .event
  | .taskRetire _ _ => .event
  | .taskDispatch _ => .event
  | .withdrawMark _ _ => .event
  | .clusterReset _ => .event
  | .packetArrival _ => .event
  | .tlbInvalidatePage _ _ _ => .event
  | .tlbInvalidateAsid _ _ => .event
  | .tlbInvalidateAll _ => .event
  | .invalidationComplete _ => .event
  | .readNpois _ => .event
  | .readDrops _ _ => .event
  | .readSpfull _ => .event
  | .readRtry _ => .event
  | .readFaultDrops => .event
  | .faultRecordPost _ => .event
  | .rangeRegisterWrite _ _ _ _ => .event
  | .clusterPartitionWrite _ _ => .event
  | .registerWrite _ _ => .event
  | .patrolScrub _ _ _ => .event
  | .uncorrectableError _ => .event
  | .uncontainedFailure _ => .event
  | .thermalStop => .event
  | .bridgeFailure => .event
  | .portTraining _ _ => .event
  | .portFailure _ => .event
  | .fabricRequestArrival _ => .event
  | .gatherListReturn _ _ _ => .event
  | .inboxRecord _ _ _ => .event
  | .hostBar2Access _ _ => .event
  | .keyRequest _ _ => .event
  | .keyZeroise _ _ => .event
  | .sessionUnseal _ => .event
  | .attestationReport _ _ => .event
  | .bootStage _ => .event
  | .packageReset => .event
  | .currentAndThermalCaps _ => .event
  | .perstDeassertion => .event
  | .measurementExtend _ => .event
  | .joinAnswerArrival _ => .event

/-- An event: a row of the table that is no stored word. -/
def Instr.isEvent (i : Instr) : Bool := encode i == .event

end Sys2Proof
end

