-- ==== Sys2Proof/Config.lean ====
section
/-!
DEFINITION. Config.lean: what an implementation fixes, and the values the spec leaves open.

An opaque constant has no value a proof can see: a statement about it holds whatever it is.
-/
namespace Sys2Proof.Config

/-- A key of AES-256-XTS that Thimble drew, its two halves of 32 bytes, by draw (spec/25, R370; assumption log, 12: DESIGN
CHOICE). -/
opaque memKey : Nat → List (BitVec 8)

/-- The switch settings of a pass of the Beneš network: eleven stages of 32 switches, from the banks of the elements and the
pass (spec/18, R277; assumption log, 54: DEDUCED). -/
opaque benesSet : List (BitVec 8) → Nat → BitVec 352

/-- XMSS signature by attestation tree and index (spec/25, R375; assumption log, 13: DESIGN CHOICE). -/
opaque xmssSign : Nat → Nat → List (BitVec 8) → List (BitVec 8)

/-- The identity's signature of an attestation tree's root, by identity index (spec/25, R374; assumption log, 13: DESIGN CHOICE). -/
opaque identitySign : Nat → Nat → List (BitVec 8)

/-- The root of an attestation tree (spec/25, R375; assumption log, 13: DESIGN CHOICE). -/
opaque treeRoot : Nat → List (BitVec 8)

/-- The encapsulation key of an ML-KEM-1024 pair, by the draw that made it (spec/25, R371; spec/26, R383; assumption log, 13:
DESIGN CHOICE). -/
opaque encapKey : Nat → List (BitVec 8)

/-- The secret that a pair opens from an encapsulation (spec/25, R371; spec/26, R383; assumption log, 13: DESIGN CHOICE). -/
opaque encapOpen : Nat → List (BitVec 8) → List (BitVec 8)

/-- The secret that Thimble encapsulates for the far end of a link, by its draw and that end's encapsulation key (spec/26, R383;
assumption log, 13: DESIGN CHOICE). -/
opaque encapSecret : Nat → List (BitVec 8) → List (BitVec 8)

/-- What carries that secret to the far end (spec/26, R383; assumption log, 13: DESIGN CHOICE). -/
opaque encapText : Nat → List (BitVec 8) → List (BitVec 8)

/-- The ROM version and the fuse block, as Thimble measures them (spec/25, R373). -/
opaque romAndFuses : List (BitVec 8)

/-- The hash of the public key held in fuses (spec/25, R372). -/
opaque fuseKeyHash : List (BitVec 8)

/-- The least security version the fuses allow (spec/25, R372). -/
opaque fuseVersion : Nat

/-- Whether the fuse-backed step of the monotonic counter from this value succeeds (spec/25, R374). -/
opaque counterStep : Nat → Bool

/-- The value of the monotonic counter in fuses at power good (spec/25, R374). -/
opaque fuseCounter : Nat

/-- The value of a special function rounded, where the enclosure of Machine/Special.lean does not settle it
(spec/06, R115; assumption log, 14: DEDUCED). -/
opaque special : Nat → BitVec 64 → BitVec 64

end Sys2Proof.Config
end

