-- ==== Sys2Proof/Machine/Keccak.lean ====
section
/-!
DEFINITION. Machine/Keccak.lean: SHAKE256, which Thimble measures, checks and derives keys with (spec/25, R371 to R373;
spec/26, R383; the function is that of FIPS 202: assumption log, 61: PRESUMED).

The state is a number of 1,600 bits whose bit 64 i + z is bit z of lane i; what FIPS 202 tabulates is computed here from its
recurrences.
-/
namespace Sys2Proof.Machine

open Sys2Proof

/-- The lane with number i of a state. -/
def spongeLane (st i : Nat) : Nat := st >>> (64 * i) % 2 ^ 64

/-- A state from its lanes, the lowest first. -/
def ofLanes : List Nat → Nat
  | [] => 0
  | l :: ls => l + 2 ^ 64 * ofLanes ls

/-- A lane turned left by n bits. -/
def turnLane (n l : Nat) : Nat := (l <<< (n % 64) ||| l >>> (64 - n % 64)) % 2 ^ 64

/-- The next state of the feedback register behind the round constants. -/
def feedback (r : Nat) : Nat := if 128 ≤ r then (2 * r) % 256 ^^^ 0x71 else 2 * r

/-- The register after n moves from 1. -/
def feedbackAt : Nat → Nat
  | 0 => 1
  | n + 1 => feedback (feedbackAt n)

/-- The constant of a round: bit 2^j - 1 is the low bit of the register after 7 t + j moves. -/
def roundConst (t : Nat) : Nat := ((List.range 7).map fun j => feedbackAt (7 * t + j) % 2 * 2 ^ (2 ^ j - 1)).sum

/-- The 24 places after place (x, y) on the walk that (x, y) ↦ (y, 2 x + 3 y) makes, as lane numbers, from lane 1 on. -/
def walkLanes : Nat → Nat × Nat → List Nat
  | 0, _ => []
  | n + 1, (x, y) => (x + 5 * y) :: walkLanes n (y, (2 * x + 3 * y) % 5)

/-- The parities of the five columns, their bits next to one another as in a lane. -/
def columnSums (st : Nat) : List Nat :=
  (List.range 5).map fun x => [0, 5, 10, 15, 20].foldl (fun p y => p ^^^ spongeLane st (x + y)) 0

/-- Every column takes the parities of its neighbours. -/
def mixColumns (st : Nat) : Nat :=
  let sums := columnSums st
  ofLanes ((List.range 25).map fun i =>
    spongeLane st i ^^^ (sums[(i + 4) % 5]?).getD 0 ^^^ turnLane 1 ((sums[(i + 1) % 5]?).getD 0))

/-- Each lane of the walk goes, turned, to the next place of it: the lane at step t by (t + 1)(t + 2)/2. -/
def moveLanes (st : Nat) : List Nat :=
  let w := walkLanes 25 (1, 0)
  let moved := (List.range 24).map fun t =>
    ((w[t + 1]?).getD 0, turnLane ((t + 1) * (t + 2) / 2) (spongeLane st ((w[t]?).getD 0)))
  (List.range 25).map fun i => ((moved.find? fun e => e.1 == i).map (·.2)).getD (spongeLane st i)

/-- The step that is not linear, along the rows, and the round constant. -/
def mixRows (t : Nat) (ls : List Nat) : Nat :=
  let at' (i : Nat) : Nat := (ls[i]?).getD 0
  roundConst t ^^^ ofLanes ((List.range 25).map fun i =>
    let row := i - i % 5
    at' i ^^^ ((2 ^ 64 - 1 - at' (row + (i + 1) % 5)) &&& at' (row + (i + 2) % 5)))

/-- The permutation of 24 rounds. -/
def sponge (st : Nat) : Nat := (List.range 24).foldl (fun st t => mixRows t (moveLanes (mixColumns st))) st

/-- A number from bytes, little-endian. -/
def bytesNat : List Byte → Nat
  | [] => 0
  | b :: bs => b.toNat + 256 * bytesNat bs

/-- n bytes of a number from byte i on, little-endian. -/
def natBytes (x i n : Nat) : List Byte := (List.range n).map fun k => BitVec.ofNat 8 (x >>> (8 * (i + k)))

/-- The state once the whole blocks of 136 bytes that stand before the rest of a message have entered, and that rest. -/
def soak : Nat → Nat → List Byte → Nat × List Byte
  | 0, st, bs => (st, bs)
  | n + 1, st, bs =>
    if bs.length < 136 then (st, bs) else soak n (sponge (st ^^^ bytesNat (bs.take 136))) (bs.drop 136)

/-- The last block: what is left of the message, four 1 bits and the padding. -/
def lastBlock (bs : List Byte) : Nat := bytesNat bs + 0x1F * 256 ^ bs.length ^^^ 0x80 * 256 ^ 135

/-- n bytes of output. -/
def wring : Nat → Nat → Nat → List Byte
  | 0, _, _ => []
  | fuel + 1, st, n => if n ≤ 136 then natBytes st 0 n else natBytes st 0 136 ++ wring fuel (sponge st) (n - 136)

/-- SHAKE256 of a byte string, at n bytes (spec/25, R372, R373). -/
def shake256 (bs : List Byte) (n : Nat) : List Byte :=
  let r := soak (bs.length / 136) 0 bs
  wring (n / 136 + 1) (sponge (r.1 ^^^ lastBlock r.2)) n

end Sys2Proof.Machine
end

