-- ==== Sys2Proof/Machine/Aes.lean ====
section
/-!
DEFINITION. Machine/Aes.lean: AES-256-GCM, which seals sessions' objects and the packets of a link, and AES-256-XTS, under
which HBM lies (spec/25, R370, R371; spec/26, R383; the functions are those of FIPS 197, SP 800-38D and IEEE 1619: assumption
log, 61: PRESUMED).

Bytes are numbers below 256 here; a block is its sixteen bytes in order.
-/
namespace Sys2Proof.Machine

open Sys2Proof

/-- The double of an element of the byte field. -/
def twice (a : Nat) : Nat := if 128 ≤ a then 2 * a - 256 ^^^ 0x1B else 2 * a

/-- The product of two elements of the byte field, over n bits of the second. -/
def fieldMul (a : Nat) : Nat → Nat → Nat
  | 0, _ => 0
  | n + 1, b => (if b % 2 = 1 then a else 0) ^^^ twice (fieldMul a n (b / 2))

/-- The power with exponent 2^n - 2 of an element: for n = 8 its inverse, of 0 it is 0. -/
def powInv (a : Nat) : Nat → Nat
  | 0 => 1
  | 1 => 1
  | n + 1 => let p := fieldMul (powInv a n) 8 a; fieldMul p 8 p

/-- A byte turned left by n bits. -/
def turnByte (n b : Nat) : Nat := (b * 2 ^ n ||| b / 2 ^ (8 - n)) % 256

/-- The substitution of a byte. -/
def substitute (a : Nat) : Nat :=
  let b := powInv a 8
  (List.range 5).foldl (fun x n => x ^^^ turnByte n b) 0x63

/-- The substitution of every byte. -/
def substitutes : List Nat := (List.range 256).map substitute

/-- The substitution of bytes. -/
def substAll (l : List Nat) : List Nat := l.map fun a => (substitutes[a]?).getD 0

/-- Two byte strings added in the field. -/
def addBytes (a b : List Nat) : List Nat := a.zipWith (· ^^^ ·) b

/-- The double of 1, n times. -/
def doubled : Nat → Nat
  | 0 => 1
  | n + 1 => twice (doubled n)

/-- The words of the key schedule up to number i, the latest first, n of them yet to be made. -/
def schedule : Nat → Nat → List (List Nat) → List (List Nat)
  | 0, _, ws => ws
  | n + 1, i, ws =>
    let last := ws.headD []
    let t := if i % 8 = 0 then addBytes (substAll (last.drop 1 ++ last.take 1)) [doubled (i / 8 - 1), 0, 0, 0]
      else if i % 8 = 4 then substAll last else last
    schedule n (i + 1) (addBytes ((ws[7]?).getD []) t :: ws)

/-- A byte string in pieces of n bytes, k of them. -/
def piecesOf (n : Nat) : Nat → List Nat → List (List Nat)
  | 0, _ => []
  | k + 1, l => l.take n :: piecesOf n k (l.drop n)

/-- The fifteen round keys of a key of 32 bytes. -/
def roundKeys (key : List Nat) : List (List Nat) :=
  piecesOf 16 15 (schedule 52 8 (piecesOf 4 8 key).reverse).reverse.flatten

/-- Row r of a block moves left by r columns. -/
def shiftRows (b : List Nat) : List Nat := (List.range 16).map fun i => (b[(i + 4 * (i % 4)) % 16]?).getD 0

/-- Each column times the fixed polynomial. -/
def mixBlock (b : List Nat) : List Nat :=
  (List.range 16).map fun i =>
    let at' (k : Nat) : Nat := (b[i - i % 4 + (i + k) % 4]?).getD 0
    twice (at' 0) ^^^ twice (at' 1) ^^^ at' 1 ^^^ at' 2 ^^^ at' 3

/-- The rounds of a block under what is left of the round keys. -/
def rounds : List (List Nat) → List Nat → List Nat
  | [], b => b
  | [k], b => addBytes (shiftRows (substAll b)) k
  | k :: ks, b => rounds ks (addBytes (mixBlock (shiftRows (substAll b))) k)

/-- A block enciphered under round keys. -/
def encipher (ks : List (List Nat)) (b : List Nat) : List Nat := rounds ks.tail (addBytes b (ks.headD []))

/-- The inverse of the substitution of every byte. -/
def unsubstitutes : List Nat := (List.range 256).map fun a => substitutes.idxOf a

/-- Bytes with their substitution undone. -/
def unsubstAll (l : List Nat) : List Nat := l.map fun a => (unsubstitutes[a]?).getD 0

/-- Row r of a block moves right by r columns. -/
def unshiftRows (b : List Nat) : List Nat := (List.range 16).map fun i => (b[(i + 12 * (i % 4)) % 16]?).getD 0

/-- The rounds of a block undone, under the round keys before the last, the latest first; the mixing is its own inverse
after three more. -/
def unrounds : List (List Nat) → List Nat → List Nat
  | [], b => b
  | [k], b => addBytes b k
  | k :: ks, b => unrounds ks (unsubstAll (unshiftRows (mixBlock (mixBlock (mixBlock (addBytes b k))))))

/-- A block deciphered under round keys. -/
def decipher (ks : List (List Nat)) (b : List Nat) : List Nat :=
  unrounds ks.reverse.tail (unsubstAll (unshiftRows (addBytes b (ks.reverse.headD []))))

/-- A block as a number, its first byte the most significant. -/
def blockNat (b : List Nat) : Nat := b.foldl (fun n x => 256 * n + x) 0

/-- A number as n bytes, the most significant first. -/
def natBlock : Nat → Nat → List Nat
  | 0, _ => []
  | n + 1, x => natBlock n (x / 256) ++ [x % 256]

/-- A product in the block field, over bits n - 1 to 0 of the first: v is the second, moved as far. -/
def ghashMul (x : Nat) : Nat → Nat → Nat
  | 0, _ => 0
  | n + 1, v =>
    (if x.testBit n then v else 0) ^^^ ghashMul x n (if v % 2 = 1 then v / 2 ^^^ 0xE1 * 2 ^ 120 else v / 2)

/-- A byte string in blocks, the last filled with zeros. -/
def fillBlocks (l : List Nat) : List (List Nat) :=
  (piecesOf 16 ((l.length + 15) / 16) l).map fun p => p ++ List.replicate (16 - p.length) 0

/-- The hash of blocks under a hash key. -/
def ghash (h : Nat) (bs : List (List Nat)) : Nat := bs.foldl (fun y b => ghashMul (y ^^^ blockNat b) 128 h) 0

/-- The first counter block of an initialisation vector. -/
def firstCounter (h : Nat) (iv : List Nat) : Nat :=
  if iv.length = 12 then blockNat iv * 2 ^ 32 + 1
  else ghash h (fillBlocks iv ++ [natBlock 16 (8 * iv.length)])

/-- The counter block k places after one: only its low 32 bits count. -/
def counterAfter (c k : Nat) : Nat := c / 2 ^ 32 * 2 ^ 32 + (c + k) % 2 ^ 32

/-- Text enciphered, or deciphered, in counter mode. -/
def counterMode (ks : List (List Nat)) (c : Nat) (text : List Nat) : List Nat :=
  text.zipWith (· ^^^ ·)
    ((List.range ((text.length + 15) / 16)).flatMap fun k => encipher ks (natBlock 16 (counterAfter c (k + 1))))

/-- The tag of an enciphered text with no further data. -/
def gcmTag (ks : List (List Nat)) (h c : Nat) (text : List Nat) : List Nat :=
  addBytes (natBlock 16 (ghash h (fillBlocks text ++ [natBlock 16 (8 * text.length)]))) (encipher ks (natBlock 16 c))

/-- What key and initialisation vector give: the round keys, the hash key, the first counter block. -/
def gcmSetup (key iv : List Byte) : List (List Nat) × Nat × Nat :=
  let ks := roundKeys (key.map BitVec.toNat)
  let h := blockNat (encipher ks (List.replicate 16 0))
  (ks, h, firstCounter h (iv.map BitVec.toNat))

/-- Bytes from numbers. -/
def toBytes (l : List Nat) : List Byte := l.map (BitVec.ofNat 8)

/-- A tweak as a block, its least significant byte first. -/
def tweakBlock (t : Nat) : List Nat := (natBlock 16 t).reverse

/-- The tweak of the next block of a data unit. -/
def nextTweak (t : Nat) : Nat := if 2 ^ 127 ≤ t then 2 * t - 2 ^ 128 ^^^ 0x87 else 2 * t

/-- The blocks of a data unit, each through f between two additions of its tweak. -/
def tweaked (f : List Nat → List Nat) : Nat → List (List Nat) → List Nat
  | _, [] => []
  | t, b :: bs => addBytes (f (addBytes b (tweakBlock t))) (tweakBlock t) ++ tweaked f (nextTweak t) bs

/-- A data unit of whole blocks through a cipher under the first half of a key, its number as the tweak under the second
(spec/25, R370). -/
def xts (f : List (List Nat) → List Nat → List Nat) (key : List Byte) (unit : Nat) (text : List Byte) : List Byte :=
  let k := key.map BitVec.toNat
  let t := blockNat (encipher (roundKeys (k.drop 32)) (tweakBlock unit)).reverse
  toBytes (tweaked (f (roundKeys (k.take 32))) t (fillBlocks (text.map BitVec.toNat)))

/-- A text sealed: enciphered, and its tag of 16 bytes (spec/26, R383). -/
def gcmSeal (key iv text : List Byte) : List Byte × List Byte :=
  let (ks, h, c) := gcmSetup key iv
  let e := counterMode ks c (text.map BitVec.toNat)
  (toBytes e, toBytes (gcmTag ks h c e))

/-- A sealed text opened; none when the tag fails (spec/25, R371). -/
def gcmOpen (key iv text tag : List Byte) : Option (List Byte) :=
  let (ks, h, c) := gcmSetup key iv
  let e := text.map BitVec.toNat
  if toBytes (gcmTag ks h c e) = tag then some (toBytes (counterMode ks c e)) else none

end Sys2Proof.Machine
end

