-- ==== Sys2Proof/Machine/State.lean ====
section
/-!
DEFINITION. Machine/State.lean: everything the spec gives the package, as plain data, and its state after reset.

Harts, cores, clusters and dies are held in sparse maps from their numbers over the package: a number that a map does
not list stands for the unit as reset leaves it. Lists of a fixed meaning (memory, predicates, tile entries) are kept
ascending with no repeats, so equal states are equal data.
-/
namespace Sys2Proof.Machine

/-- Why the machine stops. The model's own: no rule of the spec stops the package. -/
inductive Fault where
  /-- Raised by `step` when the schedule names a hart, core or other agent that the package does not have. Safe: no
  hardware run has such a schedule. -/
  | noSuchAgent
deriving DecidableEq, Repr

/-- Why a step has no meaning. -/
inductive Refusal where
  /-- Raised by an arm of `exec` for an instruction the model gives no meaning. Safe. -/
  | notModelled (mnemonic : String)
  /-- Raised by `step` when the schedule names an instruction of a hart where an event of the opcode table belongs.
  Safe: no hardware run has such a schedule. -/
  | notAnEvent
deriving DecidableEq, Repr

/-! ### Vector-side registers -/

/-- One selvedge level: its segment lengths and its edge flags (spec/02, R22, R24). -/
structure Level where
  lens : List Nat
  ci : Bool
  co : Bool
deriving DecidableEq, Repr

/-- A vector register: width tag, the elements up to the filled length (each below 2^width), the selvedge with level 1
first (spec/02, R22). -/
structure VReg where
  wt : Width
  elems : List Word
  levels : List Level
deriving DecidableEq, Repr

/-- A predicate register or kc: the ascending element numbers whose bit is 1 (spec/02, R21, R25). -/
abbrev Pred := List Nat

/-- A sparse register: value format and the pairs in ascending coordinate order (spec/02, R26; spec/09, R162). -/
structure ZReg where
  fmt : Fmt
  pairs : List (Nat × Word)
deriving DecidableEq, Repr

/-- A tuple of a front register: its keys, payload and tag, 32 bits each (spec/10, R184). -/
structure FTuple where
  keys : List (BitVec 32)
  payload : BitVec 32
  tag : BitVec 32
deriving DecidableEq, Repr

/-- A front register: configuration word, insertion counter, tuples in slot order (spec/10, R184). -/
structure Front where
  cfg : Word
  ctr : BitVec 32
  tuples : List FTuple
deriving DecidableEq, Repr

/-- The kind of a bobbin (spec/14, R244). -/
inductive BobKind where
  | closed | stream | transfer
deriving DecidableEq, Repr

/-- A copy in a bobbin's queue: what its bcopy read at dispatch, and how far it has come (spec/14, R248, R257). cv: it
converts. next: the first element not done. first: the bobbin element that element 0 becomes. user: it is U mode's. mark:
the hart's scalar packets numbered below it come before its block. ord: its number among the hart's accesses. blk, seq: its
block and that block's number, none where it is not queued (spec/02, R39). -/
structure Copy where
  form : BitVec 2
  base : Word
  stride : Word
  cv : Option Word
  len : Nat
  mask : Option (List Nat)
  rcd : List Word
  idx : List Word
  z : Nat
  next : Nat
  first : Int
  dst : Word
  user : Bool
  mark : Nat
  ord : Nat
  blk : Word
  seq : Option Nat
deriving DecidableEq, Repr

/-- A post in a bobbin's queue: the counter, and what of the hart it follows: vector accesses numbered below num, scalar
ones below mark (spec/14, R254; spec/15, R265). -/
structure Post where
  addr : Word
  scope : Scope
  user : Bool
  num : Nat
  mark : Nat
  blk : Word
  seq : Option Nat
deriving DecidableEq, Repr

/-- An entry of a bobbin's queue (spec/14, R244, R254). -/
inductive BEntry where
  | copy (c : Copy)
  | post (p : Post)
deriving DecidableEq, Repr

/-- What a read of stream elements from one on waits for: the hart's packets that came before their copy
(spec/15, R265). -/
structure Gate where
  first : Nat
  num : Nat
  mark : Nat
deriving DecidableEq, Repr

/-- A bobbin; the elements of a stream lie in its TCM region (spec/14, R244, R245). -/
structure Bobbin where
  kind : BobKind
  ew : Width
  bsz : Nat
  boff : Nat
  dst : Word
  issued : Nat
  arrived : Nat
  reserved : Nat
  freed : Nat
  flt : Bool
  queue : List BEntry
  nb : Nat
  gates : List Gate
deriving DecidableEq, Repr

/-- A reservation on a stream bobbin that an interrupted instruction keeps (spec/14, R250). -/
structure Resv where
  bob : Nat
  first : Nat
  len : Nat
deriving DecidableEq, Repr

/-- How later indexed V-words of a block use a route slot (spec/18, R278). -/
inductive XRoute where
  | off | use (n : BitVec 3) | save (n : BitVec 3)
deriving DecidableEq, Repr

/-- A block in the vector queue or the K entry (spec/12, R213 to R215). mid: the word at off stopped inside an
instruction. sv: the hart's scalar packets numbered below it are performed before the block's first access (spec/05,
R93; spec/15, R260). vnum: the hart's vector packets numbered below it come from earlier blocks (spec/03, R60). fence: the
fences of the hart before it (spec/21, R332). own: it took one of its context's two reserved entries (spec/12, R213). -/
structure Block where
  addr : Word
  snap : Vector Word 16
  off : Nat
  started : Bool
  mid : Bool
  xr : XRoute
  mark : Nat
  sv : Nat
  vnum : Nat
  fence : Nat
  vv : Bool
  own : Bool
deriving DecidableEq, Repr

/-! ### Network packets -/

/-- One reduce-add: where, in which format, the addend, and the rounding of a floating-point add (spec/21, R331). -/
structure AddOp where
  loc : Nat
  fmt : Fmt
  rm : Rm
  sat : Bool
  val : Word
deriving DecidableEq, Repr

/-- What a packet performs at its point of performance (spec/21, R325, R331). -/
inductive PktBody where
  | write (cells : List Host.Cell)
  | add (ops : List AddOp)
deriving DecidableEq, Repr

/-- Where a packet is: in its hart's outbound buffer, in the network (with flits of it that may have crossed the bridge
already), whole in a die's bridge buffer, across the bridge with flits in the spill ring, in the queue of its point of
performance. -/
inductive Place where
  | outbound | net | buffer | ring | queue
deriving DecidableEq, Repr

/-- A translation that an access holds: ASID, level and page of the leaf used (spec/21, R337). -/
structure Held where
  asid : BitVec 16
  level : Nat
  va : Nat
deriving DecidableEq, Repr

/-- A write packet of a hart (spec/21, R325, R326, R332). num: its place in the hart's order of packets. fence: the fences of
the hart before its accesses, in program order. sca, vec, kb: it
holds accesses of S-words, of V-words, of V-words of a K block. plain: it may merge. rel: it is performed after the hart's
earlier scalar packets. grps: the instructions, by number, whose elements in it keep prefix visibility. uo: the one
instruction without it that made the packet. src and dst: dies. flits: its flits, of which sent have been injected,
and buf lie in the receive buffer of a bridge and spilt in its spill ring (spec/25, R363, R364); pads of them are padding
(spec/18, R292). arrival: its place among the
packets that have reached their queue, or the ring. tr: the translations it holds. sw, vw: the bytes written
by S-words and by V-words in it, which the hart's own loads of that side read before it is performed. -/
structure Pkt where
  hart : Nat
  num : Nat
  fence : Nat
  sca : Bool
  vec : Bool
  kb : Bool
  plain : Bool
  rel : Bool
  grps : List Nat
  uo : Option Nat
  body : PktBody
  tag : BitVec 8
  src : Nat
  dst : Nat
  place : Place
  flits : Nat
  sent : Nat
  buf : Nat
  spilt : Nat
  pads : Nat
  arrival : Nat
  tr : List Held
  poisoned : Bool
  sw : List Host.Cell
  vw : List Host.Cell
deriving DecidableEq, Repr

/-! ### What a waiting S-word leaves -/

/-- Progress of the S-word at pc that waits for another agent. -/
inductive SWait where
  | none
  /-- fwait parked (spec/18, R281). -/
  | parked (sd : SReg) (addr : Word) (deadline : Word)
  /-- ffill woke the parked fwait with the word it wrote. -/
  | woken (sd : SReg) (w : Word)
  /-- ctake waits to be served (spec/18, R286). -/
  | take (sd : SReg) (slot : Nat)
  /-- lwait waits; the word last read (spec/22, R356). -/
  | lwait (sd : SReg) (deadline : Word) (last : Word)
  /-- wfe waits (spec/05, R101). -/
  | wfe (sd : SReg) (deadline : Word)
  /-- trio waits for its partners (spec/12, R217). -/
  | trio (sd : SReg) (word : Word)
  /-- lnch waits at its step 4: the record read, and the physical address of its completion word (spec/22, R354). -/
  | lnch (ws : List Word) (pa : Nat)
deriving DecidableEq, Repr

/-- A join or leave of the tkjoin at pc, or a broadcast of the tkbc there, that has been sent to the hub of a channel: which
of them, whether the hub has accepted the broadcast, and the answer that has reached the core (spec/20, R314, R318). -/
structure TackReq where
  pc : Word
  ch : Nat
  joins : Bool
  leave : Bool
  taken : Bool
  ans : Option (BitVec 32)
deriving DecidableEq, Repr

/-- A tack arrival record: channel, phase, and the address of the tkbar that made it (spec/20, R317). -/
structure ArrRec where
  ch : Nat
  phase : BitVec 32
  pc : Word
deriving DecidableEq, Repr

/-- A member core's copy of a channel: phase count, unread broadcast, whether this hart's arrival of the current phase
has left (spec/20, R310, R315). -/
structure TackCopy where
  ch : Nat
  phase : BitVec 32
  latch : Option Word
  arrived : Bool
deriving DecidableEq, Repr

/-- An entry of the lane allocation table (spec/12, R205). -/
structure LaneEntry where
  tmask : BitVec 8
  gmask : BitVec 8
  want : BitVec 4
  gcap : BitVec 4
  wl : Width
  st : BitVec 2
  occ : Bool
  wgt : BitVec 8
deriving DecidableEq, Repr

/-- What a context that waits for lane groups asks for: the least grant, the want of R208, and whether a vsetl asks
(spec/12, R208, R209). -/
structure LaneAsk where
  need : Nat
  want : Nat
  vsetl : Bool
deriving DecidableEq, Repr

/-- Whether a context runs S-words (spec/02, R43; spec/22, R352). -/
inductive RunState where
  | idle | running | stopped
deriving DecidableEq, Repr

/-- Membership in a launch: die, pool entry, index within the launch (spec/22, R349). -/
structure LaunchRef where
  die : Nat
  entry : Nat
  idx : Nat
deriving DecidableEq, Repr

/-- A packed list of a remote gather: its chip, the port it left by, the destination and its width, whether what returns is
written there at once, the elements and offsets in list order, and what the peer returned (spec/26, R384, R390). -/
structure XList where
  chip : BitVec 12
  port : BitVec 4
  vd : VReg5
  w : Width
  early : Bool
  elems : List Nat
  offs : List Word
  reply : Option ListReply
deriving DecidableEq, Repr

/-- A record that xfwd.t forwarded: whether it is U mode's, the number of its block and the word's offset there, its
segment, chip and key, the port it left by, whether the instruction has trapped since, and the status returned (spec/26,
R384, R392). -/
structure XRecord where
  user : Bool
  blk : Option Nat
  off : Nat
  seg : Nat
  chip : BitVec 12
  key : BitVec 32
  port : BitVec 4
  kept : Bool
  reply : Option InboxReply
deriving DecidableEq, Repr

/-- A request of a hart that is outstanding at another chip: the hart and its partition, the port it left by, the segment of a
forwarded record, whether its answer is still wanted (spec/26, R384, R390, R392). -/
structure FabricOut where
  hart : Nat
  pid : Nat
  port : BitVec 4
  chip : BitVec 12
  seg : Option Nat
  live : Bool
deriving DecidableEq, Repr

/-- What this chip returns to a peer for a request (spec/26, R390, R392). -/
inductive FabricAns where
  | list (r : ListReply)
  | inbox (r : InboxReply)
deriving DecidableEq, Repr

/-- A cached translation: ASID, level of the leaf (1 to 3), VA of the page, its physical address, permissions u x w r
(spec/21, R333, R334). -/
structure TlbEntry where
  asid : BitVec 16
  level : Nat
  va : Nat
  pa : Nat
  u : Bool
  x : Bool
  w : Bool
  r : Bool
deriving DecidableEq, Repr

/-- The state of a hart context (spec/02, R18). blocks: the model's count of blocks that have left the queue, by which a trap
of an engine tells whether its block is still queued (spec/02, R39). copies: the copies issued. named: c.qpos and c.vbad name
the word of position 0 (spec/02, R42). kgrant: the groups held were taken for a K block; the lane state before (spec/12,
R215). fenced: the fences executed (spec/21, R332). kvFence: vvFence of the K blocks. savedQ: the fences before the blocks
that vsave.vq last saved, and whether each follows a fnc.vv; savedB: by bobbin, the order numbers of the entries that
bclose.s last saved (spec/15, R267). xvals: values that a gather into its own index
register has taken (spec/26, R390). vgates: by vector register, the packets that a read of a vldx's result waits for (spec/15,
R264, R265). tlb: the context's table of translations (spec/21, R333). -/
structure Hart where
  s : Vector Word 32
  pc : Word
  kmode : Bool
  run : RunState
  v : Vector VReg 32
  p : Vector Pred 32
  kc : Pred
  z : Vector ZReg 8
  f : Vector Front 4
  b : Vector Bobbin 16
  vl : BitVec 32
  vs : BitVec 32
  msh : Word
  k : BitVec 5
  flags : BitVec 9
  fi : Vector (BitVec 32) 9
  vdirty : BitVec 32
  pdirty : BitVec 32
  fdirty : BitVec 32
  lazy : Bool
  asid : BitVec 16
  cause : Word
  epc : Word
  tval : Word
  qpos : BitVec 32
  vbad : Word
  qdepth : BitVec 8
  vpend : Bool
  named : Bool
  pie : Bool
  ie : Bool
  pmode : Bool
  tvec : Word
  kscr : Word
  rq : List Word
  event : Bool
  pending : List Nat
  vq : List Block
  kq : Option Block
  blocks : Nat
  swait : SWait
  tkreq : Option TackReq
  arec : Option ArrRec
  tack : List TackCopy
  lane : LaneEntry
  settled : Bool
  waitFor : Option LaneAsk
  lastGrant : Nat
  kgrant : Option (BitVec 2)
  roff : Nat
  recs : Nat
  out : List Pkt
  nextNum : Nat
  fenced : Nat
  svBound : Nat
  vvFence : Bool
  kvFence : Bool
  savedQ : List (Nat × Bool)
  savedB : List (Nat × List (Nat × Nat))
  vgates : List (Nat × Nat × Nat)
  resv : Option Resv
  launch : Option LaunchRef
  task : Option Nat
  gang : Nat
  gangOf : Option Nat
  marks : List Nat
  xlists : List XList
  xvals : List (Nat × Word)
  xrecs : List XRecord
  tlb : List TlbEntry
deriving DecidableEq, Repr

/-! ### Core -/

/-- A sleeve: kind, recorded shape, the entries that are not zero by 256r + c, the index latch (spec/13, R225). -/
structure Tile where
  compacted : Bool
  shp : Word
  ents : List (Nat × BitVec 48)
  idx : List (BitVec 8)
deriving DecidableEq, Repr

/-- Where a row product takes its source: the values read at dispatch, or a bobbin's reserved elements (spec/13, R237). -/
inductive MSrc where
  | vals (xs : List Word)
  | bob (r : Resv)
deriving DecidableEq, Repr

/-- What a queued matrix command does (spec/13). rows: the rows whose mask bit is 1, where masked. pages: the
translations held, by VA bits 63:16. -/
inductive MWork where
  | load (base stride : Word) (rows : Option (List Nat)) (compact : Option (List (BitVec 8))) (pages : List (Nat × Nat))
  | restore (tile : Tile)
  | save (base : Word) (pages : List (Nat × Nat))
  | mul (vd : VReg5) (src : MSrc) (mask : Option (List Nat)) (compacted : Bool) (idx : Option MSrc)
deriving DecidableEq, Repr

/-- A command of the matrix queue: its hart, tile, shape word, block, whether it is U mode's, the hart's packets it
follows, the fences before its block, whether it has issued, the translations it holds (spec/13, R231, R233; spec/15, R265;
spec/21, R332). -/
structure MCmd where
  hart : Nat
  tile : Nat
  msh : Word
  blk : Word
  seq : Option Nat
  user : Bool
  num : Nat
  mark : Nat
  fence : Nat
  issued : Bool
  tr : List Held
  work : MWork
deriving DecidableEq, Repr

/-- A ring of a trio: the registers held, head first, and the roles whose token is posted (spec/12, R220). -/
structure Ring where
  regs : List VReg
  tokens : List Nat
deriving DecidableEq, Repr

/-- A trio: its word, the rings q0 to q3, the roles that have ended (spec/12, R216 to R220). -/
structure Trio where
  word : Word
  rings : Vector Ring 4
  ended : List Nat
deriving DecidableEq, Repr

/-- An entry of a core's walk cache: ASID, level 0 to 2, the part of the VA that selects it, the table entry
(spec/21, R334). -/
structure WalkEntry where
  asid : BitVec 16
  level : Nat
  sel : Nat
  entry : Word
deriving DecidableEq, Repr

/-- The state of a core. rot: where its dispatch pointer stands; lastV: when it last dispatched a V-word (spec/12, R204).
tlb: its slices (spec/21, R333). -/
structure Core where
  tiles : Vector Tile 8
  tileWait : List (Nat × BitVec 8)
  mq : List MCmd
  laneWait : List Nat
  trios : List Trio
  routes : List (Nat × List Byte)
  rot : BitVec 3
  lastV : Option Word
  tlb : Vector (List TlbEntry) 8
  walks : List WalkEntry
deriving DecidableEq, Repr

/-! ### Cluster -/

/-- A wait-table entry held by fwait (spec/18, R281). -/
structure WaitEntry where
  addr : Nat
  hart : Nat
deriving DecidableEq, Repr

/-- An item of the cutting table (spec/18, R285). -/
structure CutItem where
  val : Word
  wgt : Nat
deriving DecidableEq, Repr

/-- An entry of an expert location table (spec/26, R386). -/
structure LocEntry where
  key : BitVec 32
  chip : BitVec 12
  rasid : BitVec 16
  gbase : Word
  ibox : Word
deriving DecidableEq, Repr

/-- A location slot (spec/26, R386). -/
structure LocTable where
  sh : Nat
  ents : List LocEntry
deriving DecidableEq, Repr

/-- The state of a stream (spec/19, R293). -/
inductive StreamState where
  | empty | pending | resident | withdrawn
deriving DecidableEq, Repr

/-- The scoreboard's copy of a stream descriptor, and its producer (spec/19, R293, R297). -/
structure Stream where
  handle : Nat
  ncons : Nat
  state : StreamState
  sum : BitVec 32
  late : BitVec 32
  scope : BitVec 3
  producer : Option Nat
deriving DecidableEq, Repr

/-- One input of a task: its handle, test, non-strict mark, whether it has been released (spec/19, R295). -/
structure TaskIn where
  handle : Option Nat
  test : BitVec 4
  ns : Bool
  released : Bool
deriving DecidableEq, Repr

/-- One output of a task: its handle, whether it is reserved, the running summary (spec/19, R297, R307). -/
structure TaskOut where
  handle : Option Nat
  reserved : Bool
  sum : BitVec 32
deriving DecidableEq, Repr

/-- A task entry (spec/19, R295, R296). hart: the context that runs it. fired: its fire has run. tabs: its input status
at dispatch. -/
structure Task where
  rcd : Word
  entry : Word
  arg : Word
  ins : List TaskIn
  outs : List TaskOut
  order : Nat
  asid : BitVec 16
  spawner : Nat
  launch : LaunchRef
  hart : Option Nat
  fired : Bool
  tabs : Word
deriving DecidableEq, Repr

/-- The state of a cluster. rotor: where the pointer stands that serves its cores' packets; asks: the cores whose packet waits
for quota (spec/21, R325). -/
structure Cluster where
  en : Bool
  pid : BitVec 5
  tps : BitVec 3
  wlim : Nat
  waits : List WaitEntry
  cuts : Vector (List (List CutItem)) 4
  takes : List Nat
  takeNext : Nat
  locs : Vector (Option LocTable) 4
  tasks : List (Nat × Task)
  streams : List Stream
  retire : List Nat
  spawned : Nat
  rotor : BitVec 3
  asks : List Nat
  down : Bool
deriving DecidableEq, Repr

/-! ### Die -/

/-- A memory range register pair (spec/25, R369). -/
structure MemRange where
  base : Nat
  en : Bool
  hv : Bool
  ks : BitVec 5
  pid : BitVec 5
  size : Nat
deriving DecidableEq, Repr

/-- A launch record with its parameters (spec/22, R339). -/
structure LRecord where
  entry : Word
  cwa : Word
  mv : BitVec 11
  me : Bool
  nm1 : BitVec 8
  q : BitVec 6
  args : List Word
deriving DecidableEq, Repr

/-- A launch FIFO (spec/22, R341, R342). -/
structure Fifo where
  en : Bool
  fq : BitVec 6
  pid : BitVec 5
  asid : BitVec 16
  recs : List LRecord
  drops : BitVec 32
deriving DecidableEq, Repr

/-- A queue: the pool entries in it, and since when it is ready (spec/22, R345, R346). -/
structure Queue where
  en : Bool
  pid : BitVec 5
  pri : BitVec 3
  recs : List Nat
  readySince : Option Nat
deriving DecidableEq, Repr

/-- Where a launch stands (spec/22, R352, R357). -/
inductive LState where
  | queued | dispatched | failed (why : BitVec 4)
deriving DecidableEq, Repr

/-- A launch that holds a pool entry (spec/22, R344). cwa: the physical address of the completion word. live: harts not
ended. flags: the OR so far. issuer: the hart that executed lnch, and the handle of its launch. harts: the contexts it
was placed on. -/
structure Launch where
  rcd : LRecord
  cwa : Nat
  pid : BitVec 5
  asid : BitVec 16
  depth : Nat
  issuer : Option (Nat × Word)
  harts : List Nat
  st : LState
  live : Nat
  flags : BitVec 9
deriving DecidableEq, Repr

/-- A pool entry: its generation, and the launch that holds it (spec/22, R344). -/
structure PoolEntry where
  gen : BitVec 16
  launch : Option Launch
deriving DecidableEq, Repr

/-- A signal on its way to a hub (spec/20, R311, R318). -/
inductive HubSig where
  | arrive (h : Nat)
  | leave (h : Nat) (ans : Bool)
  | join (h : Nat) (ans : Bool)
  | bcast (h : Nat) (v : Word)
  | read (h : Nat)
deriving DecidableEq, Repr

/-- A signal on its way from a hub (spec/20, R312, R314, R318). -/
inductive HubOut where
  | release (phase : BitVec 32) (members : List Nat)
  | answer (h : Nat) (phase : BitVec 32)
  | accepted (h : Nat) (seq : BitVec 32)
  | value (v : Word) (members : List Nat)
deriving DecidableEq, Repr

/-- A tack channel at its hub (spec/20, R310, R318; spec/25, R368). leaving: arrived members whose leave waits for the
release. held: broadcast signals held. slot: members that still have to read the last broadcast. -/
structure Channel where
  en : Bool
  pid : BitVec 5
  members : List Nat
  phase : BitVec 32
  arrived : List Nat
  leaving : List (Nat × Bool)
  seq : BitVec 32
  held : List (Nat × Word)
  slot : List Nat
  toHub : List (Nat × HubSig)
  fromHub : List (Nat × HubOut)
deriving DecidableEq, Repr

/-- A port register, and the retries of one flit that have failed in a row (spec/26, R382 to R384). -/
structure Port where
  en : Bool
  up : Bool
  peer : BitVec 12
  ks : BitVec 8
  rtry : BitVec 32
  seq : Word
  fails : Nat
deriving DecidableEq, Repr

/-- The invalidation register; a kind above 2 starts nothing (spec/21, R337). -/
structure Inval where
  busy : Bool
  kind : BitVec 3
  asid : BitVec 16
  vpn : BitVec 40
deriving DecidableEq, Repr

/-- The pre-emption command register, and when its write was accepted (spec/20, R323). -/
structure Preempt where
  busy : Bool
  hart : BitVec 11
  ch : BitVec 7
  since : Nat
deriving DecidableEq, Repr

/-- The state of a die. lastLaunch: when it last dispatched a launch (spec/22, R346). fullAtTick: its receive buffer was full
at the last tick and since; ringFull: its ring is full and that has been counted (spec/25, R364). signals: pre-emption signals
on their way: arrival, channel, hart (spec/20, R323). poisonedLines, corrected: its controllers' counts, by stack (spec/25,
R366). -/
structure Die where
  quota : List (Nat × Nat)
  used : List (Nat × Nat)
  npois : BitVec 32
  root : Word
  inval : Inval
  sbase : BitVec 26
  sen : Bool
  spill : Bool
  spfull : BitVec 32
  fullAtTick : Bool
  ringFull : Bool
  ranges : List (Nat × MemRange)
  fifos : List (Nat × Fifo)
  pmax : List (Nat × Nat)
  dlim : List (Nat × Nat)
  queues : List (Nat × Queue)
  rot : List (Nat × Nat)
  pool : List (Nat × PoolEntry)
  chans : List (Nat × Channel)
  preempt : Preempt
  signals : List (Nat × Nat × Nat)
  routes : List (Nat × BitVec 8)
  ports : List (Nat × Port)
  memKeys : List (Nat × Nat)
  linkKeys : List (Nat × BitVec 256)
  lastLaunch : Option Word
  poisonedLines : List (Nat × Nat)
  corrected : List (Nat × Nat)
deriving DecidableEq, Repr

/-! ### Package -/

/-- An import-table register (spec/26, R385). -/
structure Import where
  en : Bool
  src : BitVec 12
  asid : BitVec 16
deriving DecidableEq, Repr

/-- A span of HBM that is read under another key, now, than its contents were written under (spec/25, R370). -/
structure Lost where
  base : Nat
  size : Nat
  now : Nat
deriving DecidableEq, Repr

/-- A span of HBM and the key under which its contents were written: 0 in clear, else the draw that made the key, plus 1
(spec/25, R370). -/
structure Keyed where
  base : Nat
  size : Nat
  key : Nat
deriving DecidableEq, Repr

/-- The boot stages; passed: an image had been accepted before boot stopped (spec/25, R372). -/
inductive BootState where
  | rom | stage1 | delveloth | stopped (passed : Bool)
deriving DecidableEq, Repr

/-- Thimble's state (spec/25, R373 to R375). counter: the steps the monotonic counter has taken since power good;
block: the identity block and how many of its indices are used; tree: the number of the current attestation tree and its
next index; certified: the identity index that signs its root; trees: the trees generated. -/
structure Thimble where
  measure : List Byte
  counter : Nat
  block : Option (Nat × Nat)
  tree : Option (Nat × Nat)
  certified : Option Nat
  noid : Bool
  trees : Nat
deriving DecidableEq, Repr

/-- What the last read by the boot cluster or the host returned: bytes, and the EP bit (spec/25, R367, R371). -/
structure BusRead where
  bytes : List Byte
  ep : Bool
deriving DecidableEq, Repr

/-- An answer to a request from the fabric: the requesting chip, the port it leaves by, the partitions whose memory it is of,
what it says, and whether it is still on its way (spec/26, R384, R390, R392). -/
structure Answer where
  chip : BitVec 12
  port : BitVec 4
  pids : List Nat
  ans : FabricAns
  owed : Bool
deriving DecidableEq, Repr

/-- A packet that left by a port: the link key and the nonce under which it is sealed, and its sealed bytes with their tag
(spec/26, R383). -/
structure SealedPkt where
  port : BitVec 4
  key : BitVec 256
  nonce : List Byte
  data : List Byte
deriving DecidableEq, Repr

/-- What stays of a context that was freed while parked: its number, its launch, its task and the slot it had, the marks of
its task's outputs, its count of packets, its fences, what vsave.vq noted of its blocks and bclose.s of its copies and posts,
the values that a remote gather has taken (spec/12, R206, R224; spec/15, R267; spec/19, R300, R305; spec/26, R390). -/
structure Evicted where
  id : Nat
  launch : LaunchRef
  task : Option Nat
  slot : Nat
  marks : List Nat
  nextNum : Nat
  fenced : Nat
  vvFence : Bool
  savedQ : List (Nat × Bool)
  savedB : List (Nat × List (Nat × Nat))
  xvals : List (Nat × Word)
deriving DecidableEq, Repr

/-- Who takes the next step, as the schedule names it (assumption log, 3: DESIGN CHOICE). -/
inductive Agent where
  /-- The S-word at the hart's pc, or an asynchronous event it takes first. -/
  | sword (h : Nat)
  /-- The next V-word of the hart's queue; brk: the element at which an interruption stops it (spec/06, R111). -/
  | vword (h : Nat) (brk : Option Nat)
  /-- An event of the opcode table. -/
  | event (i : Instr)
  /-- The oldest packet of a hart's outbound buffer is injected: its first flit, with up to n lines in it (spec/21,
  R325). -/
  | inject (h n : Nat)
  /-- The next flit of a packet is injected (spec/21, R325). -/
  | flit (i : Nat)
  /-- A packet crosses the bridge, or leaves the spill ring (spec/25, R363, R364). -/
  | cross (i : Nat)
  /-- A packet reaches the queue of its point of performance (spec/21, R326). -/
  | arrive (i : Nat)
  /-- A slice of a core caches a translation (spec/21, R333). -/
  | tlbFill (core : Nat) (asid : BitVec 16) (va : Word)
  /-- A context's table takes a translation from its slice (spec/21, R333). -/
  | ctxFill (h : Nat) (va : Word)
  /-- A core's walk cache keeps the entry of a level (spec/21, R334). -/
  | walkFill (core : Nat) (asid : BitVec 16) (va : Word) (level : Nat)
  /-- A core drops its cached translations. -/
  | tlbEvict (core : Nat)
  /-- Delveloth ends a launch (spec/22, R352). -/
  | endLaunch (d e : Nat)
  /-- Delveloth places evicted context i on a free slot, where its shim starts at an address (spec/12, R206, R224). -/
  | place (h : Nat) (pc : Word) (i : Nat)
  /-- Delveloth restarts a partition after an uncontained failure (spec/25, R377). -/
  | restart (pid : Nat)
  /-- Agent a takes its step, and the read response that carries n lines from one on is met poisoned on its way (spec/21,
  R328). -/
  | lostResponse (line n : Nat) (a : Agent)
  /-- The boot cluster reads a configuration register (spec/00, R6). -/
  | readReg (pa : Nat)
  /-- The host reads n bytes through BAR0 (spec/22, R341). -/
  | hostRead (off n : Nat)
  /-- A flit of a port has failed its CRC or its packet its tag, and is retried; ok: the retry succeeds (spec/26, R382 to
  R384). -/
  | retry (port : Nat) (ok : Bool)
  /-- Answer i to a request from the fabric has reached its chip (spec/26, R384). -/
  | answered (i : Nat)
deriving DecidableEq, Repr

/-- One choice of the schedule: the agent, and the core cycles that pass before its step. -/
structure Pick where
  agent : Agent
  cycles : Nat
deriving DecidableEq, Repr

/-- The state of the package. lossy: the lines whose read responses are met poisoned in this step (spec/21, R328). requests:
those of this chip's harts that are outstanding; wire: the packets that have left (spec/26, R383, R384). stopped: the
partitions that an uncontained failure has stopped (spec/25, R377). evicted: the contexts that wait to be placed (spec/12,
R224). -/
structure State where
  cur : Nat
  agenda : List Pick
  free : Nat
  turn : Nat
  brk : Option Nat
  arrivals : Nat
  time : Word
  nextTick : Word
  ftick : Word
  tickHeld : Bool
  mem : List Host.Cell
  poison : List Nat
  lossy : List Nat
  lost : List Lost
  keyed : List Keyed
  net : List Pkt
  harts : List (Nat × Hart)
  cores : List (Nat × Core)
  clusters : List (Nat × Cluster)
  dies : List (Nat × Die)
  pkgChans : List (Nat × Channel)
  plim : BitVec 12
  withheld : Bool
  halted : Bool
  ringWr : BitVec 32
  ringRd : BitVec 32
  ringDrops : BitVec 32
  fen : Bool
  chip : BitVec 12
  imports : List (Nat × Import)
  thimble : Thimble
  boot : BootState
  perst : Bool
  sessions : List (Nat × Nat)
  msix : List (BitVec 11)
  bus : BusRead
  reports : List (List Byte)
  answers : List Answer
  requests : List FabricOut
  wire : List SealedPkt
  stopped : List Nat
  evicted : List Evicted
deriving DecidableEq, Repr

/-! ### Reset -/

/-- A vector register at dispatch (spec/02, R35). -/
def VReg.empty : VReg := ⟨.w8, [], []⟩

/-- A sparse register at dispatch (spec/09, R162). -/
def ZReg.empty : ZReg := ⟨.int64, []⟩

/-- A front register at dispatch (spec/10, R184, R185). -/
def Front.empty : Front := ⟨0, 0, []⟩

/-- A closed bobbin (spec/14, R244). -/
def Bobbin.closed : Bobbin :=
  { kind := .closed, ew := .w8, bsz := 0, boff := 0, dst := 0, issued := 0, arrived := 0, reserved := 0, freed := 0,
    flt := false, queue := [], nb := 0, gates := [] }

/-- A lane table entry at reset (spec/12, R205). -/
def LaneEntry.reset : LaneEntry :=
  { tmask := 0, gmask := 0, want := 0, gcap := 8, wl := .w8, st := 0, occ := false, wgt := 1 }

/-- A hart context at reset; h is its slot (spec/02, R28; spec/21, R335; assumption log, 1: DESIGN CHOICE). -/
def Hart.reset (h : Nat) : Hart :=
  { s := Vector.replicate 32 0, pc := 0, kmode := false, run := .idle,
    v := Vector.replicate 32 VReg.empty, p := Vector.replicate 32 [], kc := [],
    z := Vector.replicate 8 ZReg.empty, f := Vector.replicate 4 Front.empty, b := Vector.replicate 16 Bobbin.closed,
    vl := 0, vs := 0, msh := 0, k := 1, flags := 0, fi := Vector.replicate 9 0xFFFFFFFF,
    vdirty := 0, pdirty := 0, fdirty := 0, lazy := false, asid := 0,
    cause := 0, epc := 0, tval := 0, qpos := 0, vbad := 0, qdepth := 0, vpend := false, named := false, pie := false, ie := false,
    pmode := false, tvec := 0, kscr := 0,
    rq := [], event := false, pending := [], vq := [], kq := none, blocks := 0, swait := .none, tkreq := none, arec := none, tack := [],
    lane := LaneEntry.reset, settled := false, waitFor := none, lastGrant := 0, kgrant := none, roff := 32768 - 289 * (h + 1), recs := 0,
    out := [], nextNum := 0, fenced := 0, svBound := 0, vvFence := false, kvFence := false, savedQ := [], savedB := [], vgates := [], resv := none, launch := none, task := none,
    gang := 1, gangOf := none, marks := [], xlists := [], xvals := [], xrecs := [], tlb := [] }

/-- A tile that is acquired: dense and zero (spec/13, R226). -/
def Tile.zero : Tile := ⟨false, 0, [], []⟩

/-- A core at reset. -/
def Core.reset : Core :=
  { tiles := Vector.replicate 8 Tile.zero, tileWait := [], mq := [], laneWait := [], trios := [], routes := [],
    rot := 0, lastV := none, tlb := Vector.replicate 8 [], walks := [] }

/-- A cluster at reset (spec/18, R281; spec/22, R348; spec/25, R368). -/
def Cluster.reset : Cluster :=
  { en := false, pid := 0, tps := 0, wlim := 256, waits := [], cuts := Vector.replicate 4 [], takes := [],
    takeNext := 0, locs := Vector.replicate 4 none, tasks := [], streams := [], retire := [], spawned := 0, rotor := 0, asks := [],
    down := false }

/-- A memory range at reset (spec/25, R369). -/
def MemRange.reset : MemRange := ⟨0, false, false, 0, 0, 0⟩

/-- A launch FIFO at reset (spec/22, R342). -/
def Fifo.reset : Fifo := ⟨false, 0, 0, 0, [], 0⟩

/-- A queue at reset (spec/22, R345). -/
def Queue.reset : Queue := ⟨false, 0, 0, [], none⟩

/-- A pool entry at reset (assumption log, 15: DESIGN CHOICE). -/
def PoolEntry.reset : PoolEntry := ⟨0, none⟩

/-- A tack channel at reset (spec/20, R310, R318; spec/25, R368). -/
def Channel.reset : Channel :=
  { en := false, pid := 0, members := [], phase := 0, arrived := [], leaving := [], seq := 1, held := [], slot := [],
    toHub := [], fromHub := [] }

/-- A port at reset (spec/26, R382). -/
def Port.reset : Port := ⟨false, false, 0, 0, 0, 0, 0⟩

/-- An import register at reset (spec/26, R385). -/
def Import.reset : Import := ⟨false, 0, 0⟩

/-- A die at reset. -/
def Die.reset : Die :=
  { quota := [], used := [], npois := 0, root := 0, inval := ⟨false, 0, 0, 0⟩, sbase := 0, sen := false, spill := false,
    spfull := 0, fullAtTick := false, ringFull := false, ranges := [], fifos := [], pmax := [], dlim := [], queues := [], rot := [],
    pool := [], chans := [], preempt := ⟨false, 0, 0, 0⟩, signals := [], routes := [], ports := [], memKeys := [], linkKeys := [], lastLaunch := none,
    poisonedLines := [], corrected := [] }

/-- Thimble before its ROM has run (assumption log, 1: DESIGN CHOICE). -/
def Thimble.reset : Thimble :=
  { measure := [], counter := 0, block := none, tree := none, certified := none, noid := false, trees := 0 }

/-- The package right after package reset (spec/00, R8). -/
def State.reset : State :=
  { cur := 0, agenda := [], free := 0, turn := 0, brk := none, arrivals := 0, time := 0, nextTick := 2048, ftick := 0,
    tickHeld := false, mem := [], poison := [], lossy := [], lost := [], keyed := [], net := [], harts := [], cores := [], clusters := [],
    dies := [], pkgChans := [], plim := 2200, withheld := false, halted := false, ringWr := 0, ringRd := 0,
    ringDrops := 0, fen := false, chip := 0, imports := [], thimble := Thimble.reset, boot := .rom, perst := true,
    sessions := [], msix := [], bus := ⟨[], false⟩, reports := [], answers := [], requests := [], wire := [],
    stopped := [], evicted := [] }

end Sys2Proof.Machine
end

