-- ==== Sys2Proof/Machine/Ops.lean ====
section
/-!
DEFINITION. Machine/Ops.lean: the named operations over maps, registers, memory, translation, packets, traps.

Every access of an instruction goes through these. Taking an exception is `takeTrap` and `takeAsync`; the return from one
is `returnTrap` (spec/02, R38 to R43).
-/
namespace Sys2Proof.Machine

open Sys2Proof

/-- The outcome of a meaning. -/
abbrev Out := Host.Outcome State Fault Refusal

/-! ### Widths -/

/-- Bits of a width (spec/03, R47). -/
def widthBits : Width → Nat
  | .w8 => 8
  | .w16 => 16
  | .w32 => 32
  | .w64 => 64

/-- Bytes of a width. -/
def widthBytes (w : Width) : Nat := widthBits w / 8

/-- The width tag a format gives its destination (spec/02, R22). -/
def fmtWidth : Fmt → Width
  | .int8 => .w8
  | .int16 => .w16
  | .int32 => .w32
  | .int64 => .w64
  | .uint8 => .w8
  | .uint16 => .w16
  | .uint32 => .w32
  | .uint64 => .w64
  | .fp16 => .w16
  | .bf16 => .w16
  | .fp32 => .w32
  | .fp64 => .w64
  | .rq8 => .w8
  | .rq16 => .w16
  | .ra48 => .w64

/-! ### Sparse maps -/

/-- The entry of key k, or the default of an unlisted key. -/
def mapGet {α : Type} (d : α) : List (Nat × α) → Nat → α
  | [], _ => d
  | (k, x) :: m, i => if k = i then x else mapGet d m i

/-- Sets the entry of key i, keeping the keys ascending. -/
def mapSet {α : Type} (i : Nat) (x : α) : List (Nat × α) → List (Nat × α)
  | [] => [(i, x)]
  | (k, y) :: m => if i < k then (i, x) :: (k, y) :: m else if i = k then (i, x) :: m else (k, y) :: mapSet i x m

/-- Removes the entry of key i. -/
def mapDel {α : Type} (i : Nat) (m : List (Nat × α)) : List (Nat × α) := m.filter (fun e => e.1 != i)

/-- Inserts into an ascending list without repeats. -/
def insertNat (i : Nat) : List Nat → List Nat
  | [] => [i]
  | k :: m => if i < k then i :: k :: m else if i = k then k :: m else k :: insertNat i m

/-- Replaces the element at position i, where there is one. -/
def setAt {α : Type} (l : List α) (i : Nat) (x : α) : List α := l.set i x

/-- An indexed list. -/
def indexed {α : Type} (l : List α) : List (Nat × α) := (List.range l.length).zip l

/-! ### Units of the package -/

/-- Hart number i (spec/00, R2). -/
def State.hart (s : State) (i : Nat) : Hart := mapGet (Hart.reset (i % 8)) s.harts i

/-- Replaces hart number i. -/
def State.setHart (s : State) (i : Nat) (h : Hart) : State := { s with harts := mapSet i h s.harts }

/-- Changes hart number i. -/
def State.updHart (s : State) (i : Nat) (f : Hart → Hart) : State := s.setHart i (f (s.hart i))

/-- The hart that executes. -/
def State.me (s : State) : Hart := s.hart s.cur

/-- Changes the hart that executes. -/
def State.updMe (s : State) (f : Hart → Hart) : State := s.updHart s.cur f

/-- Core number i over the package. -/
def State.core (s : State) (i : Nat) : Core := mapGet Core.reset s.cores i

/-- Changes core number i. -/
def State.updCore (s : State) (i : Nat) (f : Core → Core) : State := { s with cores := mapSet i (f (s.core i)) s.cores }

/-- Cluster number i over the package. -/
def State.cluster (s : State) (i : Nat) : Cluster := mapGet Cluster.reset s.clusters i

/-- Changes cluster number i. -/
def State.updCluster (s : State) (i : Nat) (f : Cluster → Cluster) : State :=
  { s with clusters := mapSet i (f (s.cluster i)) s.clusters }

/-- Die number i. -/
def State.die (s : State) (i : Nat) : Die := mapGet Die.reset s.dies i

/-- Changes die number i. -/
def State.updDie (s : State) (i : Nat) (f : Die → Die) : State := { s with dies := mapSet i (f (s.die i)) s.dies }

/-- The core of a hart (spec/00, R2). -/
def coreOf (h : Nat) : Nat := h / 8
/-- The cluster of a hart. -/
def clusterOf (h : Nat) : Nat := h / 64
/-- The die of a hart. -/
def dieOf (h : Nat) : Nat := h / 768
/-- The partition of a hart: that of its cluster (spec/25, R368). -/
def State.pidOf (s : State) (h : Nat) : BitVec 5 := (s.cluster (clusterOf h)).pid

/-- The compute dies stay in reset until an image has been accepted (spec/25, R372; assumption log, 48: DEDUCED). -/
def State.diesHeld (s : State) : Bool :=
  match s.boot with
  | .rom => true
  | .stage1 => false
  | .delveloth => false
  | .stopped passed => !passed

/-! ### Scalar registers -/

/-- Reads a scalar register; s0 reads zero (spec/02, R18, R19). -/
def Hart.getS (h : Hart) (r : SReg) : Word := if r = 0 then 0 else h.s.get r.toFin

/-- Writes a scalar register; a write to s0 is discarded (spec/02, R19). -/
def Hart.setS (h : Hart) (r : SReg) (x : Word) : Hart := if r = 0 then h else { h with s := h.s.set r.toNat x r.isLt }

/-- Reads a scalar register of the hart that executes. -/
def State.rs (s : State) (r : SReg) : Word := s.me.getS r

/-- Acts as hart h, for an event. -/
def State.onHart (s : State) (h : Nat) (f : State → State) : State := { f { s with cur := h } with cur := s.cur }

/-- Completes an S-word that writes no register: the next word. -/
def State.adv (s : State) : State := s.updMe fun h => { h with pc := h.pc + 4, swait := .none }

/-- Completes an S-word with its result in sd. -/
def State.wr (s : State) (sd : SReg) (x : Word) : State :=
  s.updMe fun h => { h.setS sd x with pc := h.pc + 4, swait := .none }

/-- Completes an S-word at another address: a taken branch or a jump. -/
def State.jump (s : State) (pc : Word) : State := s.updMe fun h => { h with pc := pc, swait := .none }

/-! ### Memory -/

/-- The byte at a location: what an unlisted one reads as is zero (assumption log, 2: DESIGN CHOICE). -/
def memGet : List Host.Cell → Nat → Byte
  | [], _ => 0
  | (k, b) :: m, i => if k = i then b else memGet m i

/-- Sets the byte of a location, keeping the locations ascending. -/
def memPut (i : Nat) (b : Byte) : List Host.Cell → List Host.Cell
  | [] => [(i, b)]
  | (k, c) :: m =>
    if i < k then (i, b) :: (k, c) :: m
    else if i = k then (i, b) :: m
    else (k, c) :: memPut i b m

/-- Writes a byte; a zero removes the entry. -/
def memSet (i : Nat) (b : Byte) (m : List Host.Cell) : List Host.Cell :=
  if b = 0 then m.filter (fun c => c.1 != i) else memPut i b m

/-- The canonical form: locations strictly rising, no listed byte zero. -/
def memWf : List Host.Cell → Bool
  | [] => true
  | [c] => c.2 != 0
  | c :: d :: m => c.2 != 0 && decide (c.1 < d.1) && memWf (d :: m)

/-- The locations of die d's shared SRAM, from its first byte (spec/21, R329). -/
def sramBase (d : Nat) : Nat := 2 ^ 52 + d * 2 ^ 32
/-- The locations of a cluster's scratchpad (spec/18, R272). -/
def padBase (cl : Nat) : Nat := 2 ^ 53 + cl * 2 ^ 32
/-- The locations of a core's TCM (spec/18, R272). -/
def tcmBase (core : Nat) : Nat := 2 ^ 54 + core * 2 ^ 32
/-- The locations of the boot SRAM (spec/25, R378). -/
def bootBase : Nat := 2 ^ 55

/-- The end of the HBM of both dies (spec/25, R362). -/
def hbmEnd : Nat := 0x60_0000_0000

/-- The 64-byte line of a location. -/
def lineOf (loc : Nat) : Nat := loc / 64

/-- The line of a location lies in a span that is read under another key than its contents were written under. -/
def Lost.holds (x : Lost) (loc : Nat) : Bool := decide (x.base ≤ 64 * lineOf loc ∧ 64 * lineOf loc < x.base + x.size)

/-- The span of that kind that a location lies in. -/
def lostAt (s : State) (loc : Nat) : Option Lost := s.lost.find? fun x => x.holds loc

/-- What is left of such a span without the locations from lo up to hi. -/
def Lost.cut (lo hi : Nat) (x : Lost) : List Lost :=
  if hi ≤ x.base ∨ x.base + x.size ≤ lo then [x]
  else [{ x with size := lo - x.base }, { x with base := hi, size := x.base + x.size - hi }].filter fun y => y.size != 0

/-- The spans without the locations from lo up to hi. -/
def cutLost (lo hi : Nat) (l : List Lost) : List Lost := l.flatMap (Lost.cut lo hi)

/-- The key that the contents of a line were written under, the latest entry first; what no entry covers is in clear. -/
def keyAt (line : Nat) (l : List Keyed) : Nat :=
  ((l.find? fun x => decide (x.base ≤ 64 * line ∧ 64 * line < x.base + x.size)).map (·.key)).getD 0

/-- A line through a cipher under a key, with its number PA[51:6] as the tweak; key 0 is none (spec/25, R370). -/
def underKey (f : List (List Nat) → List Nat → List Nat) (key line : Nat) (bs : List Byte) : List Byte :=
  if key = 0 then bs else xts f (Config.memKey (key - 1)) line bs

/-- A byte of a line whose contents are under one key and which is read under another, now: what lies in memory under the
first, deciphered under the second (spec/25, R370). -/
def readAs (mem : List Host.Cell) (keyed : List Keyed) (now loc : Nat) : Byte :=
  let line := lineOf loc
  let bs := (List.range 64).map fun i => memGet mem (64 * line + i)
  ((underKey decipher now line (underKey encipher (keyAt line keyed) line bs))[loc % 64]?).getD 0

/-- A byte of memory, as the controller of its line reads it (spec/25, R370; assumption log, 12: DESIGN CHOICE). -/
def State.byte (s : State) (loc : Nat) : Byte :=
  match lostAt s loc with
  | some x => readAs s.mem s.keyed x.now loc
  | none => memGet s.mem loc

/-- Bytes from a location. -/
def State.bytes (s : State) (loc n : Nat) : List Byte := (List.range n).map fun i => s.byte (loc + i)

/-- Writes a byte into memory. -/
def State.poke (s : State) (loc : Nat) (b : Byte) : State := { s with mem := memSet loc b s.mem }

/-- A 64-byte line is written whole, as it is read, under the key that it is read under (spec/25, R370). -/
def State.reseal (s : State) (x : Lost) (line : Nat) : State :=
  { s with
    mem := (List.range 64).foldl (fun m i => memSet (64 * line + i) (s.byte (64 * line + i)) m) s.mem,
    lost := cutLost (64 * line) (64 * line + 64) s.lost,
    keyed := ⟨64 * line, 64, x.now⟩ :: s.keyed }

/-- Writes a byte at its point of performance: a line that is read under another key than its contents were written under
comes under the new one with it (spec/25, R370). -/
def State.setByte (s : State) (loc : Nat) (b : Byte) : State :=
  match lostAt s loc with
  | none => s.poke loc b
  | some x => (s.reseal x (lineOf loc)).poke loc b

/-- Bytes as a number, little-endian (spec/03, R44). -/
def leNat : List Byte → Nat
  | [] => 0
  | b :: bs => b.toNat + 256 * leNat bs

/-- The low n bytes of a number, little-endian. -/
def toLe : Nat → Nat → List Byte
  | 0, _ => []
  | n + 1, x => BitVec.ofNat 8 x :: toLe n (x / 256)

/-- Cells from a location. -/
def cellsAt (loc : Nat) (bs : List Byte) : List Host.Cell := (indexed bs).map fun e => (loc + e.1, e.2)

/-- Performs cells. -/
def State.setCells (s : State) (cs : List Host.Cell) : State := cs.foldl (fun s c => s.setByte c.1 c.2) s

/-- Performs bytes from a location. -/
def State.setBytes (s : State) (loc : Nat) (bs : List Byte) : State := s.setCells (cellsAt loc bs)

/-- The base of the unit in which poison is kept: a 64-byte line of HBM, an 8-byte word of SRAM (spec/25, R366). -/
def poisonUnit (loc : Nat) : Nat := if loc < 2 ^ 52 then loc / 64 * 64 else loc / 8 * 8

/-- The size of that unit. -/
def poisonSize (loc : Nat) : Nat := if loc < 2 ^ 52 then 64 else 8

/-- Whether n bytes of memory meet poison. -/
def State.poisoned (s : State) (loc n : Nat) : Bool :=
  s.poison != [] && (List.range n).any fun i => s.poison.contains (poisonUnit (loc + i))

/-- A line whose read response is met poisoned in this step (spec/21, R328). -/
def State.loses (s : State) (line : Nat) : Bool := s.lossy.contains line

/-- Whether a read of n bytes meets poison: in memory, or in the response that carries a line of them (spec/21, R328; spec/25,
R367). -/
def State.readsPoison (s : State) (loc n : Nat) : Bool :=
  s.poisoned loc n || (s.lossy != [] && (List.range n).any fun i => s.loses (lineOf (loc + i)))

/-- Marks the unit of a location poisoned. -/
def State.addPoison (s : State) (loc : Nat) : State := { s with poison := insertNat (poisonUnit loc) s.poison }

/-- Clears the poison of the units that a write covers whole (spec/25, R366). -/
def State.clearPoison (s : State) (locs : List Nat) : State :=
  if s.poison = [] then s
  else { s with poison := s.poison.filter fun u => !(List.range (poisonSize u)).all fun i => locs.contains (u + i) }

/-- Performs bytes from a location, as a write that clears the poison of what it covers whole (spec/25, R366). -/
def State.putBytes (s : State) (loc : Nat) (bs : List Byte) : State :=
  (s.setBytes loc bs).clearPoison ((cellsAt loc bs).map (·.1))

/-! ### Translation -/

/-- What an access is for (spec/05, R85; spec/21, R334). -/
inductive Acc where
  | load | store | atomic | fetch
deriving DecidableEq, Repr

/-- The cause of a translation fault (spec/02, R37). -/
def Acc.cause : Acc → BitVec 6
  | .load => 0x06
  | .store => 0x07
  | .atomic => 0x07
  | .fetch => 0x08

/-- An access that cannot be made: its cause and subcode. -/
structure AccErr where
  code : BitVec 6
  sub : BitVec 8
deriving DecidableEq, Repr

/-- The page size of a leaf: 1 GiB, 2 MiB, 64 KiB (spec/21, R334). -/
def pageSize (level : Nat) : Nat := if level = 1 then 2 ^ 30 else if level = 2 then 2 ^ 21 else 2 ^ 16

/-- The index of a level into its table (spec/21, R334). -/
def levelIndex (level va : Nat) : Nat :=
  match level with
  | 0 => va / 2 ^ 43 % 8192
  | 1 => va / 2 ^ 30 % 8192
  | 2 => va / 2 ^ 21 % 512
  | _ => va / 2 ^ 16 % 32

/-- An 8-byte table entry. -/
def State.entry (s : State) (pa : Nat) : Word := BitVec.ofNat 64 (leNat (s.bytes pa 8))

/-- The pa field of a table entry, as an address. -/
def entryPa (e : Word) : Nat := (e.extractLsb' 16 36).toNat * 2 ^ 16

/-- One level of the walk, with the levels below it; peek gives an entry from a walk cache; none is a miss whatever the
access (spec/21, R334). -/
def walkFrom (s : State) (peek : Nat → Option Word) (asid : BitVec 16) (va table level : Nat) : Nat → Option TlbEntry
  | 0 => none
  | fuel + 1 =>
    let e := (peek level).getD (s.entry (table + 8 * levelIndex level va))
    if !e.getLsbD 0 || e.extractLsb' 52 12 != 0 || e.extractLsb' 6 10 != 0 then none
    else if e.getLsbD 1 then
      if level = 0 || entryPa e % pageSize level != 0 then none
      else some { asid := asid, level := level, va := va / pageSize level * pageSize level, pa := entryPa e,
                  u := e.getLsbD 5, x := e.getLsbD 4, w := e.getLsbD 3, r := e.getLsbD 2 }
    else if level = 3 then none
    else walkFrom s peek asid va (entryPa e) (level + 1) fuel

/-- The root array's entry of an ASID on die d (spec/21, R334). -/
def rootEntry (s : State) (d : Nat) (asid : BitVec 16) : Word :=
  s.entry ((s.die d).root.toNat / 8 * 8 % 2 ^ 52 + 8 * asid.toNat)

/-- The walk of the tables of die d (spec/21, R334). -/
def walkWith (s : State) (d : Nat) (peek : Nat → Option Word) (asid : BitVec 16) (va : Nat) : Option TlbEntry :=
  let e := rootEntry s d asid
  if e.getLsbD 0 && e.extractLsb' 52 12 == 0 && e.extractLsb' 1 15 == 0 then
    walkFrom s peek asid va (entryPa e) 0 4
  else none

/-- The walk of a unit that has no walk cache. -/
def walkDie (s : State) (d : Nat) (asid : BitVec 16) (va : Nat) : Option TlbEntry := walkWith s d (fun _ => none) asid va

/-- The part of an address that selects the entry of a level. -/
def levelSel (level va : Nat) : Nat := if level = 0 then va / 2 ^ 43 else if level = 1 then va / 2 ^ 30 else va / 2 ^ 21

/-- The entry of a level in a core's walk cache (spec/21, R334). -/
def walkHit (s : State) (core : Nat) (asid : BitVec 16) (va level : Nat) : Option Word :=
  ((s.core core).walks.find? fun w => w.level == level && w.asid == asid && w.sel == levelSel level va).map (·.entry)

/-- The walk of a core (spec/21, R334). -/
def walk (s : State) (core : Nat) (asid : BitVec 16) (va : Nat) : Option TlbEntry :=
  walkWith s (core / 96) (walkHit s core asid va) asid va

/-- A translation covers an address of an ASID. -/
def TlbEntry.covers (t : TlbEntry) (asid : BitVec 16) (va : Nat) : Bool :=
  t.asid = asid && decide (t.va ≤ va ∧ va < t.va + pageSize t.level)

/-- The slice of an address (spec/21, R333). -/
def sliceOf (va : Nat) : Fin 8 := ⟨va / 65536 % 8, Nat.mod_lt _ (by decide)⟩

/-- A translation in the address's slice (spec/21, R333). -/
def sliceHit (s : State) (core : Nat) (asid : BitVec 16) (va : Nat) : Option TlbEntry :=
  ((s.core core).tlb.get (sliceOf va)).find? fun t => t.covers asid va

/-- The leaf that hart h uses for an address under an ASID: from its context's table where the access is scalar or a fetch,
from the slice, from the tables (spec/21, R333, R334). -/
def leafOf (s : State) (h : Nat) (vec : Bool) (asid : BitVec 16) (va : Nat) : Option TlbEntry :=
  ((if vec then none else (s.hart h).tlb.find? fun t => t.covers asid va).or (sliceHit s (coreOf h) asid va)).or
    (walk s (coreOf h) asid va)

/-- The leaf permits the access; U mode needs u (spec/21, R334). -/
def TlbEntry.permits (t : TlbEntry) (a : Acc) (user : Bool) : Bool :=
  (t.u || !user) && match a with
    | .load => t.r
    | .store => t.w
    | .atomic => t.r && t.w
    | .fetch => t.x

/-- The enabled ranges of a partition (spec/25, R369). -/
def rangesOf (s : State) (pid : BitVec 5) : List MemRange :=
  ([0, 1].flatMap fun d => (s.die d).ranges.map (·.2)).filter fun r => r.en && r.pid == pid

/-- The addresses from pos up to stop lie in the ranges. -/
def covered (rs : List MemRange) (stop : Nat) : Nat → Nat → Bool
  | _, 0 => false
  | pos, fuel + 1 =>
    if stop ≤ pos then true
    else match rs.find? fun r => decide (r.base ≤ pos ∧ pos < r.base + r.size * 2 ^ 21) with
      | some r => covered rs stop (r.base + r.size * 2 ^ 21) fuel
      | none => false

/-- The page lies wholly in enabled ranges of the partition (spec/25, R369). -/
def pageOwned (s : State) (pid : BitVec 5) (pa size : Nat) : Bool := covered (rangesOf s pid) (pa + size) pa 130

/-- A TCM location inside an open stream buffer of a context of the core (spec/14, R245). -/
def inStream (s : State) (core off : Nat) : Bool :=
  (List.range 8).any fun k =>
    (s.hart (8 * core + k)).b.toList.any fun b =>
      b.kind == .stream && decide (b.boff * 64 ≤ off ∧ off < (b.boff + b.bsz) * 64)

/-- A TCM location inside a gather-fault record area of the core (spec/21, R335). -/
def inRecord (s : State) (core off : Nat) : Bool :=
  (List.range 8).any fun k =>
    let r := (s.hart (8 * core + k)).roff
    decide (r * 64 ≤ off ∧ off < r * 64 + 18496)

/-- A window address of hart h: its location (spec/05, R85, step 3; spec/14, R245; spec/21, R335). -/
def window (s : State) (h : Nat) (user : Bool) (ea : Nat) : Except AccErr Nat :=
  let off := ea % 2 ^ 40
  match ea / 2 ^ 40 % 256 with
  | 0 =>
    if off < 2 ^ 21 then
      if inStream s (coreOf h) off || (user && inRecord s (coreOf h) off) then .error ⟨0x09, 0⟩
      else .ok (tcmBase (coreOf h) + off)
    else .error ⟨0x09, 0⟩
  | 1 => if off < 2 ^ 23 then .ok (padBase (clusterOf h) + off) else .error ⟨0x09, 0⟩
  | 2 => if off < 48 * 2 ^ 20 then .ok (sramBase (dieOf h) + off) else .error ⟨0x09, 0⟩
  | _ => .error ⟨0x09, 0⟩

/-- The translation of an address of hart h (spec/21, R334; spec/25, R369). -/
def translate (s : State) (h : Nat) (vec user : Bool) (a : Acc) (ea : Nat) : Except AccErr Nat :=
  match leafOf s h vec (s.hart h).asid ea with
  | none => .error ⟨a.cause, 0⟩
  | some t =>
    if !t.permits a user then .error ⟨a.cause, 0⟩
    else if !pageOwned s (s.pidOf h) t.pa (pageSize t.level) then .error ⟨0x09, 1⟩
    else .ok (t.pa + ea % pageSize t.level)

/-- Steps 2 to 4 of an access of hart h: the location, or the cause (spec/05, R85). -/
def resolveAs (vec : Bool) (s : State) (h : Nat) (user : Bool) (a : Acc) (ea : Word) : Except AccErr Nat :=
  if ea.extractLsb' 56 8 != 0 then .error ⟨a.cause, 0⟩
  else if ea.extractLsb' 48 8 == 0xFF then window s h user ea.toNat
  else translate s h vec user a ea.toNat

/-- Those of a scalar access, or of a fetch. -/
def resolve (s : State) (h : Nat) (user : Bool) (a : Acc) (ea : Word) : Except AccErr Nat := resolveAs false s h user a ea

/-- Those of an element of a V-word, of a copy or of a tile load. -/
def resolveV (s : State) (h : Nat) (user : Bool) (a : Acc) (ea : Word) : Except AccErr Nat := resolveAs true s h user a ea

/-- A leaf as the access that used it holds it. -/
def TlbEntry.held (t : TlbEntry) : Held := ⟨t.asid, t.level, t.va⟩

/-- The translation that an access of hart h holds; a window address has none (spec/21, R337). -/
def holds (s : State) (h : Nat) (vec : Bool) (ea : Word) : List Held :=
  if ea.extractLsb' 48 8 == 0xFF then []
  else ((leafOf s h vec (s.hart h).asid ea.toNat).map TlbEntry.held).toList

/-! ### The hart's own packets -/

/-- A hart's packets not yet performed. -/
def State.pkts (s : State) (h : Nat) : List Pkt := s.net.filter (fun p => p.hart == h) ++ (s.hart h).out

/-- The locations a packet touches. -/
def Pkt.locs (p : Pkt) : List Nat :=
  match p.body with
  | .write cs => cs.map (·.1)
  | .add os => os.flatMap fun o => (List.range (widthBytes (fmtWidth o.fmt))).map fun i => o.loc + i

/-- Whether a packet touches one of n bytes from a location. -/
def Pkt.touches (p : Pkt) (loc n : Nat) : Bool := p.locs.any fun l => decide (loc ≤ l ∧ l < loc + n)

/-- A transfer numbered below num is in the bobbin's queue: some of its writes are to be performed. -/
def Bobbin.owes (b : Bobbin) (num : Nat) : Bool :=
  b.kind == .transfer && b.queue.any fun e => match e with
    | .copy c => decide (c.ord < num)
    | .post _ => false

/-- A command saves a tile and then releases it (spec/13, R243). -/
def MCmd.isSave (m : MCmd) : Bool :=
  match m.work with
  | .save _ _ => true
  | .mul _ _ _ _ _ => false
  | .load _ _ _ _ _ => false
  | .restore _ => false

/-- The hart's vector stores numbered below num are performed, those of its copies and tile saves too, and its scalar ones
numbered below mark (spec/13, R242; spec/14, R256; spec/15, R265). -/
def pushDone (s : State) (h num mark : Nat) : Bool :=
  ((s.pkts h).all fun p => (!p.vec || decide (num ≤ p.num)) && (!p.sca || decide (mark ≤ p.num)))
    && (s.hart h).b.toList.all (fun b => !b.owes num)
    && (s.core (coreOf h)).mq.all fun m => m.hart != h || !m.isSave || decide (num ≤ m.num)

/-- Whether a packet is a reduce-add. -/
def Pkt.isAdd (p : Pkt) : Bool :=
  match p.body with
  | .write _ => false
  | .add _ => true

/-- The bytes a write packet carries. -/
def PktBody.cells : PktBody → List Host.Cell
  | .write cs => cs
  | .add _ => []

/-- Whether a packet holds accesses of a side. -/
def Pkt.ofSide (p : Pkt) (vec : Bool) : Bool := if vec then p.vec else p.sca

/-- The bytes that a side of the hart has written in a packet. -/
def Pkt.writes (p : Pkt) (vec : Bool) : List Host.Cell := if vec then p.vw else p.sw

/-- Bytes as a hart's load reads them: memory, with the hart's own writes of the same side that are not yet performed
(spec/05, R92; spec/15, R260; assumption log, 29: DEDUCED). -/
def State.view (s : State) (h : Nat) (vec : Bool) (loc n : Nat) : List Byte :=
  (List.range n).map fun i =>
    (s.pkts h).foldl (fun b p => (((p.writes vec).find? fun c => c.1 == loc + i).map (·.2)).getD b) (s.byte (loc + i))

/-- Whether a hart's load of n bytes meets poison: a unit that one of its own writes will cover whole does not count
(spec/05, R92; spec/21, R328; spec/25, R366, R367). -/
def State.poisonedFor (s : State) (h : Nat) (vec : Bool) (loc n : Nat) : Bool :=
  (s.poison != [] || s.lossy != []) && (List.range n).any fun i =>
    (s.poison.contains (poisonUnit (loc + i)) || s.loses (lineOf (loc + i)))
      && !(s.pkts h).any fun p =>
        (List.range (poisonSize (loc + i))).all fun j => (p.writes vec).any fun c => c.1 == poisonUnit (loc + i) + j

/-! ### Quota -/

/-- A die's source number of a hart's cluster (spec/21, R324). -/
def sourceOf (h : Nat) : Nat := clusterOf h % 12

/-- The hardware maximum of a source's quota (spec/21, R324). -/
def quotaMax (n : Nat) : Nat :=
  if n < 12 then 32768 else if n < 28 then 16384 else if n < 32 then 196608
  else if n = 32 then 294912 else if n = 33 then 8192 else 2048

/-- The quota left lets a source begin a packet (spec/21, R325). -/
def mayBegin (s : State) (d src flits : Nat) : Bool :=
  decide (mapGet 0 (s.die d).used src + flits ≤ mapGet (quotaMax src) (s.die d).quota src)

/-- Its flits are charged (spec/21, R325). -/
def charge (s : State) (d src flits : Nat) : State :=
  s.updDie d fun x => { x with used := mapSet src (mapGet 0 x.used src + flits) x.used }

/-- A location of a TCM or scratchpad: it is reached without the die network (spec/18, R273). -/
def localLoc (loc : Nat) : Bool := decide (2 ^ 53 ≤ loc)

/-- A packet to a TCM or scratchpad. -/
def isLocal (p : Pkt) : Bool := p.locs.all localLoc

/-! ### Routes -/

/-- The die of a location, as die d reaches it. -/
def homeDie (d loc : Nat) : Nat := if loc < 2 ^ 52 then (if loc < 0x30_0000_0000 then 0 else 1) else d

/-- The memory unit of a location: HBM stack, SRAM slice, scratchpad, TCM (spec/21, R329; spec/25, R362). -/
def pointOf (loc : Nat) : Nat :=
  if loc < 2 ^ 52 then (if loc < 0x30_0000_0000 then 0 else 4) + loc / 4096 % 4
  else if loc < 2 ^ 53 then 16 + (loc - 2 ^ 52) / 2 ^ 32 * 16 + loc / 256 % 16
  else loc / 2 ^ 32

/-- The point of performance of a packet. -/
def Pkt.point (p : Pkt) : Nat := pointOf (p.locs.headD 0)

/-- A packet of the same hart that must have been performed before p leaves the hart: of a release, the earlier scalar ones;
of an instruction with prefix visibility, those with its earlier elements (spec/05, R91; spec/08, R152). -/
def Pkt.before (q p : Pkt) : Bool :=
  q.hart == p.hart && decide (q.num < p.num) && ((p.rel && q.sca) || q.grps.any p.grps.contains)

/-- The head of a hart's buffer need not wait for one of its packets at another point. -/
def mayLeave (s : State) (h : Nat) (p : Pkt) : Bool :=
  s.net.all fun q => q.hart != h || !(q.before p && (p.rel || q.point != p.point))

/-- A core of the cluster whose packet waits for quota is served before core k by the rotating pointer (spec/21, R325). -/
def askedFirst (s : State) (cl k : Nat) : Bool :=
  let c := s.cluster cl
  let turn (j : Nat) : Nat := (j + 8 - c.rotor.toNat) % 8
  c.asks.any fun j => decide (turn j < turn k)
    && (List.range 8).any fun i => (s.hart (64 * cl + 8 * j + i)).out.head?.any fun p => !isLocal p && mayLeave s (64 * cl + 8 * j + i) p

/-- A packet of a cluster is on its way to the point of a location, or some packet waits in that point's queue: a packet that
the cluster sends now is performed after them (spec/21, R326). -/
def routeBusy (s : State) (cl loc : Nat) : Bool :=
  s.net.any fun q => !isLocal q && q.point == pointOf loc && (q.place == .queue || clusterOf q.hart == cl)

/-- A write or atomic of a cluster that is performed in the step that sends it is one packet of one flit: it waits for quota,
also the bridge port's where it crosses, and for its place in the queue of its point, and is charged then; one that stays in
the cluster takes none (spec/18, R273; spec/21, R324 to R326; assumption log, 59: DESIGN CHOICE). -/
def State.sendFrom (s : State) (cl loc : Nat) : Option State :=
  let d := cl / 12
  let e := homeDie d loc
  if localLoc loc then some s
  else if routeBusy s cl loc || !mayBegin s d (cl % 12) 1 || (e != d && !mayBegin s e 32 1) then none
  else
    let s := charge s d (cl % 12) 1
    some (if e = d then s else charge s e 32 1)

/-- That of a hart: its core waits for its turn, and the pointer moves past it (spec/21, R325; assumption log, 59: DESIGN
CHOICE). -/
def State.sendNow (s : State) (h loc : Nat) : Option State :=
  let cl := clusterOf h
  let k := coreOf h % 8
  if localLoc loc then some s
  else if askedFirst s cl k then none
  else (s.sendFrom cl loc).map fun s => s.updCluster cl fun c => { c with rotor := BitVec.ofNat 3 (k + 1) }

/-! ### Outbound buffers -/

/-- What makes a new access: its side, whether a K block makes it, its instruction's number, whether its elements have prefix
visibility, whether it may merge, whether it is a release, the translation it holds, the fences of the hart before it in
program order, the number its command took in the queue, if it comes from one. -/
structure Src where
  vec : Bool
  kb : Bool
  grp : Nat
  uo : Bool
  plain : Bool
  rel : Bool
  tr : List Held
  fence : Nat
  num : Option Nat

/-- A packet of hart h for a new access. -/
def mkPkt (s : State) (h : Nat) (o : Src) (loc : Nat) (body : PktBody) : Pkt :=
  { hart := h, num := o.num.getD (s.hart h).nextNum, fence := o.fence, sca := !o.vec, vec := o.vec, kb := o.kb,
    plain := o.plain, rel := o.rel, grps := if o.vec && !o.uo then [o.grp] else [],
    uo := if o.vec && o.uo then some o.grp else none,
    body := body, tag := 0, src := dieOf h,
    dst := homeDie (dieOf h) loc,
    place := .outbound, flits := 1, sent := 0, buf := 0, spilt := 0, pads := 0, arrival := 0, tr := o.tr, poisoned := false,
    sw := if o.vec then [] else body.cells, vw := if o.vec then body.cells else [] }

/-- Merges a write into a packet of the same line (spec/21, R332). -/
def mergeCells (old new : List Host.Cell) : List Host.Cell :=
  old.filter (fun c => !new.any fun d => d.1 == c.1) ++ new

/-- The youngest packet with a new access in it. -/
def Pkt.joined (p q : Pkt) (body : PktBody) : Pkt :=
  { p with num := min p.num q.num, sca := p.sca || q.sca, vec := p.vec || q.vec, kb := p.kb || q.kb, grps := q.grps ++ p.grps.filter (· ∉ q.grps),
           uo := if p.uo = q.uo then p.uo else none, body := body, tr := q.tr ++ p.tr.filter (· ∉ q.tr),
           sw := mergeCells p.sw q.sw, vw := mergeCells p.vw q.vw }

/-- Whether the youngest packet takes a new plain store: of its line, with no fence between them in program order (spec/21,
R332). -/
def Pkt.takesStore (p : Pkt) (fence loc : Nat) : Bool :=
  p.plain && !p.isAdd && p.fence == fence && p.locs.all fun l => lineOf l == lineOf loc

/-- A store of a hart leaves for its outbound buffer; elements of one instruction in one line always merge, with uo = 1 too
(spec/08, R152; spec/21, R332; assumption log, 28: DESIGN CHOICE). -/
def State.push (s : State) (h : Nat) (o : Src) (loc : Nat) (bs : List Byte) : State :=
  let q := mkPkt s h o loc (.write (cellsAt loc bs))
  s.updHart h fun x =>
    let fresh := { x with out := x.out ++ [q], nextNum := x.nextNum + 1 }
    match x.out.getLast? with
    | some p =>
      match p.body with
      | .write cs =>
        if o.plain && p.takesStore o.fence loc then
          { x with out := x.out.dropLast ++ [p.joined q (.write (mergeCells cs (cellsAt loc bs)))] }
        else fresh
      | .add _ => fresh
    | none => fresh

/-! ### Events, stops and fault records -/

/-- Sets a hart's event bit (spec/05, R101). -/
def State.signal (s : State) (h : Nat) : State := s.updHart h fun x => { x with event := true }

/-- Posts a fault record, or counts it as dropped (spec/25, R378). -/
def State.postFault (s : State) (r : FaultRec) : State :=
  if (s.ringWr - s.ringRd) = 4096 then
    { s with ringDrops := if s.ringDrops = 0xFFFFFFFF then s.ringDrops else s.ringDrops + 1 }
  else
    let dw (x : Word) : List Byte := toLe 8 x.toNat
    let head : Word := r.kind ++ (0 : BitVec 16) ++ r.pid ++ r.hid
    let loc := bootBase + 0x7C0000 + 64 * (s.ringWr.toNat % 4096)
    let s := s.putBytes loc (dw head ++ dw r.cause ++ dw r.epc ++ dw r.tval ++ dw r.qpos ++ dw r.handle ++ dw s.time ++ dw 0)
    { s with ringWr := s.ringWr + 1 }

/-- A launch of die d by its pool entry (spec/22, R344). -/
def State.launch? (s : State) (d e : Nat) : Option Launch := (mapGet PoolEntry.reset (s.die d).pool e).launch

/-- Changes a launch. -/
def State.updLaunch (s : State) (d e : Nat) (f : Launch → Launch) : State :=
  s.updDie d fun x =>
    let p := mapGet PoolEntry.reset x.pool e
    { x with pool := mapSet e { p with launch := p.launch.map f } x.pool }

/-- A launch handle (spec/22, R355). -/
def handleOf (s : State) (d e : Nat) : Word :=
  (0 : BitVec 32) ++ (mapGet PoolEntry.reset (s.die d).pool e).gen ++ (0 : BitVec 3) ++ BitVec.ofNat 1 d ++ BitVec.ofNat 12 e

/-- The handle of a hart's launch, or 0. -/
def hartHandle (s : State) (h : Nat) : Word :=
  match (s.hart h).launch with
  | some l => handleOf s l.die l.entry
  | none => 0

/-- A tack channel by hub (0, 1: the dies; 2: the package) and number (spec/20, R308). -/
def State.chan (s : State) (hub ch : Nat) : Channel :=
  if hub = 2 then mapGet Channel.reset s.pkgChans ch else mapGet Channel.reset (s.die hub).chans ch

/-- Changes a tack channel. -/
def State.updChan (s : State) (hub ch : Nat) (f : Channel → Channel) : State :=
  if hub = 2 then { s with pkgChans := mapSet ch (f (s.chan hub ch)) s.pkgChans }
  else s.updDie hub fun d => { d with chans := mapSet ch (f (s.chan hub ch)) d.chans }

/-- The hub of a channel for a hart. -/
def hubOf (h ch : Nat) : Nat := if 64 ≤ ch then 2 else dieOf h

/-- One-way latency of a channel (spec/20, R308). -/
def tackLat (ch : Nat) : Nat := if 64 ≤ ch then 56 else 24

/-- A signal sets out for the hub of its channel. -/
def State.sendHub (s : State) (h ch : Nat) (g : HubSig) : State :=
  s.updChan (hubOf h ch) ch fun c => { c with toHub := c.toHub ++ [(s.time.toNat + tackLat ch, g)] }

/-- The answer to a hart's join or leave is wanted no more: the hart has stopped. -/
def Channel.unanswer (c : Channel) (h : Nat) : Channel :=
  { c with
    toHub := c.toHub.map fun e => match e.2 with
      | .join i _ => if i = h then (e.1, .join h false) else e
      | .leave i _ => if i = h then (e.1, .leave h false) else e
      | _ => e,
    leaving := c.leaving.map fun e => if e.1 = h then (h, false) else e,
    fromHub := c.fromHub.filter fun e => match e.2 with
      | .answer i _ => i != h
      | _ => true }

/-- A hart leaves every channel of which it is a member, or whose join is under way; unread broadcasts and the arrival
record are dropped (spec/20, R320). -/
def State.leaveTack (s : State) (h : Nat) : State :=
  let x := s.hart h
  let asked := match x.tkreq with
    | some r => if r.joins && r.ans.isNone then [r.ch] else []
    | none => []
  let s := asked.foldl (fun s ch => s.updChan (hubOf h ch) ch fun c => c.unanswer h) s
  let s := (x.tack.map (·.ch) ++ asked.filter fun ch => x.tack.all fun t => t.ch != ch).foldl
    (fun s ch => s.sendHub h ch (.leave h false)) s
  s.updHart h fun x => { x with tack := [], arec := none, tkreq := none }

/-- Takes back a broadcast signal that the hub has not accepted (spec/20, R318). -/
def State.cancelBcast (s : State) (h : Nat) : State :=
  match (s.hart h).tkreq with
  | none => s
  | some r =>
    if r.joins || r.taken then s
    else
      (s.updChan (hubOf h r.ch) r.ch fun c =>
        { c with held := c.held.filter (fun e => e.1 != h),
                 toHub := c.toHub.filter fun e => match e.2 with
                   | .bcast i _ => i != h
                   | _ => true }).updHart h fun x => { x with tkreq := none }

/-- Takes back what a waiting S-word has under way, when a trap is taken or its hart stops: a parked fwait's entry, also of
one that has been woken and has not completed, a ctake request, a broadcast signal not accepted (spec/02, R39; spec/18,
R281; spec/20, R318). -/
def State.cancelWait (s : State) (h : Nat) : State :=
  let s := s.cancelBcast h
  let s := match (s.hart h).swait with
    | .parked _ _ _ => s.updCluster (clusterOf h) fun c => { c with waits := c.waits.filter fun e => e.hart != h }
    | .take _ _ => s.updCluster (clusterOf h) fun c => { c with takes := c.takes.filter fun e => e != h }
    | _ => s
  s.updHart h fun x => { x with swait := .none }

/-- The slots of a trio: loader, computer, storer (spec/12, R216). -/
def trioSlots (w : Word) : List Nat :=
  [(w.extractLsb' 0 3).toNat, (w.extractLsb' 3 3).toNat, (w.extractLsb' 6 3).toNat]

/-- The slots of the members that have not ended. -/
def Trio.live (t : Trio) : List Nat := ((indexed (trioSlots t.word)).filter fun e => !t.ended.contains e.1).map (·.2)

/-- The trio of a hart that has not ended in it, and its role (spec/12, R217). -/
def trioOf (s : State) (h : Nat) : Option (Trio × Nat) :=
  match (s.core (coreOf h)).trios.find? fun t => t.live.contains (h % 8) with
  | some t => some (t, (trioSlots t.word).idxOf (h % 8))
  | none => none

/-- The producing roles of ring j (spec/12, R216). -/
def ringPmask (w : Word) (j : Nat) : BitVec 3 := (w >>> (20 + 12 * j)).setWidth 3

/-- Replaces the trio of a word on a core. -/
def updTrio (s : State) (core : Nat) (w : Word) (f : Trio → Trio) : State :=
  s.updCore core fun c => { c with trios := c.trios.map fun t => if t.word = w then f t else t }

/-- The slot whose entry holds the grant of a trio: the computer's, or once it has ended that of the first member left
(spec/12, R206, R218; assumption log, 30: DEDUCED). -/
def Trio.holder (t : Trio) : Nat :=
  let c := (t.word.extractLsb' 3 3).toNat
  if t.live.contains c then c else t.live.headD c

/-- The lane state of an entry whose context waits for groups no more: another member of its trio may. -/
def restSt (x : LaneEntry) (others : Bool) : BitVec 2 := if others then 2 else if x.gmask = 0 then 0 else 1

/-- Another member of the hart's trio waits for groups. -/
def mateWaits (s : State) (h : Nat) : Bool :=
  match trioOf s h with
  | some (t, _) => t.live.any fun k => k != h % 8 && (s.hart (8 * coreOf h + k)).waitFor.isSome
  | none => false

/-- A member leaves its trio: its tokens are posted when it ends; the entry that held the grant passes it on, and waits no
more for the member's groups; the last one dissolves the trio and returns the grant (spec/12, R209, R218, R220; assumption
log, 30: DEDUCED). -/
def State.endTrio (s : State) (h : Nat) (post : Bool) : State :=
  match trioOf s h with
  | none => s
  | some (t, r) =>
    let u := { t with
      ended := insertNat r t.ended,
      rings := if post then
          Vector.ofFn fun j : Fin 4 =>
            let g := t.rings.get j
            if (ringPmask t.word j.val).getLsbD r then { g with tokens := insertNat r g.tokens } else g
        else t.rings }
    let s := updTrio s (coreOf h) t.word fun _ => u
    if u.live = [] then s.updCore (coreOf h) fun c => { c with trios := c.trios.filter fun v => v.word != t.word }
    else
      let e := (s.hart (8 * coreOf h + t.holder)).lane
      let waits := u.live.any fun k => (s.hart (8 * coreOf h + k)).waitFor.isSome
      s.updHart (8 * coreOf h + u.holder) fun x =>
        { x with lane := { x.lane with gmask := e.gmask, st := if x.lane.st = 3 then 3 else restSt e waits } }

/-- A hart stands in the queue of no core of its gang any more (spec/12, R209; spec/18, R287). -/
def State.dropLaneWait (s : State) (h : Nat) : State :=
  (List.range (s.hart h).gang).foldl (fun s i =>
    s.updCore (coreOf h + i) fun c => { c with laneWait := c.laneWait.filter (· != h % 8) }) s

/-- Frees a hart's lane groups, tiles, gang slots and waiting places (spec/05, R104; spec/12, R206, R218; spec/18,
R289). -/
def State.freeLanes (s : State) (h : Nat) (post : Bool) : State :=
  let s := (s.endTrio h post).dropLaneWait h
  let n := (s.hart h).gang
  let s := (List.range n).foldl (fun s i => s.updHart (h + 8 * i) fun x =>
    { x with lane := { x.lane with gmask := 0, tmask := 0, st := 0, occ := false },
             gangOf := none, gang := 1, settled := false, waitFor := none, lastGrant := 0, kgrant := none }) s
  s.updCore (coreOf h) fun c =>
    { c with tileWait := c.tileWait.filter fun e => e.1 != h % 8,
             mq := c.mq.filter fun m => m.hart != h }

/-- The answers to requests of a hart are wanted no more: of its lists alone, or of its records too (spec/26, R390, R392). -/
def State.unwant (s : State) (h : Nat) (recs : Bool) : State :=
  { s with requests := s.requests.map fun r =>
      if r.hart = h ∧ (recs || r.seg.isNone) then { r with live := false } else r }

/-- A hart stops because its launch fails or an undelivered trap stops it; its writes not yet injected and its copies are
dropped (spec/02, R43; spec/22, R352; assumption log, 36: DESIGN CHOICE). -/
def State.stopHart (s : State) (h : Nat) : State :=
  let s := (((s.cancelWait h).leaveTack h).freeLanes h false).unwant h true
  s.updHart h fun x => { x with run := .stopped, vq := [], kq := none, swait := .none, resv := none, task := none,
                                out := [], xlists := [], xvals := [], xrecs := [],
                                b := x.b.map fun y => { y with queue := [] } }

/-- The 56 bits that c.epc and c.vbad hold (spec/02, R28). -/
def low56 (v : Word) : Word := (v.setWidth 56).setWidth 64

/-- Frees task entries: those that stay, the numbers still to be retired, the copies of the descriptors that an entry still
names, with no producer that has gone (spec/19, R293, R296). -/
def Cluster.keepTasks (c : Cluster) (keep : Nat × Task → Bool) : Cluster :=
  let ts := c.tasks.filter keep
  let live (i : Nat) : Bool := ts.any fun t => t.1 == i
  let names (h : Nat) (t : Task) : Bool := t.outs.any (·.handle == some h) || t.ins.any (·.handle == some h)
  { c with tasks := ts, retire := c.retire.filter live,
           streams := (c.streams.filter fun x => ts.any fun t => names x.handle t.2).map fun x =>
             { x with producer := x.producer.filter live } }

/-- Discards the tasks of a launch (spec/19, R298; spec/22, R352). -/
def State.dropTasks (s : State) (d e : Nat) : State :=
  (List.range 12).foldl (fun s c =>
    s.updCluster (12 * d + c) fun x =>
      x.keepTasks fun t => !(t.2.launch.die == d && t.2.launch.entry == e)) s

/-- The running harts of a launch, those of its tasks among them. -/
def launchHarts (s : State) (d e : Nat) : List Nat :=
  (s.harts.filter fun x => match x.2.launch with
    | some r => r.die == d && r.entry == e && x.2.run == .running
    | none => false).map (·.1)

/-- The record of a hart that stops: 1 for a launch that an undelivered trap ends, 2 for poison, else 5 (spec/25, R378;
assumption log, 36: DESIGN CHOICE). -/
def State.postStop (s : State) (why : BitVec 4) (h : Nat) : State :=
  s.postFault
    { kind := if why = 1 then 1 else if why = 2 then 2 else 5, pid := (0 : BitVec 3) ++ s.pidOf h, hid := BitVec.ofNat 32 h,
      cause := 0, epc := low56 (s.hart h).pc, tval := 0, qpos := 0, handle := hartHandle s h }

/-- A launch fails: its harts stop at once, each with a record but the one that has posted its own; their flags join its
own, its tasks are discarded; the completion word follows (spec/22, R351, R352; spec/25, R377, R378). -/
def State.failLaunchOf (s : State) (d e : Nat) (why : BitVec 4) (own : Option Nat) : State :=
  match s.launch? d e with
  | none => s
  | some l =>
    match l.st with
    | .failed _ => s
    | _ =>
      let hs := launchHarts s d e
      let raised := hs.foldl (fun f h => f ||| (s.hart h).flags) 0
      let s := (hs.filter fun h => own != some h).foldl (fun s h => s.postStop why h) s
      let s := hs.foldl State.stopHart s
      let s := s.dropTasks d e
      let s := { s with evicted := s.evicted.filter fun x => !(x.launch.die == d && x.launch.entry == e) }
      let s := s.updDie d fun x =>
        { x with queues := x.queues.map fun q => (q.1, { q.2 with recs := q.2.recs.filter (· != e) }) }
      s.updLaunch d e fun l =>
        { l with st := .failed why, live := 0, flags := l.flags ||| raised,
                 harts := l.harts ++ hs.filter fun h => !l.harts.contains h }

/-- A launch fails for a cause that no hart of it has recorded. -/
def State.failLaunch (s : State) (d e : Nat) (why : BitVec 4) : State := s.failLaunchOf d e why none

/-! ### Traps -/

/-- c.cause (spec/02, R36). -/
def causeWord (async : Bool) (sub : BitVec 8) (src : BitVec 2) (code : BitVec 6) : Word :=
  BitVec.ofBool async ++ (0 : BitVec 47) ++ sub ++ src ++ code

/-- c.qpos (spec/02, R39). -/
def qposWord (t : TrapReq) : BitVec 32 :=
  if t.src = 0 then 0
  else match t.pos with
    | some p => if t.src = 1 then t.off ++ (0 : BitVec 11) ++ p else (0 : BitVec 27) ++ p
    | none => 0xFFFF001F

/-- The trap words and the entry into K mode (spec/02, R38, R39). -/
def Hart.enterK (x : Hart) (cause tval vbad : Word) (qpos : BitVec 32) (vpend : Bool) : Hart :=
  { x with
    cause := cause, epc := low56 x.pc, tval := tval, vbad := low56 vbad, qpos := qpos,
    named := !cause.getLsbD 63 && cause.extractLsb' 6 2 == 1, qdepth := BitVec.ofNat 8 x.vq.length, vpend := vpend,
    pie := x.ie, ie := false, pmode := false, kmode := true, pc := x.tvec }

/-- A trap that is not delivered: the hart stops, a fault record is posted, the launch fails (spec/02, R43). -/
def State.undelivered (s : State) (h : Nat) (t : TrapReq) : State :=
  let poison := t.code == 0x10
  let x := s.hart h
  let s := s.postFault
    { kind := if poison then 2 else 1, pid := (0 : BitVec 3) ++ s.pidOf h, hid := BitVec.ofNat 32 h,
      cause := causeWord false t.sub t.src t.code, epc := low56 x.pc, tval := t.tval, qpos := (qposWord t).setWidth 64,
      handle := hartHandle s h }
  let s := match x.launch with
    | some l => s.failLaunchOf l.die l.entry (if poison then 2 else 1) (some h)
    | none => s
  s.stopHart h

/-- The slot of a hart's core whose entry holds its grant (spec/12, R218). -/
def holderOf (s : State) (h : Nat) : Nat :=
  match trioOf s h with
  | some (t, _) => 8 * coreOf h + t.holder
  | none => h

/-- A hart waits for lane groups no more: it leaves the queues, and its entries show what they hold (spec/12, R205, R209;
spec/18, R287). -/
def State.leaveLaneWait (s : State) (h : Nat) : State :=
  let s := s.dropLaneWait h
  if (s.hart h).waitFor.isNone then s
  else
    let others := mateWaits s h
    ((List.range (s.hart h).gang).foldl (fun s i => s.updHart (holderOf s h + 8 * i) fun x =>
      { x with lane := { x.lane with st := if x.lane.st = 3 then 3 else restSt x.lane others } }) s).updHart h fun x =>
        { x with waitFor := none }

/-- A trap withdraws the V side's waits for tiles and lane groups, and its lists of a remote gather; the V-word starts them
anew after eret (spec/12, R209, R214; spec/26, R390; assumption log, 17: DEDUCED). -/
def State.withdrawWaits (s : State) (h : Nat) : State :=
  let s := s.updCore (coreOf h) fun c => { c with tileWait := c.tileWait.filter (fun e => e.1 != h % 8) }
  ((s.leaveLaneWait h).unwant h false).updHart h fun x => { x with settled := false, xlists := [] }

/-- Takes a synchronous trap at hart h (spec/02, R38, R39, R43). -/
def takeTrap (s : State) (h : Nat) (t : TrapReq) : State :=
  if (s.hart h).kmode || t.code == 0x10 then s.undelivered h t
  else
    let s := (s.cancelWait h).withdrawWaits h
    s.updHart h fun x =>
      x.enterK (causeWord false t.sub t.src t.code) t.tval (if t.src = 0 then 0 else t.blk) (qposWord t) t.vpend

/-- The block at position 0 stopped inside an instruction (spec/02, R40). -/
def Hart.stopped (x : Hart) : Bool := (x.vq.head?.map (·.mid)).getD false

/-- A trap of the copy engine (src 2) or the matrix engine (src 3) for a command of a block: the block's position is 0 while
it is still queued, since only the oldest block dispatches (spec/02, R39). -/
def engineTrap (s : State) (h : Nat) (src : BitVec 2) (code : BitVec 6) (sub : BitVec 8) (tval blk : Word)
    (seq : Option Nat) : State :=
  let x := s.hart h
  takeTrap s h { code := code, sub := sub, src := src, tval := tval, blk := blk,
                 pos := if seq = some x.blocks ∧ x.vq ≠ [] then some 0 else none, off := 0,
                 vpend := x.stopped }

/-- Takes the asynchronous event of the lowest pending channel (spec/02, R38; spec/20, R323). -/
def takeAsync (s : State) (h : Nat) : State :=
  match (s.hart h).pending with
  | [] => s
  | ch :: rest =>
    let s := (s.cancelWait h).withdrawWaits h
    s.updHart h fun x =>
      { x.enterK (causeWord true (BitVec.ofNat 8 ch) 0 0x11) 0 0 0 x.stopped with
        pending := rest }

/-- The S-word at pc is a tkjoin, or a tkbc that the hub has accepted: it completes first (spec/20, R314, R318). -/
def Hart.tackHolds (x : Hart) : Bool :=
  match x.tkreq with
  | some r => r.pc == x.pc && (r.joins || r.taken)
  | none => false

/-- The number of the block that executes; none for the K entry. -/
def Hart.blockSeq (x : Hart) : Option Nat := if x.kq.isSome then none else some x.blocks

/-- A forwarded record is of the V-word at which its side's block stands (spec/26, R392). -/
def Hart.ownsRec (x : Hart) (r : XRecord) : Bool :=
  if r.user then r.blk == some x.blocks && x.vq.head?.any fun b => b.off == r.off
  else x.kq.any fun b => b.off == r.off

/-- An xfwd.t has records out: it completes before an interruption is taken (spec/26, R392; assumption log, 39: DEDUCED). -/
def Hart.forwards (x : Hart) : Bool := x.xrecs.any fun r => r.user && !r.kept && x.ownsRec r

/-- A trap of an engine for one of U mode's commands waits: the hart is in K mode, or an xfwd.t completes first (spec/02,
R43; spec/26, R392). -/
def Hart.holdsEngine (x : Hart) (user : Bool) : Bool := x.kmode && user || x.forwards

/-- Whether an asynchronous event is taken before the hart's next S-word; not while an xfwd.t waits (spec/02, R38; spec/20,
R314, R318; spec/26, R392; assumption log, 55: DEDUCED). -/
def Hart.asyncReady (x : Hart) : Bool :=
  !x.kmode && x.ie && x.pending != [] && !x.forwards && !x.tackHolds && match x.swait with
    | .woken _ _ => false
    | _ => true

/-- Position 0 after eret: the word that c.qpos and c.vbad name, when c.vbad is its block. A trap of a V-word names one, and
so does K mode by a write of either word; a trap of an engine names none (spec/02, R39, R42; spec/12, R214; assumption log,
23: DEDUCED). -/
def resumeBlock (x : Hart) (b : Block) : Block :=
  let off := (x.qpos.extractLsb' 16 16).toNat
  if x.named ∧ x.vbad = low56 b.addr then { b with off := off, mid := b.mid && off == b.off } else b

/-- Clears the fault flag of a bobbin that has one, with its dirty bit (spec/14, R244, R252). -/
def Hart.clearFlt (x : Hart) (i : Fin 16) : Hart :=
  let y := x.b.get i
  if y.flt then
    { x with b := x.b.set i { y with flt := false }, fdirty := x.fdirty ||| ((1 : BitVec 32) <<< (12 + i.val)) }
  else x

/-- The return from a trap (spec/02, R42; spec/14, R252; spec/20, R317). -/
def returnTrap (s : State) : State :=
  s.updMe fun x =>
    (List.finRange 16).foldl Hart.clearFlt { x with
      kmode := x.pmode, ie := x.pie, pc := x.epc, swait := .none,
      vq := match x.vq with
        | [] => []
        | b :: rest => resumeBlock x b :: rest,
      arec := match x.arec with
        | some a => if a.pc = x.epc then some a else none
        | none => none }

/-- A trap of the S-word at pc (spec/02, R39, R40). -/
def State.trapS (s : State) (code : BitVec 6) (sub : BitVec 8) (tval : Word) : State :=
  takeTrap s s.cur { code := code, sub := sub, src := 0, tval := tval, blk := 0, pos := none, off := 0,
                     vpend := s.me.stopped }

/-! ### Blocks -/

/-- The block whose V-words dispatch: the K entry when it is occupied, else position 0 (spec/12, R215). -/
def Hart.block? (x : Hart) : Option Block :=
  match x.kq with
  | some b => some b
  | none => x.vq.head?

/-- The fences that stand before an access of a side in program order: for a V-word, those before its block's vf (spec/21,
R332). -/
def Hart.fencesBefore (x : Hart) (vec : Bool) : Nat := if vec then (x.block?.map (·.fence)).getD x.fenced else x.fenced

/-- Replaces that block. -/
def Hart.setBlock (x : Hart) (b : Block) : Hart :=
  match x.kq with
  | some _ => { x with kq := some b }
  | none => { x with vq := match x.vq with
      | [] => []
      | _ :: rest => b :: rest }

/-- A trap of the V-word that dispatches; its block stays at the word. part: the instruction stopped with elements done
(spec/02, R39, R40, R43; assumption log, 10: DEDUCED). -/
def State.trapVAt (s : State) (part : Bool) (code : BitVec 6) (sub : BitVec 8) (tval : Word) : State :=
  match s.me.block? with
  | some b =>
    let s := s.updMe fun x => x.setBlock { b with mid := part }
    let t : TrapReq := { code := code, sub := sub, src := 1, tval := tval, blk := b.addr, pos := some 0,
                         off := BitVec.ofNat 16 b.off, vpend := part }
    if s.me.kq.isSome then s.undelivered s.cur t else takeTrap s s.cur t
  | none => s

/-- A precise trap of the V-word that dispatches: nothing changes but for the trap, and the word is stopped inside if it
was (spec/02, R39; spec/03, R58). -/
def State.trapV (s : State) (code : BitVec 6) (sub : BitVec 8) (tval : Word) : State :=
  s.trapVAt ((s.me.block?.map (·.mid)).getD false) code sub tval

/-- A fault of an instruction whose rule leaves c.vs 0 when it faults (spec/08, R159, R160; spec/09, R166, R175; spec/10,
R199). -/
def State.trapUnit (s : State) (code : BitVec 6) (sub : BitVec 8) (tval : Word) : State :=
  (s.updMe fun x => { x with vs := 0 }).trapV code sub tval

/-- Completes a V-word: c.vs := 0 and the next word of the block (spec/02, R29). -/
def State.advV (s : State) : State :=
  s.updMe fun x =>
    let x := { x with vs := 0, resv := if x.kq.isSome then x.resv else none }
    match x.block? with
    | some b => x.setBlock { b with off := b.off + 1, started := true, mid := false }
    | none => x

/-- A passing register, from the block's snapshot (spec/02, R20; spec/06, R106). -/
def State.sp (s : State) (k : SP) : Word :=
  match s.me.block? with
  | some b => b.snap.get k.toFin
  | none => 0

end Sys2Proof.Machine
end

