-- ==== Sys2Proof/Machine/Lanes.lean ====
section
/-!
DEFINITION. Machine/Lanes.lean: the lane allocation table, grants, trios' shared grant, gangs (spec/12, spec/18).
-/
namespace Sys2Proof.Machine

/-- The set bits of a lane mask, ascending. -/
def bitsOf (m : BitVec 8) : List Nat := (List.range 8).filter fun i => m.getLsbD i

/-- A lane mask from its bits. -/
def maskOf (l : List Nat) : BitVec 8 := l.foldl (fun m i => m ||| ((1 : BitVec 8) <<< i)) 0

/-- The member harts of a hart's trio, or the hart alone. -/
def trioMembers (s : State) (h : Nat) : List Nat :=
  match trioOf s h with
  | some (t, _) => t.live.map fun k => 8 * coreOf h + k
  | none => [h]

/-- The hart whose table entry holds the grant: the computer of a trio (spec/12, R218). -/
def entryHart (s : State) (h : Nat) : Nat := holderOf s h

/-- The groups a hart holds (spec/12, R203). -/
def held (s : State) (h : Nat) : Nat := (bitsOf (s.hart (entryHart s h)).lane.gmask).length

/-- VLMAX of a hart at a width (spec/06, R105). -/
def vlmax (s : State) (h : Nat) (w : Width) : Nat := (s.hart h).gang * held s h * 16384 / widthBits w

/-- The predicate extent (spec/02, R21). -/
def px (s : State) (h : Nat) : Nat := vlmax s h .w8

/-- The length slots a register uses (spec/02, R24). -/
def slotsUsed (v : VReg) : Nat := ((v.levels.flatMap (·.lens)).map fun n => if n < 65536 then 1 else 2).sum

/-- The length slots a register may use with g groups on n cores (spec/02, R24). -/
def slotLimit (n g : Nat) : Nat := n * 256 * g

/-- A vector register after a grant change to g groups (spec/12, R210). -/
def reshapeReg (n g : Nat) (v : VReg) : VReg :=
  let cap := n * g * 16384 / widthBits v.wt
  if cap < v.elems.length then { v with elems := v.elems.take cap, levels := [] }
  else if slotLimit n g < slotsUsed v then { v with levels := [] }
  else v

/-- A context after a grant change to g groups (spec/12, R210). -/
def Hart.reshape (x : Hart) (g : Nat) : Hart :=
  let bits := x.gang * g * 2048
  { x with v := x.v.map (reshapeReg x.gang g), p := x.p.map (fun q => q.filter (· < bits)), kc := x.kc.filter (· < bits) }

/-- The smallest grant that holds c.vl elements (spec/12, R207). -/
def gneed (x : Hart) : Nat :=
  ((List.range 8).map (· + 1)).find? (fun g => decide (x.vl.toNat ≤ x.gang * g * 16384 / widthBits x.lane.wl)) |>.getD 8

/-- The other contexts of a hart's core. -/
def coreMates (h : Nat) : List Nat := ((List.range 8).map fun k => 8 * coreOf h + k).filter (· != h)

/-- The groups of a core that no context holds. -/
def freeGroups (s : State) (core : Nat) : List Nat :=
  (List.range 8).filter fun g => (List.range 8).all fun k => !(s.hart (8 * core + k)).lane.gmask.getLsbD g

/-- A weight; 0 counts as 1 (spec/12, R205). -/
def weight (x : LaneEntry) : Nat := max x.wgt.toNat 1

/-- The cap of an entry on its core (spec/12, R208). -/
def laneCap (s : State) (e need want : Nat) : Nat :=
  let active := (coreMates e).filter fun k => (s.hart k).lane.st = 1 || (s.hart k).lane.st = 2
  let me := (s.hart e).lane
  let total := weight me + (active.map fun k => weight (s.hart k).lane).sum
  let target := max 1 (8 * weight me / total)
  max need (min me.gcap.toNat (min (if want = 0 then 8 else want) target))

/-- A context waits for groups: its entry says so, or it is parked and holds the grant of a trio of which another member
waits, with a V-word of U mode or with a K block (spec/12, R205, R218; assumption log, 30: DEDUCED). -/
def entryWaits (s : State) (k : Nat) : Bool :=
  (s.hart k).lane.st = 2
    || ((s.hart k).lane.st = 3 && holderOf s k == k && (trioMembers s k).any fun m =>
      m != k && ((s.hart m).waitFor.isSome || (s.hart m).kgrant.isSome && held s m == 0))

/-- The groups an entry may hold on its core: those it holds, and the free ones unless queue says another context waits
(spec/12, R208). -/
def laneReach (s : State) (e : Nat) (queue : Bool) : Nat :=
  let waiting := queue && (coreMates e).any (entryWaits s)
  (bitsOf (s.hart e).lane.gmask).length + (if waiting then 0 else (freeGroups s (coreOf e)).length)

/-- An entry holds g groups: it keeps its lowest, and takes the lowest free ones (spec/12, R208). -/
def setGroups (s : State) (e g : Nat) : State :=
  let own := bitsOf (s.hart e).lane.gmask
  let kept := own.take g
  let taken := (freeGroups s (coreOf e)).take (g - kept.length)
  s.updHart e fun x => { x with lane := { x.lane with gmask := maskOf (kept ++ taken) } }

/-- The entries of a hart's grant: one on each core of its gang (spec/18, R287). -/
def grantEntries (s : State) (h : Nat) : List Nat :=
  (List.range (s.hart h).gang).map fun i => entryHart s h + 8 * i

/-- The registers that a trio's rings hold, after a grant change to g groups on n cores (spec/12, R210). -/
def Trio.reshape (t : Trio) (n g : Nat) : Trio :=
  { t with rings := t.rings.map fun r => { r with regs := r.regs.map (reshapeReg n g) } }

/-- The registers in the rings of a hart's trio reshape to g groups as its members' do (spec/12, R210, R220; assumption log,
30: DEDUCED). -/
def reshapeRings (s : State) (h g : Nat) : State :=
  match trioOf s h with
  | some (t, _) => updTrio s (coreOf h) t.word fun t => t.reshape (s.hart h).gang g
  | none => s

/-- The registers of every member of a hart's trio, and those in its rings, reshape from the last grant to g (spec/12,
R210). -/
def regrant (s : State) (h g : Nat) : State :=
  reshapeRings ((trioMembers s h).foldl (fun s m =>
    s.updHart m fun x => { (if x.lastGrant = 0 then x else x.reshape g) with lastGrant := g }) s) h g

/-- Every entry of a hart's grant in a lane state; that of another member which is parked stays so (spec/12, R205, R218;
assumption log, 30: DEDUCED). -/
def setSt (s : State) (h : Nat) (st : BitVec 2) : State :=
  (grantEntries s h).foldl (fun s e => s.updHart e fun x =>
    { x with lane := { x.lane with st := if x.lane.st = 3 ∧ entryHart s h ≠ h then 3 else st } }) s

/-- A context resumes: where it was parked, it is so no more (spec/12, R205, R206, R211). -/
def unpark (s : State) (h : Nat) : State :=
  ((List.range (s.hart h).gang).map fun i => h + 8 * i).foldl (fun s e => s.updHart e fun x =>
    { x with lane := { x.lane with st := if x.lane.st = 3 then (if x.lane.gmask = 0 then 0 else 1) else x.lane.st } }) s

/-- The grant of a hart becomes g: groups are held, the registers reshape, the entry runs, the hart leaves the queues
(spec/12, R205, R208 to R211). -/
def settle (s : State) (h g : Nat) : State :=
  (setSt (regrant ((grantEntries s h).foldl (fun s e => setGroups s e g) s) h g) h 1).dropLaneWait h

/-- The least grant a hart can go on with (spec/12, R208). -/
def needOf (s : State) (h base : Nat) : Nat :=
  ((trioMembers s h).filter (· != h)).foldl (fun n m => max n (gneed (s.hart m))) base

/-- Renegotiates: the grant settles, or the hart waits on every core of its gang; the flag says which (spec/12, R205, R208;
spec/18, R287). -/
def renegotiate (s : State) (h : Nat) (base want : Nat) (vsetl : Bool) : State × Bool :=
  let s := unpark s h
  let need := needOf s h base
  let g := (grantEntries s h).foldl (fun g e => min g (min (laneCap s e need want) (laneReach s e true))) 8
  if need ≤ g then (settle s h g, true)
  else
    let s := (setSt s h 2).updHart h fun x => { x with waitFor := some ⟨need, want, vsetl⟩ }
    ((List.range (s.hart h).gang).foldl (fun s i => s.updCore (coreOf h + i) fun c =>
      { c with laneWait := if c.laneWait.contains (h % 8) then c.laneWait else c.laneWait ++ [h % 8] }) s, false)

/-- The hart of a slot of a core: the gang's where the slot is reserved (spec/18, R287, R289). -/
def slotHart (s : State) (core k : Nat) : Nat := ((s.hart (8 * core + k)).gangOf).getD (8 * core + k)

/-- A context of the core waits with a K block for its first group (spec/12, R215). -/
def kBlockWaits (s : State) (core : Nat) : Bool :=
  (List.range 8).any fun k => (s.hart (slotHart s core k)).kq.isSome && held s (slotHart s core k) == 0

/-- A hart may be served: on every core of its gang it has waited longest, and no K block waits there (spec/12, R209, R215;
spec/18, R287). -/
def mayServe (s : State) (h : Nat) : Bool :=
  (List.range (s.hart h).gang).all fun i =>
    (s.core (coreOf h + i)).laneWait.head? == some (h % 8) && !kBlockWaits s (coreOf h + i)

/-- Serves the oldest waiter of a core, once its need is met; the vsetl that asked has then its grant (spec/12, R209). -/
def serveWaiter (s : State) (core : Nat) : State :=
  match (s.core core).laneWait with
  | [] => s
  | k :: _ =>
    let h := slotHart s core k
    match (s.hart h).waitFor with
    | none => s
    | some a =>
      let reach := (grantEntries s h).foldl (fun g e => min g (laneReach s e false)) 8
      if a.need ≤ reach && mayServe s h then
        let g := (grantEntries s h).foldl (fun g e => min g (min (laneCap s e a.need a.want) (laneReach s e false))) 8
        (settle s h g).updHart h fun x => { x with settled := a.vsetl, waitFor := none }
      else s

/-- Serves a context that holds no group for its K block, with need 1, or lets it wait with st = 2. The groups are the
K block's alone: the registers keep their shape (spec/12, R205, R210, R215; assumption log, 16: DEDUCED). -/
def serveKBlock (s : State) (h : Nat) : State × Bool :=
  let st := ((s.hart h).kgrant).getD (s.hart (entryHart s h)).lane.st
  let s := s.updHart h fun x => { x with kgrant := some st }
  let reach := (grantEntries s h).foldl (fun g e => min g (laneReach s e false)) 8
  if 1 ≤ reach then
    let g := (grantEntries s h).foldl (fun g e => min g (min (laneCap s e 1 0) (laneReach s e false))) 8
    (setSt ((grantEntries s h).foldl (fun s e => setGroups s e g) s) h 1, true)
  else (setSt s h 2, false)

/-- The first k groups of an entry stay held, and none is taken (spec/12, R212). -/
def keepGroups (s : State) (e k : Nat) : State :=
  s.updHart e fun x => { x with lane := { x.lane with gmask := maskOf ((bitsOf x.lane.gmask).take k) } }

/-- A K block that took groups gives them back when it ends, so that the next U-mode V-word resumes; registers that it
wrote reshape then (spec/12, R210, R211, R215, R224; assumption log, 16: DEDUCED). -/
def returnKGrant (s : State) (h : Nat) : State :=
  match (s.hart h).kgrant with
  | none => s
  | some st =>
    let g := held s h
    let s := setSt ((grantEntries s h).foldl (fun s e => keepGroups s e 0) s) h st
    s.updHart h fun x => { x with kgrant := none, lastGrant := max g x.lastGrant }

/-- The vector side is idle as a vector-side control word waits for it (spec/02, R28; spec/12, R215). -/
def Hart.vIdle (x : Hart) : Bool := if x.kmode then x.kq.isNone else x.kq.isNone && x.vq == []

/-- Releases groups down to a keep; a hart that waits for groups waits no more. A hart left without groups is parked in K mode
and in U mode is not; a member of a trio parks its own entry, and the shared one holds nothing (spec/12, R205, R212, R218;
assumption log, 30: DEDUCED; 53: DEDUCED). -/
def releaseLanes (s : State) (h keep : Nat) : State :=
  let s := s.leaveLaneWait h
  let now := held s h
  let need := gneed (s.hart h)
  let k := min keep now
  let k := if 1 ≤ k && k < need then min need now else k
  let others := mateWaits s h
  let s := (grantEntries s h).foldl (fun s e => (keepGroups s e k).updHart e fun x =>
    { x with lane := { x.lane with st := if x.lane.st = 3 then 3 else restSt x.lane others } }) s
  if 1 ≤ k then regrant s h k
  else
    let own := (List.range (s.hart h).gang).map fun i => h + 8 * i
    let shared := others && entryHart s h == h
    let rest (x : LaneEntry) : BitVec 2 :=
      if (s.hart h).kmode then 3 else if x.st = 3 then restSt x shared else x.st
    (own.foldl (fun s e => s.updHart e fun x => { x with lane := { x.lane with st := rest x.lane } }) s).updHart h fun x =>
      { x with settled := false }

end Sys2Proof.Machine
end

