-- ==== Sys2Proof/Machine/Fetch.lean ====
section
/-!
DEFINITION. Machine/Fetch.lean: what a hart does next: the word fetched and decoded, with the checks and waits that come
before its meaning, or a trap, or a wait.
-/
namespace Sys2Proof.Machine

/-- The next thing a side of a hart does: run an instruction, or what it has become already. -/
inductive Todo where
  | run (i : Instr) (s : State)
  | done (s : State)

/-- The location of a word of n bytes that the hart fetches. An address that is not a multiple of n raises misaligned access,
for an S-word and for a V-word (assumption log, 7: DESIGN CHOICE; 32: DEDUCED). -/
def fetchLoc (s : State) (user : Bool) (pc : Word) (n : Nat) : Except (BitVec 6 × BitVec 8) Nat :=
  if pc.toNat % n != 0 then .error (0x05, 0)
  else match resolve s s.cur user .fetch pc with
    | .error e => .error (e.code, e.sub)
    | .ok loc => .ok loc

/-- The word of n bytes at a location, where it is not poisoned (spec/25, R367). -/
def fetchAt (s : State) (loc n : Nat) : Except (BitVec 6 × BitVec 8) Nat :=
  if s.readsPoison loc n then .error (0x10, 0) else .ok (leNat (s.bytes loc n))

/-- The S-word side of the hart that executes; a thermal stop stops all compute, and a U-mode S-word waits while an xfwd.t
has records out (spec/02, R38; spec/03, R58; spec/05, R94; spec/25, R376; spec/26, R392; assumption log, 39: DEDUCED). -/
def swordTodo (s : State) : Todo :=
  if s.halted || s.me.run != .running then .done s
  else if s.me.asyncReady then .done (takeAsync s s.cur)
  else if !s.me.kmode && s.me.forwards then .done s
  else match (fetchLoc s (!s.me.kmode) s.me.pc 4).bind fun loc => fetchAt s loc 4 with
    | .error e => .done (s.trapS e.1 e.2 s.me.pc)
    | .ok w =>
      match decodeS (BitVec.ofNat 32 w) with
      | .error e => .done (s.trapS 0x01 e.sub (BitVec.ofNat 64 w))
      | .ok i => .run i s

/-! ### Vector registers that an instruction names -/

/-- Consecutive registers from one, within v31. -/
def regRun (v : VReg5) (n : Nat) : List VReg5 := ((List.range n).filter fun i => v.toNat + i < 32).map fun i => v + BitVec.ofNat 5 i

/-- The vector register of source A. -/
def srcANames : SrcA → List VReg5
  | .vec v => [v]
  | .bob _ _ => []

/-- The vector register of source B. -/
def srcBNames : SrcB → List VReg5
  | .vec v => [v]
  | .sca _ => []

/-- The vector register of a matrix source. -/
def vOrBNames : VOrB → List VReg5
  | .vec v => [v]
  | .bob _ => []

/-- The vector register of a copy form. -/
def copyNames : CopyForm → List VReg5
  | .contig _ => []
  | .strided _ _ => []
  | .tensor v => [v]
  | .indexed _ v => [v]

/-- What the registers that a V-word names depend on: the key count of a front register, and whether the format record in a
register asks for outer coordinates (spec/09, R172, R174; spec/10, R185). -/
structure Named where
  keys : FReg2 → Nat
  outer : VReg5 → Bool

/-- The vector registers that a V-word names (spec/12, R218; spec/13, R241). -/
def vregsOf (k : Named) (i : Instr) : List VReg5 :=
  match i with
  | .add _ _ _ => []
  | .sub _ _ _ => []
  | .and _ _ _ => []
  | .or _ _ _ => []
  | .xor _ _ _ => []
  | .sll _ _ _ => []
  | .srl _ _ _ => []
  | .sra _ _ _ => []
  | .slt _ _ _ => []
  | .sltu _ _ _ => []
  | .mul _ _ _ => []
  | .mulh _ _ _ => []
  | .mulhu _ _ _ => []
  | .div _ _ _ => []
  | .divu _ _ _ => []
  | .rem _ _ _ => []
  | .remu _ _ _ => []
  | .min _ _ _ => []
  | .max _ _ _ => []
  | .minu _ _ _ => []
  | .maxu _ _ _ => []
  | .clz _ _ => []
  | .ctz _ _ => []
  | .pop _ _ => []
  | .addi _ _ _ => []
  | .andi _ _ _ => []
  | .ori _ _ _ => []
  | .xori _ _ _ => []
  | .slti _ _ _ => []
  | .sltiu _ _ _ => []
  | .slli _ _ _ => []
  | .srli _ _ _ => []
  | .srai _ _ _ => []
  | .lhi _ _ => []
  | .adrp _ _ => []
  | .lra _ _ => []
  | .ldB _ _ _ => []
  | .ldH _ _ _ => []
  | .ldW _ _ _ => []
  | .ldD _ _ _ => []
  | .ldBu _ _ _ => []
  | .ldHu _ _ _ => []
  | .ldWu _ _ _ => []
  | .stB _ _ _ => []
  | .stH _ _ _ => []
  | .stW _ _ _ => []
  | .stD _ _ _ => []
  | .ldAcq _ => []
  | .ldSc _ => []
  | .stRel _ => []
  | .stSc _ => []
  | .amoAdd _ => []
  | .amoAnd _ => []
  | .amoOr _ => []
  | .amoXor _ => []
  | .amoMin _ => []
  | .amoMax _ => []
  | .amoSwap _ => []
  | .cas _ => []
  | .beq _ _ _ => []
  | .bne _ _ _ => []
  | .blt _ _ _ => []
  | .bge _ _ _ => []
  | .bltu _ _ _ => []
  | .bgeu _ _ _ => []
  | .jal _ _ => []
  | .jalr _ _ _ => []
  | .fadd _ _ _ _ _ => []
  | .fsub _ _ _ _ _ => []
  | .fmul _ _ _ _ _ => []
  | .fdiv _ _ _ _ _ => []
  | .fsqrt _ _ _ _ => []
  | .fmadd _ _ _ _ _ => []
  | .fmin _ _ _ _ => []
  | .fmax _ _ _ _ => []
  | .fminNum _ _ _ _ => []
  | .fmaxNum _ _ _ _ => []
  | .fcmpEq _ _ _ _ => []
  | .fcmpLt _ _ _ _ => []
  | .fcmpLe _ _ _ _ => []
  | .fcmpUn _ _ _ _ => []
  | .fcls _ _ _ => []
  | .fcvt _ _ _ _ _ => []
  | .fncSs _ => []
  | .fncSv _ => []
  | .fncVs _ => []
  | .fncVv _ => []
  | .crd _ _ => []
  | .cwr _ _ => []
  | .nop => []
  | .sys => []
  | .trp _ => []
  | .brk => []
  | .eret => []
  | .wfe _ _ => []
  | .endL => []
  | .vrecv _ => []
  | .vf _ => []
  | .tkjoin _ _ => []
  | .tkarr _ _ => []
  | .tkwait _ _ _ => []
  | .tkbar _ _ => []
  | .tkbc _ _ _ => []
  | .tkrcv _ _ => []
  | .lnch _ _ => []
  | .lwait _ _ _ => []
  | .lstat _ _ => []
  | .lcanc _ _ => []
  | .fwait _ _ _ => []
  | .ffill _ _ _ => []
  | .ctake _ _ => []
  | .patld _ _ _ => []
  | .gform _ _ => []
  | .gsplit _ => []
  | .tspawn _ _ => []
  | .tabs _ => []
  | .twd _ => []
  | .tdone => []
  | .lgrel _ => []
  | .trio _ _ => []
  | .vsetl _ _ _ => []
  | .vadd x => x.vd :: srcANames x.a ++ srcBNames x.b
  | .vsub x => x.vd :: srcANames x.a ++ srcBNames x.b
  | .vmul x => x.vd :: srcANames x.a ++ srcBNames x.b
  | .vmulh x => x.vd :: srcANames x.a ++ srcBNames x.b
  | .vdiv x => x.vd :: srcANames x.a ++ srcBNames x.b
  | .vrem x => x.vd :: srcANames x.a ++ srcBNames x.b
  | .vmin x => x.vd :: srcANames x.a ++ srcBNames x.b
  | .vmax x => x.vd :: srcANames x.a ++ srcBNames x.b
  | .vand x => x.vd :: srcANames x.a ++ srcBNames x.b
  | .vor x => x.vd :: srcANames x.a ++ srcBNames x.b
  | .vxor x => x.vd :: srcANames x.a ++ srcBNames x.b
  | .vsll x => x.vd :: srcANames x.a ++ srcBNames x.b
  | .vsrl x => x.vd :: srcANames x.a ++ srcBNames x.b
  | .vsra x => x.vd :: srcANames x.a ++ srcBNames x.b
  | .vmacc x => x.vd :: x.c :: srcANames x.a ++ srcBNames x.b
  | .vclz x => x.vd :: srcANames x.a
  | .vpop x => x.vd :: srcANames x.a
  | .vabs x => x.vd :: srcANames x.a
  | .vfadd x => x.vd :: srcANames x.a ++ srcBNames x.b
  | .vfsub x => x.vd :: srcANames x.a ++ srcBNames x.b
  | .vfmul x => x.vd :: srcANames x.a ++ srcBNames x.b
  | .vfdiv x => x.vd :: srcANames x.a ++ srcBNames x.b
  | .vfma x => x.vd :: x.c :: srcANames x.a ++ srcBNames x.b
  | .vfsqrt x => x.vd :: srcANames x.a
  | .vfmin x => x.vd :: srcANames x.a ++ srcBNames x.b
  | .vfmax x => x.vd :: srcANames x.a ++ srcBNames x.b
  | .vfminNum x => x.vd :: srcANames x.a ++ srcBNames x.b
  | .vfmaxNum x => x.vd :: srcANames x.a ++ srcBNames x.b
  | .vfabs x => x.vd :: srcANames x.a
  | .vfneg x => x.vd :: srcANames x.a
  | .vfexp2 x => x.vd :: srcANames x.a
  | .vflog2 x => x.vd :: srcANames x.a
  | .vfrec x => x.vd :: srcANames x.a
  | .vfrsq x => x.vd :: srcANames x.a
  | .vftanh x => x.vd :: srcANames x.a
  | .vcmpEq x => srcANames x.a ++ srcBNames x.b
  | .vcmpNe x => srcANames x.a ++ srcBNames x.b
  | .vcmpLt x => srcANames x.a ++ srcBNames x.b
  | .vcmpLe x => srcANames x.a ++ srcBNames x.b
  | .vcmpGt x => srcANames x.a ++ srcBNames x.b
  | .vcmpGe x => srcANames x.a ++ srcBNames x.b
  | .vcmpUn x => srcANames x.a ++ srcBNames x.b
  | .vcvt x => x.vd :: srcANames x.a
  | .vcvtRow x => x.vd :: x.vc :: srcANames x.a
  | .vcrt x => x.vd :: srcANames x.a ++ srcBNames x.b
  | .vseg x => [x.vd, x.va, x.vb]
  | .vsegc x => [x.vd, x.va]
  | .vnest x => [x.vd, x.va, x.vb]
  | .vflat vd va _ => [vd] ++ [va]
  | .vredAdd x => [x.vd, x.va]
  | .vredMul x => [x.vd, x.va]
  | .vredMin x => [x.vd, x.va]
  | .vredMax x => [x.vd, x.va]
  | .vredAnd x => [x.vd, x.va]
  | .vredOr x => [x.vd, x.va]
  | .vredXor x => [x.vd, x.va]
  | .vredMinNum x => [x.vd, x.va]
  | .vredMaxNum x => [x.vd, x.va]
  | .vscanAdd x => [x.vd, x.va]
  | .vscanMul x => [x.vd, x.va]
  | .vscanMin x => [x.vd, x.va]
  | .vscanMax x => [x.vd, x.va]
  | .vscanAnd x => [x.vd, x.va]
  | .vscanOr x => [x.vd, x.va]
  | .vscanXor x => [x.vd, x.va]
  | .vscanMinNum x => [x.vd, x.va]
  | .vscanMaxNum x => [x.vd, x.va]
  | .vdist x => [x.vd, x.va, x.vb]
  | .vpack x => [x.vd, x.va]
  | .vpart x => [x.vd, x.va, x.vb]
  | .vcat x => [x.vd, x.va, x.vb]
  | .vsort x => [x.vd, x.va]
  | .vsidxSeg x => [x.vd, x.va]
  | .vsidxOff x => [x.vd, x.va]
  | .vcarry x => [x.vd, x.va, x.vb, x.vc]
  | .vcarryScan x => [x.vd, x.va, x.vb, x.vc]
  | .vld x => [x.vd]
  | .vst x => [x.vd]
  | .vlds x => [x.vd]
  | .vsts x => [x.vd]
  | .vldx x => [x.vd, x.va]
  | .vstx x => [x.vd, x.va]
  | .vsca x => [x.vd, x.va]
  | .vldseg x => regRun x.vd (x.nf.toNat + 1)
  | .vstseg x => regRun x.vd (x.nf.toNat + 1)
  | .vtld vd va _ _ => [vd] ++ [va]
  | .vtst vd va _ _ => [vd] ++ [va]
  | .vldff x => [x.vd]
  | .vldn vd cur _ => [vd] ++ cur.toList
  | .vstn vd _ _ => [vd]
  | .vldf vd va => va :: regRun vd (if k.outer va then 3 else 2)
  | .vsave vd _ => [vd]
  | .vsaveP _ _ => []
  | .vsaveRq _ => []
  | .vsaveVq _ => []
  | .vrest vd _ => [vd]
  | .vrestP _ _ => []
  | .vrestRq _ => []
  | .vrestVq _ => []
  | .zld _ _ => []
  | .zst _ _ => []
  | .zadd _ _ _ _ => []
  | .zmul _ _ _ _ => []
  | .zint vd _ _ => [vd]
  | .zfrom x => x.va :: x.vb.toList
  | .ztoD vd _ _ => [vd]
  | .ztoC vd _ _ => [vd]
  | .ztoV vd _ _ => [vd]
  | .zlen vd _ => [vd]
  | .frcfg _ _ => []
  | .frclr _ => []
  | .frins fd va vb _ => vb :: regRun va (k.keys fd)
  | .frmrg _ _ => []
  | .frrd vd fa _ => regRun vd (k.keys fa + 2)
  | .frcnt vd _ => [vd]
  | .frst _ _ => []
  | .frld _ _ => []
  | .frtest _ fa va _ => regRun va (k.keys fa)
  | .vmaxclr vd va _ _ _ => [vd] ++ [va]
  | .vselk vd va _ _ _ _ => [vd] ++ [va]
  | .vhist x => [x.vd, x.va]
  | .vrank x => [x.vd, x.va]
  | .xfwdT vd va vb _ _ => [vd] ++ [va] ++ [vb]
  | .xfwdG vd va _ _ _ => [vd] ++ [va]
  | .xloc vd va _ _ => [vd] ++ [va]
  | .mshp _ _ _ => []
  | .mtld _ _ _ _ => []
  | .mtldI _ _ => []
  | .mtldz _ vb _ _ _ => [vb]
  | .mma vd a _ _ => vd :: vOrBNames a
  | .mmaz vd a _ ix _ => vd :: vOrBNames a ++ (ix.map vOrBNames).getD []
  | .mtrel _ => []
  | .mtrelS _ _ => []
  | .bopen _ _ _ => []
  | .bopenR _ _ => []
  | .bcopy _ form _ _ => copyNames form
  | .bclose _ => []
  | .bcloseS _ _ => []
  | .bwait _ => []
  | .bstat vd _ => [vd]
  | .bpost _ _ _ => []
  | .pand _ _ _ _ => []
  | .por _ _ _ _ => []
  | .pxor _ _ _ _ => []
  | .pnot _ _ _ => []
  | .pfirst _ _ _ => []
  | .pcount vd _ _ => [vd]
  | .vperm vd va vb _ _ => [vd] ++ [va] ++ [vb]
  | .vslide vd va _ _ _ => [vd] ++ [va]
  | .vrev vd va _ _ => [vd] ++ [va]
  | .vbcast vd _ _ _ => [vd]
  | .vins vd _ _ _ => [vd]
  | .vext vd va _ _ => [vd] ++ [va]
  | .vcompress vd va _ _ => [vd] ++ [va]
  | .vexpand vd va _ _ => [vd] ++ [va]
  | .vmv vd va => [vd] ++ [va]
  | .vsnd va => [va]
  | .qput _ va => [va]
  | .qget vd _ _ => [vd]
  | .qeos _ => []
  | .xrouteOff _ => []
  | .xrouteUse _ => []
  | .xrouteSave _ => []
  | .tsum _ va _ _ => [va]
  | .vstop => []
  | .trapEntry _ _ => []
  | .asyncEventTaken _ => []
  | .resumption _ => []
  | .waiterServed _ => []
  | .freeParkedContext _ => []
  | .copyElementDelivery _ _ _ => []
  | .copyFault _ _ => []
  | .postPerformed _ _ => []
  | .matrixIssue _ _ => []
  | .matrixComplete _ _ => []
  | .frameTick => []
  | .heldTickRelease => []
  | .spillModeExit _ => []
  | .spillRingFull _ => []
  | .tackHubCycle _ _ => []
  | .tackReleaseArrival _ _ => []
  | .broadcastAccept _ _ => []
  | .broadcastDelivery _ _ => []
  | .preemptCommandWrite _ _ => []
  | .preemptionRequest _ _ => []
  | .fwaitWake _ => []
  | .fwaitTimeout _ => []
  | .wfeDeadline _ => []
  | .lwaitDeadline _ => []
  | .ctakeServed _ => []
  | .hostLaunchPush _ _ => []
  | .recordEntersPool _ _ => []
  | .launchDispatch _ => []
  | .launchCompletion _ _ => []
  | .taskFire _ _ => []
  | .taskRetire _ _ => []
  | .taskDispatch _ => []
  | .withdrawMark _ _ => []
  | .clusterReset _ => []
  | .packetArrival _ => []
  | .tlbInvalidatePage _ _ _ => []
  | .tlbInvalidateAsid _ _ => []
  | .tlbInvalidateAll _ => []
  | .invalidationComplete _ => []
  | .readNpois _ => []
  | .readDrops _ _ => []
  | .readSpfull _ => []
  | .readRtry _ => []
  | .readFaultDrops => []
  | .faultRecordPost _ => []
  | .rangeRegisterWrite _ _ _ _ => []
  | .clusterPartitionWrite _ _ => []
  | .registerWrite _ _ => []
  | .patrolScrub _ _ _ => []
  | .uncorrectableError _ => []
  | .uncontainedFailure _ => []
  | .thermalStop => []
  | .bridgeFailure => []
  | .portTraining _ _ => []
  | .portFailure _ => []
  | .fabricRequestArrival _ => []
  | .gatherListReturn _ _ _ => []
  | .inboxRecord _ _ _ => []
  | .hostBar2Access _ _ => []
  | .keyRequest _ _ => []
  | .keyZeroise _ _ => []
  | .sessionUnseal _ => []
  | .attestationReport _ _ => []
  | .bootStage _ => []
  | .packageReset => []
  | .currentAndThermalCaps _ => []
  | .perstDeassertion => []
  | .measurementExtend _ => []
  | .joinAnswerArrival _ => []

/-! ### The vector side -/

/-- The hart's packets of a side numbered below a bound are performed (spec/05, R93). -/
def pktsDone (s : State) (h : Nat) (vec : Bool) (bound : Nat) : Bool :=
  (s.pkts h).all fun p => !p.ofSide vec || decide (bound ≤ p.num)

/-- The packets of the hart's K blocks are performed (spec/12, R215). -/
def kPktsDone (s : State) (h : Nat) : Bool := (s.pkts h).all fun p => !p.kb

/-- Whether a queue entry is U mode's. -/
def BEntry.user (e : BEntry) : Bool :=
  match e with
  | .copy c => c.user
  | .post p => p.user

/-- The hart has no copy and no post under way (spec/05, R104), or of its K blocks' none. -/
def copiesDone (x : Hart) (kOnly : Bool) : Bool := x.b.toList.all fun b => b.queue.all fun e => kOnly && e.user

/-- The hart has no matrix command under way, or of its K blocks' none. -/
def matrixDone (s : State) (h : Nat) (kOnly : Bool) : Bool :=
  (s.core (coreOf h)).mq.all fun m => m.hart != h || (kOnly && m.user)

/-- The vector accesses so far are performed: all of the hart's, or in K mode those of its K blocks (spec/05, R93; spec/12,
R215). -/
def vecDone (s : State) (h : Nat) (k : Bool) : Bool :=
  (if k then kPktsDone s h else pktsDone s h true (s.hart h).nextNum) && copiesDone (s.hart h) k && matrixDone s h k

/-- The waits of a block before its first word (spec/05, R93). -/
def blockReady (s : State) (h : Nat) (b : Block) : Bool :=
  b.started || (pktsDone s h false b.sv && (!b.vv || vecDone s h (s.hart h).kq.isSome))

/-- The accumulator registers of the hart's queued row products (spec/13, R241). -/
def pendingVd (s : State) (h : Nat) : List VReg5 :=
  ((s.core (coreOf h)).mq.filter (fun m => m.hart == h)).filterMap fun m =>
    match m.work with
    | .mul vd _ _ _ _ => some vd
    | .load _ _ _ _ _ => none
    | .restore _ => none
    | .save _ _ => none

/-- The registers that wait for a pending accumulate: all an instruction names, but for the accumulator of a row product
(spec/13, R241). -/
def interlocked (k : Named) (i : Instr) : List VReg5 :=
  match i with
  | .mma _ a _ _ => vOrBNames a
  | .mmaz _ a _ ix _ => vOrBNames a ++ (ix.map vOrBNames).getD []
  | _ => vregsOf k i

/-- The bytes of a vector register in element order (spec/06, R108). -/
def VReg.bytes (v : VReg) : List Byte := v.elems.flatMap fun x => toLe (widthBytes v.wt) x.toNat

/-- What a hart's front registers and vector registers say of the registers that a V-word names: the key count of a
configuration, and oc, bit 8 of 64-bit element 2 of a format record (spec/09, R172; spec/10, R185). -/
def Hart.names (x : Hart) : Named where
  keys f := ((x.f.get f.toFin).cfg.extractLsb' 24 3).toNat
  outer v := (((x.v.get v.toFin).bytes[17]?).getD 0).getLsbD 0

/-- vsetl renegotiates by itself (spec/16, R268). -/
def isVsetl : Instr → Bool
  | .vsetl _ _ _ => true
  | _ => false

/-- The word of vstop (spec/03, R56). -/
def vstopWord : Word := 0xFF00000000000000

/-- The end of a block, which has no effect of its own (spec/03, R59). -/
def isVstop : Instr → Bool
  | .vstop => true
  | _ => false

/-- A V-word of a member of a trio names a register of v24 to v31, the pool of the rings: illegal operand, a check on the
operands, which follows those of the format word and of c.vl (spec/03, R58; spec/12, R218). -/
def namesPool (s : State) (i : Instr) : Bool :=
  (trioOf s s.cur).isSome && (vregsOf s.me.names i).any fun v => decide (24 ≤ v.toNat)

/-- A V-word that names a register whose pending result it must wait for: the accumulator of a queued row product, or a
vldx's result whose earlier stores are not all performed (spec/13, R241; spec/15, R264, R265). -/
def regsWait (s : State) (i : Instr) : Bool :=
  ((interlocked s.me.names i).any fun v => (pendingVd s s.cur).contains v)
    || s.me.vgates.any fun g => ((vregsOf s.me.names i).any fun v => v.toNat == g.1) && !pushDone s s.cur g.2.1 g.2.2

/-- The grant a V-word dispatches on: the one held, on every core of its gang, or waited for there as gform does; a
resumption's, for the first U-mode V-word of a context that holds no group; a K block's own, which a hart that does not hold
groups on every core of its gang is served anew. The first V-word after a launch is no resumption when it is a vsetl, and the
vstop of an empty block asks for none (spec/03, R59; spec/12, R205, R211, R215; spec/16, R268; spec/18, R287, R289;
assumption log, 16: DEDUCED; 53: DEDUCED). -/
def grantV (s : State) (i : Instr) : State × Bool :=
  let now := held s s.cur
  if now != 0 && (grantEntries s s.cur).all (fun e => (bitsOf (s.hart e).lane.gmask).length == now) then
    (if s.me.kq.isNone then unpark s s.cur else s, true)
  else if s.me.kq.isSome then if isVstop i then (s, true) else serveKBlock s s.cur
  else if isVsetl i && s.me.lastGrant == 0 || isVstop i && (s.me.block?.map (·.off)) == some 0 then (s, true)
  else if now != 0 then renegotiate s s.cur now now false
  else renegotiate s s.cur (gneed s.me) 0 false

/-- The V-word after its decoding: the waits of its context's entry, its grant, the c.lazy check, the registers it waits for
(spec/02, R33; spec/12, R208, R211, R215, R218; spec/13, R241; assumption log, 53: DEDUCED). -/
def admitV (s : State) (i : Instr) : Todo :=
  let user := s.me.kq.isNone
  if s.me.waitFor.isSome || user && entryWaits s (entryHart s s.cur) then .done s
  else
    let g := grantV s i
    if !g.2 then .done g.1
    else if user && g.1.me.lazy then .done (g.1.trapV 0x0A 0 0)
    else if regsWait g.1 i then .done g.1
    else .run i g.1

/-- A context's V side could dispatch in this cycle, as far as the core sees: its block may start or go on, and it does not
wait for groups (spec/12, R204, R208). -/
def vReady (s : State) (h : Nat) : Bool :=
  let x := s.hart h
  match x.block? with
  | none => false
  | some b => x.run == .running && !(x.kmode && x.kq.isNone) && blockReady s h b && x.waitFor.isNone

/-- The core's dispatch pointer has come to a hart: no ready context stands between it and the hart, and the core has
dispatched nothing in this cycle (spec/12, R204). -/
def chosenV (s : State) (h : Nat) : Bool :=
  let c := s.core (coreOf h)
  c.lastV != some s.time
    && (List.range ((h + 8 - c.rot.toNat) % 8)).all fun i => !vReady s (8 * coreOf h + (c.rot.toNat + i) % 8)

/-- The pointer moves past the winner (spec/12, R204). -/
def passPointer (s : State) (h : Nat) : State :=
  s.updCore (coreOf h) fun c => { c with rot := BitVec.ofNat 3 (h + 1), lastV := some s.time }

end Sys2Proof.Machine
end

