-- ==== Sys2Proof/Machine/Numbers.lean ====
section
/-!
DEFINITION. Machine/Numbers.lean: what the number formats mean, exact values, rounding into a format, the arithmetic that
instructions share (spec/04).

A finite value is an exact signed fraction. A delivery is a pattern of the destination's width with the event classes it
raises, by bit of c.flags (spec/02, R30).
-/
namespace Sys2Proof.Machine

open Sys2Proof

/-- Event classes, by bit of c.flags. -/
abbrev Flags := BitVec 9

/-- NV. -/
def fNV : Flags := 0x001
/-- DZ. -/
def fDZ : Flags := 0x002
/-- OF. -/
def fOF : Flags := 0x004
/-- UF. -/
def fUF : Flags := 0x008
/-- NX. -/
def fNX : Flags := 0x010
/-- SAT. -/
def fSAT : Flags := 0x020
/-- RR. -/
def fRR : Flags := 0x040
/-- NK. -/
def fNK : Flags := 0x080
/-- OVF. -/
def fOVF : Flags := 0x100

/-- A source value: a signed fraction p / q with q positive (zero keeps its sign), an infinity, a NaN (sig: signalling),
not-a-residue. -/
inductive Val where
  | fin (neg : Bool) (p q : Nat)
  | inf (neg : Bool)
  | nan (sig : Bool)
  | nar
deriving DecidableEq, Repr

/-- A delivered pattern and the classes raised. -/
abbrev Deliv := Word × Flags

/-! ### Formats -/

/-- The kind of a format (spec/04, R63): signed or unsigned integer, floating point with exponent and fraction widths,
residue. -/
inductive FKind where
  | int (signed : Bool)
  | fp (eb fb : Nat)
  | res
deriving DecidableEq, Repr

/-- The kind of each code (spec/04, R63). -/
def fkind : Fmt → FKind
  | .int8 => .int true
  | .int16 => .int true
  | .int32 => .int true
  | .int64 => .int true
  | .uint8 => .int false
  | .uint16 => .int false
  | .uint32 => .int false
  | .uint64 => .int false
  | .fp16 => .fp 5 10
  | .bf16 => .fp 8 7
  | .fp32 => .fp 8 23
  | .fp64 => .fp 11 52
  | .rq8 => .res
  | .rq16 => .res
  | .ra48 => .res

/-- An integer code. -/
def isInt (f : Fmt) : Bool := match fkind f with
  | .int _ => true
  | .fp _ _ => false
  | .res => false

/-- A floating-point code. -/
def isFp (f : Fmt) : Bool := match fkind f with
  | .int _ => false
  | .fp _ _ => true
  | .res => false

/-- A residue code. -/
def isRes (f : Fmt) : Bool := match fkind f with
  | .int _ => false
  | .fp _ _ => false
  | .res => true

/-- Bits of an element of a format. -/
def fmtBits (f : Fmt) : Nat := widthBits (fmtWidth f)

/-! ### Residues -/

/-- A residue channel: its lowest bit, its width, its modulus, and the number below the product that is 1 in this channel
and 0 in the others. -/
structure Channel3 where
  lo : Nat
  bits : Nat
  m : Nat
  unit : Nat
deriving DecidableEq, Repr

/-- The channels of a residue format (spec/04, R68). -/
def channels : Fmt → List Channel3
  | .rq8 => [⟨0, 3, 7, 120⟩, ⟨3, 3, 8, 105⟩, ⟨6, 2, 3, 112⟩]
  | .rq16 => [⟨0, 5, 31, 2016⟩, ⟨5, 5, 32, 1953⟩, ⟨10, 6, 63, 58528⟩]
  | .ra48 => [⟨0, 16, 65535, 140726751133696⟩, ⟨16, 16, 65536, 70367670370305⟩, ⟨32, 15, 32767, 70367670435840⟩]
  | _ => []

/-- The product of the moduli (spec/04, R68). -/
def resProd (f : Fmt) : Nat := ((channels f).map (·.m)).foldl (· * ·) 1

/-- The pattern is NaR (spec/04, R68). -/
def isNar (f : Fmt) (w : Nat) : Bool :=
  match f with
  | .rq8 => w == 0xFF
  | .rq16 => w == 0xFFFF
  | .ra48 => w.testBit 63
  | _ => false

/-- The pattern written for NaR (spec/04, R68). -/
def narPat : Fmt → Word
  | .rq8 => 0xFF
  | .rq16 => 0xFFFF
  | .ra48 => 0x8000000000000000
  | _ => 0

/-- Crt (spec/01, R17). -/
def crt (f : Fmt) (w : Nat) : Int :=
  let n := ((channels f).map fun c => w / 2 ^ c.lo % 2 ^ c.bits % c.m * c.unit).sum % resProd f
  if resProd f ≤ 2 * n then (n : Int) - resProd f else n

/-- Res (spec/01, R17). -/
def resEnc (f : Fmt) (x : Int) : Word :=
  BitVec.ofNat 64 (((channels f).map fun c => (x % c.m).toNat * 2 ^ c.lo).sum)

/-! ### Reading a value -/

/-- A signed whole number. -/
def Val.ofInt (x : Int) : Val := .fin (decide (x < 0)) x.natAbs 1

/-- A signed fraction of powers: m × 2^e. -/
def Val.dyadic (neg : Bool) (m : Nat) (e : Int) : Val := .fin neg (m * 2 ^ e.toNat) (2 ^ (-e).toNat)

/-- A floating-point pattern (spec/04, R65). -/
def readFp (eb fb : Nat) (w : Nat) : Val :=
  let frac := w % 2 ^ fb
  let ex := w / 2 ^ fb % 2 ^ eb
  let neg := w.testBit (eb + fb)
  let bias : Int := 2 ^ (eb - 1) - 1
  if ex = 2 ^ eb - 1 then (if frac = 0 then .inf neg else .nan (!frac.testBit (fb - 1)))
  else if ex = 0 then .dyadic neg frac (1 - bias - fb)
  else .dyadic neg (2 ^ fb + frac) (ex - bias - fb)

/-- The whole number that a pattern of w bits stands for. -/
def patInt (bits : Nat) (signed : Bool) (w : Nat) : Int :=
  if signed && w.testBit (bits - 1) then (w % 2 ^ bits : Nat) - (2 ^ bits : Nat) else (w % 2 ^ bits : Nat)

/-- The value of a pattern in a format (spec/04, R63, R65, R68). -/
def readVal (f : Fmt) (x : Word) : Val :=
  match fkind f with
  | .int signed => .ofInt (patInt (fmtBits f) signed x.toNat)
  | .fp eb fb => readFp eb fb x.toNat
  | .res => if isNar f x.toNat then .nar else .ofInt (crt f x.toNat)

/-! ### Rounding -/

/-- The fraction p / q rounded to a whole number, and whether it was inexact; neg is the sign of the value (spec/04, R64). -/
def roundNat (rm : Rm) (neg : Bool) (p q : Nat) : Nat × Bool :=
  let n := p / q
  let r := p % q
  let up := match rm with
    | .rne => decide (q < 2 * r) || (2 * r == q && n % 2 == 1)
    | .rtz => false
    | .rdn => neg && r != 0
    | .rup => !neg && r != 0
    | .rna => decide (q ≤ 2 * r)
  (if up then n + 1 else n, r != 0)

/-- The greatest e with 2^e ≤ p / q, for p not zero. -/
def ilog (p q : Nat) : Int :=
  let a : Int := (Nat.log2 p : Int) - Nat.log2 q
  if q * 2 ^ a.toNat ≤ p * 2 ^ (-a).toNat then a else a - 1

/-- p / q / 2^e rounded. -/
def roundAt (rm : Rm) (neg : Bool) (p q : Nat) (e : Int) : Nat × Bool :=
  roundNat rm neg (p * 2 ^ (-e).toNat) (q * 2 ^ e.toNat)

/-- A sign bit above a magnitude pattern. -/
def withSign (eb fb : Nat) (neg : Bool) (m : Nat) : Word := BitVec.ofNat 64 (m + if neg then 2 ^ (eb + fb) else 0)

/-- The pattern of an infinity. -/
def infPat (eb fb : Nat) (neg : Bool) : Word := withSign eb fb neg ((2 ^ eb - 1) * 2 ^ fb)

/-- The canonical quiet NaN (spec/04, R65). -/
def nanPat (eb fb : Nat) : Word := withSign eb fb false ((2 ^ eb - 1) * 2 ^ fb + 2 ^ (fb - 1))

/-- Overflow goes to infinity (IEEE 754-2019, by spec/04, R65). -/
def overflowsToInf (rm : Rm) (neg : Bool) : Bool :=
  match rm with
  | .rne => true
  | .rna => true
  | .rtz => false
  | .rdn => neg
  | .rup => !neg

/-- A nonzero fraction rounded into a floating-point format, tininess detected after rounding (spec/04, R65). -/
def roundFp (eb fb : Nat) (rm : Rm) (neg : Bool) (p q : Nat) : Deliv :=
  let emin : Int := 2 - 2 ^ (eb - 1)
  let e := ilog p q
  let x := max e emin
  let (m, inexact) := roundAt rm neg p q (x - fb)
  let mag := (x - emin).toNat * 2 ^ fb + m
  if (2 ^ eb - 1) * 2 ^ fb ≤ mag then
    (if overflowsToInf rm neg then infPat eb fb neg else withSign eb fb neg ((2 ^ eb - 1) * 2 ^ fb - 1), fOF ||| fNX)
  else
    let tiny := decide (e < emin - 1) || (e == emin - 1 && (roundAt rm neg p q (e - fb)).1 != 2 ^ (fb + 1))
    (withSign eb fb neg mag, if inexact then (if tiny then fUF ||| fNX else fNX) else 0)

/-- The least and the greatest integer of an integer or residue format (spec/04, R63). -/
def fmtRange (f : Fmt) : Int × Int :=
  match fkind f with
  | .int true => (-(2 ^ (fmtBits f - 1) : Nat), (2 ^ (fmtBits f - 1) : Nat) - 1)
  | .int false => (0, (2 ^ fmtBits f : Nat) - 1)
  | .fp _ _ => (0, 0)
  | .res => (-(resProd f / 2 : Nat), (resProd f / 2 : Nat) - 1)

/-- The pattern of an integer in an integer or residue format. -/
def intPat (f : Fmt) (x : Int) : Word :=
  match fkind f with
  | .int _ => BitVec.ofNat 64 (x % (2 ^ fmtBits f : Nat)).toNat
  | .fp _ _ => 0
  | .res => resEnc f x

/-- A whole number into an integer or residue format: wraps, or clamps with SAT (spec/04, R67, R70). -/
def deliverInt (f : Fmt) (sat : Bool) (x : Int) : Deliv :=
  let (lo, hi) := fmtRange f
  if lo ≤ x ∧ x ≤ hi then (intPat f x, 0)
  else if sat || isRes f then (intPat f (if x < lo then lo else hi), fSAT)
  else (intPat f x, 0)

/-- RoundTo, with the special values of R70 (spec/01, R17; spec/04, R65, R67, R70). -/
def roundTo (f : Fmt) (rm : Rm) (sat : Bool) (v : Val) : Deliv :=
  match fkind f, v with
  | .fp eb fb, .fin neg p q => if p = 0 then (withSign eb fb neg 0, 0) else roundFp eb fb rm neg p q
  | .fp eb fb, .inf neg => (infPat eb fb neg, 0)
  | .fp eb fb, .nan sig => (nanPat eb fb, if sig then fNV else 0)
  | .fp eb fb, .nar => (nanPat eb fb, 0)
  | .res, .nar => (narPat f, 0)
  | .res, .nan _ => (narPat f, fNV)
  | .int _, .nan _ => (0, fNV)
  | .int _, .nar => (0, fNV)
  | _, .inf neg => (intPat f (if neg then (fmtRange f).1 else (fmtRange f).2), fNV)
  | _, .fin neg p q =>
    let (n, inexact) := roundNat rm neg p q
    let (w, fl) := deliverInt f sat (if neg then -(n : Int) else n)
    (w, fl ||| if inexact then fNX else 0)

/-! ### Exact arithmetic -/

/-- A result before it is delivered, and the classes raised so far. -/
abbrev Exact := Val × Flags

/-- An invalid operation. -/
def invalid : Exact := (.nan false, fNV)

/-- A signalling NaN. -/
def Val.snan : Val → Bool
  | .nan sig => sig
  | _ => false

/-- A NaN or NaR. -/
def Val.isNan : Val → Bool
  | .nan _ => true
  | .nar => true
  | _ => false

/-- The sign of a value. -/
def Val.neg : Val → Bool
  | .fin neg _ _ => neg
  | .inf neg => neg
  | _ => false

/-- The value is zero. -/
def Val.isZero : Val → Bool
  | .fin _ p _ => p == 0
  | _ => false

/-- The value is an infinity. -/
def Val.isInf : Val → Bool
  | .inf _ => true
  | _ => false

/-- The value with another sign. -/
def Val.setNeg (neg : Bool) : Val → Val
  | .fin _ p q => .fin neg p q
  | .inf _ => .inf neg
  | v => v

/-- Negation. -/
def Val.negate (v : Val) : Val := v.setNeg (!v.neg)

/-- The signed numerator. -/
def signed (neg : Bool) (p : Nat) : Int := if neg then -(p : Int) else p

/-- A quiet NaN result from operands of which one is a NaN (spec/04, R65). -/
def nanOf (vs : List Val) : Exact := (.nan false, if vs.any Val.snan then fNV else 0)

/-- The exact sum of two values that are not NaN; a zero sum of opposite signs is +0, or −0 under RDN. -/
def addNum (rm : Rm) (a b : Val) : Exact :=
  match a, b with
  | .inf x, .inf y => if x = y then (.inf x, 0) else invalid
  | .inf x, _ => (.inf x, 0)
  | _, .inf y => (.inf y, 0)
  | .fin x p q, .fin y p' q' =>
    let n := signed x (p * q') + signed y (p' * q)
    if n = 0 then (.fin (if x = y then x else rm == .rdn) 0 1, 0)
    else (.fin (decide (n < 0)) n.natAbs (q * q'), 0)
  | _, _ => (.nan false, 0)

/-- The exact product of two values that are not NaN. -/
def mulNum (a b : Val) : Exact :=
  let neg := a.neg != b.neg
  match a, b with
  | .fin _ p q, .fin _ p' q' => (.fin neg (p * p') (q * q'), 0)
  | _, _ => if a.isZero || b.isZero then invalid else (.inf neg, 0)

/-- a + b (spec/04, R65). -/
def addV (rm : Rm) (a b : Val) : Exact := if a.isNan || b.isNan then nanOf [a, b] else addNum rm a b

/-- a − b. -/
def subV (rm : Rm) (a b : Val) : Exact := if a.isNan || b.isNan then nanOf [a, b] else addNum rm a b.negate

/-- a × b. -/
def mulV (a b : Val) : Exact := if a.isNan || b.isNan then nanOf [a, b] else mulNum a b

/-- a / b (spec/06, R114). -/
def divV (a b : Val) : Exact :=
  let neg := a.neg != b.neg
  if a.isNan || b.isNan then nanOf [a, b]
  else match a, b with
    | .fin _ p q, .fin _ p' q' =>
      if p' = 0 then (if p = 0 then invalid else (.inf neg, fDZ)) else (.fin neg (p * q') (q * p'), 0)
    | .inf _, .inf _ => invalid
    | .inf _, _ => (.inf neg, 0)
    | _, _ => (.fin neg 0 1, 0)

/-- a × b + c with 0 × ∞ invalid whatever c is (spec/04, R65). -/
def fmaV (rm : Rm) (a b c : Val) : Exact :=
  if a.isNan || b.isNan then nanOf [a, b, c]
  else
    let (p, fl) := mulNum a b
    if fl != 0 then invalid
    else if c.isNan then nanOf [c] else addNum rm p c

/-- The whole part of a square root, one bit at a time from bit i. -/
def isqrtFrom (n : Nat) : Nat → Nat → Nat
  | 0, r => r
  | i + 1, r => isqrtFrom n i (if (r + 2 ^ i) * (r + 2 ^ i) ≤ n then r + 2 ^ i else r)

/-- The whole part of a square root. -/
def isqrt (n : Nat) : Nat := isqrtFrom n (Nat.log2 n / 2 + 1) 0

/-- sqrt(p / q) as a fraction: exact when it has at most 700 binary places, else strictly between two neighbours of them. -/
def sqrtFrac (p q : Nat) : Nat × Nat :=
  let n := p * 4 ^ 700
  let r := isqrt (n / q)
  if r * r * q = n then (r, 2 ^ 700) else (2 * r + 1, 2 ^ 701)

/-- sqrt(a) (spec/05, R95; spec/06, R114). -/
def sqrtV (a : Val) : Exact :=
  match a with
  | .nan sig => (.nan false, if sig then fNV else 0)
  | .nar => (.nan false, 0)
  | .inf neg => if neg then invalid else (.inf false, 0)
  | .fin neg p q => if p = 0 then (a, 0) else if neg then invalid else (.fin false (sqrtFrac p q).1 (sqrtFrac p q).2, 0)

/-- a < b for values that are not NaN; −0 equals +0. -/
def ltV (a b : Val) : Bool :=
  match a, b with
  | .inf x, .inf y => x && !y
  | .inf x, _ => x
  | _, .inf y => !y
  | .fin x p q, .fin y p' q' => decide (signed x (p * q') < signed y (p' * q))
  | _, _ => false

/-- a = b for values that are not NaN; −0 equals +0. -/
def eqV (a b : Val) : Bool := !ltV a b && !ltV b a

/-- a comes before b with −0 before +0 (spec/04, R66). -/
def beforeV (a b : Val) : Bool := ltV a b || (eqV a b && a.neg && !b.neg)

/-- Minimum or maximum of R66; num: minimumNumber or maximumNumber (assumption log, 42: DEDUCED). -/
def minMaxV (isMax num : Bool) (a b : Val) : Exact :=
  let fl := if a.snan || b.snan then fNV else 0
  if a.isNan || b.isNan then
    (if num && !a.isNan then a else if num && !b.isNan then b else .nan false, fl)
  else (if (if isMax then beforeV a b else beforeV b a) then b else a, fl)

/-- An exact result rounded into a format. -/
def deliver (f : Fmt) (rm : Rm) (sat : Bool) (x : Exact) : Deliv :=
  let (w, fl) := roundTo f rm sat x.1
  (w, fl ||| x.2)

/-- A value scaled by 2^e. -/
def scale (e : Int) : Val → Val
  | .fin neg p q => .fin neg (p * 2 ^ e.toNat) (q * 2 ^ (-e).toNat)
  | v => v

/-- A conversion: a source pattern scaled by 2^e and rounded (spec/04, R70). -/
def convert (src dst : Fmt) (rm : Rm) (sat : Bool) (e : Int) (x : Word) : Deliv :=
  roundTo dst rm sat (scale e (readVal src x))

/-- The comparison conditions (spec/05, R96; spec/06, R116). -/
inductive Cond where
  | eq | ne | lt | le | gt | ge | un
deriving DecidableEq, Repr

/-- A comparison, with NV as the condition raises it (spec/05, R96; spec/06, R116). -/
def compareV (c : Cond) (a b : Val) : Bool × Flags :=
  let un := a.isNan || b.isNan
  let nan (v : Val) : Bool := v.isNan && v != .nar
  let quiet := c == .eq || c == .ne || c == .un
  let fl := if (if quiet then a.snan || b.snan else nan a || nan b) then fNV else 0
  let r := match c with
    | .eq => !un && eqV a b
    | .ne => un || !eqV a b
    | .lt => !un && ltV a b
    | .le => !un && !ltV b a
    | .gt => !un && ltV b a
    | .ge => !un && !ltV a b
    | .un => un
  (r, fl)

/-- The class bit of a floating-point pattern (spec/05, R96). -/
def classBit (eb fb : Nat) (w : Nat) : Nat :=
  let neg := w.testBit (eb + fb)
  let ex := w / 2 ^ fb % 2 ^ eb
  match readFp eb fb w with
  | .inf _ => if neg then 0 else 7
  | .nan sig => if sig then 8 else 9
  | .nar => 9
  | .fin _ p _ =>
    if p = 0 then (if neg then 3 else 4)
    else if ex = 0 then (if neg then 2 else 5)
    else if neg then 1 else 6

end Sys2Proof.Machine
end

