-- ==== Sys2Proof/Machine/Streams.lean ====
section
/-!
DEFINITION. Machine/Streams.lean: stream descriptors as the scoreboard keeps them, and stores to withdrawn outputs
(spec/19, R293, R300).
-/
namespace Sys2Proof.Machine

/-- The code of a stream state (spec/19, R293). -/
def StreamState.code : StreamState → Nat
  | .empty => 0
  | .pending => 1
  | .resident => 2
  | .withdrawn => 3

/-- Bytes 12 to 23 of a descriptor, from the scoreboard's copy (spec/19, R293). -/
def Stream.bytes (x : Stream) : List Byte :=
  toLe 4 (x.scope.toNat * 2 ^ 24 + x.ncons * 2 ^ 10 + x.state.code * 2 ^ 8) ++ toLe 4 x.sum.toNat ++ toLe 4 x.late.toNat

/-- The scoreboard's copy of a descriptor. -/
def findStream (s : State) (cl handle : Nat) : Option Stream := (s.cluster cl).streams.find? fun x => x.handle == handle

/-- Changes the scoreboard's copy, and writes it back where its bytes change (spec/19, R293). -/
def updStream (s : State) (cl handle : Nat) (f : Stream → Stream) : State :=
  let old := (findStream s cl handle).map Stream.bytes
  let s := s.updCluster cl fun c => { c with streams := c.streams.map fun x => if x.handle = handle then f x else x }
  match findStream s cl handle with
  | some x => if old = some x.bytes then s else s.putBytes (padBase cl + handle + 12) x.bytes
  | none => s

/-- A dword of the scratchpad. -/
def padWord (s : State) (cl off : Nat) : Word := BitVec.ofNat 64 (leNat (s.bytes (padBase cl + off) 8))

/-- A 32-bit word of the scratchpad. -/
def padHalf (s : State) (cl off : Nat) : Nat := leNat (s.bytes (padBase cl + off) 4)

/-- The withdrawn output of a hart's task that a write of n bytes touches, once the mark has reached the hart (spec/19,
R300). -/
def withdrawnAt (s : State) (h : Nat) (ea : Word) (n : Nat) : Option Nat :=
  let x := s.hart h
  match x.task with
  | none => none
  | some i =>
    let cl := clusterOf h
    match (s.cluster cl).tasks.find? fun t => t.1 == i with
    | none => none
    | some t =>
      x.marks.findSome? fun j =>
        match (t.2.outs[j]?).bind (·.handle) with
        | some hd =>
          let base := (padWord s cl hd).toNat
          if base < ea.toNat + n ∧ ea.toNat < base + padHalf s cl (hd + 8) then some hd else none
        | none => none

/-- A write of n bytes to a withdrawn output is counted late instead (spec/19, R300). -/
def countLate (s : State) (h hd n : Nat) : State :=
  updStream s (clusterOf h) hd fun x => { x with late := x.late + BitVec.ofNat 32 n }

/-- The location that stands for a write to a withdrawn output, which is not performed (spec/19, R300). -/
def lateLoc : Nat := 2 ^ 56

/-- A store of a hart: performed through its outbound buffer, or discarded and counted late (spec/19, R300; spec/21,
R332). -/
def hartStore (s : State) (h grp : Nat) (vec uo rel : Bool) (ea : Word) (loc : Nat) (bs : List Byte) : State :=
  match withdrawnAt s h ea bs.length with
  | some hd => countLate s h hd bs.length
  | none => s.push h ⟨vec, vec && (s.hart h).kq.isSome, grp, uo, !rel, rel, holds s h vec ea, (s.hart h).fencesBefore vec, none⟩
    loc bs

/-- A store of a hart that is performed in its own step, or discarded and counted late; none while it waits for quota
(spec/05, R91; spec/19, R300; spec/21, R325; spec/25, R366). -/
def hartStoreNow (s : State) (h : Nat) (ea : Word) (loc : Nat) (bs : List Byte) : Option State :=
  match withdrawnAt s h ea bs.length with
  | some hd => some (countLate s h hd bs.length)
  | none => (s.sendNow h loc).map fun s => s.putBytes loc bs

/-- Two integer or RA48 addends of one format as one (spec/04, R69; spec/21, R332). -/
def mergeAdd (f : Fmt) (a b : Word) : Word :=
  if f = .ra48 then
    if isNar f a.toNat || isNar f b.toNat then narPat f else resEnc f (crt f a.toNat + crt f b.toNat)
  else BitVec.ofNat 64 ((a + b).toNat % 2 ^ fmtBits f)

/-- A format whose reduce-adds merge (spec/21, R332). -/
def mergesAdd (f : Fmt) : Bool := f == .int32 || f == .int64 || f == .uint32 || f == .uint64 || f == .ra48

/-- An addition joins those of a packet: added at its location, or carried beside them (spec/21, R332). -/
def joinAdd (os : List AddOp) (a : AddOp) : List AddOp :=
  if os.any fun o => o.loc == a.loc then os.map fun o => if o.loc = a.loc then { o with val := mergeAdd a.fmt o.val a.val } else o
  else os ++ [a]

/-- A reduce-add of a hart leaves for its outbound buffer; integer and RA48 adds of one line and format merge (spec/21,
R331, R332). -/
def pushAdd (s : State) (h : Nat) (o : Src) (a : AddOp) : State :=
  let q := mkPkt s h o a.loc (.add [a])
  s.updHart h fun x =>
    let fresh := { x with out := x.out ++ [q], nextNum := x.nextNum + 1 }
    match x.out.getLast? with
    | some p =>
      match p.body with
      | .write _ => fresh
      | .add os =>
        if mergesAdd a.fmt && p.fence == o.fence && os.all (fun o => o.fmt == a.fmt && lineOf o.loc == lineOf a.loc) then
          { x with out := x.out.dropLast ++ [p.joined q (.add (joinAdd os a))] }
        else fresh
    | none => fresh

/-- A reduce-add of a hart to an address: sent, or discarded and counted late (spec/19, R300). -/
def hartAdd (s : State) (h grp : Nat) (vec uo : Bool) (ea : Word) (a : AddOp) : State :=
  match withdrawnAt s h ea (widthBytes (fmtWidth a.fmt)) with
  | some hd => countLate s h hd (widthBytes (fmtWidth a.fmt))
  | none => pushAdd s h ⟨vec, vec && (s.hart h).kq.isSome, grp, uo, true, false, holds s h vec ea, (s.hart h).fencesBefore vec, none⟩ a

end Sys2Proof.Machine
end

