-- ==== Sys2Proof/Machine/Scalar.lean ====
section
/-!
DEFINITION. Machine/Scalar.lean: integer and address arithmetic, loads, stores, atomics, fences, branches, jumps, vf
(spec/05).
-/
namespace Sys2Proof.Machine

/-! ### Integer arithmetic -/

/-- A result of two registers (spec/05, R82). -/
def intOp (s : State) (sd sa sb : SReg) (f : Word → Word → Word) : Out := .next (s.wr sd (f (s.rs sa) (s.rs sb)))

/-- 1 or 0. -/
def boolWord (b : Bool) : Word := if b then 1 else 0

/-- Raises class c of c.flags from a scalar instruction; c.fi stays (spec/05, R81). -/
def State.raiseS (s : State) (c : Nat) : State := s.updMe fun h => { h with flags := h.flags ||| ((1 : BitVec 9) <<< c) }

/-- The bit of division by zero in c.flags (spec/02, R30). -/
def clsDz : Nat := 1

/-- A division: the result, with DZ when the divisor is zero (spec/05, R82). -/
def divOp (s : State) (sd sa sb : SReg) (f : Word → Word → Word) (zero : Word → Word) : Out :=
  if s.rs sb = 0 then .next ((s.wr sd (zero (s.rs sa))).raiseS clsDz) else .next (s.wr sd (f (s.rs sa) (s.rs sb)))

/-- Leading zero bits of a word, within n bits from the top of those n (spec/05, R82). -/
def clzFrom (x : Word) : Nat → Nat
  | 0 => 0
  | n + 1 => if x.getLsbD n then 0 else 1 + clzFrom x n

/-- Trailing zero bits, from bit i with n bits left. -/
def ctzFrom (x : Word) (i : Nat) : Nat → Nat
  | 0 => 0
  | n + 1 => if x.getLsbD i then 0 else 1 + ctzFrom x (i + 1) n

/-- The number of 1 bits below bit n. -/
def popFrom (x : Word) : Nat → Nat
  | 0 => 0
  | n + 1 => (if x.getLsbD n then 1 else 0) + popFrom x n

/-- add (spec/05, R82). -/
def execAdd (sd sa sb : SReg) (s : State) : Out := intOp s sd sa sb fun x y => x + y

/-- sub (spec/05, R82). -/
def execSub (sd sa sb : SReg) (s : State) : Out := intOp s sd sa sb fun x y => x - y

/-- and (spec/05, R82). -/
def execAnd (sd sa sb : SReg) (s : State) : Out := intOp s sd sa sb fun x y => x &&& y

/-- or (spec/05, R82). -/
def execOr (sd sa sb : SReg) (s : State) : Out := intOp s sd sa sb fun x y => x ||| y

/-- xor (spec/05, R82). -/
def execXor (sd sa sb : SReg) (s : State) : Out := intOp s sd sa sb fun x y => x ^^^ y

/-- sll (spec/05, R82). -/
def execSll (sd sa sb : SReg) (s : State) : Out := intOp s sd sa sb fun x y => x <<< (y.toNat % 64)

/-- srl (spec/05, R82). -/
def execSrl (sd sa sb : SReg) (s : State) : Out := intOp s sd sa sb fun x y => x >>> (y.toNat % 64)

/-- sra (spec/05, R82). -/
def execSra (sd sa sb : SReg) (s : State) : Out := intOp s sd sa sb fun x y => x.sshiftRight (y.toNat % 64)

/-- slt (spec/05, R82). -/
def execSlt (sd sa sb : SReg) (s : State) : Out := intOp s sd sa sb fun x y => boolWord (x.slt y)

/-- sltu (spec/05, R82). -/
def execSltu (sd sa sb : SReg) (s : State) : Out := intOp s sd sa sb fun x y => boolWord (x.ult y)

/-- mul (spec/05, R82). -/
def execMul (sd sa sb : SReg) (s : State) : Out := intOp s sd sa sb fun x y => x * y

/-- mulh (spec/05, R82). -/
def execMulh (sd sa sb : SReg) (s : State) : Out := intOp s sd sa sb fun x y => ((x.signExtend 128) * (y.signExtend 128)).extractLsb' 64 64

/-- mulhu (spec/05, R82). -/
def execMulhu (sd sa sb : SReg) (s : State) : Out := intOp s sd sa sb fun x y => ((x.setWidth 128) * (y.setWidth 128)).extractLsb' 64 64

/-- min (spec/05, R82). -/
def execMin (sd sa sb : SReg) (s : State) : Out := intOp s sd sa sb fun x y => if y.slt x then y else x

/-- max (spec/05, R82). -/
def execMax (sd sa sb : SReg) (s : State) : Out := intOp s sd sa sb fun x y => if x.slt y then y else x

/-- minu (spec/05, R82). -/
def execMinu (sd sa sb : SReg) (s : State) : Out := intOp s sd sa sb fun x y => if y.ult x then y else x

/-- maxu (spec/05, R82). -/
def execMaxu (sd sa sb : SReg) (s : State) : Out := intOp s sd sa sb fun x y => if x.ult y then y else x

/-- div; by zero raises DZ (spec/05, R82). -/
def execDiv (sd sa sb : SReg) (s : State) : Out := divOp s sd sa sb (fun x y => x.sdiv y) fun _ => 0xFFFFFFFFFFFFFFFF

/-- divu; by zero raises DZ (spec/05, R82). -/
def execDivu (sd sa sb : SReg) (s : State) : Out := divOp s sd sa sb (fun x y => x / y) fun _ => 0xFFFFFFFFFFFFFFFF

/-- rem; by zero raises DZ (spec/05, R82). -/
def execRem (sd sa sb : SReg) (s : State) : Out := divOp s sd sa sb (fun x y => x.srem y) fun x => x

/-- remu; by zero raises DZ (spec/05, R82). -/
def execRemu (sd sa sb : SReg) (s : State) : Out := divOp s sd sa sb (fun x y => x % y) fun x => x

/-- clz (spec/05, R82). -/
def execClz (sd sa : SReg) (s : State) : Out := .next (s.wr sd (BitVec.ofNat 64 (clzFrom (s.rs sa) 64)))

/-- ctz (spec/05, R82). -/
def execCtz (sd sa : SReg) (s : State) : Out := .next (s.wr sd (BitVec.ofNat 64 (ctzFrom (s.rs sa) 0 64)))

/-- pop (spec/05, R82). -/
def execPop (sd sa : SReg) (s : State) : Out := .next (s.wr sd (BitVec.ofNat 64 (popFrom (s.rs sa) 64)))

/-- addi (spec/05, R83). -/
def execAddi (sd sa : SReg) (imm : Imm16) (s : State) : Out := .next (s.wr sd (s.rs sa + sext 16 imm))

/-- andi (spec/05, R83). -/
def execAndi (sd sa : SReg) (imm : Imm16) (s : State) : Out := .next (s.wr sd (s.rs sa &&& zext 16 imm))

/-- ori (spec/05, R83). -/
def execOri (sd sa : SReg) (imm : Imm16) (s : State) : Out := .next (s.wr sd (s.rs sa ||| zext 16 imm))

/-- xori (spec/05, R83). -/
def execXori (sd sa : SReg) (imm : Imm16) (s : State) : Out := .next (s.wr sd (s.rs sa ^^^ zext 16 imm))

/-- slti (spec/05, R83). -/
def execSlti (sd sa : SReg) (imm : Imm16) (s : State) : Out := .next (s.wr sd (boolWord ((s.rs sa).slt (sext 16 imm))))

/-- sltiu (spec/05, R83). -/
def execSltiu (sd sa : SReg) (imm : Imm16) (s : State) : Out := .next (s.wr sd (boolWord ((s.rs sa).ult (sext 16 imm))))

/-- slli (spec/05, R83). -/
def execSlli (sd sa : SReg) (amt : Shamt) (s : State) : Out := .next (s.wr sd (s.rs sa <<< amt.toNat))

/-- srli (spec/05, R83). -/
def execSrli (sd sa : SReg) (amt : Shamt) (s : State) : Out := .next (s.wr sd (s.rs sa >>> amt.toNat))

/-- srai (spec/05, R83). -/
def execSrai (sd sa : SReg) (amt : Shamt) (s : State) : Out := .next (s.wr sd ((s.rs sa).sshiftRight amt.toNat))

/-- lhi (spec/05, R84). -/
def execLhi (sd : SReg) (imm : Imm16) (s : State) : Out := .next (s.wr sd (zext 16 imm <<< 16))

/-- adrp (spec/05, R84). -/
def execAdrp (sd : SReg) (off : Off21) (s : State) : Out :=
  .next (s.wr sd ((s.me.pc >>> 16 <<< 16) + (sext 21 off <<< 16)))

/-- lra (spec/05, R84). -/
def execLra (sd : SReg) (off : Off21) (s : State) : Out :=
  .next (s.wr sd ((s.me.pc >>> 3 <<< 3) + (sext 21 off <<< 3)))

/-! ### Loads and stores -/

/-- The checks of a scalar access of n bytes, in order; the first failure traps with c.tval the address; a store to a
withdrawn output makes no access (spec/05, R85; spec/19, R300). -/
def withLoc (s : State) (a : Acc) (ea : Word) (n : Nat) (k : Nat → Out) : Out :=
  if a = .store ∧ (withdrawnAt s s.cur ea n).isSome then k lateLoc
  else if ea.toNat % n != 0 then .next (s.trapS 0x05 0 ea)
  else match resolve s s.cur (!s.me.kmode) a ea with
    | .error e => .next (s.trapS e.code e.sub ea)
    | .ok loc => k loc

/-- Extends a value of a width to a register (spec/05, R86). -/
def extend (w : Width) (signed : Bool) (x : Nat) : Word :=
  let v := BitVec.ofNat 64 x
  match w, signed with
  | .w8, true => (v.setWidth 8).signExtend 64
  | .w16, true => (v.setWidth 16).signExtend 64
  | .w32, true => (v.setWidth 32).signExtend 64
  | _, _ => v

/-- An own reduce-add still under way touches the bytes: the access waits (spec/05, R92). -/
def addPending (s : State) (loc n : Nat) : Bool := (s.pkts s.cur).any fun p => p.isAdd && p.sca && p.touches loc n

/-- The hart's scalar accesses are performed (spec/05, R93). -/
def ssDone (s : State) : Bool := pktsDone s s.cur false s.me.nextNum

/-- A scalar load of sd; one with .sc follows every earlier scalar access of the hart (spec/05, R85, R86, R91, R92; spec/15,
R263; spec/25, R367; assumption log, 6: DESIGN CHOICE). -/
def loadOp (s : State) (w : Width) (signed sc : Bool) (sd : SReg) (ea : Word) : Out :=
  withLoc s .load ea (widthBytes w) fun loc =>
    if addPending s loc (widthBytes w) || (sc && !ssDone s) then .next s
    else if s.poisonedFor s.cur false loc (widthBytes w) then .next (s.trapS 0x10 0 ea)
    else .next (s.wr sd (extend w signed (leNat (s.view s.cur false loc (widthBytes w)))))

/-- A scalar store of sd (spec/05, R85, R86; spec/21, R332). -/
def storeOp (s : State) (w : Width) (rel : Bool) (sd : SReg) (ea : Word) : Out :=
  withLoc s .store ea (widthBytes w) fun loc =>
    .next ((hartStore s s.cur s.me.nextNum false false rel ea loc (toLe (widthBytes w) (s.rs sd).toNat)).adv)

/-- A scalar store with .sc: it follows every earlier scalar access of the hart and is performed in its own step, before any
later access, once its cluster has quota for it (spec/05, R91; spec/15, R263; spec/21, R325). -/
def storeScOp (s : State) (w : Width) (sd : SReg) (ea : Word) : Out :=
  withLoc s .store ea (widthBytes w) fun loc =>
    if !ssDone s then .next s
    else match hartStoreNow s s.cur ea loc (toLe (widthBytes w) (s.rs sd).toNat) with
      | some t => .next t.adv
      | none => .next s

/-- ld.b (spec/05, R86). -/
def execLdB (sd sa : SReg) (imm : Imm16) (s : State) : Out := loadOp s .w8 true false sd (s.rs sa + sext 16 imm)

/-- ld.h (spec/05, R86). -/
def execLdH (sd sa : SReg) (imm : Imm16) (s : State) : Out := loadOp s .w16 true false sd (s.rs sa + sext 16 imm)

/-- ld.w (spec/05, R86). -/
def execLdW (sd sa : SReg) (imm : Imm16) (s : State) : Out := loadOp s .w32 true false sd (s.rs sa + sext 16 imm)

/-- ld.d (spec/05, R86). -/
def execLdD (sd sa : SReg) (imm : Imm16) (s : State) : Out := loadOp s .w64 true false sd (s.rs sa + sext 16 imm)

/-- ld.bu (spec/05, R86). -/
def execLdBu (sd sa : SReg) (imm : Imm16) (s : State) : Out := loadOp s .w8 false false sd (s.rs sa + sext 16 imm)

/-- ld.hu (spec/05, R86). -/
def execLdHu (sd sa : SReg) (imm : Imm16) (s : State) : Out := loadOp s .w16 false false sd (s.rs sa + sext 16 imm)

/-- ld.wu (spec/05, R86). -/
def execLdWu (sd sa : SReg) (imm : Imm16) (s : State) : Out := loadOp s .w32 false false sd (s.rs sa + sext 16 imm)

/-- st.b (spec/05, R86). -/
def execStB (sd sa : SReg) (imm : Imm16) (s : State) : Out := storeOp s .w8 false sd (s.rs sa + sext 16 imm)

/-- st.h (spec/05, R86). -/
def execStH (sd sa : SReg) (imm : Imm16) (s : State) : Out := storeOp s .w16 false sd (s.rs sa + sext 16 imm)

/-- st.w (spec/05, R86). -/
def execStW (sd sa : SReg) (imm : Imm16) (s : State) : Out := storeOp s .w32 false sd (s.rs sa + sext 16 imm)

/-- st.d (spec/05, R86). -/
def execStD (sd sa : SReg) (imm : Imm16) (s : State) : Out := storeOp s .w64 false sd (s.rs sa + sext 16 imm)

/-- The address of an ordered form: the offset counts in units of the width (spec/05, R87). -/
def ordAddr (s : State) (sa : SReg) (off : BitVec 5) (w : Width) : Word := s.rs sa + BitVec.ofNat 64 (off.toNat * widthBytes w)

/-- ld.acq (spec/05, R87, R91). -/
def execLdAcq (x : OrdLoad) (s : State) : Out := loadOp s x.w (!x.u) false x.sd (ordAddr s x.sa x.off x.w)

/-- ld.sc (spec/05, R87, R91). -/
def execLdSc (x : OrdLoad) (s : State) : Out := loadOp s x.w (!x.u) true x.sd (ordAddr s x.sa x.off x.w)

/-- st.rel (spec/05, R87, R91). -/
def execStRel (x : OrdStore) (s : State) : Out := storeOp s x.w true x.sd (ordAddr s x.sa x.off x.w)

/-- st.sc (spec/05, R87, R91). -/
def execStSc (x : OrdStore) (s : State) : Out := storeScOp s x.w x.sd (ordAddr s x.sa x.off x.w)

/-! ### Atomics -/

/-- The width of an atomic (spec/03, R51). -/
def amoWidth (dbl : Bool) : Width := if dbl then .w64 else .w32

/-- The order includes a release (spec/05, R91). -/
def orderReleases : Order → Bool
  | .relaxed => false
  | .acq => false
  | .rel => true
  | .ar => true
  | .sc => true

/-- An atomic waits until the hart's earlier accesses it must follow are performed (spec/05, R91, R92). -/
def amoWaits (s : State) (ord : Order) (loc n : Nat) : Bool :=
  (s.pkts s.cur).any fun p => p.sca && (orderReleases ord || p.touches loc n)

/-- The rest of an atomic, whose location has passed its checks: it waits for the accesses it follows and for quota, and then
works on the bytes there in one step (spec/05, R90 to R92; spec/21, R325; spec/25, R367). -/
def atomicAt (s : State) (ord : Order) (ea : Word) (loc n : Nat) (k : State → Out) : Out :=
  if amoWaits s ord loc n then .next s
  else match s.sendNow s.cur loc with
    | none => .next s
    | some t => if s.poisoned loc n then .next (t.trapS 0x10 0 ea) else k t

/-- One indivisible read-modify-write that returns the old value (spec/05, R88, R90). -/
def amoOp (s : State) (x : AmoOp) (f : Word → Word → Word) : Out :=
  let w := amoWidth x.dbl
  let ea := s.rs x.sa
  withLoc s .atomic ea (widthBytes w) fun loc => atomicAt s x.ord ea loc (widthBytes w) fun s =>
    let old := extend w true (leNat (s.bytes loc (widthBytes w)))
    let b := extend w true ((s.rs x.sb).toNat % 2 ^ widthBits w)
    .next ((s.setBytes loc (toLe (widthBytes w) (f old b).toNat)).wr x.sd old)

/-- amo.add; with sd = s0 and relaxed order it is a reduce-add (spec/05, R88; spec/21, R331). -/
def execAmoAdd (x : AmoOp) (s : State) : Out :=
  if x.sd = 0 ∧ x.ord = .relaxed then
    let w := amoWidth x.dbl
    withLoc s .atomic (s.rs x.sa) (widthBytes w) fun loc =>
      .next ((pushAdd s s.cur ⟨false, false, s.me.nextNum, false, true, false, holds s s.cur false (s.rs x.sa), s.me.fenced, none⟩
        { loc := loc, fmt := if x.dbl then .int64 else .int32, rm := .rne, sat := false,
          val := BitVec.ofNat 64 ((s.rs x.sb).toNat % 2 ^ widthBits w) }).adv)
  else amoOp s x (· + ·)

/-- amo.and (spec/05, R88). -/
def execAmoAnd (x : AmoOp) (s : State) : Out := amoOp s x (· &&& ·)

/-- amo.or (spec/05, R88). -/
def execAmoOr (x : AmoOp) (s : State) : Out := amoOp s x (· ||| ·)

/-- amo.xor (spec/05, R88). -/
def execAmoXor (x : AmoOp) (s : State) : Out := amoOp s x (· ^^^ ·)

/-- amo.min (spec/05, R88). -/
def execAmoMin (x : AmoOp) (s : State) : Out := amoOp s x (fun a b => if b.slt a then b else a)

/-- amo.max (spec/05, R88). -/
def execAmoMax (x : AmoOp) (s : State) : Out := amoOp s x (fun a b => if a.slt b then b else a)

/-- amo.swap (spec/05, R88). -/
def execAmoSwap (x : AmoOp) (s : State) : Out := amoOp s x (fun _ b => b)

/-- cas (spec/05, R89). -/
def execCas (x : CasOp) (s : State) : Out :=
  let w := amoWidth x.dbl
  let ea := s.rs x.sa
  withLoc s .atomic ea (widthBytes w) fun loc => atomicAt s x.ord ea loc (widthBytes w) fun s =>
    let old := leNat (s.bytes loc (widthBytes w))
    if old = (s.rs x.sd).toNat % 2 ^ widthBits w then
      .next ((s.setBytes loc (toLe (widthBytes w) (s.rs x.sb).toNat)).wr x.sd (extend w true old))
    else .next (s.wr x.sd (extend w true old))

/-! ### Fences -/

/-- A fence has been executed: no access after it merges into one before it (spec/21, R332). -/
def State.fence (s : State) : State := s.updMe fun h => { h with fenced := h.fenced + 1 }

/-- The accesses of the earlier blocks are performed; in K mode those of the K blocks (spec/05, R93; spec/12, R215). -/
def vsDone (s : State) : Bool := s.me.vIdle && vecDone s s.cur s.me.kmode

/-- fnc.ss (spec/05, R93). -/
def execFncSs (_ : Scope) (s : State) : Out := if ssDone s then .next s.fence.adv else .next s

/-- fnc.sv (spec/05, R93). -/
def execFncSv (_ : Scope) (s : State) : Out := .next (s.fence.updMe fun h => { h with svBound := h.nextNum }).adv

/-- fnc.vs (spec/05, R93). -/
def execFncVs (_ : Scope) (s : State) : Out := if vsDone s then .next s.fence.adv else .next s

/-- fnc.vv; K mode's covers K blocks only (spec/05, R93; spec/12, R215). -/
def execFncVv (_ : Scope) (s : State) : Out := .next (s.fence.updMe fun h => if h.kmode then { h with kvFence := true } else { h with vvFence := true }).adv

/-! ### Branches and jumps -/

/-- A branch to the target of R46 when the comparison holds (spec/03, R46; spec/05, R94). -/
def branchOp (s : State) (taken : Bool) (off : Imm16) : Out :=
  if taken then .next (s.jump (s.me.pc + (sext 16 off <<< 2))) else .next s.adv

/-- beq (spec/05, R94). -/
def execBeq (sa sb : SReg) (off : Imm16) (s : State) : Out := branchOp s (s.rs sa == s.rs sb) off

/-- bne (spec/05, R94). -/
def execBne (sa sb : SReg) (off : Imm16) (s : State) : Out := branchOp s (s.rs sa != s.rs sb) off

/-- blt (spec/05, R94). -/
def execBlt (sa sb : SReg) (off : Imm16) (s : State) : Out := branchOp s ((s.rs sa).slt (s.rs sb)) off

/-- bge (spec/05, R94). -/
def execBge (sa sb : SReg) (off : Imm16) (s : State) : Out := branchOp s (!(s.rs sa).slt (s.rs sb)) off

/-- bltu (spec/05, R94). -/
def execBltu (sa sb : SReg) (off : Imm16) (s : State) : Out := branchOp s ((s.rs sa).ult (s.rs sb)) off

/-- bgeu (spec/05, R94). -/
def execBgeu (sa sb : SReg) (off : Imm16) (s : State) : Out := branchOp s (!(s.rs sa).ult (s.rs sb)) off

/-- jal (spec/05, R94). -/
def execJal (sd : SReg) (off : Off21) (s : State) : Out :=
  .next ((s.wr sd (s.me.pc + 4)).jump (s.me.pc + (sext 21 off <<< 2)))

/-- jalr; a target that is not a multiple of 4 raises misaligned access (spec/03, R46; spec/05, R94). -/
def execJalr (sd sa : SReg) (imm : Imm16) (s : State) : Out :=
  let t := s.rs sa + sext 16 imm
  if t.extractLsb' 0 2 != 0 then .next (s.trapS 0x05 0 t) else .next ((s.wr sd (s.me.pc + 4)).jump t)

/-- The shared entries of a core's vector queue that contexts hold (spec/12, R213). -/
def sharedUsed (s : State) (core : Nat) : Nat :=
  ((List.range 8).map fun k => ((s.hart (8 * core + k)).vq.filter fun b => !b.own).length).sum

/-- One of the context's two reserved entries is free (spec/12, R213). -/
def ownRoom (x : Hart) : Bool := decide ((x.vq.filter (·.own)).length < 2)

/-- The context may queue one more block (spec/12, R213). -/
def queueRoom (s : State) (h : Nat) : Bool := ownRoom (s.hart h) || decide (sharedUsed s (coreOf h) < 16)

/-- The passing registers as a vf records them (spec/05, R102). -/
def snapshot (x : Hart) : Vector Word 16 := Vector.ofFn fun i => x.s.get ⟨16 + i.val, by omega⟩

/-- The block that a vf records (spec/12, R213, R214). -/
def blockOfVf (x : Hart) (t : Word) : Block :=
  { addr := t, snap := snapshot x, off := 0, started := false, mid := false, xr := .off, mark := x.nextNum,
    sv := x.svBound, vnum := x.nextNum, fence := x.fenced, vv := if x.kmode then x.kvFence else x.vvFence, own := ownRoom x }

/-- vf (spec/03, R46; spec/05, R102; spec/12, R213, R215). -/
def execVf (off : Off21) (s : State) : Out :=
  let t := s.me.pc + (sext 21 off <<< 2)
  let b := blockOfVf s.me t
  if t.getLsbD 2 then .next (s.trapS 0x05 0 t)
  else if s.me.kmode then
    if s.me.kq.isSome then .next s else .next (s.updMe fun h => { h with kq := some b, kvFence := false }).adv
  else if queueRoom s s.cur then .next (s.updMe fun h => { h with vq := h.vq ++ [b], vvFence := false }).adv
  else .next s

end Sys2Proof.Machine
end

