-- ==== Sys2Proof/Machine/Control.lean ====
section
/-!
DEFINITION. Machine/Control.lean: control words, the trap instructions, wfe, the read queue, lgrel (spec/02, R28 to R42;
spec/05, R98 to R103; spec/12, R212).
-/
namespace Sys2Proof.Machine

/-- The instruction word of an S-word, zero-extended (spec/02, R37). -/
def instrWord (i : Instr) : Word :=
  match encode i with
  | .s f => zext 32 f.word
  | .v f => f.word
  | .event => 0

/-- Privileged access by an S-word (spec/02, R37). -/
def privileged (s : State) (i : Instr) : Out := .next (s.trapS 0x04 0 (instrWord i))

/-- An illegal operand of an S-word (spec/02, R37). -/
def illegalS (s : State) : Out := .next (s.trapS 0x03 0 0)

/-! ### Control words -/

/-- The sides of the control words; none: no such index (spec/02, R28). -/
inductive CwSide where
  | vector | stream | fixed
deriving DecidableEq, Repr

/-- The side of a control word (spec/02, R28). -/
def cwSide (i : CwIdx) : Option CwSide :=
  let n := i.toNat
  if n = 3 then some .fixed
  else if n ≤ 5 || (0x010 ≤ n && n ≤ 0x019) || (0x020 ≤ n && n ≤ 0x022) then some .vector
  else if n = 0x023 || n = 0x030 || n = 0x031 || (0x040 ≤ n && n ≤ 0x047) || n = 0x050 || n = 0x051 then some .stream
  else none

/-- Control words that U mode may neither read nor write (spec/02, R28). -/
def cwHidden (i : CwIdx) : Bool := i = 0x023 || (0x040 ≤ i.toNat && i.toNat ≤ 0x047)

/-- Control words that a mode may write (spec/02, R28, R35). -/
def cwWritable (k : Bool) (i : CwIdx) : Bool :=
  if k then i != 0x001 && i != 0x003 && i != 0x030 && i != 0x050 && i != 0x051
  else i = 0x002 || i = 0x004 || i = 0x005 || i = 0x010

/-- The stored fields of c.msh (spec/13, R227). -/
def mshMask : Word := 0x00001FFF1F1FFFFF

/-- c.tstat (spec/02, R40). -/
def tstatWord (x : Hart) : Word :=
  (0 : BitVec 48) ++ x.qdepth ++ (0 : BitVec 2) ++ BitVec.ofBool x.vpend ++ (0 : BitVec 1) ++ BitVec.ofBool (x.kc != [])
    ++ BitVec.ofBool x.pie ++ BitVec.ofBool x.ie ++ BitVec.ofBool x.pmode

/-- The value of a control word of hart h (spec/02, R28 to R41). -/
def cwRead (s : State) (h : Nat) (i : CwIdx) : Word :=
  let x := s.hart h
  match i with
  | 0x000 => x.vl.setWidth 64
  | 0x001 => BitVec.ofNat 64 (held s h)
  | 0x002 => x.vs.setWidth 64
  | 0x003 => 256
  | 0x004 => x.msh ||| (x.lane.tmask.setWidth 64 <<< 48)
  | 0x005 => x.k.setWidth 64
  | 0x010 => x.flags.setWidth 64
  | 0x020 => x.vdirty.setWidth 64
  | 0x021 => x.pdirty.setWidth 64
  | 0x022 => x.fdirty.setWidth 64
  | 0x023 => (BitVec.ofBool x.lazy).setWidth 64
  | 0x030 => BitVec.ofNat 64 h
  | 0x031 => x.asid.setWidth 64
  | 0x040 => x.cause
  | 0x041 => x.epc
  | 0x042 => x.tval
  | 0x043 => x.qpos.setWidth 64
  | 0x044 => tstatWord x
  | 0x045 => x.tvec
  | 0x046 => x.vbad
  | 0x047 => x.kscr
  | 0x050 => s.time
  | 0x051 => s.ftick
  | _ => if 0x011 ≤ i.toNat ∧ i.toNat ≤ 0x019 then (x.fi[i.toNat - 0x011]?.getD 0).setWidth 64 else 0

/-- A write of c.flags: a bit that falls resets its c.fi word (spec/02, R31). -/
def Hart.writeFlags (x : Hart) (f : BitVec 9) : Hart :=
  { x with flags := f,
           fi := Vector.ofFn fun c => if x.flags.getLsbD c.val && !f.getLsbD c.val then 0xFFFFFFFF else x.fi.get c }

/-- A write of a control word that the mode may write (spec/02, R28 to R41; spec/13, R228; assumption log, 33: DEDUCED). -/
def cwWrite (x : Hart) (i : CwIdx) (v : Word) : Hart :=
  match i with
  | 0x000 => { x with vl := v.setWidth 32 }
  | 0x002 => { x with vs := v.setWidth 32 }
  | 0x004 => { x with msh := v &&& mshMask }
  | 0x005 => { x with k := v.setWidth 5 }
  | 0x010 => x.writeFlags (v.setWidth 9)
  | 0x020 => { x with vdirty := v.setWidth 32 }
  | 0x021 => { x with pdirty := v.setWidth 32 }
  | 0x022 => { x with fdirty := v.setWidth 32 }
  | 0x023 => { x with lazy := v.getLsbD 0 }
  | 0x031 => { x with asid := v.setWidth 16 }
  | 0x040 => { x with cause := v &&& 0x800000000000FFFF }
  | 0x041 => { x with epc := (v.setWidth 56).setWidth 64 }
  | 0x042 => { x with tval := v }
  | 0x043 => { x with qpos := v.setWidth 32, named := true }
  | 0x044 => { x with kc := if v.getLsbD 4 then [] else x.kc, pie := v.getLsbD 2, ie := v.getLsbD 1, pmode := v.getLsbD 0 }
  | 0x045 => { x with tvec := v &&& 0x00FFFFFFFFFFFFFC }
  | 0x046 => { x with vbad := (v.setWidth 56).setWidth 64, named := true }
  | 0x047 => { x with kscr := v }
  | _ =>
    if h : 0x011 ≤ i.toNat ∧ i.toNat ≤ 0x019 then
      { x with fi := x.fi.set (i.toNat - 0x011) (v.setWidth 32) (by omega) }
    else x

/-- The checks and the wait of crd and cwr, in order (spec/02, R28, R37; spec/03, R58). -/
def withCw (s : State) (i : CwIdx) (ins : Instr) (k : Out) : Out :=
  match cwSide i with
  | none => .next (s.trapS 0x01 4 (instrWord ins))
  | some side =>
    if cwHidden i && !s.me.kmode then privileged s ins
    else if side = .vector ∧ !s.me.vIdle then .next s
    else k

/-- crd (spec/05, R98). -/
def execCrd (sd : SReg) (idx : CwIdx) (s : State) : Out :=
  withCw s idx (.crd sd idx) (.next (s.wr sd (cwRead s s.cur idx)))

/-- cwr (spec/02, R29; spec/05, R98). -/
def execCwr (sa : SReg) (idx : CwIdx) (s : State) : Out :=
  withCw s idx (.cwr sa idx)
    (let v := s.rs sa
     if !cwWritable s.me.kmode idx then .next s.adv
     else if idx = 0x005 ∧ (v.setWidth 5 = 0 ∨ 16 < (v.setWidth 5).toNat) then illegalS s
     else .next (s.updMe fun x => cwWrite x idx v).adv)

/-! ### Traps by instruction -/

/-- nop (spec/05, R100). -/
def execNop (s : State) : Out := .next s.adv

/-- sys (spec/05, R99). -/
def execSys (s : State) : Out := .next (s.trapS 0x0D 0 0)

/-- trp (spec/05, R99). -/
def execTrp (sa : SReg) (s : State) : Out := if s.rs sa = 0 then .next s.adv else .next (s.trapS 0x0E 0 0)

/-- brk (spec/05, R99). -/
def execBrk (s : State) : Out := .next (s.trapS 0x0C 0 0)

/-- eret (spec/02, R35, R42; spec/05, R100). -/
def execEret (s : State) : Out := if s.me.kmode then .next (returnTrap s) else privileged s .eret

/-! ### wfe and the read queue -/

/-- A deadline that has come; 0 means none (spec/05, R101). -/
def deadlinePast (s : State) (d : Word) : Bool := d != 0 && decide (d.toNat ≤ s.time.toNat)

/-- wfe (spec/05, R101). -/
def execWfe (sd sa : SReg) (s : State) : Out :=
  if s.me.event then .next ((s.updMe fun x => { x with event := false }).wr sd 1)
  else if deadlinePast s (s.rs sa) then .next (s.wr sd 0)
  else .next (s.updMe fun x => { x with swait := .wfe sd (s.rs sa) })

/-- The deadline of a waiting wfe comes (spec/05, R101). -/
def execWfeDeadline (h : Nat) (s : State) : Out :=
  match (s.hart h).swait with
  | .wfe sd d =>
    if !(s.hart h).event && deadlinePast s d then .next (s.onHart h fun s => s.wr sd 0) else .next s
  | _ => .next s

/-- vrecv (spec/05, R103). -/
def execVrecv (sd : SReg) (s : State) : Out :=
  match s.me.rq with
  | v :: rest => .next ((s.updMe fun x => { x with rq := rest }).wr sd v)
  | [] => if s.me.kq.isNone && s.me.vq == [] then illegalS s else .next s

/-! ### Lane groups -/

/-- lgrel (spec/12, R212). -/
def execLgrel (sa : SReg) (s : State) : Out :=
  if s.me.vIdle then .next (releaseLanes s s.cur (s.rs sa).toNat).adv else .next s

end Sys2Proof.Machine
end

