-- ==== Sys2Proof/Machine/Tack.lean ====
section
/-!
DEFINITION. Machine/Tack.lean: the tack net: its instructions, its hubs, pre-emption signals (spec/20).
-/
namespace Sys2Proof.Machine

/-! ### Channel words -/

/-- The channel number of a channel word (spec/20, R309). -/
def chOf (w : Word) : Nat := (w.setWidth 7).toNat

/-- This hart's copy of a channel of which it is a member. -/
def tackCopy (x : Hart) (ch : Nat) : Option TackCopy := x.tack.find? fun t => t.ch == ch

/-- Changes this hart's copy of a channel. -/
def Hart.updTack (x : Hart) (ch : Nat) (f : TackCopy → TackCopy) : Hart :=
  { x with tack := x.tack.map fun t => if t.ch = ch then f t else t }

/-- The checks of a channel word, in order; k runs when they pass (spec/20, R309, R313). -/
def withCh (s : State) (ins : Instr) (w : Word) (join : Bool) (k : Nat → Out) : Out :=
  if s.me.kmode then privileged s ins
  else if w.extractLsb' 8 56 != 0 || (w.getLsbD 7 && !join) || decide (79 < chOf w) || chOf w = 63 then illegalS s
  else
    let c := s.chan (hubOf s.cur (chOf w)) (chOf w)
    if !(c.en && c.pid == s.pidOf s.cur) then .next (s.trapS 0x09 1 (BitVec.ofNat 64 (chOf w)))
    else if !join && (tackCopy s.me (chOf w)).isNone then illegalS s
    else k (chOf w)

/-- The phase count as the core of a hart last received it, or the hub's (spec/20, R314). -/
def corePhase (s : State) (h ch : Nat) : BitVec 32 :=
  match (List.range 8).findSome? fun k => tackCopy (s.hart (8 * coreOf h + k)) ch with
  | some t => t.phase
  | none => (s.chan (hubOf h ch) ch).phase

/-- Whether a phase count has passed a phase (spec/20, R316). -/
def phasePast (now awaited : BitVec 32) : Bool :=
  let d := (now - awaited).toNat
  decide (1 ≤ d ∧ d ≤ 2 ^ 31)

/-- Clears the arrival record (spec/20, R317). -/
def State.clearRec (s : State) : State := s.updMe fun x => { x with arec := none }

/-- The waits of a release at the start of tkarr, tkbar and tkbc (spec/20, R315). -/
def tackReady (s : State) : Bool := ssDone s && vsDone s

/-! ### Instructions -/

/-- What the tack request of the S-word at pc has come to: none sent, sent, answered. One that another S-word sent is done
with once it is answered. -/
inductive TackAns where
  | fresh
  | sent
  | done (x : BitVec 32)

/-- The channel word of a request (spec/20, R309). -/
def TackReq.word (r : TackReq) : Word := BitVec.ofNat 64 (r.ch + if r.leave then 128 else 0)

/-- The state of the request of a tkjoin (joins) or a tkbc at pc with a channel word (spec/20, R314, R318; assumption log, 37:
DEDUCED). -/
def tackAns (x : Hart) (joins : Bool) (w : Word) : TackAns :=
  match x.tkreq with
  | none => .fresh
  | some r =>
    match r.ans with
    | none => .sent
    | some a => if r.pc == x.pc && r.joins == joins && r.word == w then .done a else .fresh

/-- A tack instruction completes with the answer to its request. -/
def State.tackWr (s : State) (sd : SReg) (a : BitVec 32) : State :=
  (s.updMe fun x => { x with tkreq := none }).wr sd (a.setWidth 64)

/-- tkjoin (spec/20, R314). -/
def execTkjoin (sd sa : SReg) (s : State) : Out :=
  let w := s.rs sa
  if s.me.kmode then privileged s (.tkjoin sd sa) else
  match tackAns s.me true w with
  | .sent => .next s
  | .done p => .next (s.tackWr sd p)
  | .fresh =>
    withCh s (.tkjoin sd sa) w true fun ch =>
      let s := s.clearRec
      let leave := w.getLsbD 7
      if (tackCopy s.me ch).isSome != leave then .next (s.wr sd ((corePhase s s.cur ch).setWidth 64))
      else
        let s := s.sendHub s.cur ch (if leave then .leave s.cur true else .join s.cur true)
        .next (s.updMe fun x => { x with tkreq := some ⟨x.pc, ch, true, leave, false, none⟩ })

/-- The arrival of this hart leaves for the hub (spec/20, R315). -/
def sendArrival (s : State) (ch : Nat) : State :=
  (s.sendHub s.cur ch (.arrive s.cur)).updMe fun x => x.updTack ch fun t => { t with arrived := true }

/-- tkarr (spec/20, R315). -/
def execTkarr (sd sa : SReg) (s : State) : Out :=
  withCh s (.tkarr sd sa) (s.rs sa) false fun ch =>
    let s := s.clearRec
    match tackCopy s.me ch with
    | some t =>
      if !tackReady s || t.arrived then .next s
      else .next ((sendArrival s ch).wr sd (t.phase.setWidth 64))
    | none => .next s

/-- tkwait (spec/20, R316). -/
def execTkwait (sd sa sb : SReg) (s : State) : Out :=
  withCh s (.tkwait sd sa sb) (s.rs sa) false fun ch =>
    let s := s.clearRec
    match tackCopy s.me ch with
    | some t =>
      if phasePast t.phase ((s.rs sb).setWidth 32) then .next (s.wr sd (t.phase.setWidth 64)) else .next s
    | none => .next s

/-- tkbar (spec/20, R317). -/
def execTkbar (sd sa : SReg) (s : State) : Out :=
  withCh s (.tkbar sd sa) (s.rs sa) false fun ch =>
    match tackCopy s.me ch with
    | none => .next s
    | some t =>
      let arrive :=
        let s := s.clearRec
        if !tackReady s || t.arrived then Host.Outcome.next s
        else .next ((sendArrival s ch).updMe fun x => { x with arec := some ⟨ch, t.phase, x.pc⟩ })
      match s.me.arec with
      | some r =>
        if r.ch = ch ∧ r.pc = s.me.pc then
          if phasePast t.phase r.phase then .next (s.clearRec.wr sd (t.phase.setWidth 64)) else .next s
        else arrive
      | none => arrive

/-- tkbc (spec/20, R318). -/
def execTkbc (sd sa sb : SReg) (s : State) : Out :=
  if s.me.kmode then privileged s (.tkbc sd sa sb) else
  match tackAns s.me false (s.rs sa) with
  | .sent => .next s
  | .done q => .next (s.tackWr sd q)
  | .fresh =>
    withCh s (.tkbc sd sa sb) (s.rs sa) false fun ch =>
      let s := s.clearRec
      if !tackReady s then .next s
      else
        let s := s.sendHub s.cur ch (.bcast s.cur (s.rs sb))
        .next (s.updMe fun x => { x with tkreq := some ⟨x.pc, ch, false, false, false, none⟩ })

/-- tkrcv (spec/20, R319). The read reaches the hub and the slot frees one latency after that. -/
def execTkrcv (sd sa : SReg) (s : State) : Out :=
  withCh s (.tkrcv sd sa) (s.rs sa) false fun ch =>
    let s := s.clearRec
    match (tackCopy s.me ch).bind (·.latch) with
    | none => .next s
    | some v =>
      let s := s.updChan (hubOf s.cur ch) ch fun c =>
        { c with toHub := c.toHub ++ [(s.time.toNat + 2 * tackLat ch, .read s.cur)] }
      .next ((s.updMe fun x => x.updTack ch fun t => { t with latch := none }).wr sd v)

/-! ### The hub -/

/-- The earliest due signal of a list, if it is due by now. -/
def dueAt {α : Type} (now : Nat) (l : List (Nat × α)) : Option Nat :=
  match l.map (·.1) with
  | [] => none
  | t :: ts =>
    let m := ts.foldl min t
    if m ≤ now then some m else none

/-- A hart is no member any more: it holds no slot, its broadcast and a read of the membership that is still under way go
(spec/20, R318 to R320). -/
def Channel.without (c : Channel) (gone : List Nat) : Channel :=
  { c with members := c.members.filter (fun h => !gone.contains h), slot := c.slot.filter (fun h => !gone.contains h),
           held := c.held.filter (fun e => !gone.contains e.1),
           toHub := c.toHub.filter fun e => match e.2 with
             | .read h => !gone.contains h
             | _ => true }

/-- The leaves of a cycle: of members that have not arrived at once, of others after the release (spec/20, R311). -/
def applyLeave (t lat : Nat) (c : Channel) (h : Nat) (ans : Bool) : Channel × List (Nat × HubOut) :=
  if c.arrived.contains h then ({ c with leaving := c.leaving ++ [(h, ans)] }, [])
  else
    (c.without [h],
     if ans then [(t + lat, .answer h 0)] else [])

/-- Removes arrived members whose leave waited for the release. -/
def dropLeaving (c : Channel) : Channel := { c.without (c.leaving.map (·.1)) with leaving := [] }

/-- A join takes effect: one of a hart whose earlier leave still waits for the release ends that membership and begins a new
one, whose arrival has still to come (spec/20, R311, R320; assumption log, 37: DEDUCED). -/
def applyJoin (t lat : Nat) (c : Channel) (h : Nat) (ans : Bool) : Channel :=
  let again := c.leaving.any fun e => e.1 == h
  let c := if again then
      { c.without [h] with leaving := c.leaving.filter (fun e => e.1 != h), arrived := c.arrived.filter (· != h) }
    else c
  { c with members := insertNat h c.members,
           fromHub := if ans then c.fromHub ++ [(t + lat, .answer h c.phase)] else c.fromHub }

/-- The harts whose join reaches the hub in a cycle. -/
def joiners (now : List HubSig) : List Nat := now.filterMap fun g => match g with
  | .join h _ => some h
  | _ => none

/-- One cycle of a channel at its hub: the signals that reach it at time t (spec/20, R311, R312, R314, R318; assumption log,
37: DEDUCED). -/
def hubCycle (t lat : Nat) (c : Channel) : Channel :=
  let now := (c.toHub.filter fun e => e.1 == t).map (·.2)
  let c := { c with toHub := c.toHub.filter fun e => e.1 != t }
  -- arrivals
  let c := now.foldl (fun c g => match g with
    | .arrive h => if c.members.contains h then { c with arrived := insertNat h c.arrived } else c
    | _ => c) c
  -- leaves; their answers carry the count after step 3
  let (c, early) := now.foldl (fun (c, l) g => match g with
    | .leave h ans =>
      let (c, m) := applyLeave t lat c h ans
      (c, l ++ m)
    | _ => (c, l)) (c, [])
  -- the release
  let c :=
    if c.members != [] && c.members.all fun h => c.arrived.contains h then
      let late := c.leaving
      let c := { c with phase := c.phase + 1, arrived := [],
                        fromHub := c.fromHub ++ [(t + lat, .release (c.phase + 1)
                          (c.members ++ (joiners now).filter fun h => !c.members.contains h))] }
      let c := dropLeaving c
      { c with fromHub := c.fromHub ++ (late.filter (·.2)).map fun e => (t + lat, .answer e.1 c.phase) }
    else c
  let c := { c with fromHub := c.fromHub ++ early.map fun e => match e.2 with
    | .answer h _ => (e.1, .answer h c.phase)
    | o => (e.1, o) }
  -- joins
  let c := now.foldl (fun c g => match g with
    | .join h ans => applyJoin t lat c h ans
    | _ => c) c
  -- broadcasts are held until accepted; a read frees the slot
  now.foldl (fun c g => match g with
    | .bcast h v => { c with held := c.held ++ [(h, v)] }
    | .read h => { c with slot := c.slot.filter (· != h) }
    | _ => c) c

/-- A hub handles the signals of one cycle of a channel (spec/20, R311). -/
def execTackHubCycle (hub ch : Nat) (s : State) : Out :=
  match dueAt s.time.toNat (s.chan hub ch).toHub with
  | none => .next s
  | some t => .next (s.updChan hub ch fun c => hubCycle t (tackLat ch) c)

/-- Changes a hart's tack request. -/
def Hart.updReq (x : Hart) (f : TackReq → TackReq) : Hart := { x with tkreq := x.tkreq.map f }

/-- The hub accepts the held broadcast of the lowest hart, when the slot is free (spec/20, R318). -/
def execBroadcastAccept (hub ch : Nat) (s : State) : Out :=
  let c := s.chan hub ch
  match c.held.map (·.1) with
  | [] => .next s
  | h :: hs =>
    if c.slot != [] then .next s
    else
      let w := hs.foldl min h
      match c.held.find? fun e => e.1 == w with
      | none => .next s
      | some (_, v) =>
        let readers := c.members.filter (· != w)
        .next ((s.updChan hub ch fun c =>
          { c with held := c.held.filter (fun e => e.1 != w), slot := readers,
                   seq := if c.seq = 0xFFFFFFFF then 1 else c.seq + 1,
                   fromHub := c.fromHub ++ [(s.time.toNat + tackLat ch, .value v readers),
                                            (s.time.toNat + tackLat ch, .accepted w c.seq)] }).updHart w fun x =>
          x.updReq fun r => if r.ch = ch ∧ !r.joins then { r with taken := true } else r)

/-- Takes the first signal of a kind that a hub sent and that has arrived. -/
def takeArrived (s : State) (hub ch : Nat) (f : HubOut → Bool) : Option HubOut :=
  ((s.chan hub ch).fromHub.find? fun e => decide (e.1 ≤ s.time.toNat) && f e.2).map (·.2)

/-- Removes the first equal signal from what a hub sent. -/
def dropArrived (s : State) (hub ch : Nat) (o : HubOut) : State :=
  s.updChan hub ch fun c =>
    { c with fromHub := match c.fromHub.findIdx? fun e => decide (e.1 ≤ s.time.toNat) && e.2 == o with
      | some i => c.fromHub.eraseIdx i
      | none => c.fromHub }

/-- A release reaches the member cores, in one cycle for all of them (spec/20, R310, R312). -/
def execTackReleaseArrival (hub ch : Nat) (s : State) : Out :=
  match takeArrived s hub ch fun o => match o with
      | .release _ _ => true
      | _ => false with
  | some (.release p ms) =>
    let s := dropArrived s hub ch (.release p ms)
    .next (ms.foldl (fun s h =>
      if (tackCopy (s.hart h) ch).isSome || (s.hart h).tkreq.any (fun r => r.joins && r.ch == ch) then
        (s.updHart h fun x => x.updTack ch fun t => { t with phase := p, arrived := false }).signal h
      else s) s)
  | _ => .next s

/-- A broadcast reaches the latches of its members, or its acceptance the sender (spec/20, R318). -/
def execBroadcastDelivery (hub ch : Nat) (s : State) : Out :=
  match takeArrived s hub ch fun o => match o with
      | .value _ _ => true
      | .accepted _ _ => true
      | _ => false with
  | some (.value v ms) =>
    let s := dropArrived s hub ch (.value v ms)
    .next (ms.foldl (fun s h =>
      if (tackCopy (s.hart h) ch).isSome then
        (s.updHart h fun x => x.updTack ch fun t => { t with latch := some v }).signal h
      else s) s)
  | some (.accepted h q) =>
    let s := dropArrived s hub ch (.accepted h q)
    .next (s.updHart h fun x => x.updReq fun r => if r.ch = ch ∧ !r.joins then { r with ans := some q } else r)
  | _ => .next s

/-- The channels of the hubs that a hart of die d reaches. -/
def chanKeys (s : State) (d : Nat) : List (Nat × Nat) :=
  ((s.die d).chans.map fun e => (d, e.1)) ++ s.pkgChans.map fun e => (2, e.1)

/-- The first channel with an answer for hart h that has arrived, and the phase it carries. -/
def answerFor (s : State) (h : Nat) : Option (Nat × BitVec 32) :=
  (chanKeys s (dieOf h)).findSome? fun e =>
    match takeArrived s e.1 e.2 fun o => match o with
        | .answer k _ => k == h
        | _ => false with
    | some (.answer _ p) => some (e.2, p)
    | _ => none

/-- The hub's answer to a join or a leave reaches its hart (spec/20, R314). A hart that has stopped since takes none. -/
def execJoinAnswerArrival (h : Nat) (s : State) : Out :=
  match answerFor s h with
  | none => .next s
  | some (ch, p) =>
    let s := dropArrived s (hubOf h ch) ch (.answer h p)
    .next (s.updHart h fun x =>
      if x.tkreq.any fun r => r.ch == ch && r.joins && r.ans.isNone then
        { x.updReq (fun r => { r with ans := some p }) with
          tack := if (tackCopy x ch).isSome then x.tack.filter (fun t => t.ch != ch)
                  else x.tack ++ [⟨ch, p, none, false⟩] }
      else x)

/-! ### Pre-emption -/

/-- A write of the pre-emption command register: accepted, or without effect (spec/20, R323). -/
def writePreempt (s : State) (d : Nat) (value : Word) : State :=
  let ch := (value.setWidth 7).toNat
  let hart := (value.extractLsb' 32 11).toNat
  if (s.die d).preempt.busy || decide (63 < ch) || (ch = 63 && decide (hart / 768 ≠ d)) then s
  else s.updDie d fun x =>
    { x with preempt := { busy := true, hart := BitVec.ofNat 11 hart, ch := BitVec.ofNat 7 ch, since := s.time.toNat } }

/-- The signal of a die's pre-emption command leaves the hub 4 cycles after the write, toward the harts it names then; busy
returns to 0 (spec/20, R323; assumption log, 27: DEDUCED). -/
def preemptLeave (s : State) (d : Nat) : State :=
  let p := (s.die d).preempt
  if p.busy && decide (p.since + 4 ≤ s.time.toNat) then
    let ch := p.ch.toNat
    let targets := if ch = 63 then [p.hart.toNat] else (s.chan d ch).members
    s.updDie d fun x =>
      { x with preempt := { x.preempt with busy := false },
               signals := x.signals ++ targets.map fun h => (p.since + 28, ch, h) }
  else s

/-- A write of the pre-emption command register (spec/20, R323). -/
def execPreemptCommandWrite (d : Nat) (value : Word) (s : State) : Out := .next (writePreempt s d value)

/-- A pre-emption request becomes pending at a hart: its channel is recorded, lowest first, and its event bit is set
(spec/02, R38; spec/05, R101; spec/20, R323). -/
def postRequest (s : State) (h ch : Nat) : State :=
  (s.updHart h fun x => { x with pending := insertNat ch x.pending }).signal h

/-- The pre-emption signal for hart h on a channel that is due: the S-words of the cycle in which it arrives come first
(spec/20, R323; assumption log, 56: DESIGN CHOICE). -/
def dueSignal (s : State) (h ch : Nat) : Option (Nat × Nat × Nat) :=
  (s.die (dieOf h)).signals.find? fun g => decide (g.1 < s.time.toNat) && g.2 == (ch, h)

/-- A pre-emption signal reaches its hart (spec/20, R323). -/
def execPreemptionRequest (h ch : Nat) (s : State) : Out :=
  match dueSignal s h ch with
  | none => .next s
  | some g => .next (postRequest (s.updDie (dieOf h) fun x => { x with signals := x.signals.erase g }) h ch)

end Sys2Proof.Machine
end

