-- ==== Sys2Proof/Machine/Launch.lean ====
section
/-!
DEFINITION. Machine/Launch.lean: launch records, the host port, pool, queues, dispatch, completion, and the launch
instructions (spec/22).
-/
namespace Sys2Proof.Machine

/-! ### Scalar reads of several dwords -/

/-- What a run of dword loads gives: the dwords, a wait, or a trap with its c.tval. -/
inductive Rd where
  | ok (ws : List Word)
  | wait
  | trap (code : BitVec 6) (sub : BitVec 8) (tval : Word)

/-- Loads n dwords from an address in order, as scalar loads of the hart that executes (spec/05, R85, R92). -/
def readDwords (s : State) (ea : Word) : Nat → Rd
  | 0 => .ok []
  | n + 1 =>
    match resolve s s.cur (!s.me.kmode) .load ea with
    | .error e => .trap e.code e.sub ea
    | .ok loc =>
      if addPending s loc 8 then .wait
      else if s.poisonedFor s.cur false loc 8 then .trap 0x10 0 ea
      else
        let w := BitVec.ofNat 64 (leNat (s.view s.cur false loc 8))
        match readDwords s (ea + 8) n with
        | .ok ws => .ok (w :: ws)
        | r => r

/-- The dwords of a byte string. -/
def dwordsOf (bs : List Byte) : Nat → List Word
  | 0 => []
  | n + 1 => BitVec.ofNat 64 (leNat (bs.take 8)) :: dwordsOf (bs.drop 8) n

/-! ### Records -/

/-- A launch record that meets the field rules (spec/22, R339). -/
def parseRecord (ws : List Word) : Option LRecord :=
  let w (i : Nat) : Word := ws.getD i 0
  if (w 0).extractLsb' 56 8 != 0 || (w 0).extractLsb' 0 2 != 0 || (w 1).extractLsb' 56 8 != 0
      || (w 1).extractLsb' 0 3 != 0 || (w 2).extractLsb' 43 21 != 0 || (w 2).extractLsb' 16 15 != 0
      || (w 2).extractLsb' 6 2 != 0 || w 3 != 0 then none
  else some { entry := w 0, cwa := w 1, mv := (w 2).extractLsb' 32 11, me := (w 2).getLsbD 31,
              nm1 := (w 2).extractLsb' 8 8, q := (w 2).extractLsb' 0 6, args := (ws.drop 4).take 12 }

/-- The harts of a record. -/
def LRecord.nh (r : LRecord) : Nat := r.nm1.toNat + 1

/-- The translation of a completion-word address: a store in U mode under the launch's ASID and partition (spec/22,
R340). -/
def cwaTarget (s : State) (d : Nat) (asid : BitVec 16) (pid : BitVec 5) (cwa : Word) : Except AccErr Nat :=
  if cwa.extractLsb' 48 8 == 0xFF then .error ⟨0x07, 0⟩
  else match walkDie s d asid cwa.toNat with
    | none => .error ⟨0x07, 0⟩
    | some t =>
      if !t.permits .store true then .error ⟨0x07, 0⟩
      else if !pageOwned s pid t.pa (pageSize t.level) then .error ⟨0x09, 1⟩
      else .ok (t.pa + cwa.toNat % pageSize t.level)

/-! ### Pool and queues -/

/-- A partition's limits on a die, at reset 4,096 entries and depth 8 (spec/22, R344). -/
def pmaxOf (s : State) (d : Nat) (p : BitVec 5) : Nat := mapGet 4096 (s.die d).pmax p.toNat
/-- The nesting limit. -/
def dlimOf (s : State) (d : Nat) (p : BitVec 5) : Nat := mapGet 8 (s.die d).dlim p.toNat

/-- Launches of a partition in a die's pool. -/
def poolHeld (s : State) (d : Nat) (p : BitVec 5) : Nat :=
  ((s.die d).pool.filter fun e => (e.2.launch.map fun l => l.pid == p).getD false).length

/-- The lowest free entry from e on. -/
def lowestFree (pool : List (Nat × PoolEntry)) (e : Nat) : Nat → Option Nat
  | 0 => none
  | n + 1 => if (mapGet PoolEntry.reset pool e).launch.isNone then some e else lowestFree pool (e + 1) n

/-- A free pool entry that the partition may take (spec/22, R344). -/
def poolRoom (s : State) (d : Nat) (p : BitVec 5) : Option Nat :=
  if poolHeld s d p < pmaxOf s d p then lowestFree (s.die d).pool 0 4096 else none

/-- Changes a queue. -/
def updQueue (s : State) (d n : Nat) (f : Queue → Queue) : State :=
  s.updDie d fun x => { x with queues := mapSet n (f (mapGet Queue.reset x.queues n)) x.queues }

/-- Changes a FIFO. -/
def updFifo (s : State) (d n : Nat) (f : Fifo → Fifo) : State :=
  s.updDie d fun x => { x with fifos := mapSet n (f (mapGet Fifo.reset x.fifos n)) x.fifos }

/-- A cluster that takes launches and tasks of a partition (spec/18, R291; spec/25, R368). -/
def takesWork (c : Cluster) (p : BitVec 5) : Bool := c.en && c.pid == p && !c.down

/-- Slots of a core that launches use, lowest first (spec/22, R348). -/
def launchSlots (c : Cluster) : List Nat := List.range (8 - c.tps.toNat)

/-- The launch contexts of a partition on a die (spec/22, R347). -/
def launchContexts (s : State) (d : Nat) (p : BitVec 5) : Nat :=
  ((List.range 12).map fun c =>
    let x := s.cluster (12 * d + c)
    if x.en && x.pid == p then 8 * (8 - x.tps.toNat) else 0).sum

/-- A core that can take harts: its occupied contexts and its free launch contexts, lowest first. -/
structure CoreRoom where
  occupied : Nat
  free : List Nat

/-- The cores of a die that take launches of a partition (spec/22, R347). -/
def coreRooms (s : State) (d : Nat) (p : BitVec 5) : List CoreRoom :=
  ((List.range 96).filter fun k => takesWork (s.cluster (12 * d + k / 8)) p).map fun k =>
    let base := 8 * (96 * d + k)
    { occupied := ((List.range 8).filter fun h => (s.hart (base + h)).lane.occ).length,
      free := ((launchSlots (s.cluster (12 * d + k / 8))).map (base + ·)).filter fun h => !(s.hart h).lane.occ }

/-- The best core for the next hart: fewest occupied, then the lowest hart number (spec/22, R347). -/
def bestRoom (rs : List CoreRoom) : Option (Nat × Nat) :=
  rs.foldl (fun b r => match r.free with
    | [] => b
    | h :: _ => match b with
      | none => some (r.occupied, h)
      | some (o, g) => if r.occupied < o || (r.occupied = o && h < g) then some (r.occupied, h) else b) none

/-- Contexts for n harts in index order, all or none (spec/22, R347). -/
def placeHarts (rs : List CoreRoom) : Nat → Option (List Nat)
  | 0 => some []
  | n + 1 =>
    match bestRoom rs with
    | none => none
    | some (_, h) =>
      let rs := rs.map fun r => if r.free.head? = some h then ⟨r.occupied + 1, r.free.tail⟩ else r
      (placeHarts rs n).map (h :: ·)

/-- The contexts that the head of a queue would be placed on. -/
def headPlace (s : State) (d : Nat) (q : Queue) : Option (Nat × List Nat) :=
  match q.recs with
  | [] => none
  | e :: _ =>
    match s.launch? d e with
    | none => none
    | some l => (placeHarts (coreRooms s d l.pid) l.rcd.nh).map fun hs => (e, hs)

/-- Records since when each queue of a die is ready (spec/22, R346). -/
def markReady (s : State) (d : Nat) : State :=
  if (s.die d).queues.all fun q => q.2.recs == [] && q.2.readySince.isNone then s
  else s.updDie d fun x => { x with queues := x.queues.map fun q =>
    (q.1, { q.2 with readySince :=
      if q.2.en && (headPlace s d q.2).isSome then some (q.2.readySince.getD s.time.toNat) else none }) }

/-- The dies note which queues have become ready, at the end of every step (spec/22, R346). -/
def noteReady (s : State) : State := markReady (markReady s 0) 1

/-- The outcome of a step, with that noted. -/
def noteOut (o : Out) : Out :=
  match o with
  | .next s => .next (noteReady s)
  | .fault f => .fault f
  | .refused r => .refused r

/-- A record takes a pool entry and enters a queue; one that can never be placed fails at once (spec/22, R344, R347). -/
def enterPool (s : State) (d e q : Nat) (l : Launch) : State :=
  let s := s.updDie d fun x =>
    { x with pool := mapSet e { mapGet PoolEntry.reset x.pool e with launch := some l } x.pool }
  let s := updQueue s d q fun x => { x with recs := x.recs ++ [e] }
  if launchContexts s d l.pid < l.rcd.nh then s.failLaunch d e 6 else s

/-! ### The host port -/

/-- Counts a dropped push; the count stays at its maximum (spec/22, R342). -/
def Fifo.drop (x : Fifo) : Fifo := { x with drops := if x.drops = 0xFFFFFFFF then x.drops else x.drops + 1 }

/-- The die and FIFO in whose window a BAR0 offset lies (spec/22, R341; spec/25, R371). -/
def fifoAt (off : Nat) : Option (Nat × Nat) :=
  if 0x100000 ≤ off ∧ off < 0x110000 then some (0, (off - 0x100000) / 0x1000)
  else if 0x200000 ≤ off ∧ off < 0x210000 then some (1, (off - 0x200000) / 0x1000)
  else none

/-- A host write to the launch port; none reaches it while PERST# is asserted or the dies are in reset (spec/22, R341, R343;
spec/25, R372, R375). -/
def execHostLaunchPush (off : Nat) (bytes : List Byte) (s : State) : Out :=
  match fifoAt off with
  | none => .next s
  | some (d, f) =>
    if s.perst || s.diesHeld then .next s else
    let x := mapGet Fifo.reset (s.die d).fifos f
    match parseRecord (dwordsOf bytes 16) with
    | some r =>
      if off % 0x1000 = 0 ∧ bytes.length = 128 ∧ x.en ∧ x.recs.length < 16 then
        .next (updFifo s d f fun x => { x with recs := x.recs ++ [r] })
      else .next (updFifo s d f Fifo.drop)
    | none => .next (updFifo s d f Fifo.drop)

/-- The head record of a FIFO leaves it; those of a partition that a failure has stopped stay until it is restarted (spec/22,
R341; spec/25, R377). -/
def execRecordEntersPool (d f : Nat) (s : State) : Out :=
  let x := mapGet Fifo.reset (s.die d).fifos f
  match x.recs with
  | [] => .next s
  | r :: rest =>
    if s.stopped.contains x.pid.toNat || !(mapGet Queue.reset (s.die d).queues x.fq.toNat).en then .next s
    else match poolRoom s d x.pid with
      | none => .next s
      | some e =>
        let s := updFifo s d f fun x => { x with recs := rest }
        match cwaTarget s d x.asid x.pid r.cwa with
        | .error _ => .next (updFifo s d f Fifo.drop)
        | .ok pa =>
          .next (enterPool s d e x.fq.toNat
            { rcd := r, cwa := pa, pid := x.pid, asid := x.asid, depth := 1, issuer := none, harts := [], st := .queued,
              live := r.nh, flags := 0 })

/-- A read of n bytes through BAR0: the windows of the FIFOs read zeros; none is answered while PERST# is asserted, and of
other offsets the spec says nothing (spec/22, R341; spec/25, R372, R375). -/
def hostRead (s : State) (off n : Nat) : State :=
  if s.perst || (fifoAt off).isNone then s else { s with bus := ⟨List.replicate n 0, false⟩ }

/-- A read of a FIFO's drop count, which clears it (spec/00, R6; spec/22, R342). -/
def readDrops (s : State) (d f : Nat) : State :=
  let n := (mapGet Fifo.reset (s.die d).fifos f).drops
  { updFifo s d f (fun x => { x with drops := 0 }) with bus := ⟨toLe 8 n.toNat, false⟩ }

/-- A read of a FIFO's drop count. -/
def execReadDrops (d f : Nat) (s : State) : Out := .next (readDrops s d f)

/-! ### Dispatch -/

/-- The U state that a context starts with (spec/02, R35; spec/12, R205); the K-mode words, the record area and the numbering
of packets stay (assumption log, 34: DEDUCED). -/
def Hart.fresh (x : Hart) : Hart :=
  { Hart.reset 0 with
    run := .running,
    lazy := x.lazy, cause := x.cause, epc := x.epc, tval := x.tval, qpos := x.qpos, vbad := x.vbad, qdepth := x.qdepth,
    vpend := x.vpend, named := x.named, pie := x.pie, ie := x.ie, pmode := x.pmode, tvec := x.tvec, kscr := x.kscr, pending := x.pending,
    roff := x.roff, recs := x.recs, out := x.out, nextNum := x.nextNum, fenced := x.fenced,
    tlb := x.tlb, lane := { LaneEntry.reset with gcap := x.lane.gcap, wgt := x.lane.wgt, occ := true } }

/-- Scalar registers at dispatch, from s1 on (spec/19, R298; spec/22, R349). -/
def startRegs (xs : List Word) : Vector Word 32 :=
  Vector.ofFn fun i => if i.val = 0 then 0 else xs.getD (i.val - 1) 0

/-- The tasks of a cluster that one spawner spawned count as another's (spec/19, R306). -/
def respawn (s : State) (cl old new : Nat) : State :=
  s.updCluster cl fun c =>
    { c with tasks := c.tasks.map fun t => (t.1, if t.2.spawner = old then { t.2 with spawner := new } else t.2) }

/-- A context starts; tasks that its earlier run spawned no longer count as its own. -/
def startHart (s : State) (h : Nat) (pc : Word) (asid : BitVec 16) (regs : List Word) (l : LaunchRef)
    (task : Option Nat) : State :=
  (respawn s (clusterOf h) h 1536).updHart h fun x =>
    { x.fresh with s := startRegs regs, pc := pc, asid := asid, launch := some l, task := task }

/-- A launch starts on contexts hs (spec/22, R349). -/
def startLaunch (s : State) (d e : Nat) (hs : List Nat) : State :=
  match s.launch? d e with
  | none => s
  | some l =>
    let s := (indexed hs).foldl (fun s jh =>
      startHart s jh.2 l.rcd.entry l.asid
        ([l.rcd.cwa, BitVec.ofNat 64 jh.1, BitVec.ofNat 64 l.rcd.nh] ++ l.rcd.args) ⟨d, e, jh.1⟩ none) s
    s.updLaunch d e fun l => { l with st := .dispatched, live := hs.length, harts := hs }

/-- Queued launches that can never be placed leave their queues and fail (spec/22, R347). -/
def failUnplaceable (s : State) (d : Nat) : State :=
  let es := (s.die d).queues.flatMap fun q => q.2.recs
  es.foldl (fun s e => match s.launch? d e with
    | some l => if launchContexts s d l.pid < l.rcd.nh then s.failLaunch d e 6 else s
    | none => s) s

/-- The queue that dispatches next, and whether a pointer chose it (spec/22, R346). -/
def chooseQueue (s : State) (d : Nat) : Option (Nat × Bool) :=
  let ready := (s.die d).queues.filter fun q => q.2.readySince.isSome
  let top := ready.foldl (fun m q => max m q.2.pri.toNat) 0
  let ready := ready.filter fun q => q.2.pri.toNat = top
  match ready.map fun q => q.2.readySince.getD 0 with
  | [] => none
  | t :: ts =>
    let first := ts.foldl min t
    let tied := (ready.filter fun q => q.2.readySince = some first).map (·.1)
    let ptr := mapGet 0 (s.die d).rot top
    match tied.find? (ptr ≤ ·) with
    | some n => some (n, decide (1 < tied.length))
    | none => tied.head?.map fun n => (n, decide (1 < tied.length))

/-- A die dispatches one launch, at most one in a core cycle (spec/22, R346, R347, R349). -/
def execLaunchDispatch (d : Nat) (s : State) : Out :=
  let s := markReady (failUnplaceable s d) d
  if (s.die d).lastLaunch = some s.time then .next s else
  match chooseQueue s d with
  | none => .next s
  | some (n, tied) =>
    let q := mapGet Queue.reset (s.die d).queues n
    match headPlace s d q with
    | none => .next s
    | some (e, hs) =>
      let s := updQueue s d n fun q => { q with recs := q.recs.tail }
      let s := if tied then s.updDie d fun x => { x with rot := mapSet q.pri.toNat ((n + 1) % 64) x.rot } else s
      .next ((startLaunch s d e hs).updDie d fun x => { x with lastLaunch := some s.time })

/-! ### Completion -/

/-- The completion word (spec/22, R351). -/
def completionWord (fail : Bool) (why : BitVec 4) (flags : BitVec 9) : Word :=
  (1 : BitVec 1) ++ BitVec.ofBool fail ++ why ++ (0 : BitVec 49) ++ flags

/-- A launch still has tasks in a scoreboard of its die (spec/22, R350). -/
def hasTasks (s : State) (d e : Nat) : Bool :=
  (List.range 12).any fun c => (s.cluster (12 * d + c)).tasks.any fun t => t.2.launch.die == d && t.2.launch.entry == e

/-- Harts that wait in lwait read their words again (spec/22, R356). -/
def wakeLwait (s : State) : State :=
  { s with harts := s.harts.map fun e => match e.2.swait with
      | .lwait _ _ _ => (e.1, { e.2 with swait := .none })
      | _ => e }

/-- The completion word is written, its issuer signalled, the message sent, the entry freed (spec/22, R350). -/
def finishLaunch (s : State) (d e : Nat) (l : Launch) (w : Word) : State :=
  let s := s.putBytes l.cwa (toLe 8 w.toNat)
  let s := match l.issuer with
    | some (h, hd) => if (s.hart h).run == RunState.running && hartHandle s h == hd then s.signal h else s
    | none => s
  let s := if l.rcd.me then { s with msix := s.msix ++ [l.rcd.mv] } else s
  let s := s.updDie d fun x =>
    let p := mapGet PoolEntry.reset x.pool e
    { x with pool := mapSet e ⟨p.gen + 1, none⟩ x.pool }
  wakeLwait s

/-- A launch completes or its failure is written (spec/22, R350 to R352). -/
def execLaunchCompletion (d e : Nat) (s : State) : Out :=
  match s.launch? d e with
  | none => .next s
  | some l =>
    match l.st with
    | .queued => .next s
    | .dispatched =>
      if l.live = 0 ∧ !hasTasks s d e then
        .next (finishLaunch s d e l (completionWord false 0 l.flags))
      else .next s
    | .failed why =>
      if s.net.any fun p => l.harts.contains p.hart then .next s
      else .next (finishLaunch s d e l (completionWord true why l.flags))

/-- A hart of a launch ends: its flags join the launch's, its context is freed (spec/05, R104; spec/20, R320; spec/22,
R350). -/
def endHart (s : State) (h : Nat) (counts : Bool) : State :=
  let x := s.hart h
  let s := match x.launch with
    | some l => s.updLaunch l.die l.entry fun y =>
        { y with flags := y.flags ||| x.flags, live := if counts then y.live - 1 else y.live }
    | none => s
  let s := (s.leaveTack h).freeLanes h true
  s.updHart h fun x => { x with run := .idle, swait := .none, rq := [], launch := none, task := none, resv := none,
                                xlists := [], xvals := [], xrecs := [],
                                b := x.b.map fun _ => Bobbin.closed }

/-- The wait of end and tdone (spec/05, R104, step 1). -/
def drained (s : State) (h : Nat) : Bool :=
  let x := s.hart h
  x.vq == [] && x.kq.isNone && copiesDone x false && matrixDone s h false && s.pkts h == []

/-! ### Instructions -/

/-- Status values of lnch and tspawn (spec/19, R303; spec/22, R355). -/
def statusWord (n : Nat) : Word := 0x8000000000000000 ||| BitVec.ofNat 64 n

/-- The checks of lnch after its wait: the record enters the pool, or a status (spec/22, R354, R355; assumption log, 38:
DEDUCED). -/
def lnchEnter (s : State) (sd : SReg) (r : LRecord) (pa : Nat) : State :=
  let h := s.cur
  let d := dieOf h
  let p := s.pidOf h
  let depth := (s.me.launch.bind fun l => s.launch? l.die l.entry).elim 0 (·.depth)
  let q := mapGet Queue.reset (s.die d).queues r.q.toNat
  if dlimOf s d p ≤ depth then s.wr sd (statusWord 1)
  else if !(q.en && q.pid == p) then s.wr sd (statusWord 2)
  else if launchContexts s d p < r.nh then s.wr sd (statusWord 3)
  else match poolRoom s d p with
    | none => s.wr sd (statusWord 4)
    | some e =>
      let s := enterPool s d e r.q.toNat
        { rcd := r, cwa := pa, pid := p, asid := s.me.asid, depth := depth + 1, issuer := some (h, hartHandle s h),
          harts := [], st := .queued, live := r.nh, flags := 0 }
      s.wr sd (handleOf s d e)

/-- Steps 4 to 6 of lnch on the record that it has read: what it read stays with the hart while it waits (spec/22, R354). -/
def lnchWait (s : State) (sd : SReg) (ws : List Word) (pa : Nat) : Out :=
  match parseRecord ws with
  | none => illegalS s
  | some r =>
    .next (if ssDone s && vsDone s then lnchEnter s sd r pa else s.updMe fun x => { x with swait := .lnch ws pa })

/-- Steps 1 to 3 of lnch, then its wait (spec/22, R354). -/
def lnchRead (s : State) (sd : SReg) (ea : Word) : Out :=
  if ea.toNat % 128 != 0 then .next (s.trapS 0x05 0 ea)
  else match readDwords s ea 16 with
    | .wait => .next s
    | .trap c b t => .next (s.trapS c b t)
    | .ok ws =>
      match parseRecord ws with
      | none => illegalS s
      | some r =>
        match cwaTarget s (dieOf s.cur) s.me.asid (s.pidOf s.cur) r.cwa with
        | .error e => .next (s.trapS e.code e.sub r.cwa)
        | .ok pa => lnchWait s sd ws pa

/-- lnch (spec/22, R354, R355, R359). -/
def execLnch (sd sa : SReg) (s : State) : Out :=
  if s.me.kmode then privileged s (.lnch sd sa)
  else match s.me.swait with
    | .lnch ws pa => lnchWait s sd ws pa
    | _ => lnchRead s sd (s.rs sa)

/-- lwait (spec/22, R356). -/
def execLwait (sd sa sb : SReg) (s : State) : Out :=
  if s.me.kmode then privileged s (.lwait sd sa sb)
  else match s.me.swait with
    | .lwait _ d w => if deadlinePast s d then .next (s.wr sd w) else .next s
    | _ =>
      let ea := s.rs sa
      withLoc s .load ea 8 fun loc =>
        if addPending s loc 8 then .next s
        else if s.poisonedFor s.cur false loc 8 then .next (s.trapS 0x10 0 ea)
        else
          let w := BitVec.ofNat 64 (leNat (s.view s.cur false loc 8))
          if w.getLsbD 63 || deadlinePast s (s.rs sb) then .next (s.wr sd w)
          else .next (s.updMe fun x => { x with swait := .lwait sd (s.rs sb) w })

/-- The deadline of a waiting lwait comes (spec/22, R356). -/
def execLwaitDeadline (h : Nat) (s : State) : Out :=
  match (s.hart h).swait with
  | .lwait sd d w => if deadlinePast s d then .next (s.onHart h fun s => s.wr sd w) else .next s
  | _ => .next s

/-- The pool entry that a handle names for a hart: of its die and partition, of the current generation (spec/22, R357). -/
def byHandle (s : State) (h : Nat) (w : Word) : Option (Nat × Launch) :=
  let e := (w.setWidth 12).toNat
  let p := mapGet PoolEntry.reset (s.die (dieOf h)).pool e
  if w.extractLsb' 32 32 != 0 || w.extractLsb' 13 3 != 0 || (w.extractLsb' 12 1).toNat != dieOf h
      || w.extractLsb' 16 16 != p.gen then none
  else match p.launch with
    | some l => if l.pid == s.pidOf h then some (e, l) else none
    | none => none

/-- The word of lstat; a launch that has failed is neither queued nor dispatched (spec/22, R357; assumption log, 35:
DEDUCED). -/
def lstatWord (l : Launch) : Word :=
  let st : Option (BitVec 2) := match l.st with
    | .queued => some 1
    | .dispatched => some 2
    | .failed _ => none
  match st with
  | some c => (0 : BitVec 39) ++ BitVec.ofNat 9 l.live ++ (0 : BitVec 8) ++ BitVec.ofNat 4 l.depth ++ (0 : BitVec 2) ++ c
  | none => 0

/-- lstat (spec/22, R357). -/
def execLstat (sd sa : SReg) (s : State) : Out :=
  if s.me.kmode then privileged s (.lstat sd sa)
  else match byHandle s s.cur (s.rs sa) with
    | some (_, l) => .next (s.wr sd (lstatWord l))
    | none => .next (s.wr sd 0)

/-- lcanc (spec/22, R358). -/
def execLcanc (sd sa : SReg) (s : State) : Out :=
  if s.me.kmode then privileged s (.lcanc sd sa)
  else match byHandle s s.cur (s.rs sa) with
    | some (e, l) =>
      if l.st = .queued then .next ((s.failLaunch (dieOf s.cur) e 4).wr sd 1) else .next (s.wr sd 0)
    | none => .next (s.wr sd 0)

end Sys2Proof.Machine
end

