-- ==== Sys2Proof/Machine/Tasks.lean ====
section
/-!
DEFINITION. Machine/Tasks.lean: streams, the task scoreboard and its events, the task instructions, end (spec/19; spec/05,
R104).
-/
namespace Sys2Proof.Machine

/-! ### Records -/

/-- A stream handle: none, or a descriptor's offset; the outer none is an invalid handle (spec/19, R293). -/
def handle? (x : BitVec 32) : Option (Option Nat) :=
  if x = 0xFFFFFFFF then some none
  else if x.toNat % 32 = 0 ∧ x.toNat < 2 ^ 23 then some (some x.toNat)
  else none

/-- A task record that is valid (spec/19, R295). -/
structure TaskRecord where
  entry : Word
  arg : Word
  ins : List TaskIn
  outs : List (Option Nat)
deriving DecidableEq, Repr

/-- Input i of a record. -/
def recordIn (h : Option Nat) (ns : BitVec 32) (i : Nat) : TaskIn :=
  { handle := h, test := (ns >>> (8 * i + 1)).setWidth 4, ns := ns.getLsbD (8 * i), released := false }

/-- The record of eight dwords, when it is valid (spec/19, R295). -/
def parseTask (ws : List Word) : Option TaskRecord :=
  let w (i : Nat) : Word := ws.getD i 0
  let half (i : Nat) : BitVec 32 := (w (i / 2) >>> (32 * (i % 2))).setWidth 32
  let hs := (List.range 6).map fun i => handle? (half (4 + i))
  let ns := half 10
  if (w 0).extractLsb' 56 8 != 0 || (w 0).extractLsb' 0 2 != 0 || half 11 != 0 || w 6 != 0 || w 7 != 0
      || ns &&& 0xE0E0E0E0 != 0 || hs.any Option.isNone then none
  else
    let hs := hs.filterMap id
    let ins := (indexed (hs.take 4)).map fun e => recordIn e.2 ns e.1
    let bound := hs.filterMap id
    if bound.Nodup && (ins.all fun x => if x.ns then x.handle.isSome && x.test != 0 else x.test == 0) then
      some ⟨w 0, w 1, ins, hs.drop 4⟩
    else none

/-! ### Streams and entries -/

/-- A stream state from its code. -/
def StreamState.ofCode : BitVec 2 → StreamState
  | 0 => .empty
  | 1 => .pending
  | 2 => .resident
  | _ => .withdrawn

/-- A stream as its descriptor in the scratchpad gives it (spec/19, R293). -/
def readStream (s : State) (cl hd : Nat) : Stream :=
  let w : BitVec 32 := BitVec.ofNat 32 (padHalf s cl (hd + 12))
  { handle := hd, ncons := (w.extractLsb' 10 9).toNat, state := StreamState.ofCode (w.extractLsb' 8 2),
    sum := BitVec.ofNat 32 (padHalf s cl (hd + 16)), late := BitVec.ofNat 32 (padHalf s cl (hd + 20)),
    scope := w.extractLsb' 24 3, producer := none }

/-- A stream: the scoreboard's copy, or the descriptor. -/
def streamOf (s : State) (cl hd : Nat) : Stream := (findStream s cl hd).getD (readStream s cl hd)

/-- The scoreboard copies a descriptor that an entry names. -/
def keepStream (s : State) (cl hd : Nat) : State :=
  if (findStream s cl hd).isSome then s
  else s.updCluster cl fun c => { c with streams := c.streams ++ [readStream s cl hd] }

/-- A task entry. -/
def taskOf (s : State) (cl i : Nat) : Option Task := ((s.cluster cl).tasks.find? fun t => t.1 == i).map (·.2)

/-- Changes a task entry. -/
def updTask (s : State) (cl i : Nat) (f : Task → Task) : State :=
  s.updCluster cl fun c => { c with tasks := c.tasks.map fun t => if t.1 = i then (i, f t.2) else t }

/-- The bound outputs of a task. -/
def Task.outHandles (t : Task) : List Nat := t.outs.filterMap (·.handle)

/-- The inputs of a task that it still holds. -/
def Task.held (t : Task) : List Nat := t.ins.filterMap fun x => if x.released then none else x.handle

/-- Wait-table entries that WAITING tasks hold: one for each bound input whose stream is not RESIDENT (spec/19, R296). -/
def taskWaits (s : State) (cl : Nat) : Nat :=
  (((s.cluster cl).tasks.filter fun t => t.2.hart.isNone).map fun t =>
    ((t.2.ins.filterMap (·.handle)).filter fun h => (streamOf s cl h).state != .resident).length).sum

/-- Some WAITING or RUNNING task has the stream as an output (spec/19, R297). -/
def isOutput (s : State) (cl hd : Nat) : Bool := (s.cluster cl).tasks.any fun t => t.2.outHandles.contains hd

/-- A reservation of the stream is pending (spec/19, R297). -/
def reservationPending (s : State) (cl hd : Nat) : Bool :=
  (s.cluster cl).tasks.any fun t => t.2.outs.any fun o => o.handle == some hd && !o.reserved

/-- The summary that no element has entered (spec/19, R307). -/
def emptySum : BitVec 32 := 0xB

/-- Task i reserves its output hd: the stream becomes PENDING (spec/19, R297). -/
def reserveOutput (s : State) (cl i hd : Nat) : State :=
  let s := updStream s cl hd fun x => { x with state := .pending, producer := some i, late := 0, sum := 0 }
  let take (o : TaskOut) : TaskOut := if o.handle = some hd then { o with reserved := true, sum := emptySum } else o
  updTask s cl i fun t => { t with outs := t.outs.map take }

/-- A withdrawal; a WAITING producer with every output withdrawn is to be retired (spec/19, R299). -/
def withdraw (s : State) (cl hd : Nat) : State :=
  let s := updStream s cl hd fun x => { x with state := .withdrawn }
  match (streamOf s cl hd).producer with
  | none => s
  | some i =>
    match taskOf s cl i with
    | some t =>
      if t.hart.isNone && (t.outHandles.all fun o => (streamOf s cl o).state == .withdrawn) then
        s.updCluster cl fun c => { c with retire := c.retire ++ [i] }
      else s
    | none => s

/-- A consumer releases a stream: it may be withdrawn, or a pending reservation of it may be made (spec/19, R297, R299). -/
def release (s : State) (cl hd : Nat) : State :=
  let s := updStream s cl hd fun x => { x with ncons := x.ncons - 1 }
  let x := streamOf s cl hd
  if x.ncons != 0 then s
  else if x.state = .pending then withdraw s cl hd
  else match (s.cluster cl).tasks.find? fun t => t.2.outs.any fun o => o.handle == some hd && !o.reserved with
    | some t => reserveOutput s cl t.1 hd
    | none => s

/-- A task releases the inputs it still holds that pass a test. -/
def releaseInputs (s : State) (cl i : Nat) (f : Stream → Bool) : State :=
  match taskOf s cl i with
  | none => s
  | some t =>
    let hs := t.held.filter fun h => f (streamOf s cl h)
    let mark (x : TaskIn) : TaskIn := if (x.handle.map hs.contains).getD false then { x with released := true } else x
    let s := updTask s cl i fun t => { t with ins := t.ins.map mark }
    hs.foldl (fun s h => release s cl h) s

/-- The location of a stream's counter for a cluster, under an ASID (spec/19, R293, R301). -/
def counterLoc (s : State) (cl : Nat) (asid : BitVec 16) (ea : Word) : Option Nat :=
  if ea.extractLsb' 56 8 != 0 || ea.extractLsb' 0 3 != 0 then none
  else if ea.extractLsb' 48 8 == 0xFF then
    let off := ea.toNat % 2 ^ 40
    if ea.extractLsb' 40 8 == 1 then (if off < 2 ^ 23 then some (padBase cl + off) else none)
    else if ea.extractLsb' 40 8 == 2 then (if off < 48 * 2 ^ 20 then some (sramBase (cl / 12) + off) else none)
    else none
  else match walkDie s (cl / 12) asid ea.toNat with
    | some t =>
      if t.permits .atomic true && pageOwned s (s.cluster cl).pid t.pa (pageSize t.level) then
        some (t.pa + ea.toNat % pageSize t.level)
      else none
    | none => none

/-- The nominal byte count of a stream is posted, by a packet of the cluster; none while it waits for quota or its place
(spec/19, R299, R301; spec/21, R325, R326; assumption log, 18: DEDUCED; 59: DESIGN CHOICE). -/
def postStream (s : State) (cl : Nat) (asid : BitVec 16) (hd : Nat) : Option State :=
  let cnt := padWord s cl (hd + 24)
  if cnt = 0 then some s
  else match counterLoc s cl asid cnt with
    | some loc => (s.sendFrom cl loc).map fun s =>
        let old : Word := BitVec.ofNat 64 (leNat (s.bytes loc 8))
        s.setBytes loc (toLe 8 (old + BitVec.ofNat 64 (padHalf s cl (hd + 8))).toNat)
    | none => some s

/-- The posts of a task's outputs in their order; none while one of them waits. -/
def postOutputs (s : State) (cl : Nat) (t : Task) : Option State :=
  (t.outs.filterMap (·.handle)).foldlM (fun s h => postStream s cl t.asid h) s

/-- Frees a task entry, and the copies of descriptors that no entry names (spec/19, R293, R296). -/
def freeTask (s : State) (cl i : Nat) : State := s.updCluster cl fun c => c.keepTasks fun t => t.1 != i

/-! ### Spawn -/

/-- The refusal of a spawn; where several hold, the one with the lowest status value; none: it is bound (spec/19, R297, R303;
assumption log, 52: DEDUCED). -/
def spawnStatus (s : State) (cl : Nat) (r : TaskRecord) : Option Nat :=
  let ins := r.ins.filterMap (·.handle)
  let outs := r.outs.filterMap id
  let need := (ins.filter fun h => (streamOf s cl h).state != .resident).length
  if 256 ≤ (s.cluster cl).tasks.length then some 1
  else if 256 < need + (s.cluster cl).waits.length + taskWaits s cl then some 2
  else if ins.any (fun h => (streamOf s cl h).state == .empty || (streamOf s cl h).state == .withdrawn)
      || outs.any (fun h => (streamOf s cl h).state == .pending || (streamOf s cl h).producer.isSome || isOutput s cl h)
    then some 3
  else if ins.any (reservationPending s cl) then some 4
  else none

/-- The lowest entry number not in use from i on. -/
def lowestTask (ts : List (Nat × Task)) (i : Nat) : Nat → Nat
  | 0 => i
  | n + 1 => if ts.any fun t => t.1 == i then lowestTask ts (i + 1) n else i

/-- Binds a record to a free entry (spec/19, R297). -/
def bindTask (s : State) (cl : Nat) (rcd : Word) (r : TaskRecord) (asid : BitVec 16) (h : Nat) (l : LaunchRef) :
    State × Nat :=
  let i := lowestTask (s.cluster cl).tasks 0 256
  let ins := r.ins.filterMap (·.handle)
  let outs := r.outs.filterMap id
  let s := (ins ++ outs).foldl (fun s hd => keepStream s cl hd) s
  let t : Task :=
    { rcd := rcd, entry := r.entry, arg := r.arg, ins := r.ins,
      outs := r.outs.map fun o => ⟨o, false, emptySum⟩, order := (s.cluster cl).spawned, asid := asid, spawner := h,
      launch := l, hart := none, fired := false, tabs := 0 }
  let s := s.updCluster cl fun c => { c with tasks := mapSet i t c.tasks, spawned := c.spawned + 1 }
  let s := ins.foldl (fun s hd => updStream s cl hd fun x => { x with ncons := x.ncons + 1 }) s
  (outs.foldl (fun s hd => if (streamOf s cl hd).ncons = 0 then reserveOutput s cl i hd else s) s, i)

/-- tspawn; a hart of no launch spawns for no pool entry of its die (spec/19, R303; assumption log, 52: DEDUCED). -/
def execTspawn (sd sa : SReg) (s : State) : Out :=
  let ea := s.rs sa
  if s.me.kmode then privileged s (.tspawn sd sa)
  else if ea.toNat % 64 != 0 then .next (s.trapS 0x05 0 ea)
  else match readDwords s ea 8 with
    | .wait => .next s
    | .trap c b t => .next (s.trapS c b t)
    | .ok ws =>
      match parseTask ws with
      | none => illegalS s
      | some r =>
        if !ssDone s then .next s
        else match spawnStatus s (clusterOf s.cur) r with
          | some n => .next (s.wr sd (statusWord n))
          | none =>
            let (s', i) := bindTask s (clusterOf s.cur) ea r s.me.asid s.cur (s.me.launch.getD ⟨dieOf s.cur, 4096, 0⟩)
            .next (s'.wr sd (BitVec.ofNat 64 i))

/-! ### Fire, dispatch, retirement -/

/-- A present input meets its absorbing test (spec/19, R297). -/
def inputMet (s : State) (cl : Nat) (x : TaskIn) : Bool :=
  match x.handle with
  | some h =>
    let y := streamOf s cl h
    x.ns && y.state == .resident && y.sum.getLsbD 4 && (y.sum.setWidth 4 &&& x.test) != 0
  | none => false

/-- A WAITING task that is not being retired, with its outputs reserved. -/
def mayRun (s : State) (cl : Nat) (i : Nat) (t : Task) : Bool :=
  t.hart.isNone && !(s.cluster cl).retire.contains i && t.outs.all fun o => o.handle.isNone || o.reserved

/-- Every bound input is RESIDENT. -/
def allResident (s : State) (cl : Nat) (t : Task) : Bool :=
  t.ins.all fun x => match x.handle with
    | some h => (streamOf s cl h).state == .resident
    | none => true

/-- The task fires (spec/19, R297). -/
def mayFire (s : State) (cl i : Nat) (t : Task) : Bool :=
  mayRun s cl i t && !t.fired && !allResident s cl t && t.ins.any (inputMet s cl)

/-- A task fires: its PENDING inputs are released (spec/19, R299). -/
def execTaskFire (cl i : Nat) (s : State) : Out :=
  match taskOf s cl i with
  | none => .next s
  | some t =>
    if mayFire s cl i t then
      .next (releaseInputs (updTask s cl i fun t => { t with fired := true }) cl i fun x => x.state == .pending)
    else .next s

/-- A task retired unrun: its inputs are released, its outputs posted, its entry freed; none while a post waits (spec/19,
R299). -/
def retireTask (s : State) (cl i : Nat) (t : Task) : Option State :=
  (postOutputs (releaseInputs s cl i fun _ => true) cl t).map fun s => freeTask s cl i

/-- A task is retired unrun (spec/19, R299). -/
def execTaskRetire (cl i : Nat) (s : State) : Out :=
  match taskOf s cl i with
  | none => .next s
  | some t => .next (if (s.cluster cl).retire.contains i then (retireTask s cl i t).getD s else s)

/-- The free contexts of a cluster's task pool, lowest hart first (spec/22, R348; assumption log, 19: DESIGN CHOICE). -/
def taskContexts (s : State) (cl : Nat) : List Nat :=
  let t := (s.cluster cl).tps.toNat
  (List.range 8).flatMap fun k =>
    (((List.range t).map fun j => 64 * cl + 8 * k + (8 - t + j)).filter fun h => !(s.hart h).lane.occ)

/-- The input status of a task at its dispatch (spec/19, R304). -/
def tabsWord (s : State) (cl : Nat) (t : Task) : Word :=
  let bit (f : TaskIn → Bool) : Nat := ((indexed t.ins).map fun e => if f e.2 then 2 ^ e.1 else 0).sum
  let present (x : TaskIn) : Bool := match x.handle with
    | some h => (streamOf s cl h).state == .resident
    | none => false
  let sm := ((indexed t.ins).map fun e => match e.2.handle with
    | some h =>
      let y := streamOf s cl h
      if y.state == .resident && y.sum.getLsbD 4 then (y.sum.setWidth 4).toNat * 16 ^ e.1 else 0
    | none => 0).sum
  BitVec.ofNat 64 (bit present + 16 * bit (·.handle.isSome) + 256 * bit (inputMet s cl)
    + (if t.fired then 4096 else 0) + 65536 * sm)

/-- The outputs of a task that are WITHDRAWN (assumption log, 52: DEDUCED). -/
def withdrawnOuts (s : State) (cl : Nat) (t : Task) : List Nat :=
  ((indexed t.outs).filter fun e => match e.2.handle with
    | some h => (streamOf s cl h).state == .withdrawn
    | none => false).map (·.1)

/-- The oldest task that passes a test. -/
def oldestTask (s : State) (cl : Nat) (f : Nat × Task → Bool) : Option (Nat × Task) :=
  ((s.cluster cl).tasks.filter f).foldl (fun b t => match b with
    | none => some t
    | some u => if t.2.order < u.2.order then some t else some u) none

/-- The oldest task that can be dispatched or fired (spec/19, R297). -/
def oldestReady (s : State) (cl : Nat) : Option (Nat × Task) :=
  oldestTask s cl fun t => mayRun s cl t.1 t.2 && (t.2.fired || allResident s cl t.2 || mayFire s cl t.1 t.2)

/-- The event that has reached a cluster's scoreboard and comes before any other: a task that fires, the oldest first, then
the steps of retirement in their order, the first as soon as its posts can leave (spec/19, R296, R299; assumption log, 52:
DEDUCED; 59: DESIGN CHOICE). -/
noncomputable def dueTask (s : State) (cl : Nat) : Option Instr :=
  match oldestTask s cl fun t => mayFire s cl t.1 t.2 with
  | some t => some (.taskFire cl t.1)
  | none =>
    (((s.cluster cl).retire.find? fun i => (taskOf s cl i).isSome).filter fun i =>
      ((taskOf s cl i).bind (retireTask s cl i)).isSome).map fun i => .taskRetire cl i

/-- The oldest ready task starts on a free context of the task pool; one that has still to fire goes first (spec/19, R297,
R298). -/
def execTaskDispatch (cl : Nat) (s : State) : Out :=
  match oldestReady s cl, taskContexts s cl with
  | some (i, t), h :: _ =>
    if !takesWork (s.cluster cl) (s.cluster cl).pid || mayFire s cl i t then .next s
    else
      let s := updTask s cl i fun t => { t with hart := some h, tabs := tabsWord s cl t }
      let s := startHart s h t.entry t.asid [t.rcd, t.arg, BitVec.ofNat 64 i] t.launch (some i)
      .next (s.updHart h fun x => { x with marks := withdrawnOuts s cl t })
  | _, _ => .next s

/-- The mark of a withdrawn output reaches the hart of its producer (spec/19, R300). -/
def execWithdrawMark (h j : Nat) (s : State) : Out :=
  match (s.hart h).task.bind (taskOf s (clusterOf h)) with
  | none => .next s
  | some t =>
    if (withdrawnOuts s (clusterOf h) t).contains j then
      .next (s.updHart h fun x => { x with marks := insertNat j x.marks })
    else .next s

/-! ### Instructions of a task -/

/-- tabs (spec/19, R304). -/
def execTabs (sd : SReg) (s : State) : Out :=
  match s.me.task.bind (taskOf s (clusterOf s.cur)) with
  | none => illegalS s
  | some t => .next (s.wr sd t.tabs)

/-- twd (spec/19, R305). -/
def execTwd (sd : SReg) (s : State) : Out :=
  match s.me.task.bind (taskOf s (clusterOf s.cur)) with
  | none => illegalS s
  | some t =>
    let b (j : Nat) : Bool := s.me.marks.contains j
    let bound := ((indexed t.outs).filter fun e => e.2.handle.isSome).map (·.1)
    .next (s.wr sd (BitVec.ofNat 64 ((if b 0 then 1 else 0) + (if b 1 then 2 else 0)
      + (if bound != [] && bound.all b then 4 else 0))))

/-- The summary that tdone publishes (spec/19, R294). -/
def publishedSum (x : BitVec 32) : BitVec 32 := if x.getLsbD 4 then x else 0

/-- The publication of task i; none while a post waits (spec/19, R306, step 3). -/
def publish (s : State) (cl i : Nat) : Option State :=
  match taskOf s cl i with
  | none => some s
  | some t =>
    let s := t.outs.foldl (fun s o => match o.handle with
      | some h => updStream s cl h fun x =>
          if x.state = .pending then { x with state := .resident, sum := publishedSum o.sum, producer := none } else x
      | none => s) s
    (postOutputs s cl t).map fun s => freeTask (releaseInputs s cl i fun _ => true) cl i

/-- The effect of tdone once a task is known (spec/19, R306). -/
def taskDone (s : State) (i : Nat) : Out :=
  let cl := clusterOf s.cur
  if drained s s.cur && !((s.cluster cl).tasks.any fun t => t.2.spawner == s.cur) then
    match publish s cl i with
    | some t => .next (endHart t s.cur false)
    | none => .next s
  else .next s

/-- tdone (spec/19, R306). -/
def execTdone (s : State) : Out :=
  match s.me.task with
  | none => illegalS s
  | some i => taskDone s i

/-- end: privileged in K mode; in a task context it is tdone (spec/05, R104; spec/19, R306). -/
def execEndL (s : State) : Out :=
  if s.me.kmode then privileged s .endL
  else match s.me.task with
    | some i => taskDone s i
    | none => if drained s s.cur then .next (endHart s s.cur true) else .next s

end Sys2Proof.Machine
end

