-- ==== Sys2Proof/Machine/Flags.lean ====
section
/-!
DEFINITION. Machine/Flags.lean: raising event classes in c.flags and c.fi (spec/01, R17; spec/02, R30, R31; spec/05, R81;
spec/04, R76 to R78).
-/
namespace Sys2Proof.Machine

/-- Raises classes from a scalar instruction: c.flags alone (spec/05, R81). -/
def Hart.raiseScalar (x : Hart) (fl : Flags) : Hart := { x with flags := x.flags ||| fl }

/-- Raise of R17 for every class of fl at element i. -/
def Hart.raiseAt (x : Hart) (i : Nat) (fl : Flags) : Hart :=
  if fl = 0 then x
  else
    { x with
      flags := x.flags ||| fl,
      fi := Vector.ofFn fun c =>
        let old := x.fi.get c
        if fl.getLsbD c.val && decide (i < old.toNat) then BitVec.ofNat 32 i else old }

/-- Raises the classes of a list of elements. -/
def State.raiseList (s : State) (l : List (Nat × Flags)) : State :=
  if l.all fun e => e.2 == 0 then s else s.updMe fun x => l.foldl (fun x e => x.raiseAt e.1 e.2) x

end Sys2Proof.Machine
end

