-- ==== Sys2Proof/Machine/Operands.lean ====
section
/-!
DEFINITION. Machine/Operands.lean: operands of V-words: vector and predicate registers, format words, masks, bobbin sources,
the checks made at dispatch and the write of a result (spec/03, R55; spec/04, R61, R62; spec/06, R106 to R111, R394;
spec/14, R250, R251).
-/
namespace Sys2Proof.Machine

open Sys2Proof

/-! ### Registers -/

/-- The first n entries of a list, with a filler beyond its end. -/
def padTake {α : Type} (d : α) : Nat → List α → List α
  | 0, _ => []
  | n + 1, [] => d :: padTake d n []
  | n + 1, x :: l => x :: padTake d n l

/-- n chunks of k bytes as numbers, zero beyond the end. -/
def chunks (k : Nat) : Nat → List Byte → List Word
  | 0, _ => []
  | n + 1, bs => BitVec.ofNat 64 (leNat (bs.take k)) :: chunks k n (bs.drop k)

/-- Bytes padded with zero to a multiple of 8. -/
def padEight (l : List Byte) : List Byte := l ++ List.replicate ((8 - l.length % 8) % 8) 0

/-- The low and high halves of dwords. -/
def halves (ws : List Word) : List Word := ws.flatMap fun x => [x % 2 ^ 32, x / 2 ^ 32]

/-- The first n elements of a register read at a width; bytes beyond the filled length are zero (spec/06, R108). -/
def velems (v : VReg) (w : Width) (n : Nat) : List Word :=
  if v.wt = w then padTake 0 n v.elems else chunks (widthBytes w) n v.bytes

/-- Vector register v. -/
def State.vreg (s : State) (v : VReg5) : VReg := s.me.v.get v.toFin

/-- Writes a vector register and its dirty bit (spec/02, R22, R32). -/
def Hart.setV (x : Hart) (v : VReg5) (r : VReg) : Hart :=
  { x with v := x.v.set v.toNat r v.isLt, vdirty := x.vdirty ||| ((1 : BitVec 32) <<< v.toNat) }

/-- Writes a vector register of the hart that executes. -/
def State.setV (s : State) (v : VReg5) (r : VReg) : State := s.updMe fun x => x.setV v r

/-- Writes a predicate register and its dirty bit; a write to p0 is discarded (spec/02, R21, R32). -/
def Hart.setP (x : Hart) (p : PReg) (r : Pred) : Hart :=
  if p = 0 then x
  else { x with p := x.p.set p.toNat r p.isLt, pdirty := x.pdirty ||| ((1 : BitVec 32) <<< p.toNat) }

/-- Writes a predicate register of the hart that executes. -/
def State.setP (s : State) (p : PReg) (r : Pred) : State := s.updMe fun x => x.setP p r

/-- Sets bit n of c.fdirty (spec/02, R32). -/
def Hart.touchF (x : Hart) (n : Nat) : Hart := { x with fdirty := x.fdirty ||| ((1 : BitVec 32) <<< n) }

/-- The bits of a set of element numbers from i on, n of them. -/
def memberBits : Nat → Nat → Pred → List Bool
  | _, 0, _ => []
  | i, n + 1, [] => false :: memberBits (i + 1) n []
  | i, n + 1, k :: p => if k = i then true :: memberBits (i + 1) n p else false :: memberBits (i + 1) n (k :: p)

/-- The first n bits of a predicate register; p0 reads all true (spec/02, R21). -/
def State.pbits (s : State) (p : PReg) (n : Nat) : List Bool :=
  if p = 0 then List.replicate n true else memberBits 0 n (s.me.p.get p.toFin)

/-- The element numbers of the 1 bits of a list. -/
def trueAt (l : List Bool) : List Nat := ((indexed l).filter (·.2)).map (·.1)

/-- c.vl as a number. -/
def State.vl (s : State) : Nat := s.me.vl.toNat

/-- A V-word that counts elements at a width writes c.vl (spec/12, R205). -/
def State.setVl (s : State) (n : Nat) (w : Width) : State :=
  s.updMe fun x => { x with vl := BitVec.ofNat 32 n, lane := { x.lane with wl := w } }

/-- Active for elements 0 to c.vl − 1 of a unit instruction, which reads c.vs as 0; its completion leaves c.vs 0, and a trap
or a wait leaves c.vs as it is (spec/01, R17; spec/03, R58; spec/06, R111; spec/07, R131; assumption log, 43: DEDUCED). -/
def State.unitActive (s : State) (pm : PReg) : List Bool := s.pbits pm s.vl

/-! ### Format words -/

/-- A format word; a reserved code or mode is none (spec/04, R61, R63, R64). -/
structure FW where
  word : Word
  a : Option Fmt
  b : Option Fmt
  d : Option Fmt
  c : Option Fmt
  rm : Option Rm
  sat : Bool
  e : Int
deriving DecidableEq, Repr

/-- The fields of a format word (spec/04, R61). -/
def fwOf (w : Word) : FW :=
  { word := w, a := Fmt.ofCode (w.extractLsb' 0 5), b := Fmt.ofCode (w.extractLsb' 5 5),
    d := Fmt.ofCode (w.extractLsb' 10 5), c := Fmt.ofCode (w.extractLsb' 19 5), rm := Rm.ofCode (w.extractLsb' 15 3),
    sat := w.getLsbD 18, e := (w.extractLsb' 32 8).toInt }

/-- The format word of an instruction. -/
def State.fw (s : State) (fs : SP) : FW := fwOf (s.sp fs)

/-- fmt.a, once checked. -/
def FW.fa (x : FW) : Fmt := x.a.getD .int8
/-- fmt.b, once checked. -/
def FW.fb (x : FW) : Fmt := x.b.getD .int8
/-- fmt.d, once checked. -/
def FW.fd (x : FW) : Fmt := x.d.getD .int8
/-- fmt.c, once checked. -/
def FW.fc (x : FW) : Fmt := x.c.getD .int8
/-- fmt.rm, once checked. -/
def FW.frm (x : FW) : Rm := x.rm.getD .rne

/-- A field that must hold a code of a kind: its subcode, and whether it passes (spec/04, R62). -/
abbrev FwChk := Nat × Bool

/-- The field holds a code that passes a test. -/
def okFmt (f : Option Fmt) (t : Fmt → Bool) : Bool := (f.map t).getD false

/-- The check of field a. -/
def chkA (x : FW) (t : Fmt → Bool) : FwChk := (0, okFmt x.a t)
/-- The check of field b. -/
def chkB (x : FW) (t : Fmt → Bool) : FwChk := (1, okFmt x.b t)
/-- The check of field d. -/
def chkD (x : FW) (t : Fmt → Bool) : FwChk := (2, okFmt x.d t)
/-- The check of field c. -/
def chkC (x : FW) (t : Fmt → Bool) : FwChk := (3, okFmt x.c t)
/-- The check of the rounding mode. -/
def chkRm (x : FW) : FwChk := (4, x.rm.isSome)

/-- The checks of a format word, in order; the first that fails raises illegal format (spec/04, R62). -/
def withFmt (s : State) (x : FW) (cs : List FwChk) (k : Out) : Out :=
  match cs.find? fun c => !c.2 with
  | some c => .next (s.trapV 0x02 (BitVec.ofNat 8 c.1) x.word)
  | none => k

/-- Illegal operand of a V-word, precise (spec/02, R37). -/
def illegalV (s : State) : Out := .next (s.trapV 0x03 0 0)

/-- The V-word has raised illegal format (0x02): in a K block, its undelivered trap's record says so. -/
def formatTrap (s t : State) : Bool :=
  if s.me.kq.isSome then
    t.ringWr != s.ringWr && leNat (t.bytes (bootBase + 0x7C0000 + 64 * (s.ringWr.toNat % 4096) + 8) 1) % 64 == 2
  else t.me.kmode && !s.me.kmode && t.me.cause.extractLsb' 0 6 == 2

/-- The outcome of a V-word of a member of a trio that names a register of the pool: illegal operand, unless its format word
has raised illegal format first (spec/03, R58; spec/12, R218). -/
def poolOut (s : State) (i : Instr) (o : Out) : Out :=
  if namesPool s i then
    match o with
    | .next t => if formatTrap s t then o else illegalV s
    | .fault f => .fault f
    | .refused r => .refused r
  else o

/-- A condition on operands, else illegal operand. -/
def need (s : State) (c : Bool) (k : Out) : Out := if c then k else illegalV s

/-- The check of c.vl at the widths an instruction uses (spec/06, R394). -/
def withVl (s : State) (ws : List Width) (k : Out) : Out :=
  need s (ws.all fun w => decide (s.vl ≤ vlmax s s.cur w)) k

/-! ### Selvedges -/

/-- The sum of the level-1 lengths. -/
def levelSum (l : List Level) : Nat := ((l.head?.map (·.lens)).getD []).sum

/-- A selvedge carried by a result of n elements: kept when its level-1 lengths sum to n, else flat (spec/06, R110). -/
def keepLevels (l : List Level) (n : Nat) : List Level := if levelSum l = n then l else []

/-! ### Stream bobbins as sources -/

/-- Bobbin b of hart h. -/
def State.bob (s : State) (h : Nat) (b : BReg4) : Bobbin := (s.hart h).b.get b.toFin

/-- Changes a bobbin, with its dirty bit (spec/14, R244). -/
def State.updBob (s : State) (h : Nat) (b : BReg4) (f : Bobbin → Bobbin) : State :=
  s.updHart h fun x => { x with b := x.b.set b.toNat (f (x.b.get b.toFin)) b.isLt }.touchF (12 + b.toNat)

/-- The capacity of a stream in elements (spec/14, R244). -/
def Bobbin.cap (b : Bobbin) : Nat := b.bsz * 512 / widthBits b.ew

/-- The location of a stream's element n in its buffer (spec/14, R245, R248). -/
def slotLoc (h : Nat) (b : Bobbin) (n : Nat) : Nat := tcmBase (coreOf h) + b.boff * 64 + n % b.cap * widthBytes b.ew

/-- Elements of a stream, from one on. -/
def streamElems (s : State) (h : Nat) (b : Bobbin) (first n : Nat) : List Word :=
  (List.range n).map fun i => BitVec.ofNat 64 (leNat (s.bytes (slotLoc h b (first + i)) (widthBytes b.ew)))

/-- Whether one of these elements is poisoned. -/
def streamPoisoned (s : State) (h : Nat) (b : Bobbin) (first n : Nat) : Bool :=
  s.poison != [] && (List.range n).any fun i => s.poisoned (slotLoc h b (first + i)) (widthBytes b.ew)

/-- The reservations on a bobbin that a matrix command holds. -/
def MCmd.resvs (m : MCmd) : List Resv :=
  let of (x : MSrc) : List Resv := match x with
    | .vals _ => []
    | .bob r => [r]
  match m.work with
  | .load _ _ _ _ _ => []
  | .restore _ => []
  | .save _ _ => []
  | .mul _ src _ _ ix => of src ++ (ix.map of).getD []

/-- The reservations on a bobbin that queued matrix commands hold (spec/13, R237; spec/14, R247). -/
def queuedResvs (s : State) (h b : Nat) : List Resv :=
  (((s.core (coreOf h)).mq.filter fun m => m.hart == h).flatMap MCmd.resvs).filter fun r => r.bob == b

/-- The reservations outstanding on a bobbin (spec/14, R250; spec/13, R237). -/
def outstanding (s : State) (h b : Nat) : List Resv :=
  queuedResvs s h b ++ (s.hart h).resv.toList.filter fun r => r.bob == b

/-- H advances past the reservations consumed, in reservation order (spec/14, R250). -/
def refree (s : State) (h : Nat) (b : BReg4) : State :=
  s.updBob h b fun x => { x with freed := (outstanding s h b.toNat).foldl (fun n r => min n r.first) x.reserved }

/-- The elements that the word that dispatches reserved before it was stopped inside (spec/14, R250). -/
def heldResv (s : State) (b : BReg4) : Option Nat :=
  if s.me.kq.isSome || !s.me.stopped then none
  else match s.me.resv with
    | some r => if r.bob = b.toNat then some r.first else none
    | none => none

/-- Reserves n elements for the instruction that executes. -/
def reserve (s : State) (b : BReg4) (n : Nat) : State × Nat :=
  let first := (s.bob s.cur b).reserved
  let s := s.updBob s.cur b fun x => { x with reserved := x.reserved + n }
  (if s.me.kq.isSome then s else s.updMe fun x => { x with resv := some ⟨b.toNat, first, n⟩ }, first)

/-- The elements below one of a bobbin may be popped: what came before their copies is performed (spec/15, R265). -/
def mayPop (s : State) (x : Bobbin) (stop : Nat) : Bool :=
  x.gates.all fun g => decide (stop ≤ g.first) || pushDone s s.cur g.num g.mark

/-- Source A of an element-wise instruction at a width: its elements and the selvedge of the result, or a trap, or a wait
(spec/06, R108, R110; spec/14, R250, R251). -/
def withA (s : State) (a : SrcA) (w : Width) (k : State → List Word → List Level → Out) : Out :=
  match a with
  | .vec v => k s (velems (s.vreg v) w s.vl) (keepLevels (s.vreg v).levels s.vl)
  | .bob b av =>
    let x := s.bob s.cur b
    let read (s : State) (first n : Nat) : Out :=
      if streamPoisoned s s.cur x first n then .next (s.trapV 0x10 0 0)
      else k s (streamElems s s.cur x first n) []
    match heldResv s b with
    | some first => read s first s.vl
    | none =>
      need s (x.kind == .stream && x.ew == w && decide (s.vl ≤ x.cap) && (av || decide (x.reserved + s.vl ≤ x.issued)))
        (if av then
          if x.reserved < x.arrived ∨ x.arrived = x.issued then
            let n := min s.vl (x.arrived - x.reserved)
            if !mayPop s x (x.reserved + n) then .next s else
            let r := reserve (s.setVl n w) b n
            read r.1 r.2 n
          else .next s
        else if x.reserved + s.vl ≤ x.arrived ∧ mayPop s x (x.reserved + s.vl) then
          let r := reserve s b s.vl
          read r.1 r.2 s.vl
        else .next s)

/-- Completes the V-word; a bobbin it read frees what it consumed. -/
def finishA (s : State) (a : SrcA) : State :=
  match a with
  | .vec _ => s.advV
  | .bob b _ => refree s.advV s.cur b

/-- Source B at a format: the elements of a register, or one passing register's low bits for every element (spec/06, R107,
R108). -/
def srcB (s : State) (b : SrcB) (f : Fmt) (n : Nat) : List Word :=
  match b with
  | .vec v => velems (s.vreg v) (fmtWidth f) n
  | .sca k => List.replicate n (BitVec.ofNat 64 ((s.sp k).toNat % 2 ^ fmtBits f))

/-! ### Writing a result -/

/-- The element at which an interruption finds the word that dispatches: none comes to a K block, since no asynchronous event
is taken in K mode (spec/02, R38; spec/06, R111). -/
def State.brkAt (s : State) : Option Nat := if s.me.kq.isSome then none else s.brk

/-- The element at which an element-wise instruction stops: the last element group boundary up to the interruption's, or
c.vl (spec/06, R111; assumption log, 9: DESIGN CHOICE). -/
def stopAt (s : State) : Nat :=
  match s.brkAt with
  | some n =>
    let g := 8 * (s.me.gang * held s s.cur)
    let n := n / g * g
    if s.me.vs.toNat < n ∧ n < s.vl then n else s.vl
  | none => s.vl

/-- One element of a result: kept below c.vs or from the stop on, the result where active, zero or kept elsewhere
(spec/06, R109). -/
def pickElem (zm : Bool) (vs stop i : Nat) (act : Bool) (new old : Word) : Word :=
  if i < vs ∨ stop ≤ i then old else if act then new else if zm then 0 else old

/-- The elements of a result (spec/06, R109). -/
def pickFrom (zm : Bool) (vs stop : Nat) : Nat → List Bool → List Word → List Word → List Word
  | i, a :: as, n :: ns, o :: os => pickElem zm vs stop i a n o :: pickFrom zm vs stop (i + 1) as ns os
  | _, _, _, _ => []

/-- The classes raised by the active elements (spec/04, R77, R78). -/
def activeFlags (vs stop : Nat) : Nat → List Bool → List Flags → List (Nat × Flags)
  | i, a :: as, f :: fs => (if a && decide (vs ≤ i ∧ i < stop) then [(i, f)] else []) ++ activeFlags vs stop (i + 1) as fs
  | _, _, _ => []

/-- Marks the word that dispatches as stopped inside, with c.vs its progress (spec/06, R111). -/
def State.stopV (s : State) (n : Nat) : State :=
  s.updMe fun x =>
    match x.block? with
    | some b => { x with vs := BitVec.ofNat 32 n }.setBlock { b with mid := true }
    | none => x

/-- Writes the result of an element-wise instruction, complete or up to an interruption (spec/06, R109 to R111). -/
def ewDone (s : State) (a : SrcA) (vd : VReg5) (w : Width) (m : VMask) (lv : List Level) (mayStop : Bool)
    (rs : List Deliv) : Out :=
  let vs := s.me.vs.toNat
  let stop := if mayStop then stopAt s else s.vl
  let act := s.pbits m.pm s.vl
  let es := pickFrom m.zm vs stop 0 act (rs.map (·.1)) (velems (s.vreg vd) w s.vl)
  let s := (s.setV vd ⟨w, es, lv⟩).raiseList (activeFlags vs stop 0 act (rs.map (·.2)))
  .next (if stop < s.vl then s.stopV stop else finishA s a)

/-- The bits of a predicate result (spec/06, R109). -/
def pickBits (zm : Bool) (vs stop : Nat) : Nat → List Bool → List Bool → List Bool → List Bool
  | i, a :: as, n :: ns, o :: os =>
    (if i < vs ∨ stop ≤ i then o else if a then n else if zm then false else o) :: pickBits zm vs stop (i + 1) as ns os
  | _, _, _, _ => []

/-- The result of a unit instruction in a vector register, by R109 with c.vs read as 0: elements, then the header. -/
def unitElems (s : State) (vd : VReg5) (w : Width) (m : VMask) (rs : List Word) : List Word :=
  pickFrom m.zm 0 s.vl 0 (s.unitActive m.pm) rs (velems (s.vreg vd) w s.vl)

/-- Writes a vector result of a unit instruction and completes it. -/
def unitDone (s : State) (vd : VReg5) (w : Width) (es : List Word) (lv : List Level) : Out :=
  .next (s.setV vd ⟨w, es, lv⟩).advV

end Sys2Proof.Machine
end

