-- ==== Sys2Proof/Machine/Special.lean ====
section
/-!
DEFINITION. Machine/Special.lean: the special functions, the exact value rounded once (spec/06, R115).

A value that is no fraction is enclosed between two neighbours of a fixed-point grid of 320 places; the enclosure gives the
rounded value when both of its ends round alike, and a free value stands where they do not (assumption log, 14: DEDUCED).
-/
namespace Sys2Proof.Machine

open Sys2Proof

/-- The special functions (spec/06, R115). -/
inductive SpFn where
  | exp2 | log2 | recip | rsq | tanh
deriving DecidableEq, Repr

/-- The grid: one is this many units. -/
def gridOne : Nat := 1 <<< 320

/-- An open enclosure: above lo / d and below hi / d. -/
structure Encl where
  lo : Nat
  hi : Nat
  d : Nat
deriving DecidableEq, Repr

/-- The sum of z + z^3/3 + z^5/5 + … from a term t = z^(2k+1) on, z2 being z squared; up: every step rounded up, with a bound
of the rest, for z at most 1/3. -/
def atanhFrom (up : Bool) (z2 : Nat) : Nat → Nat → Nat → Nat → Nat
  | 0, t, _, acc => if up then acc + t else acc
  | n + 1, t, k, acc =>
    let b := if up then 1 else 0
    atanhFrom up z2 n (t * z2 / gridOne + b) (k + 1) (acc + t / (2 * k + 1) + b)

/-- atanh(n / d) for n / d at most 1/3, in grid units, below and above. -/
def atanhEncl (n d : Nat) : Nat × Nat :=
  let lo := n * gridOne / d
  (atanhFrom false (lo * lo / gridOne) 110 lo 0 0,
   atanhFrom true ((lo + 1) * (lo + 1) / gridOne + 1) 110 (lo + 1) 0 0)

/-- ln 2 in grid units, below and above. -/
def ln2Encl : Nat × Nat := (2 * (atanhEncl 1 3).1, 2 * (atanhEncl 1 3).2)

/-- The sum of x^k / k! from a term t = x^k / k! on; up as in `atanhFrom`, for x below 1. -/
def expFrom (up : Bool) (x : Nat) : Nat → Nat → Nat → Nat → Nat
  | 0, t, _, acc => if up then acc + 2 * t else acc
  | n + 1, t, k, acc =>
    let b := if up then 1 else 0
    expFrom up x n (t * x / (gridOne * (k + 1)) + b) (k + 1) (acc + t)

/-- 2^f for a grid value f between two bounds, below and above. -/
def exp2Encl (flo fhi : Nat) : Nat × Nat :=
  (expFrom false (flo * ln2Encl.1 / gridOne) 90 gridOne 0 0, expFrom true (fhi * ln2Encl.2 / gridOne + 1) 90 gridOne 0 0)

/-- 2^(±p/q) for q a power of two: exact, or enclosed. -/
def exp2Val (neg : Bool) (p q : Nat) : Val ⊕ Encl :=
  if 2000 ≤ p / q then .inl (.dyadic false 1 (if neg then -2000 else 2000))
  else
    let r := p % q
    if r = 0 then .inl (.dyadic false 1 (if neg then -(p / q : Nat) else (p / q : Nat)))
    else
      let n : Int := if neg then -(p / q + 1 : Nat) else (p / q : Nat)
      let r := if neg then q - r else r
      let e := exp2Encl (r * gridOne / q) (r * gridOne / q + 1)
      .inr ⟨e.1 * 2 ^ n.toNat, e.2 * 2 ^ n.toNat, gridOne * 2 ^ (-n).toNat⟩

/-- log2(p/q) for p / q positive: its sign, and the magnitude exact or enclosed. -/
def log2Val (p q : Nat) : Bool × (Val ⊕ Encl) :=
  let n := ilog p q
  let p' := p * 2 ^ (-n).toNat
  let q' := q * 2 ^ n.toNat
  if p' = q' then (decide (n < 0), .inl (.ofInt n))
  else
    let a := atanhEncl (p' - q') (p' + q')
    let lo := 2 * a.1 * gridOne / ln2Encl.2
    let hi := 2 * a.2 * gridOne / ln2Encl.1 + 1
    let whole := n.natAbs * gridOne
    if n < 0 then (true, .inr ⟨whole - hi, whole - lo, gridOne⟩) else (false, .inr ⟨whole + lo, whole + hi, gridOne⟩)

/-- tanh(p/q) for p / q positive, enclosed. -/
def tanhEncl (p q : Nat) : Encl :=
  if 64 ≤ p / q then ⟨2 ^ 90 - 1, 2 ^ 90, 2 ^ 90⟩
  else if p * 2 ^ 40 < q then ⟨p * (2 ^ 80 - 1), p * 2 ^ 80, q * 2 ^ 80⟩
  else
    let tlo := 2 * p * gridOne * gridOne / (q * ln2Encl.2)
    let thi := 2 * p * gridOne * gridOne / (q * ln2Encl.1) + 1
    let n := tlo / gridOne
    let e := exp2Encl (tlo - n * gridOne) (thi - n * gridOne)
    let lo := e.1 * 2 ^ n
    let hi := e.2 * 2 ^ n
    ⟨(lo - gridOne) * gridOne / (lo + gridOne), (hi - gridOne) * gridOne / (hi + gridOne) + 1, gridOne⟩

/-- An enclosed value rounded, when both ends of the enclosure round alike. -/
def roundEncl (f : Fmt) (rm : Rm) (neg : Bool) (e : Encl) : Option Deliv :=
  let a := roundTo f rm false (.fin neg (2 * e.lo + 1) (2 * e.d))
  if a = roundTo f rm false (.fin neg (2 * e.hi - 1) (2 * e.d)) then some a else none

/-- The number of a function, a format and a rounding mode, for the free value. -/
def spKey (fn : SpFn) (f : Fmt) (rm : Rm) : Nat :=
  let n := match fn with
    | .exp2 => 0
    | .log2 => 1
    | .recip => 2
    | .rsq => 3
    | .tanh => 4
  let m := match rm with
    | .rne => 0
    | .rtz => 1
    | .rdn => 2
    | .rup => 3
    | .rna => 4
  n + 8 * m + 64 * (fmtBits f + if f = .bf16 then 1 else 0)

/-- An exact or enclosed value rounded into a format; src is the source pattern. -/
def spRound (fn : SpFn) (f : Fmt) (rm : Rm) (neg : Bool) (src : Word) (x : Val ⊕ Encl) : Deliv :=
  match x with
  | .inl v => roundTo f rm false v
  | .inr e => (roundEncl f rm neg e).getD (Config.special (spKey fn f rm) src, fNX)

/-- A special function of a source pattern, delivered (spec/06, R115). -/
def special (fn : SpFn) (src dst : Fmt) (rm : Rm) (x : Word) : Deliv :=
  let v := readVal src x
  let exact (e : Exact) : Deliv := deliver dst rm false e
  match v with
  | .nan sig => exact (.nan false, if sig then fNV else 0)
  | .nar => exact (.nan false, 0)
  | .inf neg =>
    match fn with
    | .exp2 => exact (if neg then .fin false 0 1 else .inf false, 0)
    | .log2 => exact (if neg then invalid else (.inf false, 0))
    | .recip => exact (.fin neg 0 1, 0)
    | .rsq => exact (if neg then invalid else (.fin false 0 1, 0))
    | .tanh => exact (.fin neg 1 1, 0)
  | .fin neg p q =>
    match fn with
    | .exp2 => spRound fn dst rm false x (exp2Val neg p q)
    | .log2 =>
      if p = 0 then exact (.inf true, fDZ) else if neg then exact invalid
      else spRound fn dst rm (log2Val p q).1 x (log2Val p q).2
    | .recip => exact (divV (.fin false 1 1) v)
    | .rsq =>
      if p = 0 then exact (.inf neg, fDZ) else if neg then exact invalid
      else exact (.fin false (sqrtFrac q p).1 (sqrtFrac q p).2, 0)
    | .tanh => if p = 0 then exact (v, 0) else spRound fn dst rm neg x (.inr (tanhEncl p q))

end Sys2Proof.Machine
end

