-- ==== Sys2Proof/Machine/Elementwise.lean ====
section
/-!
DEFINITION. Machine/Elementwise.lean: element-wise integer and floating-point arithmetic, special functions, compares,
conversions (spec/06, R113 to R118).
-/
namespace Sys2Proof.Machine

open Sys2Proof

/-! ### Shapes -/

/-- A vector register named as source A is read at another width than it is written: the instruction does not stop
part-way. -/
def clashA (a : SrcA) (vd : VReg5) (wa wd : Width) : Bool := a == .vec vd && wa != wd

/-- The same for source B. -/
def clashB (b : SrcB) (vd : VReg5) (wb wd : Width) : Bool := b == .vec vd && wb != wd

/-- One source: fmt.a and fmt.d (spec/06, R109, R113, R114). -/
def ew1 (s : State) (x : VUn) (cs : FW → List FwChk) (f : FW → Word → Deliv) : Out :=
  let fw := s.fw x.fs
  let wa := fmtWidth fw.fa
  let wd := fmtWidth fw.fd
  withFmt s fw (cs fw) (withVl s [wa, wd]
    (withA s x.a wa fun s as lv => ewDone s x.a x.vd wd x.m lv (!clashA x.a x.vd wa wd) (as.map (f fw))))

/-- Two sources: fmt.a, fmt.b and fmt.d. -/
def ew2 (s : State) (x : VBin) (cs : FW → List FwChk) (f : FW → Word → Word → Deliv) : Out :=
  let fw := s.fw x.fs
  let wa := fmtWidth fw.fa
  let wb := fmtWidth fw.fb
  let wd := fmtWidth fw.fd
  withFmt s fw (cs fw) (withVl s [wa, wb, wd]
    (withA s x.a wa fun s as lv =>
      ewDone s x.a x.vd wd x.m lv (!clashA x.a x.vd wa wd && !clashB x.b x.vd wb wd)
        (as.zipWith (f fw) (srcB s x.b fw.fb s.vl))))

/-- Three sources: fmt.a, fmt.b, fmt.d and fmt.c. -/
def ew3 (s : State) (x : VTri) (cs : FW → List FwChk) (f : FW → Word → Word → Word → Deliv) : Out :=
  let fw := s.fw x.fs
  let wa := fmtWidth fw.fa
  let wb := fmtWidth fw.fb
  let wd := fmtWidth fw.fd
  let wc := fmtWidth fw.fc
  withFmt s fw (cs fw) (withVl s [wa, wb, wd, wc]
    (withA s x.a wa fun s as lv =>
      ewDone s x.a x.vd wd x.m lv (!clashA x.a x.vd wa wd && !clashB x.b x.vd wb wd && !clashB (.vec x.c) x.vd wc wd)
        ((as.zipWith (f fw) (srcB s x.b fw.fb s.vl)).zipWith (fun g c => g c) (velems (s.vreg x.c) wc s.vl))))

/-! ### Integers -/

/-- The integer of a pattern in an integer or residue format (spec/04, R67, R69). -/
def intOf (f : Fmt) (x : Word) : Int :=
  match fkind f with
  | .int signed => patInt (fmtBits f) signed x.toNat
  | .fp _ _ => 0
  | .res => crt f x.toNat

/-- An exact integer result delivered: per channel in a residue format, NaR for a NaR operand (spec/04, R67, R69). -/
def deliverArith (f : Fmt) (sat nar : Bool) (x : Int) : Deliv :=
  if isRes f then (if nar then narPat f else resEnc f x, 0) else deliverInt f sat x

/-- The checks of an integer instruction that takes integer codes alone (spec/06, R113). -/
def intChk2 (x : FW) : List FwChk := [chkA x isInt, chkB x isInt, chkD x isInt]

/-- The checks of one that takes a residue code in every place too (spec/04, R62, R69; spec/06, R113). -/
def resOr (a : Fmt) (f : Fmt) : Bool := if isRes a then f == a else isInt f

/-- An integer or a residue code. -/
def intOrRes (f : Fmt) : Bool := isInt f || isRes f

/-- The checks of vadd, vsub and vmul. -/
def arithChk2 (x : FW) : List FwChk := [chkA x intOrRes, chkB x (resOr x.fa), chkD x (resOr x.fa)]

/-- vadd, vsub, vmul (spec/06, R113). -/
def arithOp (s : State) (x : VBin) (f : Int → Int → Int) : Out :=
  ew2 s x arithChk2 fun w a b =>
    deliverArith w.fd w.sat (isNar w.fa a.toNat || isNar w.fb b.toNat) (f (intOf w.fa a) (intOf w.fb b))

/-- An integer instruction of two sources: the exact value, and the classes it raises besides (spec/06, R113). -/
def intOp2 (s : State) (x : VBin) (f : FW → Int → Int → Int × Flags) : Out :=
  ew2 s x intChk2 fun w a b =>
    let r := f w (intOf w.fa a) (intOf w.fb b)
    let d := deliverInt w.fd w.sat r.1
    (d.1, d.2 ||| r.2)

/-- Pat: x mod 2^w, w the width of fmt.d (spec/06, R113). -/
def patOf (w : FW) (x : Int) : Nat := (x % (2 ^ fmtBits w.fd : Nat)).toNat

/-- An instruction on patterns, written as they are (spec/06, R113). -/
def patOp2 (s : State) (x : VBin) (f : FW → Nat → Nat → Nat) : Out :=
  ew2 s x intChk2 fun w a b =>
    (BitVec.ofNat 64 (f w (patOf w (intOf w.fa a)) (patOf w (intOf w.fb b)) % 2 ^ fmtBits w.fd), 0)

/-- The shift count: Pat(b) mod w (spec/06, R113). -/
def shiftOf (w : FW) (b : Int) : Nat := patOf w b % fmtBits w.fd

/-- vadd (spec/06, R113). -/
def execVadd (x : VBin) (s : State) : Out := arithOp s x (· + ·)

/-- vsub (spec/06, R113). -/
def execVsub (x : VBin) (s : State) : Out := arithOp s x (· - ·)

/-- vmul (spec/06, R113). -/
def execVmul (x : VBin) (s : State) : Out := arithOp s x (· * ·)

/-- vmulh (spec/06, R113). -/
def execVmulh (x : VBin) (s : State) : Out := intOp2 s x fun w a b => (a * b / (2 ^ fmtBits w.fd : Nat), 0)

/-- vdiv: toward zero; by zero all ones with DZ (spec/04, R67; spec/06, R113). -/
def execVdiv (x : VBin) (s : State) : Out :=
  ew2 s x intChk2 fun w a b =>
    if intOf w.fb b = 0 then (intPat w.fd (-1), fDZ) else deliverInt w.fd w.sat ((intOf w.fa a).tdiv (intOf w.fb b))

/-- vrem; by zero the dividend with DZ (spec/04, R67; spec/06, R113). -/
def execVrem (x : VBin) (s : State) : Out := intOp2 s x fun _ a b => if b = 0 then (a, fDZ) else (a.tmod b, 0)

/-- vmin (spec/06, R113). -/
def execVmin (x : VBin) (s : State) : Out := intOp2 s x fun _ a b => (min a b, 0)

/-- vmax (spec/06, R113). -/
def execVmax (x : VBin) (s : State) : Out := intOp2 s x fun _ a b => (max a b, 0)

/-- vand (spec/06, R113). -/
def execVand (x : VBin) (s : State) : Out := patOp2 s x fun _ a b => a &&& b

/-- vor (spec/06, R113). -/
def execVor (x : VBin) (s : State) : Out := patOp2 s x fun _ a b => a ||| b

/-- vxor (spec/06, R113). -/
def execVxor (x : VBin) (s : State) : Out := patOp2 s x fun _ a b => a ^^^ b

/-- vsll (spec/06, R113). -/
def execVsll (x : VBin) (s : State) : Out := intOp2 s x fun w a b => (a * (2 ^ shiftOf w b : Nat), 0)

/-- vsrl (spec/06, R113). -/
def execVsrl (x : VBin) (s : State) : Out := patOp2 s x fun w a b => a / 2 ^ (b % fmtBits w.fd)

/-- vsra (spec/06, R113). -/
def execVsra (x : VBin) (s : State) : Out := intOp2 s x fun w a b => (a / (2 ^ shiftOf w b : Nat), 0)

/-- vmacc (spec/06, R113). -/
def execVmacc (x : VTri) (s : State) : Out :=
  ew3 s x (fun w => arithChk2 w ++ [chkC w (resOr w.fa)]) fun w a b c =>
    deliverArith w.fd w.sat (isNar w.fa a.toNat || isNar w.fb b.toNat || isNar w.fc c.toNat)
      (intOf w.fa a * intOf w.fb b + intOf w.fc c)

/-- The checks of an integer instruction of one source (spec/06, R113). -/
def intChk1 (x : FW) : List FwChk := [chkA x isInt, chkD x isInt]

/-- Leading zero bits of the low n bits. -/
def clzNat (x : Nat) : Nat → Nat
  | 0 => 0
  | n + 1 => if x.testBit n then 0 else 1 + clzNat x n

/-- The number of 1 bits among the low n. -/
def popNat (x : Nat) : Nat → Nat
  | 0 => 0
  | n + 1 => (if x.testBit n then 1 else 0) + popNat x n

/-- vclz (spec/06, R113). -/
def execVclz (x : VUn) (s : State) : Out :=
  ew1 s x intChk1 fun w a => deliverInt w.fd w.sat (clzNat (patOf w (intOf w.fa a)) (fmtBits w.fd))

/-- vpop (spec/06, R113). -/
def execVpop (x : VUn) (s : State) : Out :=
  ew1 s x intChk1 fun w a => deliverInt w.fd w.sat (popNat (patOf w (intOf w.fa a)) (fmtBits w.fd))

/-- vabs (spec/04, R67; spec/06, R113). -/
def execVabs (x : VUn) (s : State) : Out :=
  ew1 s x intChk1 fun w a => deliverInt w.fd w.sat ((intOf w.fa a).natAbs : Int)

/-! ### Floating point -/

/-- The checks of a floating-point instruction of two sources (spec/06, R114). -/
def fpChk2 (x : FW) : List FwChk := [chkA x isFp, chkB x isFp, chkD x isFp, chkRm x]

/-- The checks of one of one source. -/
def fpChk1 (x : FW) : List FwChk := [chkA x isFp, chkD x isFp, chkRm x]

/-- A floating-point instruction of two sources (spec/06, R114). -/
def fp2 (s : State) (x : VBin) (f : Rm → Val → Val → Exact) : Out :=
  ew2 s x fpChk2 fun w a b => deliver w.fd w.frm false (f w.frm (readVal w.fa a) (readVal w.fb b))

/-- A floating-point instruction of one source (spec/06, R114). -/
def fp1 (s : State) (x : VUn) (f : Val → Exact) : Out :=
  ew1 s x fpChk1 fun w a => deliver w.fd w.frm false (f (readVal w.fa a))

/-- vfadd (spec/06, R114). -/
def execVfadd (x : VBin) (s : State) : Out := fp2 s x addV

/-- vfsub (spec/06, R114). -/
def execVfsub (x : VBin) (s : State) : Out := fp2 s x subV

/-- vfmul (spec/06, R114). -/
def execVfmul (x : VBin) (s : State) : Out := fp2 s x fun _ => mulV

/-- vfdiv (spec/06, R114). -/
def execVfdiv (x : VBin) (s : State) : Out := fp2 s x fun _ => divV

/-- vfma (spec/06, R114). -/
def execVfma (x : VTri) (s : State) : Out :=
  ew3 s x (fun w => [chkA w isFp, chkB w isFp, chkD w isFp, chkC w isFp, chkRm w]) fun w a b c =>
    deliver w.fd w.frm false (fmaV w.frm (readVal w.fa a) (readVal w.fb b) (readVal w.fc c))

/-- vfsqrt (spec/06, R114). -/
def execVfsqrt (x : VUn) (s : State) : Out := fp1 s x sqrtV

/-- vfmin (spec/04, R66). -/
def execVfmin (x : VBin) (s : State) : Out := fp2 s x fun _ => minMaxV false false

/-- vfmax (spec/04, R66). -/
def execVfmax (x : VBin) (s : State) : Out := fp2 s x fun _ => minMaxV true false

/-- vfmin.num (spec/04, R66). -/
def execVfminNum (x : VBin) (s : State) : Out := fp2 s x fun _ => minMaxV false true

/-- vfmax.num (spec/04, R66). -/
def execVfmaxNum (x : VBin) (s : State) : Out := fp2 s x fun _ => minMaxV true true

/-- A sign operation; a NaN gives the canonical NaN (spec/06, R114). -/
def signV (f : Bool → Bool) (a : Val) : Exact := if a.isNan then nanOf [a] else (a.setNeg (f a.neg), 0)

/-- vfabs (spec/06, R114). -/
def execVfabs (x : VUn) (s : State) : Out := fp1 s x (signV fun _ => false)

/-- vfneg (spec/06, R114). -/
def execVfneg (x : VUn) (s : State) : Out := fp1 s x (signV fun n => !n)

/-! ### Special functions -/

/-- The formats of the special functions (spec/06, R115). -/
def spFmt (f : Fmt) : Bool := f == .fp16 || f == .bf16 || f == .fp32

/-- A special function (spec/06, R115). -/
def spOp (s : State) (x : VUn) (fn : SpFn) : Out :=
  ew1 s x (fun w => [chkA w spFmt, chkD w spFmt, chkRm w]) fun w a => special fn w.fa w.fd w.frm a

/-- vfexp2 (spec/06, R115). -/
def execVfexp2 (x : VUn) (s : State) : Out := spOp s x .exp2

/-- vflog2 (spec/06, R115). -/
def execVflog2 (x : VUn) (s : State) : Out := spOp s x .log2

/-- vfrec (spec/06, R115). -/
def execVfrec (x : VUn) (s : State) : Out := spOp s x .recip

/-- vfrsq (spec/06, R115). -/
def execVfrsq (x : VUn) (s : State) : Out := spOp s x .rsq

/-- vftanh (spec/06, R115). -/
def execVftanh (x : VUn) (s : State) : Out := spOp s x .tanh

/-! ### Compares -/

/-- The checks of a compare; residue codes only for eq, ne and un, in both places (spec/06, R116). -/
def cmpChk (c : Cond) (x : FW) : List FwChk :=
  let plain (f : Fmt) : Bool := isInt f || isFp f
  let res := c == .eq || c == .ne || c == .un
  [chkA x fun f => plain f || res, chkB x fun f => if isRes x.fa then f == x.fa else plain f]

/-- A compare of two sources into a predicate register (spec/06, R109, R116). -/
def cmpOp (s : State) (x : VCmp) (c : Cond) : Out :=
  let fw := s.fw x.fs
  let wa := fmtWidth fw.fa
  withFmt s fw (cmpChk c fw) (withVl s [wa, fmtWidth fw.fb, .w8]
    (withA s x.a wa fun s as _ =>
      let rs := as.zipWith (fun a b => compareV c (readVal fw.fa a) (readVal fw.fb b)) (srcB s x.b fw.fb s.vl)
      let vs := s.me.vs.toNat
      let stop := stopAt s
      let act := s.pbits x.m.pm s.vl
      let bits := pickBits x.m.zm vs stop 0 act (rs.map (·.1)) (s.pbits x.pd s.vl)
      let s := (s.setP x.pd (trueAt bits)).raiseList (activeFlags vs stop 0 act (rs.map (·.2)))
      .next (if stop < s.vl then s.stopV stop else finishA s x.a)))

/-- vcmp.eq (spec/06, R116). -/
def execVcmpEq (x : VCmp) (s : State) : Out := cmpOp s x .eq

/-- vcmp.ne (spec/06, R116). -/
def execVcmpNe (x : VCmp) (s : State) : Out := cmpOp s x .ne

/-- vcmp.lt (spec/06, R116). -/
def execVcmpLt (x : VCmp) (s : State) : Out := cmpOp s x .lt

/-- vcmp.le (spec/06, R116). -/
def execVcmpLe (x : VCmp) (s : State) : Out := cmpOp s x .le

/-- vcmp.gt (spec/06, R116). -/
def execVcmpGt (x : VCmp) (s : State) : Out := cmpOp s x .gt

/-- vcmp.ge (spec/06, R116). -/
def execVcmpGe (x : VCmp) (s : State) : Out := cmpOp s x .ge

/-- vcmp.un (spec/06, R116). -/
def execVcmpUn (x : VCmp) (s : State) : Out := cmpOp s x .un

/-! ### Conversions -/

/-- vcvt (spec/04, R70; spec/06, R117). -/
def execVcvt (x : VUn) (s : State) : Out :=
  ew1 s x (fun w => [chkA w fun _ => true, chkD w fun _ => true, chkRm w]) fun w a =>
    convert w.fa w.fd w.frm w.sat w.e a

/-- a × 2^e × b for a residue a and an FP32 b (spec/04, R71). -/
def crtScaled (e : Int) (a b : Val) : Exact :=
  if a = .nar then (.nan false, 0) else mulV (scale e a) b

/-- vcrt (spec/04, R71; spec/06, R118). -/
def execVcrt (x : VBin) (s : State) : Out :=
  ew2 s x (fun w => [chkA w isRes, chkB w (· == .fp32), chkD w isFp, chkRm w]) fun w a b =>
    deliver w.fd w.frm false (crtScaled w.e (readVal w.fa a) (readVal w.fb b))

end Sys2Proof.Machine
end

