-- ==== Sys2Proof/Machine/Permutes.lean ====
section
/-!
DEFINITION. Machine/Permutes.lean: vsetl, the predicate instructions, the permutes, vmv, vsnd (spec/06, R105, R120 to R124).
-/
namespace Sys2Proof.Machine

open Sys2Proof

/-- A signed 64-bit value as a whole number. -/
def sint (x : Word) : Int := x.toInt

/-! ### vsetl -/

/-- The grant of a vsetl: settled by a wait that was served, or renegotiated now (spec/06, R105; spec/12, R208, R209). -/
def vsetlGrant (s : State) (gmax : BitVec 4) : State × Bool :=
  let s := s.updMe fun x => { x with lane := { x.lane with want := gmax } }
  if s.me.settled then (s.updMe fun x => { x with settled := false }, true)
  else renegotiate s s.cur 1 gmax.toNat true

/-- vsetl (spec/06, R105; spec/12, R205). -/
def execVsetl (k fs : SP) (gmax : BitVec 4) (s : State) : Out :=
  let fw := s.fw fs
  withFmt s fw [chkD fw fun _ => true] <|
    let r := vsetlGrant s gmax
    if r.2 then
      .next (r.1.setVl (min (s.sp k).toNat (vlmax r.1 r.1.cur (fmtWidth fw.fd))) (fmtWidth fw.fd)).advV
    else .next r.1

/-! ### Predicates -/

/-- A predicate result by R109 (spec/06, R120). -/
def predOp (s : State) (pd : PReg) (m : VMask) (bits : List Bool) : Out :=
  .next (s.setP pd (trueAt (pickBits m.zm 0 s.vl 0 (s.unitActive m.pm) bits (s.pbits pd s.vl)))).advV

/-- An operation of two predicates (spec/06, R120). -/
def predOp2 (s : State) (pd pa pb : PReg) (m : VMask) (f : Bool → Bool → Bool) : Out :=
  withVl s [.w8] (predOp s pd m ((s.pbits pa s.vl).zipWith f (s.pbits pb s.vl)))

/-- pand (spec/06, R120). -/
def execPand (pd pa pb : PReg) (m : VMask) (s : State) : Out := predOp2 s pd pa pb m (· && ·)

/-- por (spec/06, R120). -/
def execPor (pd pa pb : PReg) (m : VMask) (s : State) : Out := predOp2 s pd pa pb m (· || ·)

/-- pxor (spec/06, R120). -/
def execPxor (pd pa pb : PReg) (m : VMask) (s : State) : Out := predOp2 s pd pa pb m (· != ·)

/-- pnot (spec/06, R120). -/
def execPnot (pd pa : PReg) (m : VMask) (s : State) : Out :=
  withVl s [.w8] (predOp s pd m ((s.pbits pa s.vl).map (!·)))

/-- The active elements whose bit is 1. -/
def activeTrue (s : State) (pa pm : PReg) : List Nat :=
  trueAt ((s.pbits pa s.vl).zipWith (· && ·) (s.unitActive pm))

/-- pfirst (spec/06, R120). -/
def execPfirst (pd pa pm : PReg) (s : State) : Out :=
  withVl s [.w8] (.next (s.setP pd ((activeTrue s pa pm).take 1)).advV)

/-- pcount (spec/06, R120). -/
def execPcount (vd : VReg5) (pa pm : PReg) (s : State) : Out :=
  withVl s [.w8] (unitDone s vd .w64 [BitVec.ofNat 64 (activeTrue s pa pm).length] [])

/-! ### Permutes -/

/-- fmt.a any code, fmt.d of its width (spec/06, R121). -/
def moveChk (x : FW) : List FwChk := [chkA x fun _ => true, chkD x fun f => fmtWidth f == fmtWidth x.fa]

/-- Element k of a list, zero outside it. -/
def elemAt (l : List Word) (k : Int) : Word := if k < 0 then 0 else (l[k.toNat]?).getD 0

/-- vperm (spec/06, R123). -/
def execVperm (vd va vb : VReg5) (m : VMask) (fs : SP) (s : State) : Out :=
  let fw := s.fw fs
  let w := fmtWidth fw.fa
  withFmt s fw [chkA fw fun _ => true, chkB fw isInt, chkD fw fun f => fmtWidth f == w]
    (withVl s [w, fmtWidth fw.fb]
      (let src := velems (s.vreg va) w s.vl
       let ix := (velems (s.vreg vb) (fmtWidth fw.fb) s.vl).map fun x =>
         match fkind fw.fb with
         | .int signed => patInt (fmtBits fw.fb) signed x.toNat
         | .fp _ _ => -1
         | .res => -1
       unitDone s vd w (unitElems s vd w m (ix.map (elemAt src))) []))

/-- vslide (spec/06, R123). -/
def execVslide (vd va : VReg5) (k : SP) (m : VMask) (fs : SP) (s : State) : Out :=
  let fw := s.fw fs
  let w := fmtWidth fw.fa
  withFmt s fw (moveChk fw) (withVl s [w]
    (let src := velems (s.vreg va) w s.vl
     unitDone s vd w (unitElems s vd w m ((List.range s.vl).map fun (i : Nat) => elemAt src (i - sint (s.sp k)))) []))

/-- The lengths of the level-d segments in elements, outermost order kept; at depth 0 one segment of n elements
(spec/02, R24; spec/07, R127). -/
def segLens (levels : List Level) (n : Nat) : Nat → List Nat
  | 0 => [n]
  | d + 1 =>
    let step (ls : List Nat) (l : Level) : List Nat :=
      (l.lens.foldl (fun (acc : List Nat × List Nat) k => (acc.1 ++ [(acc.2.take k).sum], acc.2.drop k)) ([], ls)).1
    match levels with
    | [] => []
    | l :: rest => (rest.take d).foldl step l.lens

/-- A list cut into segments of given lengths. -/
def cutSegs {α : Type} : List Nat → List α → List (List α)
  | [], _ => []
  | n :: ns, l => l.take n :: cutSegs ns (l.drop n)

/-- A depth that the source admits (spec/06, R110). -/
def depOk (v : VReg) (dep : Dep) (vl : Nat) : Bool :=
  decide (dep.toNat ≤ v.levels.length) && (dep == 0 || levelSum v.levels == vl)

/-- vrev (spec/06, R123). -/
def execVrev (vd va : VReg5) (dep : Dep) (fs : SP) (s : State) : Out :=
  let fw := s.fw fs
  let w := fmtWidth fw.fa
  let v := s.vreg va
  withFmt s fw (moveChk fw) (withVl s [w] (need s (depOk v dep s.vl)
    (unitDone s vd w (((cutSegs (segLens v.levels s.vl dep.toNat) (velems v w s.vl)).map List.reverse).flatten)
      (keepLevels v.levels s.vl))))

/-- The low bits of a passing register at a width. -/
def spAt (s : State) (k : SP) (w : Width) : Word := BitVec.ofNat 64 ((s.sp k).toNat % 2 ^ widthBits w)

/-- vbcast (spec/06, R123). -/
def execVbcast (vd : VReg5) (k : SP) (m : VMask) (fs : SP) (s : State) : Out :=
  let fw := s.fw fs
  let w := fmtWidth fw.fd
  withFmt s fw [chkD fw fun _ => true] (withVl s [w]
    (unitDone s vd w (unitElems s vd w m (List.replicate s.vl (spAt s k w))) []))

/-- vins (spec/06, R123). -/
def execVins (vd : VReg5) (k xs fs : SP) (s : State) : Out :=
  let fw := s.fw fs
  let w := fmtWidth fw.fd
  let v := s.vreg vd
  withFmt s fw [chkD fw fun _ => true] (withVl s [w]
    (unitDone s vd w ((velems v w s.vl).set (s.sp xs).toNat (spAt s k w)) (keepLevels v.levels s.vl)))

/-- vext (spec/06, R123). -/
def execVext (vd va : VReg5) (xs fs : SP) (s : State) : Out :=
  let fw := s.fw fs
  let w := fmtWidth fw.fa
  withFmt s fw (moveChk fw) (withVl s [w]
    (unitDone s vd w [elemAt (velems (s.vreg va) w s.vl) (s.sp xs).toNat] []))

/-- The elements of a list whose bit is 1. -/
def selected {α : Type} (act : List Bool) (l : List α) : List α := ((act.zip l).filter (·.1)).map (·.2)

/-- vcompress; the selvedge is kept when its lengths sum to the filled length (spec/06, R110, R123; assumption log, 21:
DEDUCED). -/
def execVcompress (vd va : VReg5) (pm : PReg) (fs : SP) (s : State) : Out :=
  let fw := s.fw fs
  let w := fmtWidth fw.fa
  let v := s.vreg va
  withFmt s fw (moveChk fw) (withVl s [w]
    (let es := selected (s.unitActive pm) (velems v w s.vl)
     unitDone s vd w es (keepLevels v.levels es.length)))

/-- The results of vexpand: each active element takes the next source element. -/
def expandFrom : List Bool → List Word → List Word
  | [], _ => []
  | false :: as, xs => 0 :: expandFrom as xs
  | true :: as, [] => 0 :: expandFrom as []
  | true :: as, x :: xs => x :: expandFrom as xs

/-- vexpand (spec/06, R123). -/
def execVexpand (vd va : VReg5) (m : VMask) (fs : SP) (s : State) : Out :=
  let fw := s.fw fs
  let w := fmtWidth fw.fa
  withFmt s fw (moveChk fw) (withVl s [w]
    (unitDone s vd w (unitElems s vd w m (expandFrom (s.unitActive m.pm) (velems (s.vreg va) w s.vl))) []))

/-- vmv (spec/06, R123). -/
def execVmv (vd va : VReg5) (s : State) : Out := .next (s.setV vd (s.vreg va)).advV

/-- An element sign-extended from a width. -/
def sextAt (w : Width) (x : Word) : Word := BitVec.ofInt 64 (patInt (widthBits w) true x.toNat)

/-- vsnd (spec/06, R123, R124; spec/05, R101). -/
def execVsnd (va : VReg5) (s : State) : Out :=
  let v := s.vreg va
  if 8 ≤ s.me.rq.length then .next s
  else .next (s.updMe fun x => { x with rq := x.rq ++ [sextAt v.wt (v.elems.headD 0)], event := true }).advV

end Sys2Proof.Machine
end

