-- ==== Sys2Proof/Machine/Nested.lean ====
section
/-!
DEFINITION. Machine/Nested.lean: building, reducing, scanning, reshaping and carrying nested registers; vcvt.row (spec/07;
spec/06, R119).
-/
namespace Sys2Proof.Machine

open Sys2Proof

/-! ### Selvedges -/

/-- The slots of a selvedge (spec/02, R24). -/
def levelSlots (ls : List Level) : Nat := slotsUsed ⟨.w8, [], ls⟩

/-- A selvedge fits the hart's grant (spec/07, R130). -/
def levelsFit (s : State) (ls : List Level) : Bool := decide (levelSlots ls ≤ slotLimit s.me.gang (held s s.cur))

/-- A nested result is checked against the capacity before anything is written; t is the state with the flags raised. Only a K
block on fewer groups than the registers were shaped for can fail here (spec/07, R130; assumption log, 16: DEDUCED). -/
def nestDone (s t : State) (vd : VReg5) (w : Width) (es : List Word) (lv : List Level) : Out :=
  need s (levelsFit s lv) (unitDone t vd w es lv)

/-- The segment number of each element of segments of given lengths (spec/01, R17, Seg). -/
def segIndex (lens : List Nat) : List Nat := (indexed lens).flatMap fun e => List.replicate e.2 e.1

/-- The lengths of level d, from 1; none beyond the levels. -/
def lensAt (ls : List Level) (d : Nat) : List Nat := ((ls[d - 1]?).map (·.lens)).getD []

/-- Lengths held in a register, read by an integer code; none when one is negative (spec/07, R132). -/
def lensOf (v : VReg) (f : Fmt) : Option (List Nat) :=
  let xs := (velems v (fmtWidth f) v.elems.length).map (intOf f)
  if xs.all fun x => decide (0 ≤ x) then some (xs.map Int.toNat) else none

/-- The segments of a level cut from the levels further in, outer first, and the element counts of the segments. -/
def splitDown : List (List Nat) → List Nat → List (List (List Nat)) × List Nat
  | [], c => ([], c)
  | l :: ls, c =>
    let segs := cutSegs c l
    let r := splitDown ls (segs.map List.sum)
    (segs :: r.1, r.2)

/-- The inner lengths of each level-n segment, innermost level first, and the segments' element counts (spec/07, R126). -/
def subtrees (ls : List Level) (n : Nat) : List (List (List Nat)) × List Nat :=
  let r := splitDown ((ls.take (n - 1)).reverse.map (·.lens)) (lensAt ls n)
  (r.1.reverse, r.2)

/-- Steps 1 and 2 of R129 for a structure source. -/
def structOk (v : VReg) (dep : Dep) (vl : Nat) : Bool := depOk v dep vl

/-! ### Building and removing levels -/

/-- vseg (spec/07, R132). -/
def execVseg (x : VSegOp) (s : State) : Out :=
  let fw := s.fw x.fs
  let w := fmtWidth fw.fa
  withFmt s fw [chkA fw fun _ => true, chkB fw isInt, chkD fw fun f => fmtWidth f == w]
    (withVl s [w, fmtWidth fw.fb]
      (match lensOf (s.vreg x.vb) fw.fb with
       | none => illegalV s
       | some lens =>
         let lv : List Level := [⟨lens, x.ci, x.co⟩]
         need s (lens.sum == s.vl) (nestDone s s x.vd w (velems (s.vreg x.va) w s.vl) lv)))

/-- The lengths between heads: run is the length so far of the open segment. -/
def headLens : Nat → List Bool → List Nat
  | run, [] => [run]
  | run, false :: bs => headLens (run + 1) bs
  | run, true :: bs => run :: headLens 1 bs

/-- vsegc (spec/07, R133). -/
def execVsegc (x : VSegOp) (s : State) : Out :=
  let fw := s.fw x.fs
  let w := fmtWidth fw.fa
  withFmt s fw (moveChk fw)
    (withVl s [w]
      (let lens := match s.pbits x.vb s.vl with
         | [] => []
         | _ :: bs => headLens 1 bs
       let lv : List Level := [⟨lens, x.ci, x.co⟩]
       nestDone s s x.vd w (velems (s.vreg x.va) w s.vl) lv))

/-- vnest (spec/07, R134). -/
def execVnest (x : VSegOp) (s : State) : Out :=
  let fw := s.fw x.fs
  let v := s.vreg x.va
  withFmt s fw [chkB fw isInt]
    (match lensOf (s.vreg x.vb) fw.fb with
     | none => illegalV s
     | some lens =>
       let n := match v.levels.getLast? with
         | some l => l.lens.length
         | none => v.elems.length
       let lv := v.levels ++ [⟨lens, x.ci, x.co⟩]
       need s (decide (v.levels.length ≤ 2) && lens.sum == n) (nestDone s s x.vd v.wt v.elems lv))

/-- vflat (spec/07, R135). -/
def execVflat (vd va : VReg5) (dep : Dep) (s : State) : Out :=
  let v := s.vreg va
  need s (decide (dep.toNat ≤ v.levels.length)) (nestDone s s vd v.wt v.elems (v.levels.take (dep.toNat - 1)))

/-! ### Reduce and scan -/

/-- and, or, xor. -/
def isBitOp : RedOp → Bool
  | .and => true
  | .or => true
  | .xor => true
  | _ => false

/-- add or mul. -/
def isAddMul : RedOp → Bool
  | .add => true
  | .mul => true
  | _ => false

/-- A code that an operation refuses on its own (spec/07, R136). -/
def opTakes (op : RedOp) (f : Fmt) : Bool := !(isRes f && !isAddMul op) && !(isFp f && isBitOp op)

/-- The format checks of vred and vscan (spec/07, R136). -/
def redChk (op : RedOp) (x : FW) : List FwChk :=
  [chkA x (opTakes op),
   chkD x fun f => if isRes x.fa then f == x.fa else !isRes f && !(isFp f && isBitOp op),
   chkRm x]

/-- The identity of an operation in a format (spec/04, R73). -/
def identityOf (op : RedOp) (f : Fmt) : Word :=
  match fkind f with
  | .fp eb fb =>
    match op with
    | .mul => (roundTo f .rne false (.fin false 1 1)).1
    | .min => infPat eb fb false
    | .minNum => infPat eb fb false
    | .max => infPat eb fb true
    | .maxNum => infPat eb fb true
    | _ => 0
  | _ =>
    match op with
    | .add => 0
    | .mul => intPat f 1
    | .min => intPat f (fmtRange f).2
    | .minNum => intPat f (fmtRange f).2
    | .max => intPat f (fmtRange f).1
    | .maxNum => intPat f (fmtRange f).1
    | .and => intPat f (-1)
    | .or => 0
    | .xor => 0

/-- An operand of an Op: a pattern in a format. -/
abbrev Opnd := Word × Fmt

/-- One Op of a tree, a scan or a carry, delivered in fmt.d (spec/04, R69, R73; spec/07, R136). Of integer sources in a
floating-point fmt.d, zero times a negative number gives −0, and a sum that cancels gives −0 under RDN, as of floating-point
sources: the spec states no sign (assumption log, 42: DEDUCED). -/
def redStep (op : RedOp) (d : Fmt) (rm : Rm) (sat : Bool) (a b : Opnd) : Deliv :=
  let pat (f : Nat → Nat → Nat) : Deliv :=
    let m (x : Opnd) : Nat := (intOf x.2 x.1 % (2 ^ fmtBits d : Nat)).toNat
    (BitVec.ofNat 64 (f (m a) (m b)), 0)
  let res (f : Int → Int → Int) : Deliv :=
    (if isNar a.2 a.1.toNat || isNar b.2 b.1.toNat then narPat d else resEnc d (f (intOf a.2 a.1) (intOf b.2 b.1)), 0)
  let num (f : Val → Val → Exact) : Deliv := deliver d rm sat (f (readVal a.2 a.1) (readVal b.2 b.1))
  match op with
  | .add => if isRes d then res (· + ·) else num (addV rm)
  | .mul => if isRes d then res (· * ·) else num mulV
  | .min => num (minMaxV false false)
  | .max => num (minMaxV true false)
  | .minNum => num (minMaxV false true)
  | .maxNum => num (minMaxV true true)
  | .and => pat (· &&& ·)
  | .or => pat (· ||| ·)
  | .xor => pat (· ^^^ ·)

/-- One element delivered in fmt.d (spec/07, R136). -/
def redOne (x : FW) (a : Word) : Deliv := roundTo x.fd x.frm x.sat (readVal x.fa a)

/-- A node of a reduction: the first element it holds and its value. -/
abbrev RNode := Nat × Opnd

/-- One round of a reduction: neighbours combine, flags at the first element of the right one (spec/04, R73, R75). -/
def pairUp (f : Opnd → Opnd → Deliv) (d : Fmt) : List RNode → List RNode × List (Nat × Flags)
  | a :: b :: l =>
    let r := f a.2 b.2
    let rest := pairUp f d l
    ((a.1, r.1, d) :: rest.1, (b.1, r.2) :: rest.2)
  | l => (l, [])

/-- The tree of R73: rounds of neighbours, as many as fuel says, until one node is left. -/
def treeFrom (f : Opnd → Opnd → Deliv) (d : Fmt) : Nat → List RNode → List RNode × List (Nat × Flags)
  | 0, l => (l, [])
  | n + 1, l =>
    let r := pairUp f d l
    let rest := treeFrom f d n r.1
    (rest.1, r.2 ++ rest.2)

/-- A signalling NaN of a floating-point source, made quiet, and its read flag (spec/04, R75). -/
def quietRead (f : Fmt) (x : Word) : Word × Flags :=
  match fkind f, readVal f x with
  | .fp eb fb, .nan true => (nanPat eb fb, fNV)
  | _, _ => (x, 0)

/-- The reduction of the active elements of a segment (spec/04, R73, R75; spec/07, R136). -/
def reduceSeg (op : RedOp) (x : FW) (l : List (Nat × Word)) : Word × List (Nat × Flags) :=
  match l with
  | [] => (identityOf op x.fd, [])
  | [e] => ((redOne x e.2).1, [(e.1, (redOne x e.2).2)])
  | _ =>
    let reads := l.map fun e => (e.1, (quietRead x.fa e.2).2)
    let nodes := l.map fun e => (e.1, (quietRead x.fa e.2).1, x.fa)
    let r := treeFrom (redStep op x.fd x.frm x.sat) x.fd l.length nodes
    ((r.1.head?.map (·.2.1)).getD 0, reads ++ r.2)

/-- The numbered active elements of a source, by segment. -/
def activeSegs (act : List Bool) (lens : List Nat) (es : List Word) : List (List (Nat × Word)) :=
  (cutSegs lens (act.zip (indexed es))).map fun l => (l.filter (·.1)).map (·.2)

/-- The selvedge a reduction at a depth leaves (spec/07, R136). -/
def redLevels (ls : List Level) (dep : Dep) : List Level := if dep = 0 then [] else ls.drop dep.toNat

/-- vred (spec/07, R136). -/
def redOp (s : State) (x : VRed) (op : RedOp) : Out :=
  let fw := s.fw x.fs
  let v := s.vreg x.va
  let wa := fmtWidth fw.fa
  withFmt s fw (redChk op fw) (withVl s [wa, fmtWidth fw.fd] (need s (structOk v x.dep s.vl)
    (let rs := (activeSegs (s.unitActive x.pm) (segLens v.levels s.vl x.dep.toNat) (velems v wa s.vl)).map
       (reduceSeg op fw)
     nestDone s (s.raiseList (rs.flatMap (·.2))) x.vd (fmtWidth fw.fd) (rs.map (·.1)) (redLevels v.levels x.dep))))

/-- A scan of one segment: run is the running value, which starts as the first active element delivered in fmt.d (spec/04,
R74, R75; spec/07, R137; assumption log, 42: DEDUCED); inactive elements deliver 0 here. -/
def scanSeg (op : RedOp) (x : FW) : Option Word → List (Bool × Word) → List Deliv
  | _, [] => []
  | run, (false, _) :: l => (0, 0) :: scanSeg op x run l
  | none, (true, a) :: l => redOne x a :: scanSeg op x (some (redOne x a).1) l
  | some r, (true, a) :: l =>
    let d := redStep op x.fd x.frm x.sat (r, x.fd) (a, x.fa)
    d :: scanSeg op x (some d.1) l

/-- vscan (spec/07, R137). -/
def scanOp (s : State) (x : VScan) (op : RedOp) : Out :=
  let fw := s.fw x.fs
  let v := s.vreg x.va
  let wa := fmtWidth fw.fa
  let wd := fmtWidth fw.fd
  withFmt s fw (redChk op fw) (withVl s [wa, wd] (need s (structOk v x.dep s.vl)
    (let act := s.unitActive x.m.pm
     let rs := ((cutSegs (segLens v.levels s.vl x.dep.toNat) (act.zip (velems v wa s.vl))).map
       (scanSeg op fw none)).flatten
     nestDone s (s.raiseList (activeFlags 0 s.vl 0 act (rs.map (·.2)))) x.vd wd
       (unitElems s x.vd wd x.m (rs.map (·.1))) (keepLevels v.levels s.vl))))

/-- vred.add (spec/07, R136). -/
def execVredAdd (x : VRed) (s : State) : Out := redOp s x .add

/-- vred.mul (spec/07, R136). -/
def execVredMul (x : VRed) (s : State) : Out := redOp s x .mul

/-- vred.min (spec/07, R136). -/
def execVredMin (x : VRed) (s : State) : Out := redOp s x .min

/-- vred.max (spec/07, R136). -/
def execVredMax (x : VRed) (s : State) : Out := redOp s x .max

/-- vred.and (spec/07, R136). -/
def execVredAnd (x : VRed) (s : State) : Out := redOp s x .and

/-- vred.or (spec/07, R136). -/
def execVredOr (x : VRed) (s : State) : Out := redOp s x .or

/-- vred.xor (spec/07, R136). -/
def execVredXor (x : VRed) (s : State) : Out := redOp s x .xor

/-- vred.min.num (spec/07, R136). -/
def execVredMinNum (x : VRed) (s : State) : Out := redOp s x .minNum

/-- vred.max.num (spec/07, R136). -/
def execVredMaxNum (x : VRed) (s : State) : Out := redOp s x .maxNum

/-- vscan.add (spec/07, R137). -/
def execVscanAdd (x : VScan) (s : State) : Out := scanOp s x .add

/-- vscan.mul (spec/07, R137). -/
def execVscanMul (x : VScan) (s : State) : Out := scanOp s x .mul

/-- vscan.min (spec/07, R137). -/
def execVscanMin (x : VScan) (s : State) : Out := scanOp s x .min

/-- vscan.max (spec/07, R137). -/
def execVscanMax (x : VScan) (s : State) : Out := scanOp s x .max

/-- vscan.and (spec/07, R137). -/
def execVscanAnd (x : VScan) (s : State) : Out := scanOp s x .and

/-- vscan.or (spec/07, R137). -/
def execVscanOr (x : VScan) (s : State) : Out := scanOp s x .or

/-- vscan.xor (spec/07, R137). -/
def execVscanXor (x : VScan) (s : State) : Out := scanOp s x .xor

/-- vscan.min.num (spec/07, R137). -/
def execVscanMinNum (x : VScan) (s : State) : Out := scanOp s x .minNum

/-- vscan.max.num (spec/07, R137). -/
def execVscanMaxNum (x : VScan) (s : State) : Out := scanOp s x .maxNum

/-! ### Distribute and index -/

/-- vdist; a segment index at or beyond the filled length of va, counted at its width tag, reads 0 (spec/07, R138; assumption
log, 60: DEDUCED). -/
def execVdist (x : VDist) (s : State) : Out :=
  let fw := s.fw x.fs
  let w := fmtWidth fw.fa
  let vb := s.vreg x.vb
  withFmt s fw (moveChk fw) (withVl s [w] (need s (structOk vb x.dep s.vl)
    (let lens := segLens vb.levels s.vl x.dep.toNat
     let va := s.vreg x.va
     let vals := velems va w (min lens.length va.elems.length)
     let rs := (segIndex lens).map fun i => (vals[i]?).getD 0
     nestDone s s x.vd w (unitElems s x.vd w x.m rs) (keepLevels vb.levels s.vl))))

/-- vsidx (spec/07, R139). -/
def sidxOp (s : State) (x : VSidx) (f : List Nat → List Nat) : Out :=
  let v := s.vreg x.va
  withVl s [.w32] (need s (structOk v x.dep s.vl)
    (nestDone s s x.vd .w32
      (unitElems s x.vd .w32 x.m ((f (segLens v.levels s.vl x.dep.toNat)).map (BitVec.ofNat 64))) (keepLevels v.levels s.vl)))

/-- vsidx.seg (spec/07, R139). -/
def execVsidxSeg (x : VSidx) (s : State) : Out := sidxOp s x segIndex

/-- vsidx.off (spec/07, R139). -/
def execVsidxOff (x : VSidx) (s : State) : Out := sidxOp s x fun ls => ls.flatMap List.range

/-! ### Reshaping -/

/-- How many of each segment's bits are 1. -/
def countSegs (lens : List Nat) (bits : List Bool) : List Nat := (cutSegs lens bits).map fun l => (l.filter id).length

/-- Level 1 replaced by other lengths. -/
def setInner (ls : List Level) (lens : List Nat) : List Level :=
  match ls with
  | [] => []
  | l :: rest => { l with lens := lens } :: rest

/-- The levels of vpack at depth n ≥ 1: kept segments of level n and inside, counts of them one level out (spec/07, R140). -/
def packLevels (ls : List Level) (n : Nat) (bits : List Bool) : List Level :=
  let sub := (subtrees ls n).1
  (indexed ls).map fun e =>
    let d := e.1 + 1
    let lens := if d < n then (selected bits ((sub[e.1]?).getD [])).flatten
      else if d = n then selected bits e.2.lens
      else if d = n + 1 then countSegs e.2.lens bits
      else e.2.lens
    { e.2 with lens := lens }

/-- vpack (spec/07, R140; assumption log, 21: DEDUCED). -/
def execVpack (x : VRed) (s : State) : Out :=
  let fw := s.fw x.fs
  let w := fmtWidth fw.fa
  let v := s.vreg x.va
  withFmt s fw (moveChk fw) (withVl s [w] (need s (structOk v x.dep s.vl)
    (let n := x.dep.toNat
     if n = 0 then
       let act := s.unitActive x.pm
       let es := selected act (velems v w s.vl)
       let lv := match v.levels with
         | [] => []
         | l :: _ => setInner v.levels (countSegs l.lens act)
       nestDone s s x.vd w es (keepLevels lv es.length)
     else
       let bits := s.pbits x.pm (lensAt v.levels n).length
       let segs := cutSegs (segLens v.levels s.vl n) (velems v w s.vl)
       nestDone s s x.vd w (selected bits segs).flatten (packLevels v.levels n bits))))

/-- The elements of a segment by bucket: stable, active, with a key below k (spec/07, R141). -/
def buckets (k : Nat) (l : List (Bool × Int × Word)) : List (List Word) :=
  (List.range k).map fun (b : Nat) => (l.filter fun e => e.1 && e.2.1 == (b : Int)).map (·.2.2)

/-- vpart (spec/07, R141). -/
def execVpart (x : VPart) (s : State) : Out :=
  let fw := s.fw x.fs
  let w := fmtWidth fw.fa
  let v := s.vreg x.va
  let n := x.dep.toNat
  let k := x.k1.toNat + 1
  withFmt s fw [chkA fw fun _ => true, chkB fw isInt, chkD fw fun f => fmtWidth f == w]
    (withVl s [w, fmtWidth fw.fb] (need s (structOk v x.dep s.vl)
      (let keys := (velems (s.vreg x.vb) (fmtWidth fw.fb) s.vl).map (intOf fw.fb)
       let lens := segLens v.levels s.vl n
       let bs := (cutSegs lens ((s.unitActive x.pm).zip (keys.zip (velems v w s.vl)))).flatMap (buckets k)
       let inner : Level := ⟨bs.map List.length, false, false⟩
       let lv := if n = 0 then [inner] else inner :: ⟨lens.map fun _ => k, false, false⟩ :: v.levels.drop n
       need s (n == 0 || decide (v.levels.length ≤ n + 1)) (nestDone s s x.vd w bs.flatten lv))))

/-- The levels of vcat at depth n ≥ 1 (spec/07, R142). -/
def catLevels (a b : List Level) (n : Nat) : List Level :=
  let sa := (subtrees a n).1
  let sb := (subtrees b n).1
  (indexed a).map fun e =>
    let d := e.1 + 1
    let lens := if d < n then (((sa[e.1]?).getD []).zipWith (· ++ ·) ((sb[e.1]?).getD [])).flatten
      else if d = n then e.2.lens.zipWith (· + ·) (lensAt b n)
      else e.2.lens
    { e.2 with lens := lens }

/-- vcat (spec/07, R142). -/
def execVcat (x : VCat) (s : State) : Out :=
  let fw := s.fw x.fs
  let w := fmtWidth fw.fa
  let a := s.vreg x.va
  let b := s.vreg x.vb
  let n := x.dep.toNat
  let total := a.elems.length + b.elems.length
  withFmt s fw [chkA fw fun _ => true, chkB fw fun f => fmtWidth f == w, chkD fw fun f => fmtWidth f == w]
    (need s (decide (n ≤ a.levels.length) && a.levels.length == b.levels.length
        && (n == 0 || (lensAt a.levels n).length == (lensAt b.levels n).length) && decide (total ≤ vlmax s s.cur w))
      (let ea := velems a w a.elems.length
       let eb := velems b w b.elems.length
       let lv := if n = 0 then a.levels.zipWith (fun p q => ⟨p.lens ++ q.lens, p.ci, q.co⟩) b.levels
         else catLevels a.levels b.levels n
       let es := if n = 0 then ea ++ eb
         else ((cutSegs (segLens a.levels a.elems.length n) ea).zipWith (· ++ ·)
           (cutSegs (segLens b.levels b.elems.length n) eb)).flatten
       nestDone s (s.setVl total w) x.vd w es lv))

/-- The order of vsort: integers by value, floating point with −0 before +0 and every NaN last (spec/07, R143). -/
def sortLe (f : Fmt) (a b : Word) : Bool :=
  let x := readVal f a
  let y := readVal f b
  y.isNan || (!x.isNan && !beforeV y x)

/-- Inserts before the first entry that is not smaller. -/
def insertBy (le : Word → Word → Bool) (x : Word) : List Word → List Word
  | [] => [x]
  | y :: l => if le x y then x :: y :: l else y :: insertBy le x l

/-- A stable sort. -/
def sortBy (le : Word → Word → Bool) (l : List Word) : List Word := l.foldr (insertBy le) []

/-- vsort (spec/07, R143). -/
def execVsort (x : VSort) (s : State) : Out :=
  let fw := s.fw x.fs
  let w := fmtWidth fw.fa
  let v := s.vreg x.va
  let le (a b : Word) : Bool := if x.ds then sortLe fw.fa b a else sortLe fw.fa a b
  withFmt s fw [chkA fw fun f => !isRes f, chkD fw fun f => fmtWidth f == w]
    (withVl s [w] (need s (structOk v x.dep s.vl)
      (nestDone s s x.vd w (((cutSegs (segLens v.levels s.vl x.dep.toNat) (velems v w s.vl)).map (sortBy le)).flatten)
        (keepLevels v.levels s.vl))))

/-! ### Carries -/

/-- The format checks of vcarry: fmt.d alone (spec/07, R144). -/
def carryChk (op : RedOp) (x : FW) : List FwChk := [chkD x (opTakes op), chkRm x]

/-- The elements numbered in a range of bounds. -/
def inRange (lo hi i : Nat) : Bool := decide (lo ≤ i ∧ i < hi)

/-- vcarry, reduce or scan form; with no partial result the reduce form has no Op, and both forms check c.vl (spec/07, R129,
R144; assumption log, 60: DEDUCED). -/
def carryOp (s : State) (x : VCarry) (scan : Bool) : Out :=
  let fw := s.fw x.fs
  let w := fmtWidth fw.fd
  let a := s.vreg x.va
  let b := s.vreg x.vb
  let c := s.vreg x.vc
  let flen := a.elems.length
  withFmt s fw (carryChk x.op fw) (withVl s [w]
    (match c.levels[x.dep.toNat - 1]? with
     | none => illegalV s
     | some l =>
       need s (structOk c x.dep s.vl && x.dep != 0 && flen == (if scan then s.vl else l.lens.length))
         (let carry := match (velems b w b.elems.length).getLast? with
            | some e => e
            | none => identityOf x.op fw.fd
          let lens := segLens c.levels s.vl x.dep.toNat
          let first := if scan then lens.headD 0 else min flen 1
          let lastN := if scan then (lens.getLast?).getD 0 else min flen 1
          let rs := (indexed (velems a w flen)).map fun e =>
            if l.ci && decide (e.1 < first) then redStep x.op fw.fd fw.frm fw.sat (carry, fw.fd) (e.2, fw.fd) else (e.2, 0)
          let open' := if l.co then lastN else 0
          let t := s.raiseList (indexed (rs.map (·.2)))
          let t := if x.pk = 0 then t else t.setP x.pk (List.range (flen - open'))
          nestDone s t x.vd w (rs.map (·.1)) a.levels)))

/-- vcarry (spec/07, R144). -/
def execVcarry (x : VCarry) (s : State) : Out := carryOp s x false

/-- vcarry.scan (spec/07, R144). -/
def execVcarryScan (x : VCarry) (s : State) : Out := carryOp s x true

/-! ### vcvt.row -/

/-- floor(log2 |x|) of a finite nonzero value. -/
def exponentOf (v : Val) : Option Int :=
  match v with
  | .fin _ p q => if p = 0 then none else some (ilog p q)
  | _ => none

/-- The shift of a row: 13 − E or 14 − E, 0 for a row with no finite nonzero active element (spec/04, R72). -/
def rowShift (d : Fmt) (row : List (Bool × Val)) : Int :=
  match (row.filterMap fun e => if e.1 then exponentOf e.2 else none).max? with
  | none => 0
  | some e => (if d = .rq16 then 13 else 14) - e

/-- An element of a row: RR takes the place of NX (spec/04, R72). -/
def rowElem (d : Fmt) (rm : Rm) (sh : Int) (v : Val) : Deliv :=
  match v with
  | .fin _ _ _ =>
    let r := roundTo d rm true (scale sh v)
    (r.1, if r.2 &&& fNX != 0 then fRR else 0)
  | _ => (if d = .rq16 then narPat d else 0, fNV)

/-- vcvt.row (spec/04, R72; spec/06, R110, R119). -/
def execVcvtRow (x : VCvtRow) (s : State) : Out :=
  let fw := s.fw x.fs
  let wa := fmtWidth fw.fa
  let v := match x.a with
    | .vec v => s.vreg v
    | .bob _ _ => VReg.empty
  withFmt s fw [chkA fw fun f => f == .bf16 || f == .fp16, chkD fw fun f => f == .rq16 || f == .int16, chkRm fw]
    (withVl s [wa, fmtWidth fw.fd] (need s (depOk v x.dep s.vl && x.vc != x.vd && x.a != .vec x.vc)
      (withA s x.a wa fun s as lv =>
        let act := s.unitActive x.m.pm
        let rows := cutSegs (segLens v.levels s.vl x.dep.toNat) (act.zip (as.map (readVal fw.fa)))
        let shifts := rows.map (rowShift fw.fd)
        let rs := (rows.zipWith (fun r sh => r.map fun e => rowElem fw.fd fw.frm sh e.2) shifts).flatten
        let es := unitElems s x.vd .w16 x.m (rs.map (·.1))
        let scales := shifts.map fun sh => BitVec.ofNat 64 ((-sh) % (2 ^ 32 : Nat)).toNat
        let s := (s.setV x.vd ⟨.w16, es, lv⟩).setV x.vc ⟨.w32, scales, redLevels v.levels x.dep⟩
        .next (finishA (s.raiseList (activeFlags 0 s.vl 0 act (rs.map (·.2)))) x.a))))

end Sys2Proof.Machine
end

