-- ==== Sys2Proof/Machine/VAccess.lean ====
section
/-!
DEFINITION. Machine/VAccess.lean: the element accesses of V-words: checks, waits, tensor shapes, what pending copies and
tile loads touch, reads (spec/08, R147 to R149, R154, R155; spec/14, R248, R256; spec/15, R260).
-/
namespace Sys2Proof.Machine

open Sys2Proof

/-- An access that fails: its cause, subcode and c.tval. -/
structure VErr where
  code : BitVec 6
  sub : BitVec 8
  tval : Word
deriving DecidableEq, Repr

/-- A whole number modulo 2^64. -/
def wordOf (x : Int) : Word := BitVec.ofInt 64 x

/-- The user flag of a V-word's accesses. -/
def State.vUser (s : State) : Bool := s.me.kq.isNone

/-- The checks of one element access of hart h: the range of ea, then R85; a store to a withdrawn output makes no access
(spec/08, R147; spec/19, R300). Poison is its reader's. -/
def vAccess (s : State) (h : Nat) (user : Bool) (a : Acc) (ea : Int) (z : Nat) : Except VErr Nat :=
  if ea < 0 ∨ (2 ^ 64 : Nat) ≤ ea then .error ⟨a.cause, 0, wordOf ea⟩
  else if a = .store ∧ (withdrawnAt s h (wordOf ea) z).isSome then .ok lateLoc
  else if ea.toNat % z != 0 then .error ⟨0x05, 0, wordOf ea⟩
  else match resolveV s h user a (wordOf ea) with
    | .error e => .error ⟨e.code, e.sub, wordOf ea⟩
    | .ok loc => .ok loc

/-! ### Tensor shapes -/

/-- A shape record of a tensor tile (spec/08, R154). -/
structure Shape where
  base : Word
  ext : List Word
  str : List Word
  fmt : Fmt
  fill : Word
  org : List Word
  tile : List Nat
deriving DecidableEq, Repr

/-- The number of elements of a tile. -/
def Shape.count (x : Shape) : Nat := x.tile.foldl (· * ·) 1

/-- The record of 24 words; none where a field is not allowed (spec/08, R154). -/
def shapeOf (xs : List Word) : Option Shape :=
  let w (i : Nat) : Word := (xs[i]?).getD 0
  let r := (w 1).toNat
  let part (i : Nat) : List Word := (List.range r).map fun j => w (i + j)
  if r = 0 ∨ 5 < r ∨ 0x0E < (w 12).toNat then none
  else match Fmt.ofCode ((w 12).setWidth 5) with
    | none => none
    | some f =>
      let tile := (part 19).map BitVec.toNat
      if tile.any (· == 0) then none
      else some { base := w 0, ext := part 2, str := part 7, fmt := f,
                  fill := BitVec.ofNat 64 ((w 13).toNat % 2 ^ fmtBits f), org := part 14, tile := tile }

/-- The offsets of tile element i (spec/08, R155). -/
def tileOffsets : List Nat → Nat → List Nat
  | [], _ => []
  | t :: ts, i => i % t :: tileOffsets ts (i / t)

/-- The address of tile element i; none outside the tensor (spec/08, R155). -/
def Shape.addr (x : Shape) (i : Nat) : Option Int :=
  let cs : List Int := x.org.zipWith (fun o (t : Nat) => sint o + t) (tileOffsets x.tile i)
  if (cs.zipWith (fun (c : Int) (e : Word) => decide (0 ≤ c ∧ c < (e.toNat : Int))) x.ext).all id then
    some (x.base.toNat + (cs.zipWith (fun (c : Int) (t : Word) => c * sint t) x.str).sum)
  else none

/-- The levels of a tile at a depth (spec/08, R155). -/
def Shape.levels (x : Shape) (dep : Nat) : List Level :=
  (List.range dep).map fun i =>
    ⟨List.replicate ((x.tile.drop (i + 1)).foldl (· * ·) 1) ((x.tile[i]?).getD 1), false, false⟩

/-! ### Pending copies and tile loads -/

/-- The source address of element i of a copy; none where it makes no access (spec/14, R248). -/
def Copy.src (c : Copy) (i : Nat) : Option Int :=
  match c.form with
  | 0 => some (c.base.toNat + i * c.z)
  | 1 => some (c.base.toNat + i * sint c.stride)
  | 2 => (shapeOf c.rcd).bind fun x => x.addr i
  | _ => some (c.base.toNat + ((c.idx[i]?).getD 0).toNat * c.z)

/-- Whether element i of a copy is active. -/
def Copy.active (c : Copy) (i : Nat) : Bool :=
  match c.mask with
  | none => true
  | some m => m.contains i

/-- The destination address of element i of a transfer (spec/14, R248). -/
def Copy.destAt (c : Copy) (b : Bobbin) (i : Nat) : Int := c.dst.toNat + i * widthBytes b.ew

/-- The elements that a copy has still to perform; kc marks those of an indexed copy that are done (spec/14, R253). -/
def Copy.rest (c : Copy) (kc : Pred) : List Nat :=
  (List.range c.len).filter fun i => c.active i && (if c.form = 3 then !kc.contains i else decide (c.next ≤ i))

/-- Bytes of an address overlap n bytes at a location. -/
def overlaps (s : State) (h : Nat) (user : Bool) (a : Acc) (ea : Int) (z loc n : Nat) : Bool :=
  if ea < 0 ∨ (2 ^ 64 : Nat) ≤ ea then false
  else match resolveV s h user a (wordOf ea) with
    | .error _ => false
    | .ok l => decide (l < loc + n ∧ loc < l + z)

/-- A copy of the hart has still to read some of the bytes. -/
def Copy.reads (s : State) (h loc n : Nat) (c : Copy) : Bool :=
  (c.rest (s.hart h).kc).any fun i => ((c.src i).map fun ea => overlaps s h c.user .load ea c.z loc n).getD false

/-- A copy of the hart has still to write some of the bytes. -/
def Copy.writes (s : State) (h loc n : Nat) (b : Bobbin) (c : Copy) : Bool :=
  b.kind == .transfer && (c.rest (s.hart h).kc).any fun i => overlaps s h c.user .store (c.destAt b i) (widthBytes b.ew) loc n

/-- The pending copies of a hart with their bobbins. -/
def Hart.copiesOf (x : Hart) : List (Bobbin × Copy) :=
  x.b.toList.flatMap fun b => b.queue.filterMap fun e => match e with
    | .copy c => some (b, c)
    | .post _ => none

/-- An indexed copy of the hart is unfinished, so that kc is its (spec/02, R25; spec/14, R249). -/
def indexedPending (x : Hart) : Bool := x.copiesOf.any fun e => e.2.form == 3

/-- A pending copy of the hart touches the bytes (spec/14, R256). -/
def copyTouches (s : State) (h loc n : Nat) : Bool :=
  (s.hart h).copiesOf.any fun e => e.2.reads s h loc n || e.2.writes s h loc n e.1

/-- The location of an address by the translations a command holds (spec/13, R233). -/
def heldLoc (pages : List (Nat × Nat)) (ea : Nat) : Nat := mapGet 0 pages (ea / 65536) + ea % 65536

/-- K of a shape word (spec/13, R227). -/
def mshK (m : Word) : Nat := (m.extractLsb' 0 8).toNat + 1
/-- N of a shape word. -/
def mshN (m : Word) : Nat := (m.extractLsb' 8 8).toNat + 1
/-- G of a shape word. -/
def mshG (m : Word) : Nat := (m.extractLsb' 32 8).toNat + 1
/-- kz of a shape word. -/
def mshKz (m : Word) : Nat := (m.extractLsb' 40 5).toNat
/-- P of a shape word. -/
def mshP (m : Word) : Nat := mshG m * mshKz m
/-- KL of a shape word. -/
def mshKl (m : Word) : Nat := 32 * mshG m

/-- A format code of a shape word, of those allowed for B; A has no RA48 (spec/13, R227). -/
def mshFmt (code : BitVec 5) : Option Fmt :=
  match Fmt.ofCode code with
  | some .int8 => some .int8
  | some .int16 => some .int16
  | some .rq8 => some .rq8
  | some .rq16 => some .rq16
  | some .ra48 => some .ra48
  | _ => none

/-- bf of a shape word. -/
def mshBf (m : Word) : Option Fmt := mshFmt (m.extractLsb' 24 5)

/-- af of a shape word. -/
def mshAf (m : Word) : Option Fmt := (mshFmt (m.extractLsb' 16 5)).filter (· != .ra48)

/-- Bytes of an element of B in memory (spec/13, R232). -/
def mshZ (m : Word) : Nat := ((mshBf m).map fun f => widthBytes (fmtWidth f)).getD 1

/-- The rows a tile load reads: K, or P of a compacted tile, by the row mask (spec/13, R232, R234). -/
def loadRows (m : Word) (rows : Option (List Nat)) (compacted : Bool) : List Nat :=
  (List.range (if compacted then mshP m else mshK m)).filter fun r => (rows.map fun l => l.contains r).getD true

/-- The bytes of a tile's image (spec/13, R243). -/
def tileImageBytes : Nat := 393488

/-- A command has still to write some of the bytes as a tile's image (spec/13, R242, R243). -/
def MCmd.saves (m : MCmd) (loc n : Nat) : Bool :=
  match m.work with
  | .save base pages => (List.range (tileImageBytes / 8)).any fun (i : Nat) =>
      let l := heldLoc pages (base.toNat + 8 * i)
      decide (l < loc + n ∧ loc < l + 8)
  | .load _ _ _ _ _ => false
  | .restore _ => false
  | .mul _ _ _ _ _ => false

/-- A queued tile load of the hart, or a save, touches the bytes; a read waits for a save alone (spec/13, R231, R242). -/
def tileTouches (s : State) (h : Nat) (write : Bool) (loc n : Nat) : Bool :=
  (s.core (coreOf h)).mq.any fun m => m.hart == h && match m.work with
    | .save _ _ => m.saves loc n
    | .load base stride rows ix pages =>
      write && (loadRows m.msh rows ix.isSome).any fun (r : Nat) =>
        (List.range (mshN m.msh)).any fun (c : Nat) =>
          let l := heldLoc pages ((base.toNat : Int) + r * sint stride + c * mshZ m.msh).toNat
          decide (l < loc + n ∧ loc < l + mshZ m.msh)
    | .restore _ => false
    | .mul _ _ _ _ _ => false

/-! ### Waits and reads -/

/-- An access to n bytes at a location has to wait: for the hart's earlier scalar accesses to them, for a pending copy, for a
queued tile load that reads what it writes, for an addition that a read must see (spec/14, R256; spec/15, R260; assumption
log, 29: DEDUCED). -/
def vBlocked (s : State) (write : Bool) (loc n : Nat) : Bool :=
  let mark := (s.me.block?.map (·.mark)).getD 0
  ((s.pkts s.cur).any fun p => (p.vec && !write && p.isAdd || p.sca && decide (p.num < mark)) && p.touches loc n)
    || copyTouches s s.cur loc n || tileTouches s s.cur write loc n

/-- An access of the V-word that dispatches; a load that need not wait meets poison (spec/08, R147; spec/14, R256; spec/15,
R260; spec/25, R366). -/
def vAccessMe (s : State) (a : Acc) (ea : Int) (z : Nat) : Except VErr Nat :=
  match vAccess s s.cur s.vUser a ea z with
  | .error e => .error e
  | .ok loc =>
    if a = .load ∧ s.poisonedFor s.cur true loc z ∧ !vBlocked s false loc z then .error ⟨0x10, 0, wordOf ea⟩ else .ok loc

/-- The locations of elements from i on, up to the first that fails; an element with no address makes no access
(spec/08, R147, R149). -/
def planFrom (s : State) (a : Acc) (z : Nat) : Nat → List (Option Int) → List (Option Nat) × Option (Nat × VErr)
  | _, [] => ([], none)
  | i, none :: l =>
    let r := planFrom s a z (i + 1) l
    (none :: r.1, r.2)
  | i, some ea :: l =>
    match vAccessMe s a ea z with
    | .error e => ([], some (i, e))
    | .ok loc =>
      let r := planFrom s a z (i + 1) l
      (some loc :: r.1, r.2)

/-- One of the locations has to wait. -/
def planBlocked (s : State) (write : Bool) (z : Nat) (locs : List (Option Nat)) : Bool :=
  locs.any fun l => (l.map fun loc => vBlocked s write loc z).getD false

/-- The value a V-word reads at a location. -/
def vRead (s : State) (loc z : Nat) : Word := BitVec.ofNat 64 (leNat (s.view s.cur true loc z))

/-- Reads units of z bytes at ascending addresses as one unit: the trap of the first that fails, a wait, or their values. -/
def readUnits (s : State) (z : Nat) (eas : List Int) (trap : VErr → State) (k : List Word → Out) : Out :=
  match planFrom s .load z 0 (eas.map some) with
  | (_, some (_, e)) => .next (trap e)
  | (locs, none) =>
    if planBlocked s false z locs then .next s else k (locs.map fun l => vRead s (l.getD 0) z)

/-- The reads of an instruction whose fault leaves c.vs as it is. -/
def withReads (s : State) (z : Nat) (eas : List Int) (k : List Word → Out) : Out :=
  readUnits s z eas (fun e => s.trapV e.code e.sub e.tval) k

/-- The reads of an instruction whose fault leaves c.vs 0 (spec/08, R159). -/
def unitReads (s : State) (z : Nat) (eas : List Int) (k : List Word → Out) : Out :=
  readUnits s z eas (fun e => s.trapUnit e.code e.sub e.tval) k

end Sys2Proof.Machine
end

