-- ==== Sys2Proof/Machine/VFetch.lean ====
section
/-!
DEFINITION. Machine/VFetch.lean: the fetch of a V-word: what it waits for, and the word that a hart's vector side runs
(spec/03, R58 to R60; spec/12, R204).
-/
namespace Sys2Proof.Machine

open Sys2Proof

/-- A store of the hart that precedes the block's vf has still to be performed on the word, in a packet, by a copy or as a
tile's image: the fetch waits for it (spec/03, R60; spec/13, R242; spec/14, R256). -/
def fetchWaits (s : State) (b : Block) (loc : Nat) : Bool :=
  ((s.pkts s.cur).any fun p => (p.sca && decide (p.num < b.mark) || p.vec && decide (p.num < b.vnum)) && p.touches loc 8)
    || (s.me.copiesOf.any fun e => decide (e.2.ord < b.vnum) && e.2.writes s s.cur loc 8 e.1)
    || (s.core (coreOf s.cur)).mq.any fun m => m.hart == s.cur && decide (m.num < b.vnum) && m.saves loc 8

/-- What the fetch of the block's V-word gives: nothing while it waits, the error it meets, or the word; poison counts once
the earlier stores are performed (spec/03, R60; spec/25, R366, R367). -/
def fetchV (s : State) (b : Block) : Option (Except (BitVec 6 × BitVec 8) Word) :=
  match fetchLoc s s.me.kq.isNone (b.addr + BitVec.ofNat 64 (8 * b.off)) 8 with
  | .error e => some (.error e)
  | .ok loc => if fetchWaits s b loc then none else some ((fetchAt s loc 8).map (BitVec.ofNat 64))

/-- The V-word that the core's pointer has chosen: its fetch and its decoding come before the checks of its grant and of
c.lazy, and the check of the last offset before those of the decoding (spec/02, R33; spec/03, R58, R59, R60; assumption log,
53: DEDUCED). -/
noncomputable def vwordAt (s : State) (b : Block) : Todo :=
  match fetchV s b with
  | none => .done s
  | some (.error e) => .done (s.trapV e.1 e.2 (b.addr + BitVec.ofNat 64 (8 * b.off)))
  | some (.ok w) =>
    if 65535 ≤ b.off && w != vstopWord then .done (s.trapV 0x01 1 w)
    else match decodeV w with
      | .error e => .done (s.trapV 0x01 e.sub w)
      | .ok i => admitV s i

/-- The V-word side of the hart that executes; the power caps withhold its slots (spec/12, R204, R215; spec/25, R376). -/
noncomputable def vwordTodo (s : State) : Todo :=
  match s.me.block? with
  | none => .done s
  | some b =>
    if s.halted || s.withheld || !vReady s s.cur || !chosenV s s.cur then .done s
    else vwordAt (passPointer s s.cur) b

end Sys2Proof.Machine
end

