-- ==== Sys2Proof/Machine/Agents.lean ====
section
/-!
DEFINITION. Machine/Agents.lean: the schedule, the passing of time, injection and the bridge, cached translations, and how
an instruction is placed for the next step.
-/
namespace Sys2Proof.Machine

/-! ### Time and the frame -/

/-- Core cycles pass; pre-emption signals leave their hubs (spec/02, R34; spec/20, R323; assumption log, 4: DESIGN CHOICE). -/
def passTime (s : State) (n : Nat) : State :=
  preemptLeave (preemptLeave { s with time := s.time + BitVec.ofNat 64 n } 0) 1

/-- The age of a packet in frames (spec/21, R326). -/
def pktAge (s : State) (p : Pkt) : Nat := (s.ftick.setWidth 8 - p.tag).toNat

/-- A flit holds the tick: one of age 32 or more in a router or a memory queue of a die, not in a spill ring
(spec/21, R327). -/
def holdsTick (s : State) : Bool :=
  s.net.any fun p => (p.place != .ring || p.buf != 0) && !isLocal p && decide (32 ≤ pktAge s p)

/-- The frame tick that is due: sent, or held back, or the held one released (spec/20, R322; spec/21, R327). -/
def dueTick (s : State) : Option Instr :=
  if s.time.toNat < s.nextTick.toNat then none
  else if s.tickHeld then (if holdsTick s then none else some .heldTickRelease)
  else some .frameTick

/-- Flits in a die's receive buffer (spec/25, R363). -/
def bufferFill (s : State) (d : Nat) : Nat := ((s.net.filter fun p => p.dst == d).map (·.buf)).sum

/-- Flits in a die's spill ring (spec/25, R364). -/
def ringFill (s : State) (d : Nat) : Nat := ((s.net.filter fun p => p.dst == d).map (·.spilt)).sum

/-- A die's buffer leaves spill mode: the ring is empty and the buffer has room (spec/25, R364; assumption log, 50:
DEDUCED). -/
def spillOver (s : State) (d : Nat) : Bool :=
  (s.die d).spill && decide (ringFill s d = 0) && decide (bufferFill s d < 4096)

/-- A die's ring is full, and that has not been counted (spec/25, R364). -/
def ringFilled (s : State) (d : Nat) : Bool := (s.die d).spill && !(s.die d).ringFull && decide (1048576 ≤ ringFill s d)

/-- What is due of the spill rule. -/
noncomputable def dueSpill (s : State) : Option Instr :=
  if spillOver s 0 then some (.spillModeExit 0) else if spillOver s 1 then some (.spillModeExit 1)
  else if ringFilled s 0 then some (.spillRingFull 0) else if ringFilled s 1 then some (.spillRingFull 1)
  else none

/-- The channels of every hub that have left their reset state, by hub and number. -/
def allChans (s : State) : List (Nat × Nat) :=
  ((s.die 0).chans.map fun e => (0, e.1)) ++ ((s.die 1).chans.map fun e => (1, e.1)) ++ s.pkgChans.map fun e => (2, e.1)

/-- The event of a channel that is due at a time, if any. -/
noncomputable def dueChan (now hub ch : Nat) (c : Channel) : Option Instr :=
  match dueAt now c.toHub with
  | some _ => some (.tackHubCycle hub ch)
  | none =>
    if c.held != [] && c.slot == [] then some (.broadcastAccept hub ch)
    else match c.fromHub.find? fun m => decide (m.1 ≤ now) with
      | some (_, .release _ _) => some (.tackReleaseArrival hub ch)
      | some (_, .answer h _) => some (.joinAnswerArrival h)
      | some (_, .accepted _ _) => some (.broadcastDelivery hub ch)
      | some (_, .value _ _) => some (.broadcastDelivery hub ch)
      | none => none

/-- The hub event that is due, if any: a signal reaches a hub, a held broadcast is accepted, a hub's signal arrives
(spec/20, R308, R312, R318; assumption log, 56: DESIGN CHOICE). -/
noncomputable def dueHub (s : State) : Option Instr :=
  (allChans s).findSome? fun e => dueChan s.time.toNat e.1 e.2 (s.chan e.1 e.2)

/-- The pre-emption signal that is due, if any (spec/20, R323). -/
noncomputable def duePreempt (s : State) : Option Instr :=
  (((s.die 0).signals ++ (s.die 1).signals).find? fun g => decide (g.1 < s.time.toNat)).map
    fun g => .preemptionRequest g.2.2 g.2.1

/-- The event of a scoreboard that comes next, if any (spec/19, R296). -/
noncomputable def dueTasks (s : State) : Option Instr := s.clusters.findSome? fun e => dueTask s e.1

/-- What happens before the schedule's choice: a tick, an end of spilling, a hub event or a pre-emption signal that is due,
an event of a scoreboard. -/
noncomputable def dueEvent (s : State) : Option Instr :=
  ((((dueTick s).or (dueSpill s)).or (dueHub s)).or (duePreempt s)).or (dueTasks s)

/-- The times at which something of the hubs or a tick is due. -/
def dueTimes (s : State) : List Nat :=
  (if s.tickHeld then [] else [s.nextTick.toNat])
    ++ ((allChans s).flatMap fun e => ((s.chan e.1 e.2).toHub.map (·.1)) ++ (s.chan e.1 e.2).fromHub.map (·.1))
    ++ [0, 1].flatMap fun d => ((s.die d).signals.map (·.1 + 1))
      ++ if (s.die d).preempt.busy then [(s.die d).preempt.since + 4] else []

/-- The cycles until the next of them, where there is one (spec/20, R312, R322). -/
def untilDue (s : State) : Option Nat :=
  match (dueTimes s).filter fun t => decide (s.time.toNat < t) with
  | [] => none
  | t :: ts => some (ts.foldl min t - s.time.toNat)

/-! ### Injection -/

/-- A packet holds accesses of V-words alone, that are writes. -/
def Pkt.vecWrite (p : Pkt) : Bool := p.vec && !p.sca && p.plain && !p.isAdd

/-- The line of a packet's first location. -/
def Pkt.line (p : Pkt) : Nat := lineOf (p.locs.headD 0)

/-- A packet of a buffer carries on one of n lines: the next line of its granule, of the same instructions (spec/21, R325;
assumption log, 28: DESIGN CHOICE). -/
def Pkt.carries (p : Pkt) (n : Nat) (q : Pkt) : Bool :=
  p.vecWrite && q.vecWrite && p.grps == q.grps && p.uo == q.uo && q.line == p.line + n && q.line / 4 == p.line / 4

/-- Two packets as one. -/
def Pkt.append (p q : Pkt) : Pkt :=
  match p.body, q.body with
  | .write a, .write b => p.joined q (.write (a ++ b))
  | _, _ => p

/-- The packet that a buffer begins, with up to n lines beyond its first, and what stays. -/
def takeLines (p : Pkt) (lines : Nat) : Nat → List Pkt → Pkt × List Pkt
  | 0, rest => ({ p with flits := lines }, rest)
  | _ + 1, [] => ({ p with flits := lines }, [])
  | n + 1, q :: rest =>
    if p.carries lines q then takeLines (p.append q) (lines + 1) n rest else ({ p with flits := lines }, q :: rest)

/-- The oldest packet of a hart's outbound buffer is injected, with up to n lines beyond its first: stamped with the frame
tag and charged when its first flit goes; without quota its core waits for its turn. A packet to a TCM or the scratchpad goes
to its bank (spec/18, R273; spec/21, R325, R326, R332; assumption log, 28: DESIGN CHOICE). -/
def inject (s : State) (h n : Nat) : State :=
  match (s.hart h).out with
  | [] => s
  | p :: rest =>
    let cl := clusterOf h
    let k := coreOf h % 8
    let q := (takeLines p 1 (min n 3) rest).1
    let left := (takeLines p 1 (min n 3) rest).2
    if !mayLeave s h p then s
    else if isLocal p then
      { s.updHart h fun x => { x with out := rest } with
        net := s.net ++ [{ p with tag := s.ftick.setWidth 8, place := .queue, sent := 1, arrival := s.arrivals }],
        arrivals := s.arrivals + 1 }
    else if askedFirst s cl k || !mayBegin s (dieOf h) (sourceOf h) q.flits then
      s.updCluster cl fun c => { c with asks := insertNat k c.asks }
    else
      let s := (charge s (dieOf h) (sourceOf h) q.flits).updHart h fun x => { x with out := left }
      let s := s.updCluster cl fun c => { c with asks := c.asks.filter (· != k), rotor := BitVec.ofNat 3 (k + 1) }
      { s with net := s.net ++ [{ q with tag := s.ftick.setWidth 8, place := .net, sent := 1 }] }

/-- Whether an injection moves a packet. -/
def mayInject (s : State) (h n : Nat) : Bool :=
  match (s.hart h).out with
  | [] => false
  | p :: rest => mayLeave s h p
      && (isLocal p || !askedFirst s (clusterOf h) (coreOf h % 8)
        && mayBegin s (dieOf h) (sourceOf h) (takeLines p 1 (min n 3) rest).1.flits)

/-- The next flit of a packet is injected; it is charged already (spec/21, R325). -/
def flit (s : State) (i : Nat) : State :=
  match s.net[i]? with
  | some p => if p.sent < p.flits then { s with net := setAt s.net i { p with sent := p.sent + 1 } } else s
  | none => s

/-! ### The bridge -/

/-- Whether a packet from another die still has to cross (spec/25, R363). -/
def Pkt.crosses (p : Pkt) : Bool := p.place == .net && p.src != p.dst && decide (p.flits ≤ p.sent)

/-- No earlier packet of the list satisfies a test. -/
def firstWith (net : List Pkt) (i : Nat) (f : Pkt → Bool) : Bool := !(net.take i).any f

/-- Two packets of one instruction without prefix visibility keep no order (spec/08, R152, R157). -/
def Pkt.free (q p : Pkt) : Bool := q.hart == p.hart && q.uo.isSome && q.uo == p.uo

/-- Packets of one cluster to one point of performance keep their order of injection (spec/21, R326). -/
def Pkt.sameRoute (q p : Pkt) : Bool := clusterOf q.hart == clusterOf p.hart && q.point == p.point && !q.free p

/-- Flits of a packet that have left the bridge's sending port. -/
def Pkt.over (p : Pkt) : Nat := p.buf + p.spilt

/-- The packet may send flits over the bridge now: the flits of one packet cross together, and none of its route is before it
(spec/21, R326; spec/25, R363). -/
def maySend (s : State) (i : Nat) (p : Pkt) : Bool :=
  p.crosses && (p.over != 0 || !s.net.any fun q => q.crosses && q.dst == p.dst && q.over != 0)
    && firstWith s.net i fun q => q.place == .net && q.src == p.src && q.sameRoute p

/-- Flits in the spill ring of a die leave it in the order in which they entered (spec/25, R364). -/
def ringFirst (s : State) (p : Pkt) : Bool :=
  p.spilt != 0 && s.net.all fun q => q.dst != p.dst || q.spilt == 0 || decide (p.arrival ≤ q.arrival)

/-- Where a packet is with so many flits in the buffer and in the ring. -/
def Pkt.placed (p : Pkt) : Pkt :=
  { p with place := if p.over < p.flits then .net else if p.spilt = 0 then .buffer else .ring }

/-- What a packet is after its next flits have moved: out of the spill ring, stamped anew, or over the bridge, into the ring
in spill mode and else into the receive buffer, each as far as there is room (spec/21, R326, R327; spec/25, R363, R364;
assumption log, 28: DESIGN CHOICE). -/
def crossed (s : State) (i : Nat) : Option Pkt :=
  match s.net[i]? with
  | none => none
  | some p =>
    let room := 4096 - bufferFill s p.dst
    let out := min p.spilt room
    let rest := p.flits - p.over
    if ringFirst s p && out != 0 then
      some { p with buf := p.buf + out, spilt := p.spilt - out, tag := s.ftick.setWidth 8 }.placed
    else if !maySend s i p then none
    else if (s.die p.dst).spill then
      let n := min rest (1048576 - ringFill s p.dst)
      if n = 0 then none
      else some { p with spilt := p.spilt + n, arrival := if p.spilt = 0 then s.arrivals else p.arrival }.placed
    else
      let n := min rest room
      if n = 0 then none else some { p with buf := p.buf + n }.placed

/-- Flits of a packet cross the bridge, or leave the spill ring (spec/25, R363, R364). -/
def cross (s : State) (i : Nat) : State :=
  match crossed s i with
  | none => s
  | some q =>
    let s := if (s.net[i]?).any fun p => decide (q.spilt < p.spilt) then
        s.updDie q.dst fun x => { x with ringFull := false }
      else s
    { s with net := setAt s.net i q, arrivals := s.arrivals + 1 }

/-! ### The queues of the points of performance -/

/-- The flits of a packet that count against a quota: padding does not (spec/18, R292; spec/21, R325). -/
def Pkt.counted (p : Pkt) : Nat := p.flits - p.pads

/-- A packet may reach the queue of its point: it is whole, on its die, and none of its route is ahead of it on the way; one
from the bridge needs quota of the bridge port (spec/21, R324 to R326; spec/25, R363). -/
def mayArrive (s : State) (i : Nat) : Bool :=
  match s.net[i]? with
  | none => false
  | some p =>
    decide (p.flits ≤ p.sent) && (if p.src = p.dst then p.place == .net else p.place == .buffer && mayBegin s p.dst 32 p.counted)
      && firstWith s.net i fun q => q.place != .queue && q.sameRoute p

/-- A packet reaches the queue of its point (spec/21, R326; spec/25, R364). -/
def arrive (s : State) (i : Nat) : State :=
  match s.net[i]? with
  | none => s
  | some p =>
    if !mayArrive s i then s
    else
      let s := if p.place = .buffer then (charge s p.dst 32 p.counted).updDie p.dst fun d => { d with fullAtTick := false } else s
      { s with net := setAt s.net i { p with place := .queue, buf := 0, arrival := s.arrivals }, arrivals := s.arrivals + 1 }

/-- A tag is older than another (spec/21, R326). -/
def olderTag (a b : BitVec 8) : Bool := decide (1 ≤ (b - a).toNat ∧ (b - a).toNat ≤ 127)

/-- A queued packet waits for an earlier one of its route, however the bridge has stamped that one since (spec/21, R326;
spec/25, R364). -/
def routeWaits (s : State) (p : Pkt) : Bool :=
  s.net.any fun q => q.place == .queue && q.sameRoute p && decide (q.arrival < p.arrival)

/-- A queued packet is served before another of its point: the older one, among equal tags the one that arrived first; the
banks of a cluster serve theirs as they arrive (spec/18, R273; spec/21, R326). -/
def Pkt.serves (q p : Pkt) : Bool :=
  q.place == .queue && q.point == p.point
    && if isLocal p then decide (q.arrival < p.arrival)
      else olderTag q.tag p.tag || q.tag == p.tag && decide (q.arrival < p.arrival)

/-- Packet i of the network is the next that its point performs. -/
def arrivable (s : State) (i : Nat) : Bool :=
  match s.net[i]? with
  | none => false
  | some p => p.place == .queue && !routeWaits s p && !s.net.any fun q => q.serves p && !routeWaits s q

/-! ### Cached translations -/

/-- A slice of a core caches the leaf of an address, read from the tables now; it holds 1,024 entries (spec/21, R333, R334;
assumption log, 8: DESIGN CHOICE). -/
def tlbFill (s : State) (core : Nat) (asid : BitVec 16) (va : Word) : State :=
  match walk s core asid va.toNat with
  | some t => s.updCore core fun c =>
      let i := sliceOf va.toNat
      { c with tlb := c.tlb.set i.val ((t :: (c.tlb.get i).filter fun e => e.held != t.held).take 1024) i.isLt }
  | none => s

/-- A context's table of 128 entries takes a translation from its slice (spec/21, R333; assumption log, 8: DESIGN
CHOICE). -/
def ctxFill (s : State) (h : Nat) (va : Word) : State :=
  match sliceHit s (coreOf h) (s.hart h).asid va.toNat with
  | some t => s.updHart h fun x => { x with tlb := (t :: x.tlb.filter fun e => e.held != t.held).take 128 }
  | none => s

/-- The entries of the levels that a walk of a core reads, from one level on. -/
def walkEntries (s : State) (peek : Nat → Option Word) (va table level : Nat) : Nat → List (Nat × Word)
  | 0 => []
  | fuel + 1 =>
    let e := (peek level).getD (s.entry (table + 8 * levelIndex level va))
    if !e.getLsbD 0 || e.extractLsb' 52 12 != 0 || e.extractLsb' 6 10 != 0 then []
    else (level, e) :: if e.getLsbD 1 then [] else walkEntries s peek va (entryPa e) (level + 1) fuel

/-- A core's walk cache of 64 entries keeps the valid entry of level 0 to 2 that a walk reads (spec/21, R334; assumption
log, 8: DESIGN CHOICE). -/
def walkFill (s : State) (core : Nat) (asid : BitVec 16) (va : Word) (level : Nat) : State :=
  let root := rootEntry s (core / 96) asid
  let es := if root.getLsbD 0 && root.extractLsb' 52 12 == 0 && root.extractLsb' 1 15 == 0 then
      walkEntries s (walkHit s core asid va.toNat) va.toNat (entryPa root) 0 3
    else []
  match es.find? fun e => e.1 == level with
  | some (_, e) => s.updCore core fun c =>
      let w : WalkEntry := ⟨asid, level, levelSel level va.toNat, e⟩
      { c with walks := (w :: c.walks.filter fun x => !(x.asid == asid && x.level == level && x.sel == w.sel)).take 64 }
  | none => s

/-- A core drops its cached translations (spec/21, R333; assumption log, 8: DESIGN CHOICE). -/
def tlbEvict (s : State) (core : Nat) : State :=
  let s := s.updCore core fun c => { c with tlb := Vector.replicate 8 [], walks := [] }
  (List.range 8).foldl (fun s k => s.updHart (8 * core + k) fun x => { x with tlb := [] }) s

/-! ### The schedule -/

/-- Running harts, in hart order. -/
def runningHarts (s : State) : List Nat := (s.harts.filter fun x => x.2.run == .running).map (·.1)

/-- What a running hart's engines may do: its two sides, its copies and posts, a withdrawal mark (assumption log, 3: DESIGN
CHOICE). -/
noncomputable def hartAgents (s : State) (h : Nat) : List Agent :=
  let x := s.hart h
  let bobs := (List.range 16).filter fun b => ((x.b[b]?).map fun y => y.queue != []).getD false
  [.sword h, .vword h none]
    ++ (bobs.flatMap fun b =>
      let r := BitVec.ofNat 4 b
      [.event (.copyElementDelivery h r 64), .event (.copyFault h r), .event (.postPerformed h r)])
    ++ (if x.task.isSome then [.event (.withdrawMark h 0), .event (.withdrawMark h 1)] else [])

/-- What the units of a core may do. -/
noncomputable def coreAgents (e : Nat × Core) : List Agent :=
  ((List.range e.2.mq.length).flatMap fun i => [.event (.matrixIssue e.1 i), .event (.matrixComplete e.1 i)])
    ++ if e.2.laneWait = [] then [] else [.event (.waiterServed e.1)]

/-- What a cluster may do with its tasks. -/
noncomputable def clusterAgents (e : Nat × Cluster) : List Agent :=
  if e.2.tasks = [] then []
  else .event (.taskDispatch e.1) :: e.2.tasks.flatMap fun t => [.event (.taskFire e.1 t.1), .event (.taskRetire e.1 t.1)]

/-- What a die may do with launches, an invalidation. -/
noncomputable def dieAgents (e : Nat × Die) : List Agent :=
  (e.2.fifos.filterMap fun f => if f.2.recs = [] then none else some (.event (.recordEntersPool e.1 f.1)))
    ++ (if e.2.queues.all (fun q => q.2.recs == []) then [] else [.event (.launchDispatch e.1)])
    ++ (e.2.pool.filterMap fun p => if p.2.launch.isNone then none else some (.event (.launchCompletion e.1 p.1)))
    ++ if e.2.inval.busy then [.event (.invalidationComplete e.1)] else []

/-- The agents that the default choice takes in turn. -/
noncomputable def allAgents (s : State) : List Agent :=
  (runningHarts s).flatMap (hartAgents s) ++ s.cores.flatMap coreAgents ++ s.clusters.flatMap clusterAgents
    ++ s.dies.flatMap dieAgents

/-- A packet of the network that can move on its way, and how. -/
def netMove (s : State) (i : Nat) : Option Agent :=
  match s.net[i]? with
  | none => none
  | some p =>
    if p.sent < p.flits then some (.flit i)
    else if mayArrive s i then some (.arrive i)
    else if (crossed s i).isSome then some (.cross i)
    else none

/-- The choice where the schedule says nothing: packets are performed, move on and are injected first, then the other agents
take turns (assumption log, 3: DESIGN CHOICE). -/
noncomputable def defaultPick (s : State) : Pick :=
  match (List.range s.net.length).find? (arrivable s) with
  | some i => ⟨.event (.packetArrival i), 1⟩
  | none =>
    match (List.range s.net.length).findSome? (netMove s) with
    | some a => ⟨a, 1⟩
    | none =>
      match s.harts.find? fun x => mayInject s x.1 3 with
      | some x => ⟨.inject x.1 3, 1⟩
      | none =>
        match (allAgents s)[s.turn % (allAgents s).length]? with
        | some a => ⟨a, 1⟩
        | none => ⟨.inject 0 0, 1⟩

/-- Time passes up to something that is due; what is left of the choice stays for after it (spec/20, R312, R322). -/
def holdPick (s : State) (p : Pick) (n : Nat) : State :=
  { passTime s n with agenda := ⟨p.agent, p.cycles - n⟩ :: s.agenda.tail }

/-- The head of the schedule, or the default choice. -/
noncomputable def nextPick (s : State) : Pick := s.agenda.headD (defaultPick s)

/-- A context's next U-mode V-word has reached dispatch and asks for groups as a resumption: its block may start or go on,
and the word is fetched, decodes, and is neither a first vsetl nor the vstop of an empty block (spec/12, R211; spec/16, R268;
assumption log, 53: DEDUCED). -/
noncomputable def mayResume (s : State) : Bool :=
  match s.me.block? with
  | none => false
  | some b =>
    vReady s s.cur && s.me.kq.isNone && held s s.cur == 0
      && match (fetchV s b).bind Except.toOption with
        | none => false
        | some w => match decodeV w with
          | .error _ => false
          | .ok i => !(isVsetl i && s.me.lastGrant == 0 || isVstop i && b.off == 0)

/-- Whether an event that the schedule names can happen now; otherwise nothing does (assumption log, 3: DESIGN CHOICE). -/
noncomputable def eventReady (s : State) (i : Instr) : Bool :=
  match i with
  | .packetArrival k => arrivable s k
  | .frameTick => false
  | .heldTickRelease => false
  | .resumption h => mayResume { s with cur := h }
  | .trapEntry h t => t.code == 0x10 && (s.hart h).run == .running
  | _ => true

/-! ### Placing an instruction -/

/-- Physical addresses of the tables and the text that `placed` uses. -/
def placeRoot : Nat := 0x10000
/-- The level-0 table. -/
def placeL0 : Nat := 0x20000
/-- The level-1 table. -/
def placeL1 : Nat := 0x30000
/-- The text. -/
def placeText : Nat := 0x40000

/-- A hart in U mode at the text, in a cluster and a range of partition 0, with the first GiB mapped to itself under ASID 0;
an S-word lies at its pc, a V-word in a block of its vector queue on a full grant; the schedule names that side next. -/
def placed (s : State) (nbits w : Nat) : State :=
  let s := s.setBytes placeRoot (toLe 8 (placeL0 + 1))
  let s := s.setBytes placeL0 (toLe 8 (placeL1 + 1))
  let s := s.setBytes placeL1 (toLe 8 0x3F)
  let s := s.updDie 0 fun d =>
    { d with root := BitVec.ofNat 64 placeRoot, ranges := mapSet 0 ⟨0, true, false, 1, 0, 512⟩ d.ranges }
  let s := s.updCluster 0 fun c => { c with en := true, pid := 0 }
  let s := s.setBytes placeText (toLe (if nbits ≤ 32 then 4 else 8) w)
  let s := s.updHart 0 fun x =>
    { x with run := .running, kmode := false, asid := 0, pc := BitVec.ofNat 64 placeText,
             swait := .none, pending := [], lazy := false, kq := none,
             vq := if nbits ≤ 32 then x.vq else
               [{ addr := BitVec.ofNat 64 placeText, snap := Vector.replicate 16 0, off := 0, started := false,
                  mid := false, xr := .off, mark := 0, sv := 0, vnum := 0, fence := 0, vv := false, own := true }],
             lane := { x.lane with occ := true, gmask := 0xFF, st := 1 }, lastGrant := 8 }
  { s with cur := 0, agenda := [⟨if nbits ≤ 32 then .sword 0 else .vword 0 none, 0⟩] }

end Sys2Proof.Machine
end

