-- ==== Sys2Proof/Machine/Cluster.lean ====
section
/-!
DEFINITION. Machine/Cluster.lean: futures, patterns, the cutting table, gangs, trios, cluster reset (spec/18; spec/12,
R216 to R218; spec/26, R386).
-/
namespace Sys2Proof.Machine

/-! ### Futures -/

/-- The location of a future word of the hart that executes (spec/18, R280). -/
def withFuture (s : State) (ea : Word) (k : Nat → Out) : Out :=
  if ea.toNat % 8 != 0 then .next (s.trapS 0x05 0 ea)
  else if ea.extractLsb' 40 24 != 0x00FF01 || decide (2 ^ 23 ≤ ea.toNat % 2 ^ 40) then .next (s.trapS 0x09 0 ea)
  else k (padBase (clusterOf s.cur) + ea.toNat % 2 ^ 40)

/-- A future word is read: poison raises cause 0x10 (spec/25, R367). -/
def readFuture (s : State) (ea : Word) (loc : Nat) (k : Out) : Out :=
  if s.poisoned loc 8 then .next (s.trapS 0x10 0 ea) else k

/-- A dword of memory at its point of performance. -/
def State.dword (s : State) (loc : Nat) : Word := BitVec.ofNat 64 (leNat (s.bytes loc 8))

/-- An own scalar packet still touches the bytes. -/
def ownPending (s : State) (loc n : Nat) : Bool := (s.pkts s.cur).any fun p => p.sca && p.touches loc n

/-- fwait goes on with a word read (spec/18, R281). -/
def parkOr (s : State) (sd : SReg) (loc : Nat) (deadline : Word) : State :=
  let c := s.cluster (clusterOf s.cur)
  let w := s.dword loc
  if w.getLsbD 63 || decide (c.wlim ≤ c.waits.length)
      || decide (256 ≤ c.waits.length + taskWaits s (clusterOf s.cur)) then s.wr sd w
  else
    let s := s.updCluster (clusterOf s.cur) fun c => { c with waits := c.waits ++ [⟨loc, s.cur⟩] }
    s.updMe fun x => { x with swait := .parked sd (BitVec.ofNat 64 loc) deadline }

/-- A parked fwait whose deadline has come reads its word and completes, or meets poison (spec/18, R281; spec/25, R367). -/
def fwaitTimeout (s : State) (h : Nat) : State :=
  match (s.hart h).swait with
  | .parked sd loc d =>
    if deadlinePast s d then
      let s := s.updCluster (clusterOf h) fun c => { c with waits := c.waits.filter fun e => e.hart != h }
      s.onHart h fun s =>
        if s.poisoned loc.toNat 8 then s.trapS 0x10 0 (0x00FF010000000000 + BitVec.ofNat 64 (loc.toNat - padBase (clusterOf h)))
        else s.wr sd (s.dword loc.toNat)
    else s
  | _ => s

/-- A woken fwait completes with the word that filled its future (spec/18, R281). -/
def fwaitWake (s : State) (h : Nat) : State :=
  match (s.hart h).swait with
  | .woken sd w => s.onHart h fun s => s.wr sd w
  | _ => s

/-- fwait (spec/18, R281). -/
def execFwait (sd sa sb : SReg) (s : State) : Out :=
  match s.me.swait with
  | .parked _ _ _ => .next (fwaitTimeout s s.cur)
  | .woken _ _ => .next (fwaitWake s s.cur)
  | _ => withFuture s (s.rs sa) fun loc =>
      if ownPending s loc 8 then .next s
      else readFuture s (s.rs sa) loc (.next (parkOr s sd loc (s.rs sb)))

/-- ffill: one indivisible step at the bank (spec/18, R282). -/
def execFfill (sd sa sb : SReg) (s : State) : Out :=
  withFuture s (s.rs sa) fun loc =>
    if !ssDone s then .next s
    else readFuture s (s.rs sa) loc
      (let old := s.dword loc
      if old.getLsbD 63 then .next (s.wr sd old)
      else
        let w := s.rs sb ||| 0x8000000000000000
        let woken := ((s.cluster (clusterOf s.cur)).waits.filter fun e => e.addr == loc).map (·.hart)
        let s := s.putBytes loc (toLe 8 w.toNat)
        let s := s.updCluster (clusterOf s.cur) fun c => { c with waits := c.waits.filter fun e => e.addr != loc }
        let wake (x : Hart) : Hart := match x.swait with
          | .parked r _ _ => { x with swait := .woken r w }
          | _ => x
        .next ((woken.foldl (fun s h => s.updHart h wake) s).wr sd old))

/-- The wake-up of a parked fwait reaches its hart (spec/18, R281). -/
def execFwaitWake (h : Nat) (s : State) : Out := .next (fwaitWake s h)

/-- The deadline of a parked fwait comes (spec/18, R281). -/
def execFwaitTimeout (h : Nat) (s : State) : Out := .next (fwaitTimeout s h)

/-! ### Patterns -/

/-- A field of a dword, as a number. -/
def fieldOf (w : Word) (lo n : Nat) : Nat := (w.toNat >>> lo) % 2 ^ n

/-- The bytes of dwords. -/
def bytesOf (ws : List Word) : List Byte := ws.flatMap fun w => toLe 8 w.toNat

/-- The eight lists of a cut body, from its counts and items; none where a field breaks R285 (spec/18, R285). -/
def cutLists (ms : List Nat) (items : List Word) : Option (List (List CutItem)) :=
  match ms with
  | [] => some []
  | m :: rest =>
    let own := (List.range m).map fun q => (items.getD (2 * q) 0, items.getD (2 * q + 1) 0)
    if own.any fun e => e.1 == 0xFFFFFFFFFFFFFFFF || e.2.setWidth 32 == 0 || e.2.extractLsb' 32 32 != 0 then none
    else (cutLists rest (items.drop (2 * m))).map fun ls => (own.map fun e => ⟨e.1, (e.2.setWidth 32).toNat⟩) :: ls

/-- A route body obeys its ranges (spec/18, R277). -/
def routeOk (body : List Byte) (n p : Nat) : Bool :=
  let banks := (body.drop 16).take n
  let sets := body.drop (16 + 8 * ((n + 7) / 8))
  (banks.all fun b => decide (b.toNat < 64) || b == 0xFF)
    && (List.range p).all fun i => ((sets.drop (48 * i + 44)).take 4).all (· == 0)

/-- The entries of a location pattern, from key `least` upward (spec/26, R386). -/
def locEntries (least : Nat) (ws : List Word) : Nat → Option (List LocEntry)
  | 0 => some []
  | n + 1 =>
    let w (i : Nat) : Word := ws.getD i 0
    let key := fieldOf (w 0) 0 32
    if key < least || fieldOf (w 0) 44 4 != 0 || (w 2).extractLsb' 0 6 != 0 || w 3 != 0 then none
    else (locEntries (key + 1) (ws.drop 4) n).map fun es =>
      { key := BitVec.ofNat 32 key, chip := (w 0).extractLsb' 32 12, rasid := (w 0).extractLsb' 48 16, gbase := w 1,
        ibox := w 2 } :: es

/-- A pattern as read: what patld loads. -/
inductive Pattern where
  | cut (lists : List (List CutItem))
  | route (body : List Byte)
  | loc (t : LocTable)

/-- The length that the first two dwords of a body give its kind; none where they break it (spec/18, R277, R285; spec/26,
R386). -/
def bodyLen (kind : Nat) (w0 w1 : Word) : Option Nat :=
  if kind = 1 then
    let sum := ((List.range 8).map fun k => fieldOf (if k < 4 then w0 else w1) (16 * (k % 4)) 16).sum
    if sum ≤ 2048 then some (16 + 16 * sum) else none
  else if kind = 2 then
    let n := fieldOf w0 0 32
    let p := fieldOf w0 32 16
    if n ≤ 16384 ∧ p ≤ 256 ∧ fieldOf w0 48 16 = 0 ∧ w1 = 0 then some (16 + 8 * ((n + 7) / 8) + 48 * p) else none
  else if kind = 4 then
    let n := fieldOf w0 0 32
    if 1 ≤ n ∧ n ≤ 4096 ∧ fieldOf w0 32 8 ≤ 40 ∧ fieldOf w0 40 24 = 0 ∧ w1 = 0 then some (16 + 32 * n) else none
  else none

/-- The pattern of a whole body, when every field obeys its range. -/
def parsePattern (kind : Nat) (body : List Word) : Option Pattern :=
  let w (i : Nat) : Word := body.getD i 0
  if kind = 1 then
    (cutLists ((List.range 8).map fun k => fieldOf (if k < 4 then w 0 else w 1) (16 * (k % 4)) 16) (body.drop 2)).map
      Pattern.cut
  else if kind = 2 then
    if routeOk (bytesOf body) (fieldOf (w 0) 0 32) (fieldOf (w 0) 32 16) then some (.route (bytesOf body)) else none
  else
    (locEntries 0 (body.drop 2) (fieldOf (w 0) 0 32)).map fun es => .loc ⟨fieldOf (w 0) 32 8, es⟩

/-- The highest slot of a kind (spec/18, R284; spec/26, R386). -/
def lastSlot (kind : Nat) : Nat := if kind = 2 then 7 else 3

/-- What patld reads at an address: a pattern, nothing valid, a wait, or a trap (spec/18, R284). -/
inductive PatRead where
  | ok (p : Pattern)
  | bad
  | stop (r : Rd)

/-- Reads and checks a pattern object of the hart that executes for slot sb (spec/01, R15; spec/18, R284). -/
def readPattern (s : State) (ea : Word) (sb : Word) : PatRead :=
  match readDwords s ea 2 with
  | .ok [h0, h1] =>
    let kind := fieldOf h0 0 16
    if fieldOf h0 16 16 != 1 || h1 != 0 || !(kind == 1 || kind == 2 || kind == 4) || decide (lastSlot kind < sb.toNat) then
      .bad
    else match readDwords s (ea + 16) 2 with
      | .ok [w0, w1] =>
        match bodyLen kind w0 w1 with
        | none => .bad
        | some len =>
          if len != fieldOf h0 32 32 then .bad
          else match readDwords s (ea + 16) (len / 8) with
            | .ok ws => match parsePattern kind ws with
              | some p => .ok p
              | none => .bad
            | r => .stop r
      | r => .stop r
  | r => .stop r

/-- Puts lists into a cutting-table slot. -/
def setCut (s : State) (cl n : Nat) (ls : List (List CutItem)) : State :=
  s.updCluster cl fun c => { c with cuts := c.cuts.setIfInBounds n ls }

/-- Some xfwd of the cluster still uses a location slot: its lists or its records are out, or back and not yet taken
(spec/26, R386). -/
def locBusy (s : State) (cl : Nat) : Bool :=
  (List.range 64).any fun k =>
    let x := s.hart (64 * cl + k)
    x.xlists != [] || x.xrecs.any fun r => !r.kept && x.ownsRec r

/-- Puts a table into a location slot. -/
def setLoc (s : State) (cl n : Nat) (t : Option LocTable) : State :=
  s.updCluster cl fun c => { c with locs := c.locs.setIfInBounds n t }

/-- patld of s0: every slot of that number is emptied (spec/18, R284; spec/26, R386; assumption log, 20: DEDUCED). -/
def clearSlots (s : State) (n : Nat) : State :=
  let cl := clusterOf s.cur
  setLoc (setCut (s.updCore (coreOf s.cur) fun c => { c with routes := mapDel n c.routes }) cl n []) cl n none

/-- patld (spec/18, R284; spec/26, R386). -/
def execPatld (sd sa sb : SReg) (s : State) : Out :=
  let n := s.rs sb
  let ea := s.rs sa
  let cl := clusterOf s.cur
  if sa = 0 then
    if 7 < n.toNat then illegalS s else if locBusy s cl then .next s else .next ((clearSlots s n.toNat).wr sd 0)
  else if ea.toNat % 64 != 0 then .next (s.trapS 0x05 0 ea)
  else match readPattern s ea n with
    | .stop (.trap c b t) => .next (s.trapS c b t)
    | .stop _ => .next s
    | .bad => illegalS s
    | .ok p =>
      if !ssDone s then .next s
      else match p with
        | .cut ls =>
          if (s.cluster cl).cuts[n.toNat]?.getD [] |>.any (· != []) then .next (s.wr sd 1)
          else .next ((setCut s cl n.toNat ls).wr sd 0)
        | .route body =>
          .next ((s.updCore (coreOf s.cur) fun c => { c with routes := mapSet n.toNat body c.routes }).wr sd 0)
        | .loc t => if locBusy s cl then .next s else .next ((setLoc s cl n.toNat (some t)).wr sd 0)

/-! ### The cutting table -/

/-- Takes one item for core k (spec/18, R286). -/
def takeItem (ls : List (List CutItem)) (k : Nat) : Option (Word × List (List CutItem)) :=
  match ls.getD k [] with
  | x :: rest => some (x.val, ls.set k rest)
  | [] =>
    let weights := ls.map fun l => (l.map (·.wgt)).sum
    let top := weights.foldl max 0
    match (List.range ls.length).find? fun v => weights.getD v 0 = top && ls.getD v [] != [] with
    | none => none
    | some v => (ls.getD v []).getLast?.map fun x => (x.val, ls.set v (ls.getD v []).dropLast)

/-- The request served next: cores in rotating order (spec/18, R286). -/
def nextTake (s : State) (cl : Nat) : Option Nat :=
  let c := s.cluster cl
  (List.range 8).findSome? fun i => c.takes.find? fun h => coreOf h % 8 = (c.takeNext + i) % 8

/-- Serves a ctake request (spec/18, R286). -/
def serveTake (s : State) (cl h : Nat) : State :=
  match (s.hart h).swait with
  | .take sd n =>
    let ls := (s.cluster cl).cuts[n]?.getD []
    let s := s.updCluster cl fun c =>
      { c with takes := c.takes.filter (· != h), takeNext := (coreOf h % 8 + 1) % 8 }
    match takeItem ls (coreOf h % 8) with
    | some (v, ls) => (setCut s cl n ls).onHart h fun s => s.wr sd v
    | none => s.onHart h fun s => s.wr sd 0xFFFFFFFFFFFFFFFF
  | _ => s.updCluster cl fun c => { c with takes := c.takes.filter (· != h) }

/-- ctake: the request reaches the table, and completes when it is served (spec/18, R286). -/
def execCtake (sd sa : SReg) (s : State) : Out :=
  let cl := clusterOf s.cur
  match s.me.swait with
  | .take _ _ => if nextTake s cl = some s.cur then .next (serveTake s cl s.cur) else .next s
  | _ =>
    let n := s.rs sa
    if n.extractLsb' 2 62 != 0 then illegalS s
    else
      let s := s.updCluster cl fun c => { c with takes := c.takes ++ [s.cur] }
      .next (s.updMe fun x => { x with swait := .take sd n.toNat })

/-- The cutting table serves its next request (spec/18, R286). -/
def execCtakeServed (cl : Nat) (s : State) : Out :=
  match nextTake s cl with
  | some h => .next (serveTake s cl h)
  | none => .next s

/-! ### Gangs -/

/-- The slots of the other member cores of a gang of n. -/
def gangSlots (h n : Nat) : List Nat := ((List.range n).drop 1).map fun i => h + 8 * i

/-- gform (spec/18, R289). -/
def execGform (sd sa : SReg) (s : State) : Out :=
  let h := s.cur
  let n := (s.rs sa).toNat
  if s.me.kmode then privileged s (.gform sd sa)
  else if !s.me.vIdle then .next s
  else if s.me.task.isSome || !(n = 2 || n = 4 || n = 8) || decide (coreOf h % 8 % n ≠ 0) || s.me.gang != 1
      || (trioOf s h).isSome then illegalS s
  else if (gangSlots h n).any fun k => (s.hart k).lane.occ then .next (s.wr sd 0)
  else
    let g := held s h
    let s := (gangSlots h n).foldl (fun s k =>
      s.updHart k fun x => { x with lane := { x.lane with occ := true }, gangOf := some h }) s
    let s := s.updHart h fun x => { x with gang := n }
    .next ((if g = 0 then s else (renegotiate s h g g false).1).wr sd 1)

/-- gsplit; a grant still waited for on the member cores is waited for no more (spec/18, R289). -/
def execGsplit (sd : SReg) (s : State) : Out :=
  let h := s.cur
  let n := s.me.gang
  if s.me.kmode then privileged s (.gsplit sd)
  else if !s.me.vIdle then .next s
  else if n = 1 then illegalS s
  else
    let s := s.leaveLaneWait h
    let g := held s h
    let s := (gangSlots h n).foldl (fun s k =>
      s.updHart k fun x => { x with lane := { x.lane with gmask := 0, st := 0, occ := false }, gangOf := none }) s
    let s := s.updHart h fun x =>
      let x := { x with gang := 1 }
      if g = 0 then x else x.reshape g
    .next (s.wr sd (BitVec.ofNat 64 n))

/-! ### Trios -/

/-- Ring j of a trio word: its capacity, producers and consumer (spec/12, R216). -/
def ringCap (w : Word) (j : Nat) : Nat := ((w >>> (16 + 12 * j)).setWidth 4).toNat
/-- The consuming role. -/
def ringCons (w : Word) (j : Nat) : Nat := ((w >>> (23 + 12 * j)).setWidth 2).toNat

/-- A trio word is valid (spec/12, R216). -/
def trioWordOk (w : Word) : Bool :=
  (trioSlots w).Nodup && w.extractLsb' 9 7 == 0
    && ((List.range 4).all fun j =>
      (w >>> (25 + 12 * j)).setWidth 3 == (0 : BitVec 3) &&
        (if ringCap w j = 0 then ringPmask w j == 0 && ringCons w j == 0
         else decide (ringCap w j ≤ 8) && ringPmask w j != 0 && decide (ringCons w j ≠ 3)
           && !(ringPmask w j).getLsbD (ringCons w j)))
    && decide (((List.range 4).map (ringCap w)).sum ≤ 24)

/-- The word of a trio that a hart waits in. -/
def trioWait (x : Hart) : Option (SReg × Word) :=
  match x.swait with
  | .trio sd w => some (sd, w)
  | _ => none

/-- The registers of a member when its trio forms: the pool registers are empty, the rest reshape to the shared grant
(spec/02, R32; spec/12, R218). -/
def joinTrio (x : Hart) (g : Nat) : Hart :=
  let x := if g = 0 || x.lastGrant = 0 then x else x.reshape g
  { x with v := Vector.ofFn fun i => if 24 ≤ i.val then VReg.empty else x.v.get i,
           vdirty := x.vdirty ||| 0xFF000000,
           lastGrant := if g = 0 then x.lastGrant else g, waitFor := none }

/-- A trio forms: all three members complete with their roles (spec/12, R217, R218). -/
def formTrio (s : State) (core : Nat) (w : Word) : State :=
  let ms := (trioSlots w).map fun k => 8 * core + k
  let g := held s (ms.getD 1 0)
  let s := s.updCore core fun c =>
    { c with trios := c.trios ++ [⟨w, Vector.replicate 4 ⟨[], []⟩, []⟩],
             laneWait := c.laneWait.filter fun k => !(trioSlots w).contains k }
  (indexed ms).foldl (fun s e =>
    let sd := ((trioWait (s.hart e.2)).map (·.1)).getD 0
    let s := s.updHart e.2 fun x => { joinTrio x g with
      lane := if e.1 = 1 then { x.lane with st := if x.lane.st = 3 then 3 else if x.lane.gmask = 0 then 0 else 1 }
              else { x.lane with gmask := 0, st := if x.lane.st = 3 then 3 else 0 } }
    s.onHart e.2 fun s => s.wr sd (BitVec.ofNat 64 e.1)) s

/-- trio (spec/12, R217). -/
def execTrio (sd sa : SReg) (s : State) : Out :=
  let h := s.cur
  let w := match trioWait s.me with
    | some (_, w) => w
    | none => s.rs sa
  let slots := trioSlots w
  let others := (slots.filter (· != h % 8)).map fun k => 8 * coreOf h + k
  let waiting := ((List.range 8).filter (· != h % 8)).filterMap fun k =>
    (trioWait (s.hart (8 * coreOf h + k))).map (·.2)
  if s.me.kmode || s.me.task.isSome || (trioOf s h).isSome || !trioWordOk w || !slots.contains (h % 8) then illegalS s
  else if waiting.any fun u => u != w && (trioSlots u).any slots.contains then illegalS s
  else
    let s := s.updMe fun x => { x with swait := .trio sd w }
    if others.all fun k => (trioWait (s.hart k)).map (·.2) = some w then .next (formTrio s (coreOf h) w) else .next s

/-! ### Failures and cluster reset -/

/-- An uncontained failure of partitions: each of their launches that holds a pool entry fails, and they are stopped until
they are restarted (spec/25, R377). -/
def failPartitions (s : State) (ps : List Nat) : State :=
  let s := { s with stopped := ps.foldl (fun l p => insertNat p l) s.stopped }
  [0, 1].foldl (fun s d =>
    ((s.die d).pool.map (·.1)).foldl (fun s e => match s.launch? d e with
      | some l => if ps.contains l.pid.toNat then s.failLaunch d e 3 else s
      | none => s) s) s

/-- Clears the cells of a span of locations. -/
def State.zeroSpan (s : State) (base size : Nat) : State :=
  { s with mem := s.mem.filter fun c => !decide (base ≤ c.1 ∧ c.1 < base + size),
           poison := s.poison.filter fun u => !decide (base ≤ u ∧ u < base + size) }

/-- A cluster had begun to send a packet and still owes flits of it (spec/18, R292). -/
def owesFlits (cl : Nat) (p : Pkt) : Bool := clusterOf p.hart == cl && decide (p.sent < p.flits)

/-- A packet that a cluster had begun to send is finished with poisoned padding (spec/18, R292). -/
def padPkt (cl : Nat) (p : Pkt) : Pkt :=
  if owesFlits cl p then { p with sent := p.flits, pads := p.flits - p.sent, poisoned := true } else p

/-- The flits that a cluster has begun in this frame and still owes: padding stands for them, which no quota counts (spec/18,
R292; spec/21, R325). -/
def padding (s : State) (cl : Nat) : Nat :=
  ((s.net.filter fun p => owesFlits cl p && p.tag == s.ftick.setWidth 8).map fun p => p.flits - p.sent).sum

/-- The packets of a cluster at its reset: those on their way to its own memories are gone with them, those begun are finished
with padding (spec/18, R291, R292). -/
def resetPackets (s : State) (cl : Nat) : State :=
  let pad := padding s cl
  let s := s.updDie (cl / 12) fun d =>
    { d with used := if pad = 0 then d.used else mapSet (cl % 12) (mapGet 0 d.used (cl % 12) - pad) d.used }
  { s with net := (s.net.filter fun p => !(clusterOf p.hart == cl && isLocal p)).map (padPkt cl) }

/-- A cluster reset for fault containment; a hart of no launch that it stops posts a record, as those of a launch do
(spec/18, R283, R291, R292; spec/20, R320; spec/25, R377, R378; spec/26, R386). -/
def execClusterReset (cl : Nat) (s : State) : Out :=
  let s := if (s.cluster cl).en then failPartitions s [(s.cluster cl).pid.toNat] else s
  let hs := (List.range 64).map fun k => 64 * cl + k
  let s := hs.foldl (fun s h =>
    if (s.hart h).run == RunState.running then (s.postStop 3 h).stopHart h else s.leaveTack h) s
  let s := hs.foldl (fun s h => s.updHart h fun x =>
    { x with run := .stopped, launch := none, gang := 1, gangOf := none, waitFor := none, settled := false, lastGrant := 0,
             kgrant := none, lane := { LaneEntry.reset with gcap := x.lane.gcap, wgt := x.lane.wgt } }) s
  let s := resetPackets s cl
  let s := (List.range 8).foldl (fun s k => s.updCore (8 * cl + k) fun c =>
    { Core.reset with rot := c.rot, lastV := c.lastV, tlb := c.tlb, walks := c.walks }) s
  let s := (List.range 8).foldl (fun s k => s.zeroSpan (tcmBase (8 * cl + k)) (2 ^ 21)) s
  let s := s.zeroSpan (padBase cl) (2 ^ 23)
  let s := s.updCluster cl fun c =>
    { Cluster.reset with en := c.en, pid := c.pid, tps := c.tps, wlim := c.wlim, rotor := c.rotor, down := true }
  .next s

/-- The number of the next evicted context. -/
def nextEvicted (s : State) : Nat := (s.evicted.map (·.id)).foldl max 0 + 1

/-- What stays of a hart of a launch that is freed while parked, for its placing; the tasks that it spawned are those of the
evicted context (spec/12, R206, R224; spec/15, R267; spec/19, R300, R305, R306; spec/26, R390; assumption log, 57: DESIGN
CHOICE). -/
def evict (s : State) (h : Nat) : State :=
  let x := s.hart h
  match x.launch with
  | none => s
  | some l =>
    let i := nextEvicted s
    { respawn s (clusterOf h) h (1536 + i) with
      evicted := s.evicted ++ [{ id := i, launch := l, task := x.task, slot := h, marks := x.marks, nextNum := x.nextNum,
                                 fenced := x.fenced, vvFence := x.vvFence, savedQ := x.savedQ, savedB := x.savedB,
                                 xvals := x.xvals }] }

/-- A parked context is freed through fr, when it is parked and empty (spec/12, R206). -/
def freeParked (s : State) (h : Nat) : State :=
  let x := s.hart h
  if x.lane.st = 3 && x.vq == [] && x.kq.isNone && x.rq == [] && s.pkts h == [] && copiesDone x false && matrixDone s h false then
    (((evict s h).cancelWait h).leaveTack h).freeLanes h false |>.updHart h fun x =>
      { x with run := .idle, swait := .none, launch := none, task := none, resv := none, xlists := [], xvals := [],
               xrecs := [], b := x.b.map fun _ => Bobbin.closed }
  else s

/-- An evicted context may be placed on a slot: a free one of its launch's die and partition; a context of a task stays in the
cluster whose scoreboard holds it (spec/12, R206, R224; assumption log, 57: DESIGN CHOICE). -/
def mayPlace (s : State) (h : Nat) (e : Evicted) : Bool :=
  !((s.hart h).lane.occ || (s.hart h).run == RunState.running || s.diesHeld) && dieOf h == e.launch.die
    && ((s.launch? e.launch.die e.launch.entry).any fun l => l.st == .dispatched && takesWork (s.cluster (clusterOf h)) l.pid)
    && (e.task.isNone || clusterOf h == clusterOf e.slot)

/-- Delveloth places evicted context i on a slot: the slot is occupied by a hart of its launch, and its task, with what stayed
of the context, and its shim starts in K mode (spec/12, R206, R224; spec/15, R267; spec/19, R300, R305, R306; spec/26, R390;
assumption log, 57: DESIGN CHOICE). -/
def placeContext (s : State) (h : Nat) (pc : Word) (i : Nat) : State :=
  match s.evicted.find? fun e => e.id == i with
  | none => s
  | some e =>
    if !mayPlace s h e then s
    else
      let s := respawn (respawn s (clusterOf h) h 1536) (clusterOf e.slot) (1536 + i) h
      let s := { s with evicted := s.evicted.filter fun e => e.id != i }
      let s := s.updHart h fun x =>
        { x.fresh with pc := pc, kmode := true, launch := some e.launch, task := e.task, marks := e.marks,
                       nextNum := max x.nextNum e.nextNum, fenced := e.fenced, vvFence := e.vvFence, savedQ := e.savedQ,
                       savedB := e.savedB, xvals := e.xvals }
      let s := s.updLaunch e.launch.die e.launch.entry fun y =>
        { y with harts := if y.harts.contains h then y.harts else y.harts ++ [h] }
      match e.task with
      | some i => updTask s (clusterOf h) i fun t => { t with hart := some h }
      | none => s

/-- A write of 1 to fr (spec/12, R206). -/
def execFreeParkedContext (h : Nat) (s : State) : Out := .next (freeParked s h)

end Sys2Proof.Machine
end

