-- ==== Sys2Proof/Machine/Blocks.lean ====
section
/-!
DEFINITION. Machine/Blocks.lean: xroute, tsum and the end of a block (spec/03, R59; spec/18, R277, R278; spec/19, R307).
-/
namespace Sys2Proof.Machine

open Sys2Proof

/-- The route mode of the block that executes (spec/18, R278; assumption log, 54: DEDUCED). -/
def routeOp (s : State) (m : XRoute) : Out :=
  .next (s.updMe fun x => match x.block? with
    | some b => x.setBlock { b with xr := m }
    | none => x).advV

/-- xroute.off (spec/18, R278). -/
def execXrouteOff (_ : BitVec 3) (s : State) : Out := routeOp s .off

/-- xroute.use (spec/18, R278). -/
def execXrouteUse (n : BitVec 3) (s : State) : Out := routeOp s (.use n)

/-- xroute.save (spec/18, R278). -/
def execXrouteSave (n : BitVec 3) (s : State) : Out := routeOp s (.save n)

/-- vstop: the block is complete, and a K block gives back the groups taken for it; c.vs stays (spec/02, R29; spec/03,
R59, R60; spec/12, R213, R215). -/
def execVstop (s : State) : Out :=
  .next (if s.me.kq.isSome then (returnKGrant s s.cur).updMe fun x => { x with kq := none }
    else s.updMe fun x =>
      { x with blocks := x.blocks + 1,
               vq := match x.vq.tail with
                 | [] => []
                 | b :: rest => { b with vnum := x.nextNum } :: rest })

/-- A summary word with one more element (spec/19, R294, R307). -/
def sumOne (f : Fmt) (r : BitVec 32) (x : Word) : BitVec 32 :=
  let v := readVal f x
  let z := v.isZero
  let ones := x.toNat == 2 ^ fmtBits f - 1
  let set (keep : BitVec 32) (b : Bool) : BitVec 32 := if b then keep else 0
  set (r &&& 1) z ||| set (r &&& 2) ones ||| (r &&& 4) ||| set 4 v.isNan ||| set (r &&& 8) (!z) ||| 16

/-- tsum (spec/19, R307). -/
def execTsum (n : Bool) (va : VReg5) (pm : PReg) (fs : SP) (s : State) : Out :=
  let fw := s.fw fs
  let w := fmtWidth fw.fa
  let j := if n then 1 else 0
  withFmt s fw [chkA fw fun _ => true] (withVl s [w]
    (match s.me.task with
     | none => illegalV s
     | some i =>
       let cl := clusterOf s.cur
       match (taskOf s cl i).bind fun t => t.outs[j]? with
       | none => illegalV s
       | some o =>
         need s o.handle.isSome
           (let sum := (selected (s.unitActive pm) (velems (s.vreg va) w s.vl)).foldl (sumOne fw.fa) (o.sum ||| 16)
            .next (updTask s cl i fun t => { t with outs := t.outs.set j { o with sum := sum } }).advV)))

end Sys2Proof.Machine
end

