-- ==== Sys2Proof/Machine/VMem.lean ====
section
/-!
DEFINITION. Machine/VMem.lean: contiguous, strided, segment, tensor, indexed and nested loads and stores (spec/08).
-/
namespace Sys2Proof.Machine

open Sys2Proof

/-! ### Ordered forms -/

/-- The part of a list that an ordered form runs: from c.vs to its stop (spec/08, R149; assumption log, 51: DEDUCED). -/
def runPart {α : Type} (s : State) (stop : Nat) (l : List α) : List α := (l.drop s.me.vs.toNat).take (stop - s.me.vs.toNat)

/-- The addresses of the active elements. -/
def activeAddrs (act : List Bool) (eas : List (Option Int)) : List (Option Int) :=
  act.zipWith (fun a ea => if a then ea else none) eas

/-- An element of an ordered form was done before the one that fails: active, or zeroed by the mask. -/
def anyDone (act : List Bool) (zm : Bool) (vs j : Nat) : Bool := ((act.take j).drop vs).any fun a => a || zm

/-- A fault of an ordered form at element j: c.vs := j, and the trap (spec/08, R149). -/
def orderedFault (s : State) (j : Nat) (e : VErr) : Out :=
  .next ((s.updMe fun x => { x with vs := BitVec.ofNat 32 j }).trapVAt (j != 0) e.code e.sub e.tval)

/-- Ends an ordered form that met no fault: complete, or stopped between element groups. -/
def orderedEnd (s : State) (stop : Nat) : Out := .next (if stop < s.vl then s.stopV stop else s.advV)

/-- An ordered load into vd; an element without an address takes its fill; trim: fault-only-first (spec/08, R148, R149,
R151). -/
def ordLoad (s : State) (vd : VReg5) (w : Width) (m : VMask) (lv : List Level) (eas : List (Option Int))
    (fills : List Word) (trim : Bool) : Out :=
  let vs := s.me.vs.toNat
  let stop := stopAt s
  let act := s.pbits m.pm s.vl
  let z := widthBytes w
  let r := planFrom s .load z vs (runPart s stop (activeAddrs act eas))
  if planBlocked s false z r.1 then .next s
  else
    let j := vs + r.1.length
    let got := r.1.zipWith (fun l fill => match l with
      | some loc => vRead s loc z
      | none => fill) (fills.drop vs)
    let old := velems (s.vreg vd) w s.vl
    let es := pickFrom m.zm vs j 0 act (padTake 0 s.vl (List.replicate vs 0 ++ got)) old
    match r.2 with
    | none => orderedEnd (s.setV vd ⟨w, es, lv⟩) stop
    | some (_, e) =>
      if trim && e.code != 0x10 && anyDone act false vs j then
        .next ((s.setVl j w).setV vd ⟨w, es.take j, []⟩).advV
      else orderedFault (if anyDone act m.zm vs j then s.setV vd ⟨w, es, lv⟩ else s) j e

/-- Pushes the element stores of one instruction in order; prefix visibility comes from their one group (spec/08, R152). -/
def pushStores (s : State) (grp : Nat) (uo : Bool) (l : List (Word × Nat × List Byte)) : State :=
  l.foldl (fun s e => hartStore s s.cur grp true uo false e.1 e.2.1 e.2.2) s

/-- The stores of the elements that have a location. -/
def storeList (z : Nat) (eas : List (Option Int)) (locs : List (Option Nat)) (vals : List Word) :
    List (Word × Nat × List Byte) :=
  (eas.zip (locs.zip vals)).filterMap fun e =>
    match e.1, e.2.1 with
    | some ea, some loc => some (wordOf ea, loc, toLe z e.2.2.toNat)
    | _, _ => none

/-- An ordered store of the elements of vd (spec/08, R148, R149). -/
def ordStore (s : State) (vd : VReg5) (w : Width) (uo : Bool) (m : VMask) (eas : List (Option Int)) : Out :=
  let vs := s.me.vs.toNat
  let stop := stopAt s
  let z := widthBytes w
  let part := runPart s stop (activeAddrs (s.pbits m.pm s.vl) eas)
  let r := planFrom s .store z vs part
  if planBlocked s true z r.1 then .next s
  else
    let s' := pushStores s s.me.nextNum uo (storeList z part r.1 ((velems (s.vreg vd) w s.vl).drop vs))
    match r.2 with
    | none => orderedEnd s' stop
    | some (j, e) => orderedFault s' j e

/-- Addresses from a base in steps (spec/08, R150). -/
def stepAddrs (base : Word) (step : Int) (n : Nat) : List (Option Int) :=
  (List.range n).map fun (i : Nat) => some ((base.toNat : Int) + i * step)

/-- The width of a store: w, or the data register's tag (spec/03, R57). -/
def storeWidth (s : State) (vd : VReg5) (tw : Option Width) : Width := tw.getD (s.vreg vd).wt

/-- vld (spec/08, R150). -/
def execVld (x : VLoad) (s : State) : Out :=
  withVl s [x.w] (ordLoad s x.vd x.w x.m [] (stepAddrs (s.sp x.bs) (widthBytes x.w) s.vl) (List.replicate s.vl 0) false)

/-- vldff (spec/08, R151). -/
def execVldff (x : VLoad) (s : State) : Out :=
  withVl s [x.w] (ordLoad s x.vd x.w x.m [] (stepAddrs (s.sp x.bs) (widthBytes x.w) s.vl) (List.replicate s.vl 0) true)

/-- vlds (spec/08, R150). -/
def execVlds (x : VLoadS) (s : State) : Out :=
  withVl s [x.w] (ordLoad s x.vd x.w x.m [] (stepAddrs (s.sp x.bs) (sint (s.sp x.xs)) s.vl) (List.replicate s.vl 0) false)

/-- vst (spec/08, R150). -/
def execVst (x : VStore) (s : State) : Out :=
  let w := storeWidth s x.vd x.tw
  withVl s [w] (ordStore s x.vd w x.uo x.m (stepAddrs (s.sp x.bs) (widthBytes w) s.vl))

/-- vsts (spec/08, R150). -/
def execVsts (x : VStoreS) (s : State) : Out :=
  let w := storeWidth s x.vd x.tw
  withVl s [w] (ordStore s x.vd w x.uo x.m (stepAddrs (s.sp x.bs) (sint (s.sp x.xs)) s.vl))

/-! ### Segments -/

/-- The addresses of the fields of all elements, n fields each (spec/08, R153). -/
def segAddrs (s : State) (base : Word) (pm : PReg) (n z : Nat) : List (Option Int) :=
  (s.pbits pm s.vl).zip (List.range s.vl) |>.flatMap fun e =>
    (List.range n).map fun (f : Nat) => if e.1 then some ((base.toNat : Int) + (e.2 * n + f) * z) else none

/-- Every n-th entry of a list from entry f on. -/
def everyNth {α : Type} (d : α) (n f count : Nat) (l : List α) : List α :=
  (List.range count).map fun i => (l[i * n + f]?).getD d

/-- The part of a flat list of fields that a segment form runs. -/
def segPart {α : Type} (s : State) (stop n : Nat) (l : List α) : List α :=
  (l.drop (s.me.vs.toNat * n)).take ((stop - s.me.vs.toNat) * n)

/-- Drops the fields of an element that is not whole. -/
def wholeFields {α : Type} (n : Nat) (l : List α) : List α := l.take (l.length / n * n)

/-- The format checks of the segment forms (spec/08, R153). -/
def segChk (x : FW) : List FwChk := [chkA x fun _ => true, chkD x fun _ => true, chkRm x]

/-- vldseg (spec/08, R153). -/
def execVldseg (x : VLoadSeg) (s : State) : Out :=
  let fw := s.fw x.fs
  let n := x.nf.toNat + 1
  let w := fmtWidth fw.fd
  withFmt s fw (segChk fw) (withVl s [fmtWidth fw.fa, w]
    (let z := widthBytes (fmtWidth fw.fa)
     let vs := s.me.vs.toNat
     let stop := stopAt s
     let act := s.pbits x.m.pm s.vl
     let r := planFrom s .load z 0 (segPart s stop n (segAddrs s (s.sp x.bs) x.m.pm n z))
     let locs := wholeFields n r.1
     if planBlocked s false z locs then .next s
     else
       let j := vs + locs.length / n
       let got : List Deliv := locs.map fun l => match l with
         | some loc => convert fw.fa fw.fd fw.frm fw.sat fw.e (vRead s loc z)
         | none => (0, 0)
       let field (s : State) (f : Nat) : State :=
         let ds := padTake (0, 0) s.vl (List.replicate vs (0, 0) ++ everyNth (0, 0) n f (locs.length / n) got)
         let v := x.vd + BitVec.ofNat 5 f
         (s.setV v ⟨w, pickFrom x.m.zm vs j 0 act (ds.map (·.1)) (velems (s.vreg v) w s.vl), []⟩).raiseList
           (activeFlags vs j 0 act (ds.map (·.2)))
       match r.2 with
       | none => orderedEnd ((List.range n).foldl field s) stop
       | some (_, e) =>
         orderedFault (if anyDone act x.m.zm vs j then (List.range n).foldl field s else s) j e))

/-- vstseg (spec/08, R153). -/
def execVstseg (x : VStoreSeg) (s : State) : Out :=
  let fw := s.fw x.fs
  let n := x.nf.toNat + 1
  withFmt s fw (segChk fw) (withVl s [fmtWidth fw.fa, fmtWidth fw.fd]
    (let z := widthBytes (fmtWidth fw.fd)
     let vs := s.me.vs.toNat
     let stop := stopAt s
     let part := segPart s stop n (segAddrs s (s.sp x.bs) x.m.pm n z)
     let r := planFrom s .store z 0 part
     let locs := wholeFields n r.1
     if planBlocked s true z locs then .next s
     else
       let regs := (List.range n).map fun f =>
         (velems (s.vreg (x.vd + BitVec.ofNat 5 f)) (fmtWidth fw.fa) s.vl).map
           (convert fw.fa fw.fd fw.frm fw.sat fw.e)
       let j := vs + locs.length / n
       let ds := (List.range s.vl).flatMap fun i => regs.map fun (l : List Deliv) => (l[i]?).getD (0, 0)
       let flags := ((indexed locs).zip (ds.drop (vs * n))).filterMap fun e => match e.1.2 with
         | some l => if l = lateLoc then none else some (vs + e.1.1 / n, e.2.2)
         | none => none
       let s' := (pushStores s s.me.nextNum x.uo (storeList z part locs ((ds.drop (vs * n)).map (·.1)))).raiseList flags
       match r.2 with
       | none => orderedEnd s' stop
       | some (_, e) => orderedFault s' j e))

/-! ### Tensor tiles -/

/-- The shape record in a register (spec/08, R154). -/
def recordOf (s : State) (va : VReg5) : List Word := velems (s.vreg va) .w64 24

/-- vtld; resumed, it reads its record from the register as that stands (spec/08, R154, R155; assumption log, 51: DEDUCED). -/
def execVtld (vd va : VReg5) (dep : Dep) (m : VMask) (s : State) : Out :=
  match shapeOf (recordOf s va) with
  | none => illegalV s
  | some x =>
    let w := fmtWidth x.fmt
    let lv := x.levels dep.toNat
    need s (decide (x.count ≤ vlmax s s.cur w) && decide (dep.toNat ≤ min (x.tile.length - 1) 3) && levelsFit s lv)
      (ordLoad (s.setVl x.count w) vd w m lv ((List.range x.count).map x.addr) (List.replicate x.count x.fill) false)

/-- vtst (spec/08, R154, R155). -/
def execVtst (vd va : VReg5) (uo : Bool) (m : VMask) (s : State) : Out :=
  match shapeOf (recordOf s va) with
  | none => illegalV s
  | some x =>
    let w := fmtWidth x.fmt
    need s (decide (x.count ≤ vlmax s s.cur w) && x.count == s.vl)
      (ordStore s vd w uo m ((List.range x.count).map x.addr))

/-! ### Indexed forms -/

/-- An element of an indexed form: inactive or skipped, out of bound, or at an address (spec/08, R156). -/
inductive IdxEl where
  | skip
  | oob
  | at (ea : Int)
deriving DecidableEq, Repr

/-- How an element's check ends: a location, a failure of step 1, an isolation failure, a missing page (spec/08, R158;
spec/21, R335). -/
inductive IdxChk where
  | ok (loc : Nat)
  | bad (e : VErr)
  | part (e : VErr)
  | miss (page : Nat)
deriving DecidableEq, Repr

/-- Steps 1 and 2 of R158 for one address of hart h; an address whose bits 63:56 are not 0 fails in step 1 (spec/05, R85;
spec/08, R158; assumption log, 51: DEDUCED). -/
def idxCheck (s : State) (h : Nat) (user : Bool) (a : Acc) (ea : Int) (z : Nat) : IdxChk :=
  let w := wordOf ea
  if ea < 0 ∨ (2 ^ 64 : Nat) ≤ ea then .bad ⟨a.cause, 0, w⟩
  else if a = .store ∧ (withdrawnAt s h w z).isSome then .ok lateLoc
  else if ea.toNat % z != 0 then .bad ⟨0x05, 0, w⟩
  else if w.extractLsb' 56 8 != 0 then .bad ⟨a.cause, 0, w⟩
  else match resolveV s h user a w with
    | .ok loc => .ok loc
    | .error e =>
      if w.extractLsb' 48 8 == 0xFF then .bad ⟨e.code, e.sub, w⟩
      else if e.code = 0x09 then .part ⟨e.code, e.sub, w⟩
      else .miss (ea.toNat / 65536 * 65536)

/-- The elements of an indexed form, as its index register stands when it is executed, again after a fault too (spec/08, R156;
assumption log, 51: DEDUCED). -/
def idxEls (s : State) (va : VReg5) (act : List Bool) (bnd : Option Bound) (base : Word) (z : Nat) : List IdxEl :=
  let v := s.vreg va
  act.zipWith (fun a ix =>
    if !a || ix.toNat == 2 ^ widthBits v.wt - 1 then .skip
    else if (bnd.map fun b => decide ((s.sp b.xs).toNat ≤ ix.toNat)).getD false then .oob
    else .at (base.toNat + ix.toNat * z)) (velems v v.wt act.length)

/-- Elements of a kind, by number. -/
def oobList (els : List IdxEl) : List Nat := ((indexed els).filter fun e => e.2 == .oob).map (·.1)

/-- The elements still to be performed: at an address, with a kc bit of 0 (spec/02, R25). -/
def todoList (els : List IdxEl) (kc : Pred) : List (Nat × Int) :=
  (indexed els).filterMap fun e => match e.2 with
    | .at ea => if kc.contains e.1 then none else some (e.1, ea)
    | .skip => none
    | .oob => none

/-- The union of two ascending lists. -/
def unionNat (a b : List Nat) : List Nat := b.foldl (fun l i => insertNat i l) a

/-- Sets kc bits, and bit 0 of c.pdirty (spec/02, R25, R32). -/
def Hart.addKc (x : Hart) (l : List Nat) : Hart :=
  if l = [] then x else { x with kc := unionNat x.kc l, pdirty := x.pdirty ||| 1 }

/-- A bit mask in dwords, n bits. -/
def maskBytes (n : Nat) (l : List Nat) : List Byte :=
  (List.range ((n + 63) / 64)).flatMap fun d => toLe 8 ((l.filter fun i => i / 64 == d).map fun i => 2 ^ (i % 64)).sum

/-- Writes a gather fault record of hart h: n elements, their mask, the missing pages (spec/17, R269; spec/21, R335,
R336; assumption log, 22: DEDUCED). -/
def writeRecord (s : State) (h n : Nat) (wr : Bool) (mask pages : List Nat) : State :=
  let x := s.hart h
  let ps := unionNat [] pages
  let np := min 256 ps.length
  let head := toLe 4 n ++ toLe 4 (np + (if 256 < ps.length then 2 ^ 16 else 0) + (if wr then 2 ^ 17 else 0))
    ++ toLe 8 (x.recs + 1) ++ List.replicate 48 0
  let s := s.putBytes (tcmBase (coreOf h) + 64 * x.roff) (head ++ maskBytes n mask ++ (ps.take np).flatMap (toLe 8))
  s.updHart h fun x => { x with recs := x.recs + 1 }

/-- What steps 1 and 2 leave: a trap, or the elements that translated and those that missed. -/
inductive IdxPlan where
  | stop (o : Out)
  | go (perf miss : List (Nat × Nat))

/-- Steps 1 and 2 of R158 over the elements still to be performed (spec/08, R158; spec/21, R335). -/
def idxPlan (s : State) (a : Acc) (z : Nat) (todo : List (Nat × Int)) : IdxPlan :=
  let cs := todo.map fun e => (e.1, idxCheck s s.cur s.vUser a e.2 z)
  let bads := cs.filterMap fun e => match e.2 with
    | .bad x => some x
    | _ => none
  let parts := cs.filterMap fun e => match e.2 with
    | .part x => some x
    | _ => none
  match bads ++ parts with
  | e :: _ => .stop (.next (s.trapVAt (s.me.kc != []) e.code e.sub e.tval))
  | [] =>
    .go (cs.filterMap fun e => match e.2 with
        | .ok loc => some (e.1, loc)
        | _ => none)
      (cs.filterMap fun e => match e.2 with
        | .miss p => some (e.1, p)
        | _ => none)

/-- The elements performed now: all, or those below an interruption (spec/08, R158). -/
def idxNow (s : State) (mayStop : Bool) (perf miss : List (Nat × Nat)) : List (Nat × Nat) :=
  match s.brkAt with
  | some n => if mayStop && miss == [] then perf.filter fun e => decide (e.1 < n) else perf
  | none => perf

/-- Ends an indexed form whose elements done are marked in kc: the record and the trap of missing pages, a stop with work
left, or completion, which clears kc (spec/02, R25; spec/08, R158; assumption log, 51: DEDUCED). -/
def idxEnd (s : State) (a : Acc) (n : Nat) (miss : List (Nat × Nat)) (left : Bool) (done : State → State) : Out :=
  match miss with
  | e :: _ =>
    let low := miss.foldl (fun p x => min p x.2) e.2
    let s := writeRecord s s.cur n (a != .load) (miss.map (·.1)) (miss.map (·.2))
    .next (s.trapVAt (s.me.kc != []) a.cause 1 (BitVec.ofNat 64 low))
  | [] =>
    if left then
      .next (s.updMe fun x => match x.block? with
        | some b => x.setBlock { b with mid := true }
        | none => x)
    else .next ((done s).updMe fun x => { x with kc := [] }).advV

/-- The out-of-bound predicate of a bounded form (spec/08, R156). -/
def setOob (s : State) (bnd : Option Bound) (els : List IdxEl) : State :=
  match bnd with
  | some b => s.setP b.pb (oobList els)
  | none => s

/-- The out-of-bound predicate differs from the mask (spec/08, R156). -/
def boundOk (bnd : Option Bound) (pm : PReg) : Bool := (bnd.map fun b => pm == 0 || b.pb != pm).getD true

/-- One element of an indexed load: kept below c.vs and where its kc bit is 1 (spec/02, R25; spec/06, R109; spec/08, R156,
R158). -/
def idxElem (zm : Bool) (vs : Nat) (kc : Pred) (vals : List (Nat × Word)) (i : Nat) (e : IdxEl) (old : Word) : Word :=
  if i < vs || kc.contains i then old
  else match e with
    | .skip => if zm then 0 else old
    | .oob => 0
    | .at _ => ((vals.find? fun v => v.1 == i).map (·.2)).getD old

/-- Active for elements 0 to n − 1: none below c.vs (spec/01, R17). -/
def State.activeIn (s : State) (pm : PReg) (n : Nat) : List Bool :=
  (indexed (s.pbits pm n)).map fun e => e.2 && decide (s.me.vs.toNat ≤ e.1)

/-- Active for elements 0 to c.vl − 1. -/
def State.activeFrom (s : State) (pm : PReg) : List Bool := s.activeIn pm s.vl

/-- A read of a vldx's result waits for the stores before it (spec/15, R264, R265). -/
def State.gateV (s : State) (v : VReg5) : State :=
  let open' := s.me.vgates.filter fun g => !pushDone s s.cur g.2.1 g.2.2
  s.updMe fun x => { x with vgates := mapSet v.toNat (x.nextNum, (x.block?.map (·.mark)).getD 0) open' }

/-- The bank of a location of a TCM or a scratchpad (spec/18, R272). -/
def bankOf (loc : Nat) : Nat := loc / 8 % 64

/-- The body of a route pattern for n elements, of which part go through the network (spec/18, R274, R277). -/
def routeBody (n : Nat) (part : List (Nat × Nat)) : List Byte :=
  let banks := (List.range n).map fun i => match part.find? fun e => e.1 == i with
    | some e => BitVec.ofNat 8 (bankOf e.2)
    | none => 0xFF
  let p := (part.map fun e => (part.filter fun f => bankOf f.2 == bankOf e.2).length).foldl max 0
  if 16384 < n ∨ 256 < p then List.replicate 16 0
  else toLe 4 n ++ toLe 4 p ++ List.replicate 8 0 ++ banks ++ List.replicate ((8 - n % 8) % 8) 0
    ++ (List.range p).flatMap fun k => toLe 44 (Config.benesSet banks k).toNat ++ List.replicate 4 0

/-- The routes of an indexed V-word under xroute.save are written into the slot (spec/18, R274, R278; assumption log, 54:
DEDUCED). -/
def saveRoute (s : State) (perf : List (Nat × Nat)) : State :=
  match s.me.block? with
  | none => s
  | some b =>
    match b.xr with
    | .off => s
    | .use _ => s
    | .save n =>
      let part := perf.filter fun e => decide (2 ^ 53 ≤ e.2 ∧ e.2 < 2 ^ 55)
      s.updCore (coreOf s.cur) fun c => { c with routes := mapSet n.toNat (routeBody s.vl part) c.routes }

/-- vldx; the check of c.vl leaves out the width at which the index register is read, and an element out of bound is marked in
kc where the instruction stops (spec/08, R148, R156 to R158; assumption log, 44: DEDUCED; 51: DEDUCED). -/
def execVldx (x : VLoadX) (s : State) : Out :=
  let z := widthBytes x.w
  withVl s [x.w] (need s (boundOk x.bnd x.m.pm)
    (let els := idxEls s x.va (s.activeFrom x.m.pm) x.bnd (s.sp x.bs) z
     let kc := s.me.kc
     if indexedPending s.me then .next s else
     match idxPlan s .load z (todoList els kc) with
     | .stop o => o
     | .go perf miss =>
       let now := idxNow s (x.va != x.vd) perf miss
       if now.any fun e => vBlocked s false e.2 z then .next s
       else match now.find? fun e => s.poisonedFor s.cur true e.2 z with
         | some e =>
           let ea := match els[e.1]? with
             | some (.at a) => wordOf a
             | _ => 0
           .next (s.trapVAt (kc != []) 0x10 0 ea)
         | none =>
           let vals := now.map fun e => (e.1, vRead s e.2 z)
           let old := velems (s.vreg x.vd) x.w s.vl
           let vs := s.me.vs.toNat
           let write (zm : Bool) (s : State) : State := (s.setV x.vd ⟨x.w,
             ((indexed els).zip old).map fun e => idxElem zm vs kc vals e.1.1 e.1.2 e.2, []⟩).gateV x.vd
           let fin := now.map (·.1) ++ oobList els
           let s := (saveRoute s perf).updMe fun y => y.addKc fin
           let part := miss != [] || now.length != perf.length
           idxEnd (if part && fin != [] then write false s else s) .load s.vl miss (now.length != perf.length)
             fun s => setOob (write x.m.zm s) x.bnd els))

/-- A higher active element has the same address (spec/08, R157). -/
def shadowed (els : List IdxEl) (i : Nat) : Bool :=
  match els[i]? with
  | some (.at ea) => (els.drop (i + 1)).any (· == .at ea)
  | _ => false

/-- vstx; the check of c.vl leaves out the width of the indices, and an element out of bound is marked in kc where the
instruction stops (spec/08, R148, R156 to R158; assumption log, 44: DEDUCED; 51: DEDUCED). -/
def execVstx (x : VStoreX) (s : State) : Out :=
  let w := storeWidth s x.vd x.tw
  let z := widthBytes w
  withVl s [w] (need s (boundOk x.bnd x.m.pm)
    (let els := idxEls s x.va (s.activeFrom x.m.pm) x.bnd (s.sp x.bs) z
     if indexedPending s.me then .next s else
     match idxPlan s .store z (todoList els s.me.kc) with
     | .stop o => o
     | .go perf miss =>
       let now := idxNow s true perf miss
       let writes := now.filter fun e => x.uo || !shadowed els e.1
       if writes.any fun e => vBlocked s true e.2 z then .next s
       else
         let data := velems (s.vreg x.vd) w s.vl
         let l := writes.map fun e =>
           ((match els[e.1]? with
             | some (.at a) => wordOf a
             | _ => 0), e.2, toLe z ((data[e.1]?).getD 0).toNat)
         let s := (pushStores (saveRoute s perf) s.me.nextNum x.uo l).updMe fun y => y.addKc (now.map (·.1) ++ oobList els)
         idxEnd s .store s.vl miss (now.length != perf.length) fun s => setOob s x.bnd els))

/-- The formats of an addition in memory (spec/08, R157). -/
def addFmt (f : Fmt) : Bool :=
  f == .int32 || f == .int64 || f == .uint32 || f == .uint64 || f == .fp32 || f == .fp64 || f == .ra48

/-- vsca; the check of c.vl leaves out the width of the indices (spec/08, R148, R156 to R158; spec/21, R331; assumption log,
44: DEDUCED; 51: DEDUCED). -/
def execVsca (x : VScatAdd) (s : State) : Out :=
  let w := storeWidth s x.vd x.tw
  let fw := s.fw x.fs
  let z := widthBytes (fmtWidth fw.fd)
  withFmt s fw [chkA fw fun f => fmtWidth f == w, chkD fw addFmt, chkRm fw]
    (withVl s [w, fmtWidth fw.fd] (need s (boundOk x.bnd x.m.pm)
      (let els := idxEls s x.va (s.activeFrom x.m.pm) x.bnd (s.sp x.bs) z
       if indexedPending s.me then .next s else
       match idxPlan s .store z (todoList els s.me.kc) with
       | .stop o => o
       | .go perf miss =>
         let now := idxNow s true perf miss
         if now.any fun e => vBlocked s true e.2 z then .next s
         else
           let data := (velems (s.vreg x.vd) w s.vl).map (convert fw.fa fw.fd fw.frm fw.sat fw.e)
           let grp := s.me.nextNum
           let ea (i : Nat) : Word := match els[i]? with
             | some (.at a) => wordOf a
             | _ => 0
           let add (s : State) (e : Nat × Nat) : State :=
             hartAdd s s.cur grp true x.uo (ea e.1)
               { loc := e.2, fmt := fw.fd, rm := fw.frm, sat := false, val := ((data[e.1]?).getD (0, 0)).1 }
           let s := (now.foldl add (saveRoute s perf)).raiseList
             ((now.filter fun e => e.2 != lateLoc).map fun e => (e.1, ((data[e.1]?).getD (0, 0)).2))
           let s := s.updMe fun y => y.addKc (now.map (·.1) ++ oobList els)
           idxEnd s .store s.vl miss (now.length != perf.length) fun s => setOob s x.bnd els)))

end Sys2Proof.Machine
end

