-- ==== Sys2Proof/Machine/Images.lean ====
section
/-!
DEFINITION. Machine/Images.lean: nested images, their strips and cursors: vldn and vstn (spec/01, R14; spec/08, R159, R160).
-/
namespace Sys2Proof.Machine

open Sys2Proof

/-! ### Strips -/

/-- An item of a nested image in order: a level-1 segment, or an empty segment of level d; n: its length; last2, last3: it
closes its level-2 segment, and that closes the level-3 segment. -/
structure Item where
  d : Nat
  n : Nat
  last2 : Bool
  last3 : Bool
deriving DecidableEq, Repr

/-- Marks the last item of a level-2 segment. -/
def markLast2 : List Item → List Item
  | [] => []
  | [x] => [{ x with last2 := true }]
  | x :: l => x :: markLast2 l

/-- Marks the items of the last level-2 segment of a level-3 segment. -/
def markLast3 : List (List Item) → List (List Item)
  | [] => []
  | [g] => [g.map fun x => { x with last3 := true }]
  | g :: l => g :: markLast3 l

/-- The items of each level-2 segment. -/
def items2 (l1 l2 : List Nat) : List (List Item) :=
  (cutSegs l2 l1).map fun seg =>
    if seg = [] then [⟨2, 0, true, false⟩] else markLast2 (seg.map fun n => ⟨1, n, false, false⟩)

/-- The items of an image in order (spec/08, R159). -/
def itemsOf (levels : List (List Nat)) : List Item :=
  match levels with
  | [l1] => l1.map fun n => ⟨1, n, false, false⟩
  | [l1, l2] => (items2 l1 l2).flatten
  | [l1, l2, l3] =>
    ((cutSegs l3 (items2 l1 l2)).map fun g =>
      if g = [] then [⟨3, 0, true, true⟩] else (markLast3 g).flatten).flatten
  | _ => []

/-- A position in an image: elements and lengths wholly consumed, the parts of the current segments (spec/08, R159). -/
structure Cursor where
  e : Nat
  c1 : Nat
  c2 : Nat
  c3 : Nat
  p1 : Nat
  p2 : Nat
  p3 : Nat
deriving DecidableEq, Repr

/-- The position after the whole of an item, or its rest, of take elements. -/
def Cursor.pass (c : Cursor) (lv take : Nat) (x : Item) : Cursor :=
  let in2 := decide (2 ≤ lv)
  let in3 := decide (3 ≤ lv)
  if x.d = 1 then
    let close2 := in2 && x.last2
    let close3 := in3 && x.last2 && x.last3
    { e := c.e + take, c1 := c.c1 + 1, p1 := 0,
      c2 := if close2 then c.c2 + 1 else c.c2,
      p2 := if !in2 || close2 then 0 else c.p2 + 1,
      c3 := if close3 then c.c3 + 1 else c.c3,
      p3 := if !in3 || close3 then 0 else if close2 then c.p3 + 1 else c.p3 }
  else if x.d = 2 then
    let close3 := in3 && x.last3
    { c with c2 := c.c2 + 1,
             c3 := if close3 then c.c3 + 1 else c.c3,
             p3 := if !in3 || close3 then 0 else c.p3 + 1 }
  else { c with c3 := c.c3 + 1 }

/-- The items from the position that a cursor's whole counts name, and that position; none when there is no such. -/
def seek (lv : Nat) (want : Cursor) : Cursor → List Item → Option (Cursor × List Item)
  | at', l =>
    if at'.c1 = want.c1 ∧ at'.c2 = want.c2 ∧ at'.c3 = want.c3 then some (at', l)
    else match l with
      | [] => none
      | x :: rest => seek lv want (at'.pass lv x.n x) rest

/-- The items a cursor leaves, when it names a position of the image (spec/08, R159). -/
def cursorItems (lv : Nat) (items : List Item) (c : Cursor) : Option (List Item) :=
  match seek lv c ⟨0, 0, 0, 0, 0, 0, 0⟩ items with
  | none => none
  | some (p, rest) =>
    let partOk := c.p1 == 0 || (match rest with
      | x :: _ => x.d == 1 && decide (c.p1 < x.n)
      | [] => false)
    if p.p2 = c.p2 ∧ p.p3 = c.p3 ∧ c.e = p.e + c.p1 ∧ partOk then some rest else none

/-- A strip being filled: the position, the lengths of each level with the last first, slots used, elements taken, whether
the current level-2 and level-3 segments have an entry. -/
structure Strip where
  cur : Cursor
  out1 : List Nat
  out2 : List Nat
  out3 : List Nat
  used : Nat
  took : Nat
  open2 : Bool
  open3 : Bool
deriving DecidableEq, Repr

/-- Adds a child to the last entry of a level. -/
def bump : List Nat → List Nat
  | [] => []
  | n :: l => (n + 1) :: l

/-- Puts an item of take elements into a strip; whole: the item ends in it. -/
def Strip.put (t : Strip) (lv take slots : Nat) (whole : Bool) (x : Item) : Strip :=
  let new3 := decide (3 ≤ lv) && decide (x.d ≤ 2) && !t.open3
  let new2 := decide (2 ≤ lv) && x.d == 1 && !t.open2
  let o3 := if new3 then 0 :: t.out3 else t.out3
  let o3 := if x.d = 3 then 0 :: o3 else if (new2 || x.d == 2) && decide (3 ≤ lv) then bump o3 else o3
  let o2 := if new2 then 0 :: t.out2 else t.out2
  let o2 := if x.d = 2 then 0 :: o2 else if x.d = 1 ∧ 2 ≤ lv then bump o2 else o2
  { cur := if whole then t.cur.pass lv take x else { t.cur with e := t.cur.e + take, p1 := t.cur.p1 + take },
    out1 := if x.d = 1 then take :: t.out1 else t.out1,
    out2 := o2, out3 := o3,
    used := t.used + slots + (if new3 then 1 else 0) + (if new2 then 1 else 0),
    took := t.took + take,
    open2 := x.d == 1 && !(whole && x.last2),
    open3 := if x.d = 1 then !(whole && x.last2 && x.last3) else x.d == 2 && !x.last3 }

/-- Fills a strip in image order: whole segments within the element and the length room; a segment longer than VLMAX is
split, unless no element room is left (spec/08, R159; assumption log, 44: DEDUCED). -/
def fillStrip (lv vmax room : Nat) : List Item → Strip → Strip
  | [], t => t
  | x :: rest, t =>
    let left := x.n - t.cur.p1
    let space := vmax - t.took
    let split := decide (space < left)
    let take := if split then space else left
    let slots := if take < 65536 then 1 else 2
    let new3 := if decide (3 ≤ lv) && decide (x.d ≤ 2) && !t.open3 then 1 else 0
    let new2 := if decide (2 ≤ lv) && x.d == 1 && !t.open2 then 1 else 0
    if split && (decide (left ≤ vmax) || space == 0) then t
    else if room < t.used + slots + new3 + new2 then t
    else if split then t.put lv take slots false x
    else fillStrip lv vmax room rest (t.put lv take slots true x)

/-- Some part of the current segments up to level d has been consumed. -/
def Cursor.inside (c : Cursor) (d : Nat) : Bool :=
  c.p1 != 0 || (decide (2 ≤ d) && c.p2 != 0) || (decide (3 ≤ d) && c.p3 != 0)

/-- The levels of a strip with their edge flags (spec/08, R159). -/
def Strip.levels (t : Strip) (lv : Nat) (start : Cursor) : List Level :=
  ((indexed [t.out1, t.out2, t.out3]).take lv).map fun e =>
    ⟨e.2.reverse, t.used != 0 && start.inside (e.1 + 1), t.used != 0 && t.cur.inside (e.1 + 1)⟩

/-! ### Headers -/

/-- The header of a nested image (spec/01, R14). -/
structure NestHead where
  fmt : Fmt
  lv : Nat
  n : Nat
  counts : List Nat
deriving DecidableEq, Repr

/-- The header from its eight words; none where a field is not allowed (spec/08, R159). -/
def nestHead (ws : List Word) : Option NestHead :=
  let w (i : Nat) : Word := (ws[i]?).getD 0
  let lv := ((w 0).extractLsb' 8 2).toNat
  let ns := [(w 2).toNat, (w 3).toNat, (w 4).toNat]
  if (w 0) &&& 0xFFFFFCE0 != 0 || (w 5) &&& 0xFFFFFFC0 != 0 || w 6 != 0 || w 7 != 0 || (ns.drop lv).any (· != 0) then none
  else (Fmt.ofCode ((w 0).setWidth 5)).map fun f => ⟨f, lv, (w 1).toNat, ns.take lv⟩

/-- The level sums agree with the counts (spec/02, R24; spec/08, R159). -/
def sumsOk (h : NestHead) (levels : List (List Nat)) : Bool :=
  (levels.zipWith (fun l n => l.sum == n) (h.n :: h.counts)).all id

/-- Ascending unit addresses from a base. -/
def unitAddrs (base : Int) (z n : Nat) : List Int := (List.range n).map fun (i : Nat) => base + i * z

/-- The eight elements of a cursor register; all zero where it is empty (spec/08, R159). -/
def cursorWords (s : State) (cur : Option VReg5) : List Nat :=
  match cur with
  | some v => (velems (s.vreg v) .w64 8).map BitVec.toNat
  | none => List.replicate 8 0

/-- A cursor from its elements. -/
def cursorOf (ws : List Nat) : Cursor :=
  let w (i : Nat) : Nat := (ws[i]?).getD 0
  ⟨w 0, w 1, w 2, w 3, w 4, w 5, w 6⟩

/-- The elements of a cursor. -/
def Cursor.words (c : Cursor) (all : Bool) : List Word :=
  ([c.e, c.c1, c.c2, c.c3, c.p1, c.p2, c.p3, if all then 1 else 0]).map (BitVec.ofNat 64)

/-- The strip of an image from a cursor; none where the cursor names no position (spec/08, R159). -/
def stripOf (h : NestHead) (levels : List (List Nat)) (vmax room : Nat) (c : Cursor) : Option Strip :=
  if h.lv = 0 then
    if c.e ≤ h.n ∧ c.c1 = 0 ∧ c.c2 = 0 ∧ c.c3 = 0 ∧ c.p1 = 0 ∧ c.p2 = 0 ∧ c.p3 = 0 then
      let took := min (h.n - c.e) vmax
      some ⟨{ c with e := c.e + took }, [], [], [], 0, took, false, false⟩
    else none
  else
    (cursorItems h.lv (itemsOf levels) c).map fun rest =>
      fillStrip h.lv vmax room rest
        { cur := c, out1 := [], out2 := [], out3 := [], used := 0, took := 0, open2 := false, open3 := false }

/-- The whole image has been consumed at a cursor. -/
def consumed (h : NestHead) (c : Cursor) : Bool :=
  if h.lv = 0 then c.e == h.n else [c.c1, c.c2, c.c3] == padTake 0 3 h.counts

/-- vldn: the cursor is written last, so that it stays where vd names the same register; a cursor whose element 7 is neither 0
nor 1 is an illegal operand, and one whose element 7 is 1 has the header and the lengths checked and its other elements not
(spec/08, R159; assumption log, 44: DEDUCED). -/
def execVldn (vd : VReg5) (cur : Option VReg5) (bs : SP) (s : State) : Out :=
  let base : Int := (s.sp bs).toNat
  unitReads s 4 (unitAddrs base 4 8) fun ws =>
    match nestHead ws with
    | none => illegalV s
    | some h =>
      let nl := h.counts.sum
      unitReads s 4 (unitAddrs (base + 32) 4 nl) fun lens =>
        let levels := cutSegs h.counts (lens.map BitVec.toNat)
        let w := fmtWidth h.fmt
        let z := widthBytes w
        let cw := cursorWords s cur
        let c := cursorOf cw
        let fin := (cw[7]?).getD 0
        need s (sumsOk h levels && decide (fin ≤ 1))
          (if fin = 1 then .next ((s.setVl 0 w).setV vd ⟨(s.vreg vd).wt, [], []⟩).advV
           else match stripOf h levels (vlmax s s.cur w) (slotLimit s.me.gang (held s s.cur)) c with
             | none => illegalV s
             | some t =>
               unitReads s z (unitAddrs (base + (32 + (4 * nl + 7) / 8 * 8 + c.e * z : Nat)) z t.took) fun es =>
                 let s := (s.setVl t.took w).setV vd ⟨w, es, t.levels h.lv c⟩
                 .next (match cur with
                   | some v => s.setV v ⟨.w64, t.cur.words (consumed h t.cur), []⟩
                   | none => s).advV)

/-- The bytes of a nested image: the header, then the lengths and the elements, both padded (spec/01, R14; spec/08, R160). -/
def nestImage (v : VReg) : List Byte × List Byte × List Byte :=
  let code := match v.wt with
    | .w8 => 4
    | .w16 => 5
    | .w32 => 6
    | .w64 => 7
  let edge := ((indexed v.levels).map fun e => ((if e.2.ci then 1 else 0) + (if e.2.co then 2 else 0)) * 4 ^ e.1).sum
  let ns := padTake 0 3 (v.levels.map (·.lens.length))
  (toLe 4 (code + 256 * v.levels.length) ++ toLe 4 v.elems.length ++ ns.flatMap (toLe 4) ++ toLe 4 edge ++ toLe 8 0,
   padEight ((v.levels.flatMap (·.lens)).flatMap (toLe 4)),
   padEight v.bytes)

/-- Stores units in order up to the first that fails (spec/08, R160). -/
def storeUnits (s : State) (uo : Bool) (l : List (Int × Nat × List Byte)) : State × Option VErr :=
  let grp := s.me.nextNum
  let rec go (t : State) : List (Int × Nat × List Byte) → State × Option VErr
    | [] => (t, none)
    | (ea, z, bs) :: rest =>
      match vAccess s s.cur s.vUser .store ea z with
      | .error e => (t, some e)
      | .ok loc => go (pushStores t grp uo [(wordOf ea, loc, bs)]) rest
  go s l

/-- Whether one of the units has to wait before it is stored. -/
def unitsBlocked (s : State) (l : List (Int × Nat × List Byte)) : Bool :=
  l.any fun e => match vAccess s s.cur s.vUser .store e.1 e.2.1 with
    | .ok loc => vBlocked s true loc e.2.1
    | .error _ => false

/-- Units of z bytes of a byte string from an address. -/
def unitsOf (base : Int) (z : Nat) (bs : List Byte) : List (Int × Nat × List Byte) :=
  (List.range (bs.length / z)).map fun (i : Nat) => (base + i * z, z, (bs.drop (i * z)).take z)

/-- vstn: the header and the lengths are stored in units of 4 bytes, so a base needs no more than a multiple of 4 (spec/08,
R160; assumption log, 44: DEDUCED). -/
def execVstn (vd : VReg5) (uo : Bool) (bs : SP) (s : State) : Out :=
  let base : Int := (s.sp bs).toNat
  let v := s.vreg vd
  let img := nestImage v
  let l := unitsOf (base + 32) 4 img.2.1
    ++ unitsOf (base + (32 + img.2.1.length : Nat)) (widthBytes v.wt) img.2.2 ++ unitsOf base 4 img.1
  if unitsBlocked s l then .next s
  else match storeUnits s uo l with
    | (s, none) => .next s.advV
    | (s, some e) => .next (s.trapUnit e.code e.sub e.tval)

end Sys2Proof.Machine
end

