-- ==== Sys2Proof/Machine/Bobbins.lean ====
section
/-!
DEFINITION. Machine/Bobbins.lean: bobbins, asynchronous copies, posts, and the copy engine's events (spec/14).
-/
namespace Sys2Proof.Machine

open Sys2Proof

/-! ### Opening -/

/-- The image area of every context of a core, in 64-byte units, and the open stream buffers: they overlap this region
(spec/14, R247; spec/21, R335). -/
def regionTaken (s : State) (core boff bsz : Nat) : Bool :=
  (List.range 8).any fun k =>
    let x := s.hart (8 * core + k)
    decide (x.roff < boff + bsz ∧ boff < x.roff + 289)
      || x.b.toList.any fun b => b.kind == .stream && decide (b.boff < boff + bsz ∧ boff < b.boff + b.bsz)

/-- The bobbin that an open word names; none where the word is not valid (spec/14, R245, R247). -/
def openOf (s : State) (w : Word) : Option Bobbin :=
  let bsz := (w.extractLsb' 32 16).toNat
  let boff := (w.extractLsb' 16 16).toNat
  let b := { Bobbin.closed with ew := Width.ofCode (w.extractLsb' 48 2), bsz := bsz, boff := boff }
  if w &&& 0x3FFC00000000FFFF != 0 then none
  else if w.extractLsb' 62 2 == 1 then
    if 1 ≤ bsz ∧ bsz ≤ 32768 ∧ boff ≤ 32767 ∧ boff + bsz ≤ 32768 ∧ !regionTaken s (coreOf s.cur) boff bsz then
      some { b with kind := .stream }
    else none
  else if w.extractLsb' 62 2 == 2 then (if bsz = 0 ∧ boff = 0 then some { b with kind := .transfer } else none)
  else none

/-- Writes a bobbin of the hart that executes. -/
def State.setB (s : State) (b : BReg4) (x : Bobbin) : State := s.updBob s.cur b fun _ => x

/-- bopen (spec/14, R245, R247). -/
def execBopen (b : BReg4) (xs bs : SP) (s : State) : Out :=
  match openOf s (s.sp xs) with
  | none => illegalV s
  | some x =>
    need s ((s.bob s.cur b).kind == .closed)
      (if x.kind = .transfer then
        if (s.sp bs).toNat % widthBytes x.ew != 0 then .next (s.trapV 0x05 0 (s.sp bs))
        else .next (s.setB b { x with dst := s.sp bs }).advV
       else .next (s.setB b x).advV)

/-! ### Issuing -/

/-- The source form as bcopy gives it: form number, base, stride. -/
def formOf (s : State) : CopyForm → BitVec 2 × Word × Word
  | .contig bs => (0, s.sp bs, 0)
  | .strided bs xs => (1, s.sp bs, s.sp xs)
  | .tensor _ => (2, 0, 0)
  | .indexed bs _ => (3, s.sp bs, 0)

/-- The format code of a shape record, where it is one (spec/08, R154). -/
def recordFmt (rcd : List Word) : Option Fmt :=
  let w := (rcd[12]?).getD 0
  if 0x0E < w.toNat then none else Fmt.ofCode (w.setWidth 5)

/-- The copy is accepted: it takes a number, I and dst advance, the entry joins the queue (spec/14, R248; spec/15, R265). -/
def accept (s : State) (b : BReg4) (c : Copy) : State :=
  let mark := (s.me.block?.map (·.mark)).getD 0
  let s := s.updBob s.cur b fun x =>
    { x with issued := x.issued + c.len, dst := if x.kind = .transfer then x.dst + BitVec.ofNat 64 (c.len * widthBytes x.ew) else x.dst,
             queue := x.queue ++ [.copy c],
             gates := ⟨x.issued, s.me.nextNum, mark⟩ :: x.gates.filter fun g => !pushDone s s.cur g.num g.mark }
  s.updMe fun x => { x with nextNum := x.nextNum + 1 }

/-- The elements of an indexed copy that translate, with their source's location (spec/18, R274). -/
def windowOf (s : State) (z : Nat) (todo : List (Nat × Int)) : List (Nat × Nat) :=
  todo.filterMap fun e => match idxCheck s s.cur s.vUser .load e.2 z with
    | .ok loc => some (e.1, loc)
    | _ => none

/-- bcopy: no element below c.vs is active; under xroute.save bcopy.x leaves its routes. Of bcopy.x the check of c.vl leaves
out the width of the indices (spec/01, R17; spec/14, R248, R249, R253; spec/18, R278; assumption log, 44: DEDUCED; 54:
DEDUCED). -/
def execBcopy (b : BReg4) (form : CopyForm) (cv : Option SP) (pm : PReg) (s : State) : Out :=
  let x := s.bob s.cur b
  let f := formOf s form
  let word := cv.map s.sp
  let fw := fwOf (word.getD 0)
  let rcd := match form with
    | .tensor va => recordOf s va
    | _ => []
  let rf := recordFmt rcd
  let tensor := f.1 == 2
  let z := if tensor then (rf.map fun g => widthBytes (fmtWidth g)).getD 0
    else if cv.isSome then widthBytes (fmtWidth fw.fa) else widthBytes x.ew
  let len := if tensor then ((shapeOf rcd).map Shape.count).getD 0 else s.vl
  withFmt s fw (if cv.isSome then [chkA fw fun _ => true, chkD fw fun _ => true, chkRm fw] else [])
    (need s (x.kind != .closed && (cv.isSome || z == widthBytes x.ew))
      (withFmt s fw (if cv.isSome then [chkA fw fun g => !tensor || rf == some g, chkD fw fun g => fmtWidth g == x.ew]
          else [])
        (need s (decide (len ≤ vlmax s s.cur x.ew) && decide (len * z * 8 ≤ s.me.gang * held s s.cur * 16384)
            && (!tensor || (shapeOf rcd).isSome))
          (let act := s.activeIn pm len
           let whole := pm == 0 && s.me.vs == 0
           let els := match form with
             | .indexed _ va => idxEls s va act none f.2.1 z
             | _ => []
           let idx := match form with
             | .indexed _ va => velems (s.vreg va) (s.vreg va).wt len
             | _ => []
           let skips := els.any (· == .skip)
           let mask := if f.1 = 3 then
               (if whole && !skips then none else some (((indexed els).filter fun e => e.2 != .skip).map (·.1)))
             else if whole then none else some (trueAt act)
           let to' (i : Nat) : Int := x.dst.toNat + i * widthBytes x.ew
           let todo := todoList els (if indexedPending s.me then [] else s.me.kc)
           let bad := todo.findSome? fun e =>
             match idxCheck s s.cur s.vUser .load e.2 z with
             | .bad y => some y
             | _ => if x.kind = .transfer then
                 match idxCheck s s.cur s.vUser .store (to' e.1) (widthBytes x.ew) with
                 | .bad y => some y
                 | _ => none
               else none
           match bad with
           | some e => .next (s.trapV e.code e.sub e.tval)
           | none =>
             if 4 ≤ x.queue.length ∨ (f.1 = 3 ∧ indexedPending s.me) then .next s
             else .next (accept (if f.1 = 3 then saveRoute s (windowOf s z todo) else s) b
               { form := f.1, base := f.2.1, stride := f.2.2, cv := word, len := len, mask := mask, rcd := rcd,
                 idx := idx, z := z, next := 0, first := x.issued, dst := x.dst, user := s.vUser,
                 mark := (s.me.block?.map (·.mark)).getD 0, ord := s.me.nextNum,
                 blk := (s.me.block?.map (·.addr)).getD 0, seq := s.me.blockSeq }).advV))))

/-- bpost; of a closed bobbin it raises illegal operand, after the check of the address (spec/14, R254; spec/15, R265;
assumption log, 45: DEDUCED). -/
def execBpost (b : BReg4) (bs : SP) (scope : Scope) (s : State) : Out :=
  let x := s.bob s.cur b
  if (s.sp bs).toNat % 8 != 0 then .next (s.trapV 0x05 0 (s.sp bs))
  else need s (x.kind != .closed)
    (if 4 ≤ x.queue.length then .next s
     else
       let p : Post := { addr := s.sp bs, scope := scope, user := s.vUser, num := s.me.nextNum,
                         mark := (s.me.block?.map (·.mark)).getD 0, blk := (s.me.block?.map (·.addr)).getD 0,
                         seq := s.me.blockSeq }
       .next (s.updBob s.cur b fun x => { x with queue := x.queue ++ [.post p] }).advV)

/-! ### Waiting, closing, status -/

/-- bwait (spec/14, R247). -/
def execBwait (b : BReg4) (s : State) : Out :=
  let x := s.bob s.cur b
  need s (x.kind != .closed) (if x.queue = [] ∧ !x.flt then .next s.advV else .next s)

/-- Closes a bobbin; a reservation on it that an interrupted instruction kept is gone (spec/14, R247, R250, R257). -/
def State.shutB (s : State) (b : BReg4) : State :=
  (s.setB b Bobbin.closed).updMe fun y => { y with resv := y.resv.filter fun r => r.bob != b.toNat }

/-- bclose (spec/14, R247). -/
def execBclose (b : BReg4) (s : State) : Out :=
  let x := s.bob s.cur b
  need s (x.kind != .closed)
    (if (x.queue = [] ∨ x.flt) ∧ queuedResvs s s.cur b.toNat = [] then .next (s.shutB b).advV else .next s)

/-- The code of a kind (spec/14, R255). -/
def kindCode : BobKind → Nat
  | .closed => 0
  | .stream => 1
  | .transfer => 2

/-- The status element of a bobbin (spec/14, R255, R257). -/
def statusOf (x : Bobbin) : Nat := x.ew.code.toNat * 64 + x.queue.length * 8 + (if x.flt then 4 else 0) + kindCode x.kind

/-- start of a copy: its first element not done, of an indexed one the lowest active element whose kc bit is 0 (spec/14,
R244, R253). -/
def Copy.start (c : Copy) (kc : Pred) : Nat := if c.form = 3 then ((c.rest kc).head?).getD c.len else c.next

/-- start of a bobbin: of its oldest unfinished copy, and 0 where its queue holds none (spec/14, R244, R253, R255; assumption
log, 45: DEDUCED). -/
def startOf (kc : Pred) (x : Bobbin) : Nat :=
  (x.queue.findSome? fun e => match e with
    | .copy c => some (c.start kc)
    | .post _ => none).getD 0

/-- bstat (spec/14, R255). -/
def execBstat (vd : VReg5) (b : BReg4) (s : State) : Out :=
  let x := s.bob s.cur b
  let w := BitVec.ofNat 64
  unitDone s vd .w64
    (if x.kind = .closed then List.replicate 8 0
     else [w (statusOf x), w (x.arrived - x.reserved), w (startOf s.me.kc x), w x.arrived, w x.reserved, w x.freed,
           w x.issued, w x.nb]) []

/-! ### The copy engine -/

/-- Whether an element may move now: neither an earlier scalar access, an addition, an earlier copy nor a tile load of the
hart is still to touch its bytes (spec/14, R256; spec/15, R260). -/
def copyClear (s : State) (h : Nat) (c : Copy) (write : Bool) (loc n : Nat) : Bool :=
  !(((s.pkts h).any fun p => (p.vec && (write || p.isAdd) && decide (p.num < c.ord) || p.sca && decide (p.num < c.mark)) && p.touches loc n)
    || ((s.hart h).copiesOf.any fun e => decide (e.2.ord < c.ord)
      && (e.2.writes s h loc n e.1 || (write && e.2.reads s h loc n)))
    || tileTouches s h write loc n)

/-- The sources and destinations of an element: its checks, in order. -/
structure Ends where
  src : Option Nat
  dst : Option Nat
deriving DecidableEq, Repr

/-- The locations of element i, or the check that fails (spec/14, R248, R252). -/
def copyEnds (s : State) (h : Nat) (b : Bobbin) (c : Copy) (i : Nat) : Except VErr Ends :=
  if !c.active i then .ok ⟨none, none⟩
  else
    let src : Except VErr (Option Nat) := match c.src i with
      | none => .ok none
      | some ea => (vAccess s h c.user .load ea c.z).map some
    match src with
    | .error e => .error e
    | .ok l =>
      if b.kind = .transfer then
        match vAccess s h c.user .store (c.destAt b i) (widthBytes b.ew) with
        | .error e => .error e
        | .ok d => .ok ⟨l, some d⟩
      else .ok ⟨l, none⟩

/-- The value of element i (spec/14, R248). -/
def copyVal (s : State) (h : Nat) (c : Copy) (l : Option Nat) : Deliv :=
  let raw := match l with
    | some loc => BitVec.ofNat 64 (leNat (s.view h true loc c.z))
    | none => ((shapeOf c.rcd).map (·.fill)).getD 0
  match c.cv with
  | some w => convert (fwOf w).fa (fwOf w).fd (fwOf w).frm (fwOf w).sat (fwOf w).e raw
  | none => (raw, 0)

/-- Where a copy put an element, and whether what it read was poisoned. -/
structure Moved where
  loc : Nat
  size : Nat
  bad : Bool

/-- The poison after the elements of one delivery: the units that they cover whole are clear, and those of elements read
from poison are poisoned (spec/25, R366, R367). -/
def settlePoison (s : State) (ms : List Moved) : State :=
  let s := s.clearPoison (ms.flatMap fun m => (List.range m.size).map fun i => m.loc + i)
  (ms.filter (·.bad)).foldl (fun s m => s.addPoison m.loc) s

/-- Where an active element or one that a stream delivers as 0 is written. -/
def destLoc (h : Nat) (b : Bobbin) (c : Copy) (i : Nat) (e : Ends) : Option Nat :=
  if b.kind = .stream then some (slotLoc h b (c.first + i).toNat) else e.dst

/-- The poison of the source of element i goes with it (spec/25, R367). -/
def srcBad (s : State) (h : Nat) (c : Copy) (e : Ends) : Bool := (e.src.map fun l => s.poisonedFor h true l c.z).getD false

/-- Moves element i, whose checks passed: into the stream buffer, or to its destination (spec/14, R248; spec/19, R300;
spec/21, R325; assumption log, 45: DEDUCED; 59: DESIGN CHOICE). -/
def moveElem (s : State) (h : Nat) (b : Bobbin) (c : Copy) (i : Nat) (e : Ends) : State × List Moved :=
  let v : Deliv := if c.active i then copyVal s h c e.src else (0, 0)
  let z := widthBytes b.ew
  let put (loc : Nat) : State × List Moved :=
    ((((s.sendNow h loc).getD s).setBytes loc (toLe z v.1.toNat)).updHart h fun x => x.raiseAt i v.2, [⟨loc, z, srcBad s h c e⟩])
  match destLoc h b c i e with
  | none => (s, [])
  | some loc =>
    match if b.kind = .stream then none else withdrawnAt s h (wordOf (c.destAt b i)) z with
    | some hd => (countLate s h hd z, [])
    | none => put loc

/-- Room in the buffer for element i of a copy (spec/14, R248). -/
def hasRoom (b : Bobbin) (c : Copy) (i : Nat) : Bool :=
  b.kind != .stream || decide (c.first + i < (b.freed + b.cap : Nat))

/-- The head copy of a bobbin with its progress. -/
def setHead (s : State) (h : Nat) (b : BReg4) (c : Copy) : State :=
  s.updBob h b fun x =>
    { x with queue := .copy c :: x.queue.tail, arrived := (c.first + c.next).toNat }

/-- The oldest copy of a bobbin is complete: its nominal bytes count, an indexed one clears kc (spec/14, R247, R253,
R254). -/
def finishCopy (s : State) (h : Nat) (b : BReg4) (c : Copy) : State :=
  let s := s.updBob h b fun x => { x with queue := x.queue.tail, nb := x.nb + c.len * c.z }
  if c.form = 3 then s.updHart h fun x => { x with kc := [] } else s

/-- Whether the locations of element i and the quota let it move now. -/
def endsClear (s : State) (h : Nat) (b : Bobbin) (c : Copy) (i : Nat) (e : Ends) : Bool :=
  ((e.src.map fun l => copyClear s h c false l c.z).getD true)
    && ((destLoc h b c i e).map fun l => copyClear s h c true l (widthBytes b.ew) && (s.sendNow h l).isSome).getD true

/-- Moves up to n elements of an ordered copy from its next one on, as far as room, order and checks allow
(spec/14, R248, R249, R252). -/
def runOrdered (h : Nat) (b : BReg4) : Nat → State → Copy → State × Copy × List Moved
  | 0, s, c => (s, c, [])
  | n + 1, s, c =>
    let x := s.bob h b
    if c.len ≤ c.next ∨ !hasRoom x c c.next then (s, c, [])
    else match copyEnds s h x c c.next with
      | .error _ => (s, c, [])
      | .ok e =>
        if endsClear s h x c c.next e then
          let m := moveElem s h x c c.next e
          let r := runOrdered h b n m.1 { c with next := c.next + 1 }
          (r.1, r.2.1, m.2 ++ r.2.2)
        else (s, c, [])

/-- How an element of an indexed copy stands in steps 1 and 2 of R158: its two addresses. -/
def indexedChk (s : State) (h : Nat) (b : Bobbin) (c : Copy) (i : Nat) : IdxChk × IdxChk :=
  let src := match c.src i with
    | some ea => idxCheck s h c.user .load ea c.z
    | none => .ok 0
  let dst := if b.kind = .transfer then idxCheck s h c.user .store (c.destAt b i) (widthBytes b.ew) else .ok 0
  (src, dst)

/-- A check failed other than by a missing page. -/
def IdxChk.err : IdxChk → Option VErr
  | .bad e => some e
  | .part e => some e
  | .ok _ => none
  | .miss _ => none

/-- The locations of an element that translated. -/
def IdxChk.loc : IdxChk → Option Nat
  | .ok l => some l
  | .bad _ => none
  | .part _ => none
  | .miss _ => none

/-- Both addresses of an element translated. -/
def bothOf (b : Bobbin) (k : IdxChk × IdxChk) : Option Ends :=
  match k.1.loc, k.2.loc with
  | some l, some d => some ⟨some l, if b.kind = .transfer then some d else none⟩
  | _, _ => none

/-- Moves up to n unfinished elements of an indexed copy that translated, and marks them (spec/14, R253). -/
def runIndexed (h : Nat) (b : BReg4) (c : Copy) : Nat → List Nat → State → State × List Moved
  | _, [], s => (s, [])
  | 0, _, s => (s, [])
  | n + 1, i :: l, s =>
    let x := s.bob h b
    match bothOf x (indexedChk s h x c i) with
    | none => runIndexed h b c n l s
    | some e =>
      if hasRoom x c i && endsClear s h x c i e then
        let m := moveElem s h x c i e
        let r := runIndexed h b c n l (m.1.updHart h fun y => y.addKc [i])
        (r.1, m.2 ++ r.2)
      else runIndexed h b c n l s

/-- The finished run of an indexed copy from its next element on: inactive elements are delivered as they are passed
(spec/14, R248, R253). -/
def passDone (h : Nat) (b : BReg4) : Nat → State → Copy → State × Copy × List Moved
  | 0, s, c => (s, c, [])
  | n + 1, s, c =>
    let x := s.bob h b
    if c.len ≤ c.next ∨ !hasRoom x c c.next then (s, c, [])
    else if !c.active c.next then
      if !endsClear s h x c c.next ⟨none, none⟩ then (s, c, []) else
      let m := moveElem s h x c c.next ⟨none, none⟩
      let r := passDone h b n m.1 { c with next := c.next + 1 }
      (r.1, r.2.1, m.2 ++ r.2.2)
    else if (s.hart h).kc.contains c.next then passDone h b n s { c with next := c.next + 1 }
    else (s, c, [])

/-- An isolation or window failure stops an indexed copy before any element moves (spec/21, R335). -/
def indexedErr (s : State) (h : Nat) (b : Bobbin) (c : Copy) : Option VErr :=
  (c.rest (s.hart h).kc).findSome? fun i =>
    let k := indexedChk s h b c i
    match k.1.err with
    | some e => some e
    | none => k.2.err

/-- Up to n elements of a copy move: the state, the copy with its progress, what was written (spec/14, R249, R253). -/
def runCopy (s : State) (h : Nat) (b : BReg4) (c : Copy) (n : Nat) : State × Copy × List Moved :=
  if c.form = 3 then
    let r := if (indexedErr s h (s.bob h b) c).isSome then (s, []) else runIndexed h b c n (c.rest (s.hart h).kc) s
    let q := passDone h b c.len r.1 c
    (q.1, q.2.1, r.2 ++ q.2.2)
  else runOrdered h b n s c

/-- A copy is complete: its elements have arrived, and of an indexed one none is left to be performed (spec/14, R247,
R253). -/
def Copy.finished (c : Copy) (kc : Pred) : Bool := decide (c.len ≤ c.next) && (c.form != 3 || c.rest kc == [])

/-- The copy engine moves up to n elements of the oldest copy of a bobbin (spec/14, R248, R249, R253). -/
def execCopyElementDelivery (h : Nat) (b : BReg4) (n : Nat) (s : State) : Out :=
  let x := s.bob h b
  match x.queue with
  | .copy c :: _ =>
    if x.flt then .next s
    else
      let r := runCopy s h b c n
      let s' := settlePoison r.1 r.2.2
      let s' := if r.2.1.next = c.next ∧ (s'.hart h).kc = (s.hart h).kc then s' else setHead s' h b r.2.1
      .next (if r.2.1.finished (s'.hart h).kc then finishCopy s' h b r.2.1 else s')
  | _ => .next s

/-- The missing pages of an indexed copy, by element, when no other element can move; whether only writes missed
(spec/14, R253; spec/17, R269; assumption log, 22: DEDUCED). -/
def indexedMiss (s : State) (h : Nat) (b : Bobbin) (c : Copy) : Bool × List (Nat × Nat) :=
  let ks := (c.rest (s.hart h).kc).map fun i => (i, indexedChk s h b c i)
  if ks.any fun k => ((bothOf b k.2).map fun _ => hasRoom b c k.1).getD false then (false, [])
  else
    let page (k : IdxChk) : List Nat := match k with
      | .miss p => [p]
      | _ => []
    (ks.all fun k => page k.2.1 == [], ks.flatMap fun k => (page k.2.1 ++ page k.2.2).map fun p => (k.1, p))

/-- What a bobbin that stops at a fault reports: whether the command is U mode's, the cause, subcode and c.tval, its block,
the elements whose pages are missing, whether only writes missed. -/
structure BobErr where
  user : Bool
  code : BitVec 6
  sub : BitVec 8
  tval : Word
  blk : Word
  seq : Option Nat
  miss : List (Nat × Nat)
  wr : Bool

/-- The fault that the head entry of a bobbin has met, if any. A contiguous, strided or tensor copy and a post report
subcode 0 (spec/14, R252 to R254; spec/21, R335). -/
def headErr (s : State) (h : Nat) (b : BReg4) : Option BobErr :=
  let x := s.bob h b
  match x.queue with
  | [] => none
  | .post p :: _ =>
    match vAccess s h p.user .atomic p.addr.toNat 8 with
    | .ok _ => none
    | .error e => some ⟨p.user, e.code, 0, e.tval, p.blk, p.seq, [], false⟩
  | .copy c :: _ =>
    let err (code : BitVec 6) (sub : BitVec 8) (tval : Word) (miss : List (Nat × Nat)) (wr : Bool) : Option BobErr :=
      some ⟨c.user, code, sub, tval, c.blk, c.seq, miss, wr⟩
    if c.form = 3 then
      match indexedErr s h x c with
      | some e => err e.code e.sub e.tval [] false
      | none =>
        match indexedMiss s h x c with
        | (_, []) => none
        | (wr, e :: l) =>
          err (if wr then 0x07 else 0x06) 1 (BitVec.ofNat 64 (l.foldl (fun p y => min p y.2) e.2)) (e :: l) wr
    else if c.len ≤ c.next ∨ !hasRoom x c c.next then none
    else match copyEnds s h x c c.next with
      | .ok _ => none
      | .error e => err e.code 0 e.tval [] false

/-- The fault of a bobbin that can be reported now (spec/02, R43; spec/14, R252). -/
def readyErr (s : State) (h : Nat) (b : BReg4) : Option BobErr :=
  if (s.bob h b).flt then none else (headErr s h b).filter fun e => !(s.hart h).holdsEngine e.user

/-- A bobbin below this one is stopped at a fault or has met one: that is reported first (spec/14, R252). -/
def lowerFault (s : State) (h : Nat) (b : BReg4) : Bool :=
  (List.range b.toNat).any fun i => (s.bob h (BitVec.ofNat 4 i)).flt || (readyErr s h (BitVec.ofNat 4 i)).isSome

/-- The length of the copy at the head of a bobbin. -/
def headLen (x : Bobbin) : Nat :=
  match x.queue with
  | .copy c :: _ => c.len
  | _ => 0

/-- The next element of the oldest copy of a bobbin, or its post, fails a check: the bobbin stops, and the hart traps with
src 2, after the record of missing pages (spec/14, R252 to R254; spec/21, R335). -/
def execCopyFault (h : Nat) (b : BReg4) (s : State) : Out :=
  if lowerFault s h b then .next s
  else match readyErr s h b with
    | none => .next s
    | some e =>
      let s := if e.miss = [] then s
        else writeRecord s h (headLen (s.bob h b)) e.wr (unionNat [] (e.miss.map (·.1))) (e.miss.map (·.2))
      .next (engineTrap (s.updBob h b fun x => { x with flt := true }) h 2 e.code e.sub e.tval e.blk e.seq)

/-- The engine performs a post whose earlier entries are complete: one indivisible add, which returns nothing and leaves
poison where it is (spec/14, R254; spec/15, R265; spec/21, R325; spec/25, R367; assumption log, 59: DESIGN CHOICE). -/
def execPostPerformed (h : Nat) (b : BReg4) (s : State) : Out :=
  let x := s.bob h b
  match x.queue with
  | .post p :: rest =>
    match vAccess s h p.user .atomic p.addr.toNat 8 with
    | .error _ => .next s
    | .ok loc =>
      if x.flt || !pushDone s h p.num p.mark || (s.pkts h).any (fun q => q.touches loc 8) then .next s
      else match s.sendNow h loc with
      | none => .next s
      | some s =>
        let old := leNat (s.bytes loc 8)
        .next ((s.setBytes loc (toLe 8 (old + x.nb))).updBob h b fun x => { x with queue := rest, nb := 0 })
  | _ => .next s

/-! ### Saving and restoring -/

/-- The code of a scope (spec/03, R47). -/
def scopeCode (x : Scope) : Nat := x.code.toNat

/-- The bits of a mask, n of them, as bytes (spec/14, R257). -/
def copyMaskBytes (n : Nat) (l : List Nat) : List Byte :=
  ((List.range ((n + 7) / 8)).map fun d => BitVec.ofNat 8 ((l.filter fun i => i / 8 == d).map fun i => 2 ^ (i % 8)).sum)

/-- The image of a queue entry; counts are relative to H, and the entry is padded to 8 bytes as a whole (spec/14, R257;
assumption log, 24: DESIGN CHOICE). -/
def entryImage (x : Bobbin) (kc : Pred) : BEntry → List Byte
  | .post p =>
    toLe 8 (4 + scopeCode p.scope * 32) ++ toLe 8 0 ++ toLe 8 p.addr.toNat ++ List.replicate 40 0
  | .copy c =>
    toLe 8 (c.form.toNat + (if c.cv.isSome then 8 else 0) + (if c.mask.isSome then 16 else 0) + c.len * 2 ^ 32)
      ++ toLe 8 (c.start kc) ++ toLe 8 c.base.toNat ++ toLe 8 c.stride.toNat ++ toLe 8 (c.cv.getD 0).toNat
      ++ toLe 8 (if x.kind = .transfer then c.dst.toNat else (wordOf (c.first - x.freed)).toNat)
      ++ toLe 8 (c.len * c.z) ++ toLe 8 0
      ++ padEight (((c.mask.map (copyMaskBytes c.len)).getD []) ++ (c.rcd ++ c.idx).flatMap fun w => toLe 8 w.toNat)

/-- The open word of a bobbin (spec/14, R245). -/
def openWord (x : Bobbin) : Nat := kindCode x.kind * 2 ^ 62 + x.ew.code.toNat * 2 ^ 48 + x.bsz * 2 ^ 32 + x.boff * 2 ^ 16

/-- The image of a bobbin (spec/14, R257). -/
def bobImage (s : State) (h : Nat) (x : Bobbin) : List Byte :=
  toLe 8 (openWord x) ++ toLe 8 (statusOf x % 64) ++ toLe 8 x.dst.toNat ++ toLe 8 (x.arrived - x.freed)
    ++ toLe 8 (x.reserved - x.freed) ++ toLe 8 (x.issued - x.freed) ++ toLe 8 x.nb ++ toLe 8 0
    ++ x.queue.flatMap (entryImage x (s.hart h).kc)
    ++ (if x.kind = .stream then
        padEight ((streamElems s h x x.freed (x.arrived - x.freed)).flatMap fun w => toLe (widthBytes x.ew) w.toNat)
      else [])

/-- The word of bclose.s or bopen.r, by its opcode (spec/14, R246). -/
def bobWord (op : BitVec 8) (b : BReg4) (bs : SP) : Word :=
  VFields.word { op := op, vd := b.setWidth 5, va := 0, vb := 0, vc := 0, pm := 0, zm := 0, dep := 0, fs := 0, fn := 1,
                 imm := bs ++ (0 : BitVec 8) }

/-- bclose.s and bopen.r are K mode's, with the instruction word as c.tval; their base is a multiple of 8 (spec/02, R37;
spec/14, R257). -/
def withBobBase (s : State) (op : BitVec 8) (b : BReg4) (bs : SP) (k : Int → Out) : Out :=
  if s.me.kq.isNone then .next (s.trapV 0x04 0 (bobWord op b bs))
  else if (s.sp bs).toNat % 8 != 0 then .next (s.trapV 0x05 0 (s.sp bs))
  else k (s.sp bs).toNat

/-- An indexed copy at the head of a bobbin stops at an element boundary: what is finished or inactive from its next element
on is passed, as far as there is room (spec/14, R257). -/
def stopHead (s : State) (h : Nat) (b : BReg4) : State :=
  match (s.bob h b).queue with
  | .copy c :: _ =>
    if c.form = 3 then
      let r := passDone h b c.len s c
      settlePoison (setHead r.1 h b r.2.1) r.2.2
    else s
  | _ => s

/-- The order numbers of a queue entry: its own among the hart's accesses, and that of the scalar ones before it. -/
def BEntry.order : BEntry → Nat × Nat
  | .copy c => (c.ord, c.mark)
  | .post p => (p.num, p.mark)

/-- Notes the order numbers of the entries that a bobbin's image has no field for (spec/15, R267; assumption log, 57: DESIGN
CHOICE). -/
def noteOrder (s : State) (b : BReg4) (l : List BEntry) : State :=
  s.updMe fun x => { x with savedB := mapSet b.toNat (l.map BEntry.order) x.savedB }

/-- The order numbers of the n entries of an image: those noted when the bobbin was saved, else the next ones (spec/15,
R267; assumption log, 57: DESIGN CHOICE). -/
def orderOf (s : State) (b : BReg4) (n : Nat) : List (Nat × Nat) :=
  let l := mapGet [] s.me.savedB b.toNat
  if l.length = n then l else (List.range n).map fun i => (s.me.nextNum + i, s.me.nextNum)

/-- bclose.s; a buffer element that it saves meets poison (spec/14, R257; spec/25, R367). -/
def execBcloseS (b : BReg4) (bs : SP) (s : State) : Out :=
  withBobBase s 0xB2 b bs fun base => need s ((s.bob s.cur b).kind != .closed)
    (let s0 := s
     let s := stopHead s s.cur b
     let x := s.bob s.cur b
     let l := unitsOf base 8 (bobImage s s.cur x)
     if x.kind == .stream && streamPoisoned s s.cur x x.freed (x.arrived - x.freed) then .next (s0.trapV 0x10 0 0)
     else if unitsBlocked s l then .next s0
     else match storeUnits s false l with
       | (s, none) => .next (noteOrder (s.shutB b) b x.queue).advV
       | (s, some e) => .next (s.trapV e.code e.sub e.tval))

/-- One entry of an image from its eight words, its payload and its order numbers; none where a field is not allowed. An
indexed copy behind another entry has delivered nothing, whatever its start (spec/14, R253, R257). -/
def entryOfImage (x : Bobbin) (head : Bool) (ord : Nat × Nat) (ws pay : List Word) : Option BEntry :=
  let w (i : Nat) : Word := (ws[i]?).getD 0
  let ty := (w 0 % 8).toNat
  let len := (w 0 / 2 ^ 32).toNat
  let masked := (w 0).getLsbD 4
  let nm := if masked then (len + 7) / 8 else 0
  let bytes := pay.flatMap fun x => toLe 8 x.toNat
  let bits := (indexed (bytes.take nm)).flatMap fun e => ((List.range 8).filter fun i => e.2.getLsbD i).map fun i => 8 * e.1 + i
  let body := chunks 8 (if ty = 2 then 24 else if ty = 3 then len else 0) (bytes.drop nm)
  if (w 0).extractLsb' 8 24 != 0 || w 7 != 0 || 4 < ty then none
  else if ty = 4 then
    (Scope.ofCode ((w 0).extractLsb' 5 3)).map fun sc =>
      .post { addr := w 2, scope := sc, user := true, num := ord.1, mark := ord.2, blk := 0, seq := none }
  else
    let cv := if (w 0).getLsbD 3 then some (w 4) else none
    let z := if ty = 2 then ((recordFmt body).map fun f => widthBytes (fmtWidth f)).getD 0
      else match cv with
        | some f => widthBytes (fmtWidth (fwOf f).fa)
        | none => widthBytes x.ew
    let ok := match cv with
      | some f => (fwOf f).a.isSome && (fwOf f).rm.isSome && (fwOf f).d.map fmtWidth == some x.ew
      | none => z == widthBytes x.ew
    if !ok || (ty == 2 && (shapeOf body).map Shape.count != some len) || decide (len < (w 1).toNat) then none
    else some (.copy
      { form := BitVec.ofNat 2 ty, base := w 2, stride := w 3, cv := cv, len := len,
        mask := if masked then some bits else none, rcd := if ty = 2 then body else [], idx := if ty = 3 then body else [],
        z := z, next := if ty = 3 ∧ !head then 0 else (w 1).toNat, first := if x.kind = .stream then (w 5).toInt else 0,
        dst := if x.kind = .transfer then w 5 else 0, user := true, mark := ord.2, ord := ord.1, blk := 0, seq := none })

/-- The payload dwords of an entry (spec/14, R257). -/
def payDwords (w0 : Word) : Nat :=
  let len := (w0 / 2 ^ 32).toNat
  ((if w0.getLsbD 4 then (len + 7) / 8 else 0) + 8 * (if w0 % 8 = 2 then 24 else if w0 % 8 = 3 then len else 0) + 7) / 8

/-- Reads the entries of an image with the order numbers given, from a dword on: the entries and the next dword. -/
def readEntries (s : State) (base : Int) (x : Bobbin) (k : List BEntry → Nat → Out) :
    List (Nat × Nat) → Nat → List BEntry → Out
  | [], at', es => k es at'
  | ord :: rest, at', es =>
    withReads s 8 (unitAddrs (base + (8 * at' : Nat)) 8 8) fun ws =>
      let np := payDwords (ws.headD 0)
      withReads s 8 (unitAddrs (base + (8 * (at' + 8) : Nat)) 8 np) fun pay =>
        match entryOfImage x (es == []) ord ws pay with
        | none => illegalV s
        | some e => readEntries s base x k rest (at' + 8 + np) (es ++ [e])

/-- The bobbin elements that the copies of a transfer become, from one on. -/
def firstsFrom : Int → List BEntry → List BEntry
  | _, [] => []
  | n, .copy c :: l => .copy { c with first := n } :: firstsFrom (n + c.len) l
  | n, .post p :: l => .post p :: firstsFrom n l

/-- The elements the head copy has done; behind a post no copy has begun. -/
def headNext : List BEntry → Nat
  | .copy c :: _ => c.next
  | _ => 0

/-- The head copy of a stream as the image's D gives its progress; of an indexed copy start says less. -/
def headFrom (d : Nat) : List BEntry → List BEntry
  | .copy c :: l => .copy { c with next := if c.form = 3 then ((d : Int) - c.first).toNat else c.next } :: l
  | l => l

/-- bopen.r; the elements reserved and not consumed are those that an interrupted instruction keeps, a pop waits for the
hart's accesses so far, the copies and posts take the places they had in the hart's order, and the buffer is written whole
(spec/14, R250, R257; spec/15, R265, R267; spec/25, R366). -/
def execBopenR (b : BReg4) (bs : SP) (s : State) : Out :=
  withBobBase s 0xB0 b bs fun base => need s ((s.bob s.cur b).kind == .closed)
    (withReads s 8 (unitAddrs base 8 8) fun ws =>
      let w (i : Nat) : Word := (ws[i]?).getD 0
      let n := (w 1 / 8 % 8).toNat
      match openOf s (w 0) with
      | none => illegalV s
      | some x =>
        need s ((w 1 % 4).toNat == kindCode x.kind && w 1 / 64 == 0 && decide (n ≤ 4) && w 7 == 0
            && decide ((w 3).toNat ≤ (w 5).toNat ∧ (w 4).toNat ≤ (w 5).toNat)
            && (x.kind == .transfer || decide ((w 3).toNat ≤ x.cap))
            && (x.kind == .stream || (w 2).toNat % widthBytes x.ew == 0))
          (readEntries s base x (fun es at' =>
            let d := (w 3).toNat
            let z := widthBytes x.ew
            let es := if x.kind = .transfer then firstsFrom ((d : Int) - headNext es) es else headFrom d es
            let x := { x with dst := w 2, arrived := d, reserved := (w 4).toNat, issued := (w 5).toNat, nb := (w 6).toNat,
                              flt := (w 1).getLsbD 2, queue := es,
                              gates := [⟨0, s.me.nextNum, s.me.nextNum⟩] }
            let fin (s : State) : Out := .next ((s.updMe fun y => { y with
              nextNum := y.nextNum + n, savedB := mapDel b.toNat y.savedB,
              resv := if x.reserved = 0 then y.resv else some ⟨b.toNat, 0, x.reserved⟩ }).setB b x).advV
            if x.kind = .transfer then fin s
            else withReads s 8 (unitAddrs (base + (8 * at' : Nat)) 8 ((d * z + 7) / 8)) fun bytes =>
              let loc := slotLoc s.cur x 0
              if (s.pkts s.cur).any fun p => p.touches loc (d * z) then .next s
              else fin (s.putBytes loc ((bytes.flatMap fun y => toLe 8 y.toNat).take (d * z))))
            (orderOf s b n) 8 []))

end Sys2Proof.Machine
end

