-- ==== Sys2Proof/Machine/Fabric.lean ====
section
/-!
DEFINITION. Machine/Fabric.lean: location lookup, remote gathers, token forwarding, and requests from the fabric
(spec/26).
-/
namespace Sys2Proof.Machine

open Sys2Proof

/-! ### Location slots -/

/-- The table in a location slot of the hart's cluster (spec/26, R386). -/
def locSlot (s : State) (slot : BitVec 2) : Option LocTable := (s.cluster (clusterOf s.cur)).locs.get slot.toFin

/-- The entry of a key. -/
def LocTable.entry (t : LocTable) (key : Nat) : Option LocEntry := t.ents.find? fun e => decide (e.key.toNat = key)

/-- An entry on the own chip (spec/26, R386). -/
def resident (s : State) (e : LocEntry) : Bool := e.chip == s.chip

/-- A request to a chip passes its route check (spec/26, R380, R381). -/
def routeOpen (s : State) (h : Nat) (chip : BitVec 12) : Bool :=
  s.fen && (mapGet (0 : BitVec 8) (s.die (dieOf h)).routes chip.toNat).getLsbD 7

/-- The port that a die's route to a chip names (spec/26, R381). -/
def routePort (s : State) (d : Nat) (chip : BitVec 12) : BitVec 4 :=
  (mapGet (0 : BitVec 8) (s.die d).routes chip.toNat).setWidth 4

/-- The nonce of a packet: the sequence, then the chips, each most significant byte first (spec/26, R383). -/
def linkNonce (seq : Word) (src dst : BitVec 12) : List Byte :=
  (toLe 8 seq.toNat).reverse ++ (toLe 4 (src.toNat * 2 ^ 16 + dst.toNat)).reverse

/-- Packets that carry n bytes, 256 in each (spec/26, R383; assumption log, 58: DESIGN CHOICE). -/
def packetsFor (n : Nat) : Nat := max 1 ((n + 255) / 256)

/-- A message leaves by a port for a chip: each of its packets is sealed under the link key with the next sequence number
(spec/26, R383; assumption log, 58: DESIGN CHOICE). -/
def sendVia (s : State) (port : BitVec 4) (chip : BitVec 12) (msg : List Byte) : State :=
  let d := port.toNat / 8
  let x := mapGet Port.reset (s.die d).ports (port.toNat % 8)
  let key := mapGet (0 : BitVec 256) (s.die d).linkKeys x.ks.toNat
  let n := packetsFor msg.length
  { s.updDie d fun y =>
      { y with ports := mapSet (port.toNat % 8) { x with seq := x.seq + BitVec.ofNat 64 n } y.ports } with
    wire := s.wire ++ (List.range n).map fun i =>
      let nonce := linkNonce (x.seq + BitVec.ofNat 64 i) s.chip chip
      let r := gcmSeal (toLe 32 key.toNat) nonce ((msg.drop (256 * i)).take 256)
      ⟨port, key, nonce, r.1 ++ r.2⟩ }

/-- A request of the hart that executes leaves for a chip, and is outstanding (spec/26, R384). -/
def request (s : State) (port : BitVec 4) (chip : BitVec 12) (seg : Option Nat) (msg : List Byte) : State :=
  let s := sendVia s port chip msg
  { s with requests := s.requests ++ [⟨s.cur, (s.pidOf s.cur).toNat, port, chip, seg, true⟩] }

/-- The oldest outstanding request of a kind is answered: it, and the state without it (spec/26, R383, R384). -/
def takeRequest (s : State) (f : FabricOut → Bool) : Option (FabricOut × State) :=
  (s.requests.find? f).map fun q => (q, { s with requests := s.requests.erase q })

/-- The first failure of checks 2 and 3 over keys with the c.tval of a missing one (spec/26, R388). -/
def locFault (s : State) (t : LocTable) (keys : List (Nat × Word)) : Option VErr :=
  match keys.find? fun k => (t.entry k.1).isNone with
  | some k => some ⟨0x09, 0, k.2⟩
  | none =>
    (keys.filterMap fun k => t.entry k.1).findSome? fun e =>
      if resident s e || routeOpen s s.cur e.chip then none else some ⟨0x09, 1, e.chip.setWidth 64⟩

/-- xloc (spec/26, R388, R389). -/
def execXloc (vd va : VReg5) (slot : BitVec 2) (m : VMask) (s : State) : Out :=
  match locSlot s slot with
  | none => illegalV s
  | some t =>
    withVl s [.w32]
      (let rs := (velems (s.vreg va) .w32 s.vl).map fun k => ((t.entry k.toNat).map fun e => e.chip.setWidth 64).getD 0xFFFFFFFF
       unitDone s vd .w32 (unitElems s vd .w32 m rs) (keepLevels (s.vreg va).levels s.vl))

/-! ### Remote gathers -/

/-- An element of a remote gather: skipped, or its global index, entry and offset (spec/26, R390). -/
inductive XEl where
  | skip
  | at (gi : Word) (e : LocEntry) (off : Word)

/-- The address an element has on its holder. -/
def XEl.ea (z : Nat) : XEl → Option Int
  | .skip => none
  | .at _ e off => some (e.gbase.toNat + off.toNat * z)

/-- The key of a global index. -/
def giKey (t : LocTable) (gi : Word) : Nat := gi.toNat / 2 ^ t.sh

/-- The elements of a remote gather; one with no entry is skipped here, and trapped before. -/
def xEls (t : LocTable) (act : List Bool) (gis : List Word) : List XEl :=
  act.zipWith (fun a gi =>
    if !a || gi == BitVec.allOnes 64 then .skip
    else match t.entry (giKey t gi) with
      | some e => .at gi e (BitVec.ofNat 64 (gi.toNat % 2 ^ t.sh))
      | none => .skip) gis

/-- The elements still to be performed that a test of the entry admits, in order. -/
def xTodo (els : List XEl) (kc : Pred) (f : LocEntry → Bool) : List (Nat × XEl) :=
  (indexed els).filter fun e => !kc.contains e.1 && match e.2 with
    | .skip => false
    | .at _ x _ => f x

/-- The packed lists of a gather into vd, one for each chip in ascending order; what a list returns is written at once unless
vd holds the indices and the write would lose bits of them (spec/26, R390, step 2; assumption log, 39: DEDUCED). -/
def packLists (s : State) (vd va : VReg5) (w : Width) (remote : List (Nat × XEl)) : List XList :=
  let of (e : Nat × XEl) : Option (Nat × BitVec 12 × Word) := match e.2 with
    | .skip => none
    | .at _ x off => some (e.1, x.chip, off)
  let l := remote.filterMap of
  (unionNat [] (l.map fun e => e.2.1.toNat)).map fun c =>
    let own : List (Nat × BitVec 12 × Word) := l.filter fun e => e.2.1.toNat == c
    { chip := BitVec.ofNat 12 c, port := routePort s (dieOf s.cur) (BitVec.ofNat 12 c), vd := vd, w := w,
      early := vd != va || w == .w64, elems := own.map (·.1), offs := own.map (·.2.2), reply := none }

/-- The lists leave for their chips, in ascending order. -/
def sendLists (s : State) (ls : List XList) : State :=
  (ls.foldl (fun s l => request s l.port l.chip none (l.offs.flatMap fun o => toLe 8 o.toNat)) s).updMe fun x =>
    { x with xlists := ls }

/-- The values that the lists returned, by element. -/
def listVals (ls : List XList) : List (Nat × Word) :=
  ls.flatMap fun l => match l.reply with
    | some (.values vs _) => l.elems.zip vs
    | some .refused => []
    | none => []

/-- The elements that returned poison. -/
def listPoison (ls : List XList) : List Nat :=
  ls.flatMap fun l => match l.reply with
    | some (.values _ ps) => ps.filterMap fun i => l.elems[i]?
    | some .refused => []
    | none => []

/-- The elements of the refused lists. -/
def listRefused (ls : List XList) : List Nat :=
  ls.flatMap fun l => if l.reply = some .refused then l.elems else []

/-- The global index of an element. -/
def giOf (gis : List Word) (i : Nat) : Word := (gis[i]?).getD 0

/-- The address of an element on its holder. -/
def xAddr (z : Nat) (els : List XEl) (i : Nat) : Word := (((els[i]?).bind (XEl.ea z)).map wordOf).getD 0

/-- The elements of the destination as the gather has them so far: a gather into its own index register holds what it has
taken aside, until it completes (spec/26, R390; assumption log, 39: DEDUCED). -/
def xOld (s : State) (vd : VReg5) (w : Width) : List Word :=
  (indexed (velems (s.vreg vd) w s.vl)).map fun e =>
    if s.me.kc.contains e.1 then ((s.me.xvals.find? fun v => v.1 == e.1).map (·.2)).getD e.2 else e.2

/-- An element of a remote gather: kept below c.vs and where its kc bit is 1 (spec/02, R25; spec/06, R109; spec/26, R390). -/
def xElem (zm : Bool) (vs : Nat) (kc : Pred) (vals : List (Nat × Word)) (i : Nat) (e : XEl) (old : Word) : Word :=
  if i < vs || kc.contains i then old
  else match e with
    | .skip => if zm then 0 else old
    | .at _ _ _ => ((vals.find? fun v => v.1 == i).map (·.2)).getD old

/-- A remote gather whose lists have all returned: it marks what finished in kc, then traps or completes (spec/02, R37;
spec/26, R390, R393; assumption log, 39: DEDUCED). -/
def xgFinish (s : State) (vd va : VReg5) (w : Width) (m : VMask) (gis : List Word) (els : List XEl)
    (perf miss : List (Nat × Nat)) : Out :=
  let z := widthBytes w
  let kc := s.me.kc
  let vs := s.me.vs.toNat
  let ls := s.me.xlists
  let bad : List Nat := ((perf.filter fun (e : Nat × Nat) => s.poisonedFor s.cur true e.2 z).map fun e => e.1) ++ listPoison ls
  match bad with
  | i :: is =>
    let i := is.foldl min i
    .next (s.trapVAt (kc != []) 0x10 0 (xAddr z els i))
  | [] =>
    let vals : List (Nat × Word) := perf.map (fun e => (e.1, vRead s e.2 z)) ++ listVals ls
    let refused := listRefused ls
    let old := xOld s vd w
    let write (zm : Bool) (s : State) : State := (s.setV vd ⟨w,
      ((indexed els).zip old).map fun (e : (Nat × XEl) × Word) => xElem zm vs kc vals e.1.1 e.1.2 e.2, []⟩).gateV vd
    let got : List Nat := vals.map (·.1)
    let s := s.updMe fun x => { x with xlists := [] }.addKc got
    let part := miss != [] || refused != []
    let s := if !part then s.updMe fun x => { x with xvals := [] }
      else if vals == [] then s
      else if vd != va || w == .w64 then write false s
      else s.updMe fun x => { x with xvals := vals ++ x.xvals }
    match miss, refused with
    | [], i :: is =>
      let low := (i :: is).foldl (fun a j => min a (giOf gis j).toNat) (giOf gis i).toNat
      .next (s.trapVAt (s.me.kc != []) 0x09 1 (BitVec.ofNat 64 low))
    | _, _ => idxEnd s .load s.vl miss false (write m.zm)

/-- xfwd.g; its checks come at dispatch, before its lists leave (spec/26, R388, R390, R393). -/
def execXfwdG (vd va : VReg5) (w : Width) (slot : BitVec 2) (m : VMask) (s : State) : Out :=
  match locSlot s slot with
  | none => illegalV s
  | some t => withVl s [.w64, w]
    (if indexedPending s.me then .next s
     else
       let z := widthBytes w
       let kc := s.me.kc
       let s := if kc = [] then s.updMe fun x => { x with xvals := [] } else s
       let act := s.activeFrom m.pm
       let gis := velems (s.vreg va) .w64 s.vl
       let todo := ((indexed gis).zip act).filter fun e => e.2 && e.1.2 != BitVec.allOnes 64 && !kc.contains e.1.1
       let check := if s.me.xlists = [] then locFault s t (todo.map fun e => (giKey t e.1.2, e.1.2)) else none
       match check with
       | some e => .next (s.trapVAt (kc != []) e.code e.sub e.tval)
       | none =>
         let els := xEls t act gis
         let here := (xTodo els kc (resident s)).filterMap fun e => (e.2.ea z).map fun a => (e.1, a)
         let there := xTodo els kc fun e => !resident s e
         match idxPlan s .load z here with
         | .stop o => o
         | .go perf miss =>
           if perf.any fun e => vBlocked s false e.2 z then .next s
           else if s.me.xlists = [] ∧ there.length ≠ 0 then .next (sendLists s (packLists s vd va w there))
           else if s.me.xlists.any fun l => l.reply.isNone then .next s
           else xgFinish s vd va w m gis els perf miss)

/-- The first list to a chip that waits takes its reply. -/
def answerList (chip : BitVec 12) (r : ListReply) : List XList → List XList
  | [] => []
  | l :: ls => if l.chip = chip ∧ l.reply = none then { l with reply := some r } :: ls else l :: answerList chip r ls

/-- The V-word that dispatches at a hart has done elements of its instruction (spec/02, R40). -/
def Hart.inside (x : Hart) : Hart :=
  match x.block? with
  | some b => x.setBlock { b with mid := true }
  | none => x

/-- The elements that a list returned without poison are written, or kept aside where vd holds the indices, and marked in kc:
the instruction has begun (spec/02, R40; spec/26, R390, step 3; assumption log, 39: DEDUCED). -/
def takeList (s : State) (h : Nat) (l : XList) (vs : List Word) (ps : List Nat) : State :=
  let got := ((indexed (l.elems.zip vs)).filter fun e => !ps.contains e.1).map (·.2)
  if got = [] then s
  else
    let x := s.hart h
    let old := velems (x.v.get l.vd.toFin) l.w x.vl.toNat
    let es := (indexed old).map fun e => ((got.find? fun g => g.1 == e.1).map (·.2)).getD e.2
    s.updHart h fun x =>
      ((if l.early then x.setV l.vd ⟨l.w, es, []⟩ else { x with xvals := got ++ x.xvals }).addKc (got.map (·.1))).inside

/-- A peer returns a list: its values in list order, or that it refuses it; one whose gather a trap has withdrawn is dropped
(spec/26, R384, R385, R390). -/
def execGatherListReturn (h chip : Nat) (r : ListReply) (s : State) : Out :=
  match takeRequest s fun q => q.hart == h && q.chip.toNat == chip && q.seg.isNone with
  | none => .next s
  | some (q, s') =>
    match if q.live then (s.hart h).xlists.find? fun l => l.chip.toNat == chip && l.reply.isNone else none with
    | none => .next s'
    | some l =>
      let t := s'.updHart h fun x => { x with xlists := answerList (BitVec.ofNat 12 chip) r x.xlists }
      match r with
      | .refused => .next t
      | .values vs ps => if l.elems.length = vs.length then .next (takeList t h l vs ps) else .next s

/-! ### Inboxes -/

/-- Bytes of a record of n elements (spec/26, R392). -/
def recordBytes (n : Nat) (w : Width) : Nat := 16 + 16 * ((n * widthBytes w + 15) / 16)

/-- A record's header (spec/26, R391). -/
def recordHead (w : Width) (src : BitVec 12) (hid : BitVec 11) (key : BitVec 32) (n : Nat) : Word × Word :=
  ((1 : BitVec 1) ++ (0 : BitVec 17) ++ w.code ++ src ++ key, (0 : BitVec 21) ++ hid ++ BitVec.ofNat 32 n)

/-- The bytes of a record (spec/26, R391). -/
def recordImage (w : Width) (src : BitVec 12) (hid : BitVec 11) (key : BitVec 32) (es : List Word) : List Byte :=
  let hd := recordHead w src hid key es.length
  let body := es.flatMap fun x => toLe (widthBytes w) x.toNat
  toLe 8 hd.1.toNat ++ toLe 8 hd.2.toNat ++ body ++ List.replicate (recordBytes es.length w - 16 - body.length) 0

/-- The locations of dwords, or the first failure. -/
def dwordLocs (tr : Word → Except VErr Nat) : List Word → Except VErr (List Nat)
  | [] => .ok []
  | a :: l => do
    let x ← tr a
    let xs ← dwordLocs tr l
    pure (x :: xs)

/-- A dword at its point of performance. -/
def dwordAt (s : State) (loc : Nat) : Word := BitVec.ofNat 64 (leNat (s.bytes loc 8))

/-- What a record meets at an inbox: the location of head and what it reads, and the location of drops where the record does
not fit, else its address and the locations of its dwords. -/
inductive InboxAim where
  | full (head : Nat) (off : Word) (drops : Nat)
  | room (head : Nat) (off at' : Word) (locs : List Nat)

/-- What a record of r bytes meets at an inbox of this chip, reached by translations for loads, stores and atomics (spec/26,
R391, R392). -/
def inboxAim (s : State) (tr : Acc → Word → Except VErr Nat) (ibox : Word) (r : Nat) : Except VErr InboxAim := do
  let head ← tr .atomic ibox
  let cap ← tr .load (ibox + 8)
  let base ← tr .load (ibox + 16)
  let off := dwordAt s head
  if (dwordAt s cap).toNat < off.toNat + r then do
    let drops ← tr .atomic (ibox + 24)
    pure (.full head off drops)
  else do
    let at' := dwordAt s base + off
    let locs ← dwordLocs (tr .store) ((List.range (r / 8)).map fun i => at' + BitVec.ofNat 64 (8 * i))
    pure (.room head off at' locs)

/-- Head moves past a record of r bytes (spec/26, R392). -/
def reserveInbox (s : State) (head : Nat) (off : Word) (r : Nat) : State := s.putBytes head (toLe 8 (off.toNat + r))

/-- A record that does not fit is counted (spec/26, R392). -/
def countDrop (s : State) (drops : Nat) : State := s.putBytes drops (toLe 8 ((dwordAt s drops).toNat + 1))

/-- Cells performed as one write, which clears the poison of what it covers whole (spec/25, R366). -/
def State.putCells (s : State) (cs : List Host.Cell) : State := (s.setCells cs).clearPoison (cs.map (·.1))

/-- The writes of a record, of its dwords' locations and bytes: its elements' bytes at once, dword 1 of the header, dword 0
(spec/26, R391, R392). -/
def recordWrites (locs : List Nat) (bs : List Byte) : List (List Host.Cell) :=
  let ds := (locs.zip (chunks 8 locs.length bs)).map fun e => cellsAt e.1 (toLe 8 e.2.toNat)
  (ds.drop 2).flatten :: (ds.take 2).reverse

/-- A record of a peer arrives at an inbox of this chip: the reservation, then the drop count or the record, its header's
dword 0 last (spec/26, R391, R392). -/
def inboxPut (s : State) (tr : Acc → Word → Except VErr Nat) (ibox : Word) (key : BitVec 32) (src : BitVec 12)
    (hid : BitVec 11) (w : Width) (es : List Word) : Except VErr (State × InboxReply) := do
  let r := recordBytes es.length w
  match ← inboxAim s tr ibox r with
  | .full head off drops => pure (countDrop (reserveInbox s head off r) drops, .full)
  | .room head off _ locs =>
    pure ((recordWrites locs (recordImage w src hid key es)).foldl State.putCells (reserveInbox s head off r), .stored off)

/-- An access to a dword of a resident inbox, under the hart's own translation; one that reads it meets its poison (spec/25,
R367; spec/26, R386). -/
def ownDword (s : State) (a : Acc) (ea : Word) : Except VErr Nat :=
  match vAccess s s.cur s.vUser a ea.toNat 8 with
  | .error e => .error e
  | .ok loc =>
    let bad := match a with
      | .store => false
      | .load => s.readsPoison loc 8
      | _ => s.poisoned loc 8
    if bad then .error ⟨0x10, 0, ea⟩ else .ok loc

/-- The record of a segment of this chip's hart that executes. -/
structure XSeg where
  seg : Nat
  entry : LocEntry
  elems : List Word

/-- The dwords of a record at an address, in the order in which they are written (spec/26, R391, R392). -/
def recordStores (at' : Word) (locs : List Nat) (bs : List Byte) : List (Word × Nat × List Byte) :=
  let ds := (indexed (locs.zip (chunks 8 locs.length bs))).map fun e =>
    (at' + BitVec.ofNat 64 (8 * e.1), e.2.1, toLe 8 e.2.2.toNat)
  ds.drop 2 ++ (ds.take 2).reverse

/-- A record of the hart that executes, to an inbox of its own chip: its two atomics each as one packet of the hart, none
while one of them waits; its bytes as stores of the instruction with prefix visibility, its header's dword 0 last (spec/21,
R325, R326; spec/26, R391 to R393; assumption log, 59: DESIGN CHOICE). -/
def inboxSend (s : State) (w : Width) (x : XSeg) : Except VErr (Option (State × InboxReply)) := do
  let r := recordBytes x.elems.length w
  match ← inboxAim s (ownDword s) x.entry.ibox r with
  | .full head off drops =>
    pure (((s.sendNow s.cur head).bind fun s => s.sendNow s.cur drops).map fun s =>
      (countDrop (reserveInbox s head off r) drops, .full))
  | .room head off at' locs =>
    pure ((s.sendNow s.cur head).map fun s =>
      (pushStores (reserveInbox s head off r) s.me.nextNum false
        (recordStores at' locs (recordImage w s.chip (BitVec.ofNat 11 s.cur) x.entry.key x.elems)), .stored off))

/-- The record of a segment that the instruction that dispatches has sent. -/
def noteRec (s : State) (x : XSeg) (r : Option InboxReply) : State :=
  s.updMe fun y =>
    { y with xrecs := y.xrecs ++ [{ user := s.vUser, blk := y.blockSeq, off := (y.block?.map (·.off)).getD 0, seg := x.seg,
                                    chip := x.entry.chip, key := x.entry.key,
                                    port := routePort s (dieOf s.cur) x.entry.chip, kept := false, reply := r }] }

/-- Sends segments in ascending order, up to one whose reservation has to wait: a resident inbox takes its record now, another
chip's is under way (spec/26, R392; assumption log, 39: DEDUCED). -/
def sendSegs (w : Width) : List XSeg → State → State × Option VErr
  | [], s => (s, none)
  | x :: l, s =>
    if resident s x.entry then
      match inboxSend s w x with
      | .error e => (s, some e)
      | .ok none => (s, none)
      | .ok (some (s, r)) => sendSegs w l (noteRec s x (some r))
    else
      sendSegs w l (noteRec (request s (routePort s (dieOf s.cur) x.entry.chip) x.entry.chip (some x.seg)
        (recordImage w s.chip (BitVec.ofNat 11 s.cur) x.entry.key x.elems)) x none)

/-- The record is of the instruction that dispatches. -/
def ownsRec (s : State) (r : XRecord) : Bool := r.user == s.vUser && s.me.ownsRec r

/-- The records of the instruction that dispatches. -/
def ownRecs (s : State) : List XRecord := s.me.xrecs.filter (ownsRec s)

/-- The records that stay as the instruction begins or goes on: of its side, its own alone. -/
def freshRecs (s : State) : State :=
  s.updMe fun x => { x with xrecs := (x.xrecs.filter fun r => r.user != s.vUser || ownsRec s r).map fun r =>
    { r with kept := r.kept && !ownsRec s r } }

/-- The records of the instruction that dispatches are done with. -/
def dropRecs (s : State) : State := s.updMe fun x => { x with xrecs := x.xrecs.filter fun r => !ownsRec s r }

/-- The instruction traps: its refused records are sent again after eret, the others stay (spec/26, R392; assumption log,
39: DEDUCED). -/
def keepRecs (s : State) : State :=
  s.updMe fun x => { x with xrecs := (x.xrecs.filter fun r => !(ownsRec s r && r.reply == some .refused)).map fun r =>
    { r with kept := r.kept || ownsRec s r } }

/-- The status of a segment (spec/26, R392). -/
def recStatus (rs : List XRecord) (j : Nat) : Word :=
  match rs.find? fun r => r.seg == j with
  | some r => match r.reply with
    | some (.stored off) => off
    | some .full => BitVec.allOnes 64
    | some .refused => 0
    | none => 0
  | none => 0

/-- xfwd.t: its segments are sent after every earlier store of the hart, one after another, and it completes when each has
its status and its records on this chip are whole (spec/26, R388, R391 to R393; assumption log, 39: DEDUCED). -/
def execXfwdT (vd va vb : VReg5) (dep : Dep) (slot : BitVec 2) (s : State) : Out :=
  let v := s.vreg va
  match locSlot s slot with
  | none => illegalV s
  | some t => need s (decide (dep.toNat ≤ v.levels.length))
    (let segs := cutSegs (segLens v.levels v.elems.length dep.toNat) v.elems
     let keys := (velems (s.vreg vb) .w32 segs.length)
     let sent := (ownRecs s).map (·.seg)
     let todo := (indexed (keys.zip segs)).filter fun e => !sent.contains e.1
     match locFault s t (todo.map fun e => (e.2.1.toNat, e.2.1)) with
     | some e => .next (s.trapV e.code e.sub e.tval)
     | none =>
       if !pushDone s s.cur s.me.nextNum ((s.me.block?.map (·.mark)).getD 0) then .next s
       else if todo.length ≠ 0 then
         let xs := todo.filterMap fun e => (t.entry e.2.1.toNat).map fun x => (⟨e.1, x, e.2.2⟩ : XSeg)
         match sendSegs v.wt xs (freshRecs s) with
         | (s, some e) => .next ((keepRecs s).trapV e.code e.sub e.tval)
         | (s, none) => .next s
       else if (ownRecs s).any fun r => r.reply.isNone then .next s
       else match (ownRecs s).find? fun r => r.reply = some .refused with
         | some r => .next ((keepRecs s).trapV 0x09 1 (r.key.setWidth 64))
         | none =>
           unitDone (dropRecs s) vd .w64 ((List.range segs.length).map (recStatus (ownRecs s))) (redLevels v.levels dep))

/-- The status of a forwarded record reaches its hart; that of a record whose hart has stopped since is dropped (spec/26,
R384, R392). -/
def execInboxRecord (h j : Nat) (r : InboxReply) (s : State) : Out :=
  match takeRequest s fun q => q.hart == h && q.seg == some j with
  | none => .next s
  | some (q, s) =>
    .next (if q.live then s.updHart h fun x =>
        { x with xrecs := x.xrecs.map fun e => if e.seg = j ∧ e.reply = none then { e with reply := some r } else e }
      else s)

/-! ### Requests from the fabric -/

/-- A request of a chip under an ASID matches an enabled import entry (spec/26, R385). -/
def imported (s : State) (src : BitVec 12) (asid : BitVec 16) : Bool :=
  s.imports.any fun e => e.2.en && e.2.src == src && e.2.asid == asid

/-- An access of a request from the fabric, n bytes, by die 0's tables (spec/21, R334; spec/26, R385; assumption log, 25:
DESIGN CHOICE). -/
def peerAccess (s : State) (asid : BitVec 16) (n : Nat) (a : Acc) (ea : Word) : Except VErr Nat :=
  if ea.toNat % n != 0 || ea.extractLsb' 56 8 != 0 || ea.extractLsb' 48 8 == 0xFF then
    .error ⟨a.cause, 0, ea⟩
  else match walkDie s 0 asid ea.toNat with
    | none => .error ⟨a.cause, 0, ea⟩
    | some t =>
      if !t.permits a true || hbmEnd < t.pa + pageSize t.level then .error ⟨a.cause, 0, ea⟩
      else .ok (t.pa + ea.toNat % pageSize t.level)

/-- The locations of a packed list's elements, or a failure; an address past 2^64 is one (spec/05, R85; spec/26, R385,
R390). -/
def peerLocs (s : State) (asid : BitVec 16) (gbase : Word) (z : Nat) (offs : List Word) : Option (List Nat) :=
  let eas := offs.map fun o => gbase.toNat + o.toNat * z
  if eas.any fun a => decide (2 ^ 64 ≤ a) then none
  else match dwordLocs (peerAccess s asid z .load) (eas.map (BitVec.ofNat 64)) with
    | .error _ => none
    | .ok locs => some locs

/-- The answer to a packed list (spec/26, R385, R390). -/
def answerGather (s : State) (asid : BitVec 16) (gbase : Word) (w : Width) (offs : List Word) : ListReply :=
  let z := widthBytes w
  match peerLocs s asid gbase z offs with
  | none => .refused
  | some locs =>
    .values (locs.map fun l => BitVec.ofNat 64 (leNat (s.bytes l z))) (trueAt (locs.map fun l => s.readsPoison l z))

/-- The partitions whose ranges hold a location (spec/25, R369). -/
def ownersOf (s : State) (loc : Nat) : List Nat :=
  (([0, 1].flatMap fun d => (s.die d).ranges.map (·.2)).filter fun r =>
    r.en && decide (r.base ≤ loc ∧ loc < r.base + r.size * 2 ^ 21)).map (·.pid.toNat)

/-- The bytes of an answer (spec/26, R383; assumption log, 58: DESIGN CHOICE). -/
def FabricAns.bytes : FabricAns → Nat → List Byte
  | .list (.values vs _), z => vs.flatMap fun v => toLe z v.toNat
  | .list .refused, _ => []
  | .inbox (.stored off), _ => toLe 8 off.toNat
  | .inbox .full, _ => toLe 8 (2 ^ 64 - 1)
  | .inbox .refused, _ => []

/-- The answer to a request leaves for its chip, by the port of die 0's route (spec/26, R383, R384; assumption log, 25: DESIGN
CHOICE). -/
def answerTo (s : State) (chip : BitVec 12) (pids : List Nat) (z : Nat) (a : FabricAns) : State :=
  let port := routePort s 0 chip
  let s := sendVia s port chip (a.bytes z)
  { s with answers := s.answers ++ [⟨chip, port, pids, a, true⟩] }

/-- An answer has reached its chip (spec/26, R384). -/
def answered (s : State) (i : Nat) : State :=
  match s.answers[i]? with
  | some a => { s with answers := setAt s.answers i { a with owed := false } }
  | none => s

/-- A request from the fabric is performed, or refused whole (spec/26, R385, R390, R392). -/
def execFabricRequestArrival (r : FabricReq) (s : State) : Out :=
  match r.body with
  | .gather gbase w offs =>
    if imported s r.src r.asid then
      let pids := unionNat [] (((peerLocs s r.asid gbase (widthBytes w) offs).getD []).flatMap (ownersOf s))
      .next (answerTo s r.src pids (widthBytes w) (.list (answerGather s r.asid gbase w offs)))
    else .next (answerTo s r.src [] 0 (.list .refused))
  | .record ibox key hid w es =>
    if imported s r.src r.asid then
      match inboxPut s (peerAccess s r.asid 8) ibox key r.src hid w es with
      | .ok (s', a) =>
        let pids := match peerAccess s r.asid 8 .atomic ibox with
          | .ok loc => ownersOf s loc
          | .error _ => []
        .next (answerTo s' r.src pids 8 (.inbox a))
      | .error _ => .next (answerTo s r.src [] 0 (.inbox .refused))
    else .next (answerTo s r.src [] 0 (.inbox .refused))

end Sys2Proof.Machine
end

