-- ==== Sys2Proof/Machine/Sparse.lean ====
section
/-!
DEFINITION. Machine/Sparse.lean: sparse registers (spec/09, R162 to R170).
-/
namespace Sys2Proof.Machine

open Sys2Proof

/-- Sparse register z. -/
def State.zreg (s : State) (z : ZReg3) : ZReg := s.me.z.get z.toFin

/-- Writes a sparse register and its dirty bit (spec/02, R32). -/
def State.setZ (s : State) (z : ZReg3) (r : ZReg) : State :=
  s.updMe fun x => { x with z := x.z.set z.toNat r z.isLt }.touchF (4 + z.toNat)

/-- The most pairs a sparse register holds (spec/09, R162). -/
def zMax : Nat := 1024

/-- A list strictly ascends. -/
def ascending : List Nat → Bool
  | [] => true
  | [_] => true
  | a :: b :: l => decide (a < b) && ascending (b :: l)

/-! ### Images -/

/-- The image of a sparse register: coordinates, values, header (spec/09, R162). -/
def zImage (r : ZReg) : List Byte × List Byte × List Byte :=
  (padEight (r.pairs.flatMap fun e => toLe 4 e.1),
   padEight (r.pairs.flatMap fun e => toLe (widthBytes (fmtWidth r.fmt)) e.2.toNat),
   toLe 4 r.pairs.length ++ toLe 4 r.fmt.code.toNat ++ toLe 8 0)

/-- zst: coordinates, values, header; a line of memory lies in one page, so its dwords stand for its bytes (spec/09, R166). -/
def execZst (zd : ZReg3) (bs : SP) (s : State) : Out :=
  let base : Int := (s.sp bs).toNat
  let img := zImage (s.zreg zd)
  let l := unitsOf (base + 16) 8 (img.1 ++ img.2.1) ++ unitsOf base 8 img.2.2
  if (s.sp bs).toNat % 8 != 0 then .next (s.trapUnit 0x05 0 (s.sp bs))
  else if unitsBlocked s l then .next s
  else match storeUnits s false l with
    | (s, none) => .next s.advV
    | (s, some e) => .next (s.trapUnit e.code e.sub e.tval)

/-- zld; the bytes that pad the coordinates and the values are not looked at (spec/09, R165; assumption log, 44: DEDUCED). -/
def execZld (zd : ZReg3) (bs : SP) (s : State) : Out :=
  let base : Int := (s.sp bs).toNat
  if (s.sp bs).toNat % 8 != 0 then .next (s.trapV 0x05 0 (s.sp bs))
  else withReads s 8 (unitAddrs base 8 2) fun hd =>
    let w0 := hd.headD 0
    let n := (w0 % 2 ^ 32).toNat
    match Fmt.ofCode (w0.extractLsb' 32 5) with
    | none => illegalV s
    | some f =>
      need s (decide (n ≤ zMax) && w0.extractLsb' 37 27 == 0 && hd.getLast? == some 0)
        (let nc := (n + 1) / 2
         let z := widthBytes (fmtWidth f)
         withReads s 8 (unitAddrs (base + 16) 8 (nc + (n * z + 7) / 8)) fun ws =>
           let crd := (padTake 0 n (halves (ws.take nc))).map BitVec.toNat
           let val := chunks z n ((ws.drop nc).flatMap fun x => toLe 8 x.toNat)
           need s (ascending crd) (.next (s.setZ zd ⟨f, crd.zip val⟩).advV))

/-! ### Merging -/

/-- The merge of two ascending pair lists: the coordinates of either, with what each side holds there (spec/09, R167). -/
def zMerge : List (Nat × Word) → List (Nat × Word) → List (Nat × Option Word × Option Word)
  | [], bs => bs.map fun b => (b.1, none, some b.2)
  | a :: as, bs => go a (zMerge as) bs
where
  /-- Places the pair a before the rest. -/
  go (a : Nat × Word) (rest : List (Nat × Word) → List (Nat × Option Word × Option Word)) :
      List (Nat × Word) → List (Nat × Option Word × Option Word)
    | [] => (a.1, some a.2, none) :: rest []
    | b :: bs =>
      if a.1 < b.1 then (a.1, some a.2, none) :: rest (b :: bs)
      else if a.1 = b.1 then (a.1, some a.2, some b.2) :: rest bs
      else (b.1, none, some b.2) :: go a rest bs

/-- The coordinates that both sides hold. -/
def zBoth (l : List (Nat × Option Word × Option Word)) : List (Nat × Option Word × Option Word) :=
  l.filter fun e => e.2.1.isSome && e.2.2.isSome

/-- The format checks of zadd and zmul: the stored codes stand for fmt.a and fmt.b (spec/09, R164). -/
def zChk (fa fb : Fmt) (x : FW) : List FwChk :=
  [(1, if isRes fa then fb == fa else !isRes fb), chkD x fun f => if isRes fa then f == fa else !isRes f, chkRm x]

/-- zadd and zmul (spec/09, R164, R167). -/
def zArith (s : State) (zd za zb : ZReg3) (fs : SP) (op : RedOp) (both : Bool) : Out :=
  let fw := s.fw fs
  let a := s.zreg za
  let b := s.zreg zb
  withFmt s fw (zChk a.fmt b.fmt fw)
    (let all := zMerge a.pairs b.pairs
     let l := if both then zBoth all else all
     let one (e : Nat × Option Word × Option Word) : Deliv := match e.2 with
       | (some x, some y) => redStep op fw.fd fw.frm fw.sat (x, a.fmt) (y, b.fmt)
       | (some x, none) => convert a.fmt fw.fd fw.frm fw.sat 0 x
       | (none, some y) => convert b.fmt fw.fd fw.frm fw.sat 0 y
       | (none, none) => (0, 0)
     let rs := l.map one
     need s (decide (l.length ≤ zMax))
       (.next ((s.setZ zd ⟨fw.fd, (l.map (·.1)).zip (rs.map (·.1))⟩).raiseList (indexed (rs.map (·.2)))).advV))

/-- zadd (spec/09, R167). -/
def execZadd (zd za zb : ZReg3) (fs : SP) (s : State) : Out := zArith s zd za zb fs .add false

/-- zmul (spec/09, R167). -/
def execZmul (zd za zb : ZReg3) (fs : SP) (s : State) : Out := zArith s zd za zb fs .mul true

/-- zint (spec/09, R167). -/
def execZint (vd : VReg5) (za zb : ZReg3) (s : State) : Out :=
  let l := (zBoth (zMerge (s.zreg za).pairs (s.zreg zb).pairs)).map fun e => BitVec.ofNat 64 e.1
  need s (decide (l.length ≤ vlmax s s.cur .w32)) (unitDone (s.setVl l.length .w32) vd .w32 l [])

/-! ### To and from vectors -/

/-- A value counts as zero: ±0 and residue 0; no NaN or NaR (spec/09, R168). -/
def isZeroIn (f : Fmt) (x : Word) : Bool := (readVal f x).isZero

/-- The new pairs of zfrom: element, coordinate, pattern (spec/09, R168). -/
def zNew (s : State) (x : ZFrom) (fw : FW) : List (Nat × Int × Word) :=
  let act := s.unitActive x.pm
  let a := velems (s.vreg x.va) (fmtWidth fw.fa) s.vl
  match x.vb with
  | some vb =>
    ((act.zip (indexed (a.zip (velems (s.vreg vb) (fmtWidth fw.fb) s.vl)))).filter (·.1)).map fun e =>
      (e.2.1, intOf fw.fa e.2.2.1, e.2.2.2)
  | none =>
    ((act.zip (indexed a)).filter fun e => e.1 && !isZeroIn fw.fa e.2.2).map fun e => (e.2.1, (e.2.1 : Int), e.2.2)

/-- zfrom (spec/09, R168). -/
def execZfrom (x : ZFrom) (s : State) : Out :=
  let fw := s.fw x.fs
  let src := if x.vb.isSome then fw.fb else fw.fa
  let chks := (if x.vb.isSome then [chkA fw isInt, chkB fw fun _ => true] else [chkA fw fun _ => true])
    ++ [chkD fw fun _ => true, chkRm fw]
  let ws := (if x.vb.isSome then [fmtWidth fw.fa, fmtWidth fw.fb] else [fmtWidth fw.fa]) ++ [fmtWidth fw.fd]
  withFmt s fw chks (withVl s ws
    (let new := zNew s x fw
     let old := if x.ap then (s.zreg x.zd).pairs else []
     let rs := new.map fun e => convert src fw.fd fw.frm fw.sat 0 e.2.2
     let crd := old.map (·.1) ++ new.map (·.2.1.toNat)
     need s ((new.all fun e => decide (0 ≤ e.2.1) && decide (e.2.1 < (2 ^ 32 : Nat))) && ascending crd
         && decide (crd.length ≤ zMax) && (!x.ap || (s.zreg x.zd).fmt == fw.fd))
       (.next ((s.setZ x.zd ⟨fw.fd, crd.zip (old.map (·.2) ++ rs.map (·.1))⟩).raiseList
         ((new.map (·.1)).zip (rs.map (·.2)))).advV)))

/-- zto.d (spec/09, R169). -/
def execZtoD (vd : VReg5) (za : ZReg3) (pm : PReg) (s : State) : Out :=
  let a := s.zreg za
  let w := fmtWidth a.fmt
  withVl s [w]
    (let rs := (List.range s.vl).map fun i => ((a.pairs.find? fun e => e.1 == i).map (·.2)).getD 0
     unitDone s vd w (unitElems s vd w ⟨pm, false⟩ rs) [])

/-- A run of a sparse register's coordinates or values from a pair offset (spec/09, R169). -/
def zRun (s : State) (vd : VReg5) (l : List Word) (w : Width) (o : Word) : Out :=
  let m := min (l.length - o.toNat) (vlmax s s.cur w)
  unitDone (s.setVl m w) vd w ((l.drop o.toNat).take m) []

/-- zto.c (spec/09, R169). -/
def execZtoC (vd : VReg5) (za : ZReg3) (xs : SP) (s : State) : Out :=
  zRun s vd ((s.zreg za).pairs.map fun e => BitVec.ofNat 64 e.1) .w32 (s.sp xs)

/-- zto.v (spec/09, R169). -/
def execZtoV (vd : VReg5) (za : ZReg3) (xs : SP) (s : State) : Out :=
  zRun s vd ((s.zreg za).pairs.map (·.2)) (fmtWidth (s.zreg za).fmt) (s.sp xs)

/-- zlen (spec/09, R170). -/
def execZlen (vd : VReg5) (za : ZReg3) (s : State) : Out :=
  unitDone s vd .w64 [BitVec.ofNat 64 (s.zreg za).pairs.length] []

end Sys2Proof.Machine
end

