-- ==== Sys2Proof/Machine/Fibre.lean ====
section
/-!
DEFINITION. Machine/Fibre.lean: fibre trees and decoder patterns: vldf (spec/09, R172 to R177).
-/
namespace Sys2Proof.Machine

open Sys2Proof

/-- Why the decoding of a structure stops: an illegal structure, a subtree beyond the room, an access that fails, an access
that waits. -/
inductive FStop where
  | illegal
  | big
  | err (e : VErr)
  | wait
deriving DecidableEq, Repr

/-- A read during decoding. -/
abbrev Fib (α : Type) := Except FStop α

/-- A condition on the structure (spec/09, R175). -/
def fNeed (c : Bool) : Fib Unit := if c then .ok () else .error .illegal

/-- Reads entry i of an array of z-byte entries; poison is a fault (spec/09, R175). -/
def fRead (s : State) (z : Nat) (base : Word) (i : Nat) : Fib Nat :=
  match vAccessMe s .load ((base.toNat : Int) + (i * z : Nat)) z with
  | .error e => .error (.err e)
  | .ok loc => if vBlocked s false loc z then .error .wait else .ok (vRead s loc z).toNat

/-- Reads n entries from entry i on. -/
def fReads (s : State) (z : Nat) (base : Word) (i n : Nat) : Fib (List Nat) :=
  (List.range n).mapM fun k => fRead s z base (i + k)

/-! ### Decoder patterns -/

/-- A prefix code: the code lengths' counts from length 1 and the symbols in code order (spec/09, R176). -/
structure DecTable where
  cnt : List Nat
  sym : List Nat
deriving DecidableEq, Repr

/-- Reads and checks a decoder pattern; its address need be no more than aligned for its fields (spec/01, R15; spec/09, R176;
assumption log, 41: DEDUCED). -/
def readDec (s : State) (k : Word) : Fib DecTable := do
  let kind ← fRead s 2 k 0
  let ver ← fRead s 2 k 1
  let len ← fRead s 4 k 1
  let pad ← fRead s 8 k 1
  fNeed (kind == 3 && ver == 1 && pad == 0)
  let m ← fRead s 2 (k + 16) 0
  let l ← fRead s 1 (k + 18) 0
  let z3 ← fRead s 1 (k + 19) 0
  let cnt ← fReads s 1 (k + 20) 0 16
  fNeed (z3 == 0 && decide (1 ≤ m ∧ m ≤ 256 ∧ 1 ≤ l ∧ l ≤ 16) && cnt.sum == m && (cnt.drop l).all (· == 0)
    && decide (((indexed cnt).map fun e => e.2 * 2 ^ (15 - e.1)).sum ≤ 2 ^ 16) && len == 20 + 2 * m)
  let sym ← fReads s 2 (k + 36) 0 m
  .ok ⟨cnt.take l, sym⟩

/-- Bit i of a coded stream (spec/09, R177). -/
def fBit (s : State) (b : Word) (i : Nat) : Fib Nat := do
  let x ← fRead s 1 b (i / 8)
  .ok (x / 2 ^ (i % 8) % 2)

/-- n bits from bit i, the first the most significant. -/
def fBits (s : State) (b : Word) : Nat → Nat → Nat → Fib Nat
  | _, 0, acc => .ok acc
  | i, n + 1, acc => do
    let x ← fBit s b i
    fBits s b (i + 1) n (2 * acc + x)

/-- One symbol from bit i: acc holds the bits read, first the first code of the length, syms the symbols left
(spec/09, R176, R177). -/
def fSymbol (s : State) (b : Word) : List Nat → List Nat → Nat → Nat → Nat → Fib (Nat × Nat)
  | [], _, _, _, _ => .error .illegal
  | n :: cnt, syms, first, acc, i => do
    let x ← fBit s b i
    let acc := 2 * acc + x
    if first ≤ acc ∧ acc < first + n then .ok ((syms[acc - first]?).getD 0, i + 1)
    else fSymbol s b cnt (syms.drop n) ((first + n) * 2) acc (i + 1)

/-- The coordinates of n coded children from bit i, after a previous coordinate + 1 of next; the bit after them
(spec/09, R177). -/
def fCoded (s : State) (t : DecTable) (b : Word) (ext : Nat) : Nat → Nat → Nat → Fib (List Nat × Nat)
  | 0, _, i => .ok ([], i)
  | n + 1, next, i => do
    let (sym, i) ← fSymbol s b t.cnt t.sym 0 0 i
    let gap ← if sym = 0xFFFF then fBits s b i 32 0 else .ok sym
    let i := if sym = 0xFFFF then i + 32 else i
    let c := next + gap
    fNeed (decide (c < ext))
    let (cs, stop) ← fCoded s t b ext n (c + 1) i
    .ok (c :: cs, stop)

/-! ### Levels -/

/-- A level of a fibre tree; dec: the code of a coded level (spec/09, R173). -/
structure FLevel where
  kind : Nat
  ext : Nat
  a : Word
  b : Word
  k : Word
  dec : Option DecTable
deriving DecidableEq, Repr

/-- The sum of the lengths of runs i to i + n − 1. -/
def runSum (s : State) (l : FLevel) (i n : Nat) : Fib Nat := do
  let xs ← (List.range n).mapM fun j => fRead s 4 l.b (2 * (i + j) + 1)
  .ok xs.sum

/-- The runs of a parent: start, length, first position (spec/09, R173, R175). -/
def runsOf (s : State) (l : FLevel) (p : Nat) : Fib (List (Nat × Nat × Nat)) := do
  let lo ← fRead s 4 l.a p
  let hi ← fRead s 4 l.a (p + 1)
  fNeed (decide (lo ≤ hi))
  let before ← runSum s l 0 (if lo < hi then lo else 0)
  let rs ← (List.range (hi - lo)).mapM fun j => do
    let st ← fRead s 4 l.b (2 * (lo + j))
    let n ← fRead s 4 l.b (2 * (lo + j) + 1)
    let k ← fRead s 4 l.k (lo + j)
    .ok (st, n, k)
  let ok := (rs.foldl (fun (acc : Bool × Nat) r => (acc.1 && r.2.2 == acc.2, acc.2 + r.2.1)) (true, before)).1
  fNeed ok
  .ok rs

/-- A position entry of a level: its position and, of a coded level, its bit offset. -/
def fEntry (s : State) (l : FLevel) (base : Word) (p : Nat) : Fib (Nat × Nat) := do
  if l.dec.isSome then
    let x ← fRead s 8 base p
    .ok (x % 2 ^ 32, x / 2 ^ 32)
  else
    let x ← fRead s 4 base p
    .ok (x, 0)

/-- The children of a parent between two position entries. -/
def fSpan (s : State) (l : FLevel) (base : Word) (p : Nat) : Fib (Nat × Nat) := do
  let lo ← fEntry s l base p
  let hi ← fEntry s l base (p + 1)
  fNeed (decide (lo.1 ≤ hi.1))
  .ok (lo.1, hi.1 - lo.1)

/-- The first position and the number of the children of parent p (spec/09, R173). -/
def spanOf (s : State) (l : FLevel) (p : Nat) : Fib (Nat × Nat) :=
  match l.kind with
  | 0 => .ok (p * l.ext, l.ext)
  | 1 => fSpan s l l.a p
  | 2 => fSpan s l l.b p
  | 3 => .ok (p, 1)
  | _ => do
    let rs ← runsOf s l p
    .ok ((rs.head?.map (·.2.2)).getD 0, (rs.map (·.2.1)).sum)

/-- The coordinate of child i over a parent's runs. -/
def runCoord : List (Nat × Nat × Nat) → Nat → Nat
  | [], _ => 0
  | r :: rs, i => if i < r.2.1 then r.1 + i else runCoord rs (i - r.2.1)

/-- The coordinates of children i to i + n − 1 of the cnt children of parent p, the first at position q; where the codes of a
parent end is checked when its last child is decoded (spec/09, R173, R175, R177; assumption log, 41: DEDUCED). -/
def coordsOf (s : State) (l : FLevel) (p q cnt i n : Nat) : Fib (List Nat) := do
  let cs ← match l.kind with
    | 0 => .ok ((List.range n).map fun j => i + j)
    | 1 => match l.dec with
      | none => fReads s 4 l.b (q + i) n
      | some t => do
        let lo ← fEntry s l l.a p
        let hi ← fEntry s l l.a (p + 1)
        let (cs, stop) ← fCoded s t l.b l.ext (i + n) 0 lo.2
        fNeed (i + n != cnt || stop == hi.2)
        .ok (cs.drop i)
    | 2 => do
      let per := (l.ext + 63) / 64
      let ws ← fReads s 8 l.a (p * per) per
      let marks := (indexed ws).flatMap fun e =>
        ((List.range 64).filter fun b => e.2.testBit b).map fun b => 64 * e.1 + b
      fNeed (marks.length == cnt && marks.all fun c => decide (c < l.ext))
      .ok ((marks.drop i).take n)
    | 3 => do
      let c ← fRead s 4 l.b p
      .ok [c]
    | _ => do
      let rs ← runsOf s l p
      .ok ((List.range n).map fun j => runCoord rs (i + j))
  fNeed (cs.all fun c => decide (c < l.ext))
  .ok cs

/-! ### Subtrees -/

/-- What the decoding of positions gives: lengths with level 1 first, leaves as position and coordinate, coordinates of the
level above. -/
structure FSub where
  lens : List (List Nat)
  leaves : List (Nat × Nat)
  outer : List Nat
deriving DecidableEq, Repr

/-- Joins what neighbours give. -/
def FSub.join (a b : FSub) : FSub := ⟨a.lens.zipWith (· ++ ·) b.lens, a.leaves ++ b.leaves, a.outer ++ b.outer⟩

/-- Nothing decoded, over d levels of lengths. -/
def FSub.none (d : Nat) : FSub := ⟨List.replicate d [], [], []⟩

/-- The subtree of a position with its coordinate, through the levels further in; its shape alone needs no coordinate
(spec/09, R174). -/
def under (s : State) (room : Nat) (shape : Bool) : List FLevel → Nat → Nat → Fib FSub
  | [], q, c => .ok ⟨[], [(q, c)], []⟩
  | l :: ls, p, c => do
    let (q, cnt) ← spanOf s l p
    if room < cnt then .error .big
    else
      let cs ← if shape then .ok (List.replicate cnt 0) else coordsOf s l p q cnt 0 cnt
      let subs ← (indexed cs).mapM fun e => under s room shape ls (q + e.1) e.2
      let t := subs.foldl FSub.join (FSub.none ls.length)
      .ok ⟨t.lens ++ [[cnt]], t.leaves, if ls = [] then [c] else t.outer⟩

/-- The slots that lengths take (spec/07, R130). -/
def FSub.slots (t : FSub) : Nat := levelSlots (t.lens.map fun l => ⟨l, false, false⟩)

/-- Whole level-0 positions from position i on, n at most, as long as they fit: the coordinates of one that does not are not
looked at; t: the positions so far (spec/09, R174, R175). -/
def topFrom (s : State) (elems slots q cnt : Nat) (l : FLevel) (ls : List FLevel) : Nat → Nat → FSub → Fib FSub
  | 0, _, t => .ok t
  | n + 1, i, t =>
    let room := max elems slots
    let full : Fib FSub := if t.leaves = [] ∧ t.lens.all (· == []) then .error .illegal else .ok t
    match under s room true ls i 0 with
    | .error .big => full
    | .error e => .error e
    | .ok u =>
      let t' := t.join u
      if elems < t'.leaves.length ∨ slots < t'.slots then full
      else do
        let cs ← coordsOf s l 0 q cnt (i - q) 1
        let u ← under s room false ls i (cs.headD 0)
        topFrom s elems slots q cnt l ls n (i + 1) (t.join u)

/-- A format record: value base, value format, oc, S, C, the levels (spec/09, R172). -/
structure FRecord where
  base : Word
  fmt : Fmt
  oc : Bool
  start : Nat
  count : Nat
  levels : List FLevel
deriving DecidableEq, Repr

/-- One level of the record (spec/09, R172, R173, R175). -/
def readLevel (s : State) (w : Nat → Word) : Fib FLevel := do
  let kind := (w 0 % 16).toNat
  let coded := (w 0).getLsbD 4
  fNeed (w 0 < 32 && decide (kind ≤ 4) && (!coded || kind == 1) && decide (1 ≤ (w 1).toNat ∧ (w 1).toNat ≤ 2 ^ 32)
    && (match kind with
      | 0 => w 2 == 0 && w 3 == 0 && w 4 == 0
      | 1 => coded || w 4 == 0
      | 3 => w 2 == 0 && w 4 == 0
      | _ => true))
  let dec ← if coded then (readDec s (w 4)).map some else .ok none
  .ok ⟨kind, (w 1).toNat, w 2, w 3, w 4, dec⟩

/-- The record of 25 words (spec/09, R172, R175). -/
def readFRecord (s : State) (ws : List Word) : Fib FRecord := do
  let w (i : Nat) : Word := (ws[i]?).getD 0
  fNeed (decide (1 ≤ (w 1).toNat ∧ (w 1).toNat ≤ 4) && (w 2) &&& 0x11F == w 2)
  match Fmt.ofCode ((w 2).setWidth 5) with
  | none => .error .illegal
  | some f =>
    let ls ← (List.range (w 1).toNat).mapM fun j => readLevel s fun k => w (5 + 5 * j + k)
    .ok ⟨w 0, f, (w 2).getLsbD 8, (w 3).toNat, (w 4).toNat, ls⟩

/-- The element room of a decoding: VLMAX at the smaller of the value width and 32 (spec/09, R174). -/
def fibreRoom (s : State) (w : Width) : Nat := vlmax s s.cur (if widthBits w < 32 then w else .w32)

/-- The elements that vd and vd + 1 can both hold: g × 2,048 bytes each, vd at the value width and vd + 1 at 32 bits
(spec/02, R18; spec/06, R105). -/
def fibreHolds (s : State) (w : Width) : Nat := min (vlmax s s.cur w) (vlmax s s.cur .w32)

/-- The whole decoding: the record, what was decoded, the values. A subtree fits when it is within the room and the two
registers can hold it (spec/02, R18; spec/09, R174; assumption log, 41: DEDUCED). -/
def decodeFibre (s : State) (vd : VReg5) (ws : List Word) : Fib (FRecord × FSub × List Nat) := do
  let r ← readFRecord s ws
  fNeed (decide (vd.toNat ≤ if r.oc then 29 else 30))
  match r.levels with
  | [] => .error .illegal
  | l :: ls =>
    let (q, cnt) ← spanOf s l 0
    fNeed (decide (q ≤ r.start ∧ r.start + r.count ≤ q + cnt))
    let elems := min (fibreRoom s (fmtWidth r.fmt)) (fibreHolds s (fmtWidth r.fmt))
    let slots := slotLimit s.me.gang (held s s.cur)
    let t ← topFrom s elems slots q cnt l ls (min r.count (max elems slots + 1)) r.start (FSub.none ls.length)
    let vals ← t.leaves.mapM fun e => fRead s (widthBytes (fmtWidth r.fmt)) r.base e.1
    .ok (r, t, vals)

/-- vldf; an access that fails leaves c.vs 0 (spec/09, R172 to R177). -/
def execVldf (vd va : VReg5) (s : State) : Out :=
  match decodeFibre s vd (velems (s.vreg va) .w64 25) with
  | .error .illegal => illegalV s
  | .error .big => illegalV s
  | .error (.err e) => .next (s.trapUnit e.code e.sub e.tval)
  | .error .wait => .next s
  | .ok (r, t, vals) =>
    let w := fmtWidth r.fmt
    let lv : List Level := t.lens.map fun l => ⟨l, false, false⟩
    let s := (s.setVl t.leaves.length w).setV vd ⟨w, vals.map (BitVec.ofNat 64), lv⟩
    let s := s.setV (vd + 1) ⟨.w32, t.leaves.map fun e => BitVec.ofNat 64 e.2, lv⟩
    .next (if r.oc && decide (2 ≤ r.levels.length) then s.setV (vd + 2) ⟨.w32, t.outer.map (BitVec.ofNat 64), []⟩
      else s).advV

end Sys2Proof.Machine
end

