-- ==== Sys2Proof/Machine/Float.lean ====
section
/-!
DEFINITION. Machine/Float.lean: the scalar floating-point group and fcvt (spec/05, R95 to R97).
-/
namespace Sys2Proof.Machine

open Sys2Proof

/-- The format code of a scalar floating-point format (spec/03, R50). -/
def ffFmt : FpFmt → Fmt
  | .fp16 => .fp16
  | .bf16 => .bf16
  | .fp32 => .fp32
  | .fp64 => .fp64

/-- Completes a scalar floating-point instruction: the result zero-extended in sd, the classes in c.flags (spec/02, R19;
spec/05, R81). -/
def fpDone (s : State) (sd : SReg) (r : Deliv) : Out := .next ((s.wr sd r.1).updMe fun x => x.raiseScalar r.2)

/-- An operand, from the low bits of its register. -/
def fpArg (s : State) (ff : FpFmt) (r : SReg) : Val := readVal (ffFmt ff) (s.rs r)

/-- A result of two operands, rounded once (spec/05, R95). -/
def fpOp (s : State) (ff : FpFmt) (rm : Rm) (sd sa sb : SReg) (f : Val → Val → Exact) : Out :=
  fpDone s sd (deliver (ffFmt ff) rm false (f (fpArg s ff sa) (fpArg s ff sb)))

/-- fadd (spec/05, R95). -/
def execFadd (ff : FpFmt) (rm : Rm) (sd sa sb : SReg) (s : State) : Out := fpOp s ff rm sd sa sb (addV rm)

/-- fsub (spec/05, R95). -/
def execFsub (ff : FpFmt) (rm : Rm) (sd sa sb : SReg) (s : State) : Out := fpOp s ff rm sd sa sb (subV rm)

/-- fmul (spec/05, R95). -/
def execFmul (ff : FpFmt) (rm : Rm) (sd sa sb : SReg) (s : State) : Out := fpOp s ff rm sd sa sb mulV

/-- fdiv (spec/05, R95). -/
def execFdiv (ff : FpFmt) (rm : Rm) (sd sa sb : SReg) (s : State) : Out := fpOp s ff rm sd sa sb divV

/-- fsqrt (spec/05, R95). -/
def execFsqrt (ff : FpFmt) (rm : Rm) (sd sa : SReg) (s : State) : Out :=
  fpDone s sd (deliver (ffFmt ff) rm false (sqrtV (fpArg s ff sa)))

/-- fmadd: sa × sb + sd (spec/05, R95). -/
def execFmadd (ff : FpFmt) (rm : Rm) (sd sa sb : SReg) (s : State) : Out :=
  fpOp s ff rm sd sa sb fun a b => fmaV rm a b (fpArg s ff sd)

/-- fmin (spec/04, R66; spec/05, R95). -/
def execFmin (ff : FpFmt) (sd sa sb : SReg) (s : State) : Out := fpOp s ff .rne sd sa sb (minMaxV false false)

/-- fmax (spec/04, R66; spec/05, R95). -/
def execFmax (ff : FpFmt) (sd sa sb : SReg) (s : State) : Out := fpOp s ff .rne sd sa sb (minMaxV true false)

/-- fmin.num (spec/04, R66; spec/05, R95). -/
def execFminNum (ff : FpFmt) (sd sa sb : SReg) (s : State) : Out := fpOp s ff .rne sd sa sb (minMaxV false true)

/-- fmax.num (spec/04, R66; spec/05, R95). -/
def execFmaxNum (ff : FpFmt) (sd sa sb : SReg) (s : State) : Out := fpOp s ff .rne sd sa sb (minMaxV true true)

/-- A comparison: 1 or 0 (spec/05, R96). -/
def fcmpOp (s : State) (ff : FpFmt) (c : Cond) (sd sa sb : SReg) : Out :=
  let r := compareV c (fpArg s ff sa) (fpArg s ff sb)
  fpDone s sd (if r.1 then 1 else 0, r.2)

/-- fcmp.eq (spec/05, R96). -/
def execFcmpEq (ff : FpFmt) (sd sa sb : SReg) (s : State) : Out := fcmpOp s ff .eq sd sa sb

/-- fcmp.lt (spec/05, R96). -/
def execFcmpLt (ff : FpFmt) (sd sa sb : SReg) (s : State) : Out := fcmpOp s ff .lt sd sa sb

/-- fcmp.le (spec/05, R96). -/
def execFcmpLe (ff : FpFmt) (sd sa sb : SReg) (s : State) : Out := fcmpOp s ff .le sd sa sb

/-- fcmp.un (spec/05, R96). -/
def execFcmpUn (ff : FpFmt) (sd sa sb : SReg) (s : State) : Out := fcmpOp s ff .un sd sa sb

/-- fcls (spec/05, R96). -/
def execFcls (ff : FpFmt) (sd sa : SReg) (s : State) : Out :=
  match fkind (ffFmt ff) with
  | .fp eb fb => .next (s.wr sd (BitVec.ofNat 64 (2 ^ classBit eb fb (s.rs sa).toNat)))
  | .int _ => .next s.adv
  | .res => .next s.adv

/-- A pattern of a format as a register holds it: sign- or zero-extended by the code (spec/05, R97). -/
def fmtExtend (f : Fmt) (w : Word) : Word :=
  match fkind f with
  | .int signed => BitVec.ofInt 64 (patInt (fmtBits f) signed w.toNat)
  | .fp _ _ => w
  | .res => w

/-- fcvt; it always clamps into an integer destination (spec/04, R70; spec/05, R97). -/
def execFcvt (dst src : Fmt) (rm : Rm) (sd sa : SReg) (s : State) : Out :=
  let r := convert src dst rm true 0 (s.rs sa)
  fpDone s sd (fmtExtend dst r.1, r.2)

end Sys2Proof.Machine
end

