-- ==== Sys2Proof/Machine/Front.lean ====
section
/-!
DEFINITION. Machine/Front.lean: the front accumulator (spec/10).
-/
namespace Sys2Proof.Machine

open Sys2Proof

/-! ### Configuration -/

/-- What happens to an arrival that a full front neither dominates nor is dominated by (spec/10, R190). -/
inductive FPol where
  | refuse | evict | trap
deriving DecidableEq, Repr

/-- nk of a configuration word (spec/10, R185). -/
def cfgNk (c : Word) : Nat := (c.extractLsb' 24 3).toNat

/-- pkey of a configuration word. -/
def cfgPkey (c : Word) : Nat := (c.extractLsb' 32 3).toNat

/-- The direction of key j: 0 ignore, 1 minimise, 2 maximise. -/
def cfgDir (c : Word) (j : Nat) : Nat := c.toNat / 2 ^ (4 * j) % 4

/-- The format of key j, of INT32, UINT32 and FP32. -/
def cfgFmt (c : Word) (j : Nat) : Option Fmt :=
  match c.toNat / 2 ^ (4 * j + 2) % 4 with
  | 0 => some .int32
  | 1 => some .uint32
  | 2 => some .fp32
  | _ => none

/-- pol of a configuration word. -/
def cfgPol (c : Word) : Option FPol :=
  match (c.extractLsb' 28 2).toNat with
  | 0 => some .refuse
  | 1 => some .evict
  | 2 => some .trap
  | _ => none

/-- A directed key (spec/10, R185). -/
structure DKey where
  j : Nat
  fmt : Fmt
  isMax : Bool
deriving DecidableEq, Repr

/-- The directed keys of a configuration word. -/
def cfgKeys (c : Word) : List DKey :=
  (List.range (cfgNk c)).filterMap fun j =>
    match cfgFmt c j with
    | some f => if cfgDir c j = 0 then none else some ⟨j, f, cfgDir c j == 2⟩
    | none => none

/-- A valid configuration word (spec/10, R186). -/
def cfgValid (c : Word) : Bool :=
  let nk := cfgNk c
  c &&& 0xFFFFFFF8C8000000 == 0 && decide (1 ≤ nk ∧ nk ≤ 6)
    && ((List.range 6).all fun j =>
      if j < nk then (cfgFmt c j).isSome && cfgDir c j != 3 else c.toNat / 2 ^ (4 * j) % 16 == 0)
    && ((List.range nk).any fun j => cfgDir c j != 0)
    && match cfgPol c with
      | none => false
      | some .evict => decide (cfgPkey c < nk) && cfgDir c (cfgPkey c) != 0
      | some _ => cfgPkey c == 0

/-! ### Dominance -/

/-- The value of a directed key of a tuple (spec/10, R188). -/
def FTuple.key (t : FTuple) (k : DKey) : Val := readVal k.fmt (((t.keys[k.j]?).getD 0).setWidth 64)

/-- a is no worse than b on a key. -/
def noWorse (k : DKey) (a b : FTuple) : Bool :=
  if k.isMax then !ltV (a.key k) (b.key k) else !ltV (b.key k) (a.key k)

/-- a dominates b or is the same as b (spec/01, R17, Dom; spec/10, R188). -/
def covers (ks : List DKey) (a b : FTuple) : Bool := ks.all fun k => noWorse k a b

/-- a dominates b. -/
def dominates (ks : List DKey) (a b : FTuple) : Bool := covers ks a b && !covers ks b a

/-- A directed FP32 key is a NaN. -/
def hasNan (ks : List DKey) (t : FTuple) : Bool := ks.any fun k => (t.key k).isNan

/-! ### Offering -/

/-- The most tuples a front holds (spec/10, R184). -/
def fMax : Nat := 256

/-- What an offer gives: the tuples held, the flags; none: a TRAP overflow (spec/10, R189). -/
abbrev Offered := Option (List FTuple × Flags)

/-- a is worse than b, or the same, on the priority key, for a choice that prefers the later (spec/10, R190). -/
def worstFrom (k : DKey) : FTuple × Nat → List (FTuple × Nat) → FTuple × Nat
  | w, [] => w
  | w, e :: l => worstFrom k (if noWorse k w.1 e.1 then e else w) l

/-- The tuples after the eviction of the worst of the held and t (spec/10, R190). -/
def evictWorst (c : Word) (held : List FTuple) (t : FTuple) : List FTuple :=
  match (cfgKeys c).find? fun k => k.j == cfgPkey c, held ++ [t] with
  | some k, h :: l => (held ++ [t]).eraseIdx (worstFrom k (h, 0) ((indexed l).map fun e => (e.2, e.1 + 1))).2
  | _, _ => held

/-- Offers a tuple, which carries its tag, to the tuples held (spec/10, R189, R190). -/
def offer (c : Word) (held : List FTuple) (t : FTuple) : Offered :=
  let ks := cfgKeys c
  if hasNan ks t then some (held, fNK)
  else if held.any fun h => covers ks h t then some (held, 0)
  else
    let rest := held.filter fun h => !dominates ks t h
    if rest.length = fMax then
      match cfgPol c with
      | some .trap => none
      | some .evict => some (evictWorst c rest t, fOVF)
      | _ => some (rest, fOVF)
    else some (rest ++ [t], 0)

/-- Offers numbered tuples in order; step: the arrival counter gives the tag and advances. Answers the front, the flags and
the number that met a TRAP overflow (spec/10, R189, R193, R194). -/
def offerAll (step : Bool) : Front → List (Nat × FTuple) → Front × List (Nat × Flags) × Option Nat
  | f, [] => (f, [], none)
  | f, (i, t) :: l =>
    match offer f.cfg f.tuples (if step then { t with tag := f.ctr } else t) with
    | none => (f, [], some i)
    | some (held, fl) =>
      let r := offerAll step { f with tuples := held, ctr := if step then f.ctr + 1 else f.ctr } l
      (r.1, (i, fl) :: r.2.1, r.2.2)

/-! ### Registers -/

/-- Front register f. -/
def State.freg (s : State) (f : FReg2) : Front := s.me.f.get f.toFin

/-- Writes a front register and its dirty bit (spec/02, R32; spec/10, R184). -/
def State.setF (s : State) (f : FReg2) (r : Front) : State :=
  s.updMe fun x => { x with f := x.f.set f.toNat r f.isLt }.touchF f.toNat

/-- The tuples of candidate elements: key j in register va + j, zero above nk (spec/10, R193). -/
def candidates (s : State) (va : VReg5) (pay : List Word) (nk : Nat) : List FTuple :=
  let cols := (List.range nk).map fun j => velems (s.vreg (va + BitVec.ofNat 5 j)) .w32 s.vl
  (indexed pay).map fun e =>
    ⟨padTake 0 6 (cols.map fun l => ((l[e.1]?).getD 0).setWidth 32), e.2.setWidth 32, 0⟩

/-- The checks of frins and frtest after c.vl's (spec/10, R193, R195). -/
def frontOk (f : Front) (va : VReg5) : Bool := f.cfg != 0 && decide (va.toNat + cfgNk f.cfg ≤ 32)

/-- frcfg (spec/10, R192). -/
def execFrcfg (fd : FReg2) (k : SP) (s : State) : Out :=
  need s (cfgValid (s.sp k)) (.next (s.setF fd ⟨s.sp k, 0, []⟩).advV)

/-- frclr (spec/10, R192). -/
def execFrclr (fd : FReg2) (s : State) : Out :=
  .next (s.setF fd ⟨(s.freg fd).cfg, 0, []⟩).advV

/-- A TRAP overflow of front fd at number i, which c.vs holds (spec/02, R40; spec/10, R190). -/
def frontOverflow (s : State) (fd : FReg2) (i : Nat) : Out :=
  .next ((s.updMe fun x => { x with vs := BitVec.ofNat 32 i }).trapVAt (i != 0) 0x0B (fd.setWidth 8) 0)

/-- frins (spec/10, R193). -/
def execFrins (fd : FReg2) (va vb : VReg5) (pm : PReg) (s : State) : Out :=
  withVl s [.w32] (need s (frontOk (s.freg fd) va)
    (let vs := s.me.vs.toNat
     let stop := stopAt s
     let ts := candidates s va (velems (s.vreg vb) .w32 s.vl) (cfgNk (s.freg fd).cfg)
     let l := ((s.pbits pm s.vl).zip (indexed ts)).filter fun e => e.1 && decide (vs ≤ e.2.1 ∧ e.2.1 < stop)
     let r := offerAll true (s.freg fd) (l.map (·.2))
     let s' := if r.2.1 = [] then s else (s.setF fd r.1).raiseList r.2.1
     match r.2.2 with
     | some i => frontOverflow s' fd i
     | none => .next (if stop < s.vl then s'.stopV stop else s'.advV)))

/-- frmrg (spec/10, R194). -/
def execFrmrg (fd fa : FReg2) (s : State) : Out :=
  let d := s.freg fd
  let a := s.freg fa
  need s (d.cfg != 0 && a.cfg != 0 && (d.cfg ^^^ a.cfg).extractLsb' 0 27 == 0)
    (let r := offerAll false d ((indexed a.tuples).drop s.me.vs.toNat)
     let s' := if r.2.1 = [] then s else (s.setF fd r.1).raiseList r.2.1
     match r.2.2 with
     | some j => frontOverflow s' fd j
     | none => .next s'.advV)

/-- frtest (spec/10, R195). -/
def execFrtest (pd : PReg) (fa : FReg2) (va : VReg5) (m : VMask) (s : State) : Out :=
  let f := s.freg fa
  withVl s [.w32] (need s (frontOk f va)
    (let ks := cfgKeys f.cfg
     let ts := candidates s va (List.replicate s.vl 0) (cfgNk f.cfg)
     let bits := ts.map fun t => !hasNan ks t && !(f.tuples.any fun h => covers ks h t)
     .next (s.setP pd (trueAt (pickBits m.zm 0 s.vl 0 (s.unitActive m.pm) bits (s.pbits pd s.vl)))).advV))

/-- frrd (spec/10, R196). -/
def execFrrd (vd : VReg5) (fa : FReg2) (xs : SP) (s : State) : Out :=
  let f := s.freg fa
  let nk := cfgNk f.cfg
  need s (f.cfg != 0 && decide (vd.toNat + nk + 1 ≤ 31))
    (let o := (s.sp xs).toNat
     let m := min (f.tuples.length - o) (vlmax s s.cur .w32)
     let ts := (f.tuples.drop o).take m
     let put (s : State) (j : Nat) (g : FTuple → BitVec 32) : State :=
       s.setV (vd + BitVec.ofNat 5 j) ⟨.w32, ts.map fun t => (g t).setWidth 64, []⟩
     let s := (List.range nk).foldl (fun s j => put s j fun t => (t.keys[j]?).getD 0) (s.setVl m .w32)
     .next (put (put s nk (·.payload)) (nk + 1) (·.tag)).advV)

/-- frcnt (spec/10, R197). -/
def execFrcnt (vd : VReg5) (fa : FReg2) (s : State) : Out :=
  unitDone s vd .w64 [BitVec.ofNat 64 (s.freg fa).tuples.length] []

/-! ### Images -/

/-- A tuple in memory (spec/10, R187). -/
def FTuple.bytes (t : FTuple) : List Byte := (padTake 0 6 t.keys ++ [t.payload, t.tag]).flatMap fun x => toLe 4 x.toNat

/-- The image of a front: tuples, header (spec/10, R198). -/
def frontImage (f : Front) : List Byte × List Byte :=
  (f.tuples.flatMap FTuple.bytes,
   toLe 8 f.cfg.toNat ++ toLe 4 f.tuples.length ++ toLe 4 f.ctr.toNat ++ List.replicate 16 0)

/-- frst (spec/10, R199). -/
def execFrst (fd : FReg2) (bs : SP) (s : State) : Out :=
  let base : Int := (s.sp bs).toNat
  let img := frontImage (s.freg fd)
  let l := unitsOf (base + 32) 8 img.1 ++ unitsOf base 8 img.2
  if (s.sp bs).toNat % 8 != 0 then .next (s.trapUnit 0x05 0 (s.sp bs))
  else if unitsBlocked s l then .next s
  else match storeUnits s false l with
    | (s, none) => .next s.advV
    | (s, some e) => .next (s.trapUnit e.code e.sub e.tval)

/-- A tuple from its four dwords. -/
def tupleOf (ws : List Word) : FTuple :=
  let hs := (padTake 0 4 ws).flatMap fun x => [x.setWidth 32, x.extractLsb' 32 32]
  ⟨hs.take 6, (hs[6]?).getD 0, (hs[7]?).getD 0⟩

/-- No tuple of a list covers another (spec/10, R200). -/
def noneCovers (ks : List DKey) : List FTuple → Bool
  | [] => true
  | t :: l => (l.all fun u => !covers ks t u && !covers ks u t) && noneCovers ks l

/-- The tuples of an image that a configuration admits (spec/10, R200). -/
def tuplesOk (c : Word) (ts : List FTuple) : Bool :=
  let ks := cfgKeys c
  (ts.all fun t => ((t.keys.drop (cfgNk c)).all (· == 0)) && !hasNan ks t) && noneCovers ks ts

/-- frld (spec/10, R200). -/
def execFrld (fd : FReg2) (bs : SP) (s : State) : Out :=
  let base : Int := (s.sp bs).toNat
  if (s.sp bs).toNat % 8 != 0 then .next (s.trapV 0x05 0 (s.sp bs))
  else withReads s 8 (unitAddrs base 8 4) fun hd =>
    let w (i : Nat) : Word := (hd[i]?).getD 0
    let n := (w 1 % 2 ^ 32).toNat
    need s ((cfgValid (w 0) || (w 0 == 0 && n == 0)) && decide (n ≤ fMax) && w 2 == 0 && w 3 == 0)
      (withReads s 8 (unitAddrs (base + 32) 8 (4 * n)) fun ws =>
        let ts := (cutSegs (List.replicate n 4) ws).map tupleOf
        need s (tuplesOk (w 0) ts) (.next (s.setF fd ⟨w 0, (w 1).extractLsb' 32 32, ts⟩).advV))

end Sys2Proof.Machine
end

