-- ==== Sys2Proof/Machine/Matrix.lean ====
section
/-!
DEFINITION. Machine/Matrix.lean: the matrix engine: shape, tiles, the matrix queue, row products (spec/13).
-/
namespace Sys2Proof.Machine

open Sys2Proof

/-! ### Shape and tiles -/

/-- The tiles a hart holds (spec/13, R226). -/
def heldTiles (s : State) (h : Nat) : BitVec 8 := (s.hart h).lane.tmask

/-- A save of the hart that is queued releases one of the tiles. -/
def tilesLeave (s : State) (h : Nat) (mask : BitVec 8) : Bool :=
  (s.core (coreOf h)).mq.any fun m => m.hart == h && m.isSave && mask.getLsbD m.tile

/-- The hart that executes holds the tile, in block order. -/
def holdsTile (s : State) (t : TReg3) : Bool :=
  (heldTiles s s.cur).getLsbD t.toNat && !tilesLeave s s.cur (1 <<< t.toNat)

/-- A command of the hart on one of the tiles is under way (spec/13, R241). -/
def tilesBusy (s : State) (h : Nat) (mask : BitVec 8) : Bool :=
  (s.core (coreOf h)).mq.any fun m => m.hart == h && mask.getLsbD m.tile

/-- No other context of the core holds one of the tiles. -/
def tilesFree (s : State) (h : Nat) (mask : BitVec 8) : Bool :=
  (coreMates h).all fun k => heldTiles s k &&& mask == 0

/-- The held set of a hart becomes a mask; the tiles acquired are zero (spec/13, R226, R230). -/
def setTiles (s : State) (h : Nat) (mask : BitVec 8) : State :=
  let new := mask &&& ~~~(heldTiles s h)
  let s := s.updCore (coreOf h) fun c =>
    { c with tiles := Vector.ofFn fun i : Fin 8 => if new.getLsbD i.val then Tile.zero else c.tiles.get i }
  s.updHart h fun x => { x with lane := { x.lane with tmask := mask } }

/-- The fields that mshp checks (spec/13, R230). -/
def shapeOk (v : Word) : Bool :=
  (mshAf v).isSome && (mshBf v).isSome && decide (mshKz v ≤ 16) && (mshKz v == 0 || decide (mshP v ≤ 256))

/-- Completes mshp: c.msh is written (spec/13, R230; assumption log, 46: DEDUCED). -/
def mshpDone (s : State) (v : Word) : Out := .next (s.updMe fun x => { x with msh := v &&& mshMask }).advV

/-- The waiting list of a core's tiles without a hart. -/
def dropTileWait (s : State) (h : Nat) : State :=
  s.updCore (coreOf h) fun c => { c with tileWait := c.tileWait.filter fun e => e.1 != h % 8 }

/-- mshp: with acq the held set changes, at once or first come first served (spec/13, R230). -/
def execMshp (k : SP) (acq : Bool) (mask : BitVec 8) (s : State) : Out :=
  let v := s.sp k
  let h := s.cur
  need s (shapeOk v)
    (if !acq then mshpDone s v
     else
       let q := (s.core (coreOf h)).tileWait
       let mine := heldTiles s h
       if q.any fun e => e.1 == h % 8 then
         if (q.head?.map (·.1)) == some (h % 8) && tilesFree s h mask then mshpDone (setTiles (dropTileWait s h) h mask) v
         else .next s
       else if tilesBusy s h (mine &&& ~~~mask) || tilesLeave s h mask then .next s
       else if tilesFree s h mask then mshpDone (setTiles s h mask) v
       else if tilesBusy s h mine then .next s
       else .next ((setTiles s h 0).updCore (coreOf h) fun c => { c with tileWait := c.tileWait ++ [(h % 8, mask)] }))

/-! ### The queue -/

/-- What a tile will hold once the commands queued are done: kind and recorded shape (spec/13, R235, R236, R241). -/
def tileSoon (s : State) (h : Nat) (t : TReg3) : Bool × Word :=
  let c := s.core (coreOf h)
  let now := c.tiles.get t.toFin
  (c.mq.filter fun m => m.tile == t.toNat).foldl (fun k m => match m.work with
    | .load _ _ _ ix _ => (ix.isSome, m.msh)
    | .restore x => (x.compacted, x.shp)
    | .save _ _ => k
    | .mul _ _ _ _ _ => k) (now.compacted, now.shp)

/-- Room for one more command (spec/13, R231). -/
def queueFree (s : State) (h : Nat) : Bool :=
  let q := (s.core (coreOf h)).mq
  decide (q.length < 32) && decide ((q.filter fun m => m.hart == h).length < 16)

/-- A command of the hart that executes takes a number and enters the queue; its V-word completes (spec/13, R231). -/
def enqueue (s : State) (t : TReg3) (tr : List Held) (w : MWork) : Out :=
  let m : MCmd := { hart := s.cur, tile := t.toNat, msh := s.me.msh, blk := (s.me.block?.map (·.addr)).getD 0,
                    seq := s.me.blockSeq, user := s.vUser, tr := tr, num := s.me.nextNum, mark := (s.me.block?.map (·.mark)).getD 0,
                    fence := s.me.fencesBefore true, issued := false, work := w }
  .next ((s.updMe fun x => { x with nextNum := x.nextNum + 1 }).updCore (coreOf s.cur) fun c => { c with mq := c.mq ++ [m] }).advV

/-! ### Loads -/

/-- The elements a load will access: row and address, in element order (spec/13, R232, R233). -/
def loadEls (base stride m : Word) (rows : List Nat) : List (Nat × Int) :=
  rows.flatMap fun (r : Nat) =>
    (List.range (mshN m)).map fun (c : Nat) => (r, (base.toNat : Int) + r * sint stride + c * mshZ m)

/-- What the checks of a load leave: a trap, or the locations of its pages. -/
inductive LoadPlan where
  | stop (o : Out)
  | go (pages : List (Nat × Nat)) (locs : List Nat)

/-- The locations of the 64 KiB pages of addresses with their locations; a word that makes no access gives its page none while
another word of it does (spec/13, R233; spec/19, R300). -/
def pagesOf (els : List (Nat × Nat)) : List (Nat × Nat) :=
  els.foldl (fun m e =>
    if e.2 = lateLoc ∧ m.any (fun p => p.1 == e.1 / 65536) then m else mapSet (e.1 / 65536) (e.2 / 65536 * 65536) m) []

/-- The checks and translations of a load at dispatch; an element names its row in the fault record (spec/13, R233;
spec/21, R335, R336; assumption log, 46: DEDUCED). -/
def loadPlan (s : State) (z : Nat) (els : List (Option Nat × Int)) : LoadPlan :=
  let cs := els.map fun e => (e.1, e.2, idxCheck s s.cur s.vUser .load e.2 z)
  let bads := cs.filterMap fun e => match e.2.2 with
    | .bad x => some x
    | _ => none
  let parts := cs.filterMap fun e => match e.2.2 with
    | .part x => some x
    | _ => none
  let miss := cs.filterMap fun e => match e.2.2 with
    | .miss p => some (e.1, p)
    | _ => none
  match bads ++ parts, miss with
  | e :: _, _ => .stop (.next (s.trapV e.code e.sub e.tval))
  | [], e :: _ =>
    let low := miss.foldl (fun p x => min p x.2) e.2
    let s := writeRecord s s.cur 256 false (unionNat [] (miss.filterMap (·.1))) (miss.map (·.2))
    .stop (.next (s.trapV 0x06 1 (BitVec.ofNat 64 low)))
  | [], [] =>
    let oks := cs.filterMap fun e => match e.2.2 with
      | .ok loc => some (e.2.1.toNat, loc)
      | _ => none
    .go (pagesOf oks) (oks.map (·.2))

/-- The rows whose mask bit is 1, where masked (spec/13, R232). -/
def rowMask (s : State) (pm : PReg) : Option (List Nat) := if pm = 0 then none else some (trueAt (s.pbits pm 256))

/-- The translations of the pages that a command touches (spec/13, R233). -/
def pagesHeld (s : State) (pages : List (Nat × Nat)) : List Held :=
  pages.flatMap fun p => holds s s.cur true (BitVec.ofNat 64 (p.1 * 65536))

/-- mtld and mtldz from their checks on. -/
def loadOpM (s : State) (t : TReg3) (bs xs : SP) (pm : PReg) (ix : Option (List (BitVec 8))) : Out :=
  let m := s.me.msh
  let rows := rowMask s pm
  let els := loadEls (s.sp bs) (s.sp xs) m (loadRows m rows ix.isSome)
  match loadPlan s (mshZ m) (els.map fun e => (some e.1, e.2)) with
  | .stop o => o
  | .go pages locs =>
    if !queueFree s s.cur || locs.any fun loc => vBlocked s false loc (mshZ m) then .next s
    else enqueue s t (pagesHeld s pages) (.load (s.sp bs) (s.sp xs) rows ix pages)

/-- mtld (spec/13, R232, R233). -/
def execMtld (t : TReg3) (bs xs : SP) (pm : PReg) (s : State) : Out :=
  need s (holdsTile s t && (mshBf s.me.msh).isSome) (loadOpM s t bs xs pm none)

/-- Indices that a compacted tile admits (spec/13, R234). -/
def indicesOk (m : Word) (ix : List (BitVec 8)) : Bool :=
  (cutSegs (List.replicate (mshG m) (mshKz m)) (ix.map BitVec.toNat)).all fun l =>
    (l.all fun i => decide (i < 32)) && (l.zip l.tail).all fun e => decide (e.1 < e.2)

/-- kz and P as a compacted command needs them (spec/13, R228). -/
def compactOk (m : Word) : Bool := mshKz m != 0 && decide (mshP m ≤ 256)

/-- mtldz (spec/13, R234). -/
def execMtldz (t : TReg3) (vb : VReg5) (bs xs : SP) (pm : PReg) (s : State) : Out :=
  let m := s.me.msh
  let ix := (velems (s.vreg vb) .w8 (mshP m)).map fun x => x.setWidth 8
  need s (holdsTile s t && (mshBf m).isSome && compactOk m && indicesOk m ix) (loadOpM s t bs xs pm (some ix))

/-! ### Images -/

/-- The rows of an image: the index latch and the entries (spec/13, R243). -/
def tileImage (x : Tile) : List Byte :=
  toLe 8 (x.shp.toNat + if x.compacted then 2 ^ 63 else 0) ++ toLe 8 0 ++ padTake 0 256 x.idx
    ++ (List.range 65536).flatMap fun i => toLe 6 (mapGet 0 x.ents i).toNat

/-- An RA48 pattern in a sleeve entry: bit 47 is NaR (spec/13, R225). -/
def entryOf (w : Word) : BitVec 48 := if isNar .ra48 w.toNat then 0x800000000000 else w.setWidth 48

/-- The pattern of a sleeve entry, its channels reduced (spec/04, R68; spec/13, R243). -/
def entryWord (e : BitVec 48) : Word :=
  if e.getLsbD 47 then narPat .ra48 else resEnc .ra48 (crt .ra48 (e.setWidth 64).toNat)

/-- A tile from its image; none where the header is not allowed. The unused index bytes are taken as they are (spec/13, R243;
assumption log, 46: DEDUCED). -/
def tileOf (hd : List Word) (ws : List Word) : Option Tile :=
  let w0 := hd.headD 0
  let shp := w0 &&& 0x00001FFFFFFFFFFF
  let compacted := w0.getLsbD 63
  if w0 &&& 0x7FFFE00000000000 != 0 || shp &&& mshMask != shp || hd.getLast? != some 0 || (mshAf shp).isNone
      || (mshBf shp).isNone || (compacted && !compactOk shp) then none
  else
    let bs := ws.flatMap fun x => toLe 8 x.toNat
    let ents := (chunks 6 65536 (bs.drop 256)).map fun x => entryOf (entryWord (x.setWidth 48))
    some ⟨compacted, shp, (indexed ents).filter fun e => e.2 != 0, bs.take 256⟩

/-- mtld.i; the alignment of its base is checked before the tile (spec/13, R233, R243; assumption log, 46: DEDUCED). -/
def execMtldI (t : TReg3) (bs : SP) (s : State) : Out :=
  let base : Int := (s.sp bs).toNat
  let els := (List.range 49186).map fun (i : Nat) => (if i < 34 then none else some ((i - 34) / 192), base + (8 * i : Nat))
  if (s.sp bs).toNat % 8 != 0 then .next (s.trapV 0x05 0 (s.sp bs))
  else need s (holdsTile s t)
    (match loadPlan s 8 els with
     | .stop o => o
     | .go _ _ =>
       if !queueFree s s.cur then .next s
       else withReads s 8 (els.map (·.2)) fun ws =>
         match tileOf (ws.take 2) (ws.drop 2) with
         | none => illegalV s
         | some x => enqueue s t [] (.restore x))

/-- mtrel (spec/13, R226, R243). -/
def execMtrel (t : TReg3) (s : State) : Out :=
  let bit : BitVec 8 := 1 <<< t.toNat
  need s (holdsTile s t)
    (if tilesBusy s s.cur bit then .next s else .next (setTiles s s.cur (heldTiles s s.cur &&& ~~~bit)).advV)

/-- The addresses of a tile's image. -/
def imageAddrs (base : Word) : List Int := (List.range (tileImageBytes / 8)).map fun (i : Nat) => (base.toNat + 8 * i : Nat)

/-- mtrel.s: its checks, the alignment of its base first, its translations, and a place in the matrix queue; the image is
written and the tile released when the commands before it on the tile are done (spec/13, R231, R241, R243; spec/15, R264;
assumption log, 46: DEDUCED). -/
def execMtrelS (t : TReg3) (k : SP) (s : State) : Out :=
  let base := s.sp k
  if base.toNat % 8 != 0 then .next (s.trapV 0x05 0 base)
  else need s (holdsTile s t)
    (match planFrom s .store 8 0 ((imageAddrs base).map some) with
     | (_, some (_, e)) => .next (s.trapV e.code e.sub e.tval)
     | (locs, none) =>
       if !queueFree s s.cur || planBlocked s true 8 locs then .next s
       else
         let pages := pagesOf (((imageAddrs base).zip locs).filterMap fun e => e.2.map fun l => (e.1.toNat, l))
         enqueue s t (pagesHeld s pages) (.save base pages))

/-! ### Row products -/

/-- The source of a row product: a register's values, or n elements reserved of a bobbin (spec/13, R237). -/
def rowSrc (s : State) (a : VOrB) (w : Width) (n : Nat) : State × MSrc :=
  match a with
  | .vec v => (s, .vals (velems (s.vreg v) w n))
  | .bob b =>
    let first := (s.bob s.cur b).reserved
    (s.updBob s.cur b fun x => { x with reserved := x.reserved + n }, .bob ⟨b.toNat, first, n⟩)

/-- The checks of a bobbin operand of n elements (spec/13, R237; spec/14, R250). -/
def bobOk (s : State) (a : VOrB) (w : Width) (n : Nat) : Bool :=
  match a with
  | .vec _ => true
  | .bob b =>
    let x := s.bob s.cur b
    x.kind == .stream && x.ew == w && decide (n ≤ x.cap) && decide (x.reserved + n ≤ x.issued)

/-- mma (spec/13, R235, R237). -/
def execMma (vd : VReg5) (a : VOrB) (t : TReg3) (pm : PReg) (s : State) : Out :=
  let m := s.me.msh
  match mshAf m with
  | none => illegalV s
  | some f =>
    let w := fmtWidth f
    need s (holdsTile s t && !(tileSoon s s.cur t).1 && bobOk s a w (mshK m))
      (if !queueFree s s.cur then .next s
       else
         let r := rowSrc s a w (mshK m)
         let mask := if pm = 0 then none else some (trueAt (s.pbits pm (mshK m)))
         enqueue r.1 t [] (.mul vd r.2 mask false none))

/-- The index source of mmaz: its bobbin elements, or its register's indices, which pass the checks (spec/13, R236). -/
def ixOk (s : State) (m : Word) (ix : Option VOrB) : Bool :=
  match ix with
  | none => true
  | some (.bob b) => bobOk s (.bob b) .w8 (mshP m)
  | some (.vec v) => indicesOk m ((velems (s.vreg v) .w8 (mshP m)).map fun x => x.setWidth 8)

/-- The two bobbin operands of one command together stay within what is issued (spec/14, R250). -/
def bothOk (s : State) (a : VOrB) (ix : Option VOrB) (n k : Nat) : Bool :=
  match a, ix with
  | .bob b, some (.bob c) => b != c || decide ((s.bob s.cur b).reserved + n + k ≤ (s.bob s.cur b).issued)
  | _, _ => true

/-- mmaz (spec/13, R236, R237). -/
def execMmaz (vd : VReg5) (a : VOrB) (t : TReg3) (ix : Option VOrB) (pm : PReg) (s : State) : Out :=
  let m := s.me.msh
  match mshAf m with
  | none => illegalV s
  | some f =>
    let w := fmtWidth f
    let soon := tileSoon s s.cur t
    let fits := match a with
      | .vec _ => decide (mshKl m ≤ vlmax s s.cur w)
      | .bob _ => true
    need s (holdsTile s t && compactOk m && soon.1 && soon.2.extractLsb' 32 13 == m.extractLsb' 32 13 && fits
        && bobOk s a w (mshKl m) && ixOk s m ix && bothOk s a ix (mshKl m) (mshP m))
      (if !queueFree s s.cur then .next s
       else
         let r := rowSrc s a w (mshKl m)
         let mask := if pm = 0 then none else some (trueAt (s.pbits pm (mshKl m)))
         match ix with
         | none => enqueue r.1 t [] (.mul vd r.2 mask true none)
         | some x =>
           let q := rowSrc r.1 x .w8 (mshP m)
           enqueue q.1 t [] (.mul vd r.2 mask true (some q.2)))

/-! ### Issue and completion -/

/-- Replaces or removes command i of a core. -/
def setCmd (s : State) (core i : Nat) (m : Option MCmd) : State :=
  s.updCore core fun c => { c with mq := match m with
    | some m => c.mq.set i m
    | none => c.mq.eraseIdx i }

/-- A command is a row product. -/
def MCmd.isMul (m : MCmd) : Bool :=
  match m.work with
  | .mul _ _ _ _ _ => true
  | .load _ _ _ _ _ => false
  | .restore _ => false
  | .save _ _ => false

/-- Commands that name one tile run in order; a load waits for those before it, and they for a load (spec/13, R241). -/
def mayIssue (earlier : List MCmd) (m : MCmd) : Bool :=
  earlier.all fun e => e.tile != m.tile || (e.isMul && m.isMul && e.issued)

/-- The bobbin of a reservation. -/
def resvBob (s : State) (h : Nat) (r : Resv) : Bobbin := s.bob h (BitVec.ofNat 4 r.bob)

/-- The values of a source of hart h. -/
def MSrc.read (s : State) (h : Nat) : MSrc → List Word
  | .vals xs => xs
  | .bob r => streamElems s h (resvBob s h r) r.first r.len

/-- The bobbins that a command read free what it consumed (spec/14, R250). -/
def freeCmd (s : State) (m : MCmd) : State :=
  (m.resvs.map (·.bob)).foldl (fun s b => refree s m.hart (BitVec.ofNat 4 b)) s

/-- A command ends; a trap of the matrix engine follows (spec/02, R39; spec/13, R231, R237). -/
def cmdTrap (s : State) (core i : Nat) (m : MCmd) (code : BitVec 6) (tval : Word) : State :=
  engineTrap (freeCmd (setCmd s core i none) m) m.hart 3 code 0 tval m.blk m.seq

/-- The indices of a command that come from its own source; none where they fail the checks at issue (spec/13, R237). -/
def cmdIndices (s : State) (m : MCmd) : Option (List Nat) :=
  match m.work with
  | .mul _ _ _ _ (some src) =>
    let ix := (src.read s m.hart).map fun x => x.setWidth 8
    if indicesOk m.msh ix then some (ix.map BitVec.toNat) else none
  | .mul _ _ _ _ none => some (((s.core (coreOf m.hart)).tiles.get (BitVec.ofNat 3 m.tile).toFin).idx.map BitVec.toNat)
  | .load _ _ _ _ _ => some []
  | .restore _ => some []
  | .save _ _ => some []

/-- The logical elements of A that a row product reads: inside the shape, selected, with a mask bit of 1 (spec/13, R236,
R238). -/
def rowUse (m : Word) (mask : Option (List Nat)) (ix : Option (List Nat)) : List Nat :=
  let on (j : Nat) : Bool := (mask.map fun l => l.contains j).getD true
  match ix with
  | none => (List.range (mshK m)).filter on
  | some l => ((indexed (padTake 0 (mshP m) l)).map fun e => 32 * (e.1 / mshKz m) + e.2).filter on

/-- An element that a command reads from a bobbin is poisoned; of A none is read where the indices fail their checks (spec/13,
R231, R236 to R238; spec/25, R367). -/
def cmdPoisoned (s : State) (m : MCmd) : Bool :=
  let at' (r : Resv) (j : Nat) : Bool := decide (j < r.len) && streamPoisoned s m.hart (resvBob s m.hart r) (r.first + j) 1
  match m.work with
  | .mul _ src mask compacted ix =>
    (match ix with
      | some (.bob r) => (List.range r.len).any (at' r)
      | _ => false)
    || match src with
      | .bob r => ((cmdIndices s m).map fun l => (rowUse m.msh mask (if compacted then some l else none)).any (at' r)).getD false
      | .vals _ => false
  | .load _ _ _ _ _ => false
  | .restore _ => false
  | .save _ _ => false

/-- Command i of a core issues to its sleeve when what it waits for is there and the power caps allow it (spec/13, R237,
R240, R241; spec/25, R376). -/
def execMatrixIssue (core i : Nat) (s : State) : Out :=
  match (s.core core).mq[i]? with
  | none => .next s
  | some m =>
    let rs := m.resvs
    if s.withheld || s.halted || m.issued || !mayIssue ((s.core core).mq.take i) m
        || rs.any fun r => decide ((resvBob s m.hart r).arrived < r.first + r.len) then .next s
    else if cmdPoisoned s m then
      .next (cmdTrap s core i m 0x10 0)
    else if (cmdIndices s m).isNone then
      if (s.hart m.hart).holdsEngine m.user then .next s else .next (cmdTrap s core i m 0x03 0)
    else .next (setCmd s core i (some { m with issued := true }))

/-- The integer of an element of A; none for NaR (spec/13, R235). -/
def rowInt (f : Fmt) (x : Word) : Option Int := if isNar f x.toNat then none else some (intOf f x)

/-- The terms of a row product: physical row and value (spec/13, R235, R236, R238). -/
def rowTerms (m : Word) (f : Fmt) (xs : List Word) (mask : Option (List Nat)) (ix : Option (List Nat)) :
    List (Nat × Option Int) :=
  let on (j : Nat) : Bool := (mask.map fun l => l.contains j).getD true
  match ix with
  | none => ((indexed (padTake 0 (mshK m) xs)).filter fun e => on e.1).map fun e => (e.1, rowInt f e.2)
  | some l => (indexed (padTake 0 (mshP m) l)).filterMap fun e =>
      let j := 32 * (e.1 / mshKz m) + e.2
      if on j then some (e.1, rowInt f ((xs[j]?).getD 0)) else none

/-- One accumulator after a row product (spec/13, R235, R239). -/
def accumulate (ents : List (Nat × BitVec 48)) (terms : List (Nat × Option Int)) (c : Nat) (d : Word) : Word :=
  let ts := terms.map fun e => (e.2, entryWord (mapGet 0 ents (256 * e.1 + c)))
  if isNar .ra48 d.toNat || ts.any fun t => t.1.isNone || isNar .ra48 t.2.toNat then narPat .ra48
  else resEnc .ra48 (crt .ra48 d.toNat + (ts.map fun t => t.1.getD 0 * crt .ra48 t.2.toNat).sum)

/-- An element of B as it enters a sleeve (spec/13, R232). -/
def loadEntry (f : Fmt) (x : Word) : BitVec 48 :=
  if isNar f x.toNat then 0x800000000000 else entryOf (resEnc .ra48 (intOf f x))

/-- Command i of a core, issued, is done; the accumulators can be popped once what came before the command is performed
(spec/13, R232, R234, R235; spec/15, R265). -/
def execMatrixComplete (core i : Nat) (s : State) : Out :=
  match (s.core core).mq[i]? with
  | none => .next s
  | some m =>
    let t := (BitVec.ofNat 3 m.tile).toFin
    let setTile (s : State) (x : Tile) : State := s.updCore core fun c => { c with tiles := c.tiles.set t.val x t.isLt }
    if !m.issued || (m.isMul && !pushDone s m.hart m.num m.mark) then .next s
    else match m.work with
      | .restore x => .next (setTile (setCmd s core i none) x)
      | .save base pages =>
        let img := tileImage ((s.core core).tiles.get t)
        let store (s : State) (e : Int × Nat × List Byte) : State :=
          match withdrawnAt s m.hart (wordOf e.1) 8 with
          | some hd => countLate s m.hart hd 8
          | none => s.push m.hart ⟨true, !m.user, (s.hart m.hart).nextNum, true, true, false, m.tr, m.fence, some m.num⟩
              (heldLoc pages e.1.toNat) e.2.2
        let s := (unitsOf (base.toNat : Int) 8 img).foldl store (setCmd s core i none)
        .next (setTiles s m.hart (heldTiles s m.hart &&& ~~~((1 : BitVec 8) <<< m.tile)))
      | .load base stride rows ix pages =>
        let z := mshZ m.msh
        let els := loadEls base stride m.msh (loadRows m.msh rows ix.isSome)
        match els.find? fun e => s.poisonedFor m.hart true (heldLoc pages e.2.toNat) z with
        | some e => .next (cmdTrap s core i m 0x10 (wordOf e.2))
        | none =>
          let f := (mshBf m.msh).getD .int8
          let vals := els.map fun e => loadEntry f (BitVec.ofNat 64 (leNat (s.view m.hart true (heldLoc pages e.2.toNat) z)))
          let keys := (loadRows m.msh rows ix.isSome).flatMap fun r => (List.range (mshN m.msh)).map fun c => 256 * r + c
          .next (setTile (setCmd s core i none)
            ⟨ix.isSome, m.msh, (keys.zip vals).filter fun e => e.2 != 0, ix.getD []⟩)
      | .mul vd src mask compacted _ =>
        let f := (mshAf m.msh).getD .int8
        let ix := if compacted then some ((cmdIndices s m).getD []) else none
        let terms := rowTerms m.msh f (src.read s m.hart) mask ix
        let ents := ((s.core core).tiles.get t).ents
        let old := velems ((s.hart m.hart).v.get vd.toFin) .w64 256
        let new := (indexed old).map fun e => if e.1 < mshN m.msh then accumulate ents terms e.1 e.2 else e.2
        let s := s.updHart m.hart fun x => x.setV vd ⟨.w64, new, []⟩
        .next (freeCmd (setCmd s core i none) m)

end Sys2Proof.Machine
end

