-- ==== Sys2Proof/Machine/Network.lean ====
section
/-!
DEFINITION. Machine/Network.lean: events of a hart's traps and grants, arrival of packets, frame ticks, the spill rule,
invalidation of translations (spec/02, spec/12, spec/20, spec/21, spec/25).
-/
namespace Sys2Proof.Machine

open Sys2Proof

/-! ### Traps and grants -/

/-- A trap is taken (spec/02, R38, R39, R43). -/
def execTrapEntry (h : Nat) (t : TrapReq) (s : State) : Out :=
  if (s.hart h).run = .running then .next (takeTrap s h t) else .next s

/-- A pending asynchronous event is taken (spec/02, R38; spec/20, R323). -/
def execAsyncEventTaken (h : Nat) (s : State) : Out :=
  if (s.hart h).run = .running ∧ (s.hart h).asyncReady then .next (takeAsync s h) else .next s

/-- A context that holds no group renegotiates for its next U-mode V-word (spec/12, R211); `eventReady` says when the word has
reached dispatch. -/
def execResumption (h : Nat) (s : State) : Out :=
  let x := s.hart h
  if x.run = .running ∧ !x.kmode ∧ x.kq.isNone ∧ x.vq ≠ [] ∧ x.waitFor.isNone ∧ held s h = 0 ∧ vReady s h then
    .next (renegotiate s h (gneed x) 0 false).1
  else .next s

/-- The oldest waiter of a core is served (spec/12, R209). -/
def execWaiterServed (core : Nat) (s : State) : Out := .next (serveWaiter s core)

/-! ### Packets -/

/-- An addition at its point of performance, rounded there; it raises no flag (spec/08, R157; spec/21, R331). -/
def performAdd (s : State) (o : AddOp) : State :=
  let n := widthBytes (fmtWidth o.fmt)
  let old := BitVec.ofNat 64 (leNat (s.bytes o.loc n))
  s.setBytes o.loc (toLe n (redStep .add o.fmt o.rm o.sat (old, o.fmt) (o.val, o.fmt)).1.toNat)

/-- A packet is performed whole: a write clears the poison of what it covers, an addition does not (spec/21, R329, R332;
spec/25, R366, R367; assumption log, 5: DESIGN CHOICE). -/
def performPkt (s : State) (p : Pkt) : State :=
  match p.body with
  | .write cs => (s.setCells cs).clearPoison (cs.map (·.1))
  | .add os => os.foldl performAdd s

/-- Adds 1 to a 32-bit count that stays at its maximum (spec/00, R6). -/
def countUp (x : BitVec 32) : BitVec 32 := if x = 0xFFFFFFFF then x else x + 1

/-- The physical address that a fault record gives for a location; an SRAM has none (spec/25, R378; assumption log, 47:
DEDUCED). -/
def recordPa (loc : Nat) : Word := if loc < 2 ^ 52 then BitVec.ofNat 64 loc else 0

/-- A receiver on die d meets a poisoned packet of hart h: it counts and reports it (spec/21, R328; spec/25, R378). -/
def metPoison (s : State) (d h : Nat) (pa : Word) : State :=
  (s.updDie d fun d => { d with npois := countUp d.npois }).postFault
    { kind := 3, pid := (0 : BitVec 3) ++ s.pidOf h, hid := BitVec.ofNat 32 h, cause := 0, epc := 0, tval := pa, qpos := 0,
      handle := hartHandle s h }

/-- A poisoned packet is discarded, counted and reported (spec/21, R328; spec/25, R378). -/
def discardPkt (s : State) (p : Pkt) : State := metPoison s p.dst p.hart (recordPa (p.locs.headD 0))

/-- The next packet of a queue is performed, or discarded (spec/21, R326, R328, R329, R331). -/
def execPacketArrival (i : Nat) (s : State) : Out :=
  match s.net[i]? with
  | none => .next s
  | some p =>
    if !arrivable s i then .next s
    else
      let s := { s with net := s.net.eraseIdx i }
      .next (if p.poisoned then discardPkt s p else performPkt s p)

/-- A report without a hart. -/
def report (kind : BitVec 8) (tval : Word) : FaultRec :=
  { kind := kind, pid := 0xFF, hid := 0xFFFFFFFF, cause := 0, epc := 0, tval := tval, qpos := 0, handle := 0 }

/-- Who receives the read responses of an agent's step: a hart, for itself or an engine of its core, or a port that reads for
the host or for another chip; none where the step reads no memory for anyone (spec/21, R328; spec/25, R367). -/
def reader (s : State) : Agent → Option (Option Nat)
  | .sword h => some (some h)
  | .vword h _ => some (some h)
  | .event (.copyElementDelivery h _ _) => some (some h)
  | .event (.matrixComplete core i) => ((s.core core).mq[i]?).map fun m => some m.hart
  | .event (.hostBar2Access _ _) => some none
  | .event (.fabricRequestArrival _) => some none
  | _ => none

/-- A read response is discarded by its receiver, which counts and reports it (spec/21, R328; spec/25, R378; assumption log,
47: DEDUCED). -/
def metLoss (s : State) (who : Option Nat) (line : Nat) : State :=
  match who with
  | some h => metPoison s (dieOf h) h (recordPa (64 * line))
  | none =>
    (s.updDie (homeDie 0 (64 * line)) fun d => { d with npois := countUp d.npois }).postFault (report 3 (recordPa (64 * line)))

/-- The lines of the die network that one packet carries: n of a granule, from one on (spec/21, R325). -/
def packetLines (line n : Nat) : List Nat :=
  ((List.range (min n (4 - line % 4))).map (line + ·)).filter fun l => !localLoc (64 * l)

/-! ### Frame ticks and the spill rule -/

/-- The spill rule at a tick: a buffer full since the last tick enters spill mode, or the die reports it
(spec/25, R364, R365). -/
def spillTick (s : State) (d : Nat) : State :=
  let full := decide (4096 ≤ bufferFill s d)
  let x := s.die d
  let s := if full && x.fullAtTick && !x.spill then
      if x.sen then s.updDie d fun y => { y with spill := true } else s.postFault (report 6 0)
    else s
  s.updDie d fun y => { y with fullAtTick := full }

/-- A frame begins: c.ftick counts, quotas refill, the spill rule is applied, waiting launch words are read again
(spec/20, R322; spec/21, R325; spec/22, R356; spec/25, R364). -/
def newFrame (s : State) (next : Word) : State :=
  let s := { s with ftick := s.ftick + 1, nextTick := next, tickHeld := false }
  let s := (s.updDie 0 fun d => { d with used := [] }).updDie 1 fun d => { d with used := [] }
  wakeLwait (spillTick (spillTick s 0) 1)

/-- A frame tick is sent, or held back (spec/20, R322; spec/21, R327). -/
def execFrameTick (s : State) : Out :=
  if holdsTick s then .next { s with tickHeld := true } else .next (newFrame s (s.nextTick + 2048))

/-- A held tick is sent once no flit holds it; the next frame lasts 2,048 cycles from then (spec/20, R322; spec/21, R327). -/
def execHeldTickRelease (s : State) : Out :=
  if s.tickHeld && !holdsTick s then .next (newFrame s (s.time + 2048)) else .next s

/-- A buffer leaves spill mode (spec/25, R364). -/
def execSpillModeExit (d : Nat) (s : State) : Out :=
  if spillOver s d then .next (s.updDie d fun x => { x with spill := false, ringFull := false }) else .next s

/-- A ring has filled: counted and reported (spec/25, R364, R365). -/
def execSpillRingFull (d : Nat) (s : State) : Out :=
  if ringFilled s d then
    .next ((s.updDie d fun x => { x with ringFull := true, spfull := countUp x.spfull }).postFault (report 6 0))
  else .next s

/-! ### Invalidation of translations -/

/-- Whether an invalidation removes a translation: of the page at vpn, of the ASID, every one (spec/21, R337). -/
def invalidates (x : Inval) (t : Held) : Bool :=
  match x.kind.toNat with
  | 0 => t.asid == x.asid && decide (t.va ≤ x.vpn.toNat * 65536 ∧ x.vpn.toNat * 65536 < t.va + pageSize t.level)
  | 1 => t.asid == x.asid
  | 2 => true
  | _ => false

/-- The cores of a die drop translations: from the slices, the contexts' tables and the walk caches (spec/21, R337). -/
def dropTlb (s : State) (d : Nat) (x : Inval) : State :=
  let keep (l : List TlbEntry) : List TlbEntry := l.filter fun t => !invalidates x t.held
  let all := x.kind == 2
  { s with
    cores := s.cores.map fun e =>
      if e.1 / 96 = d then
        (e.1, { e.2 with tlb := e.2.tlb.map keep, walks := e.2.walks.filter fun w => !(all || w.asid == x.asid) })
      else e,
    harts := s.harts.map fun e => if dieOf e.1 = d then (e.1, { e.2 with tlb := keep e.2.tlb }) else e }

/-- A write of the invalidation register; ignored while busy (spec/21, R337). -/
def startInval (s : State) (d : Nat) (kind : BitVec 3) (asid : BitVec 16) (vpn : BitVec 40) : State :=
  if (s.die d).inval.busy then s
  else
    let x : Inval := ⟨decide (kind.toNat < 3), kind, asid, vpn⟩
    let s := s.updDie d fun y => { y with inval := x }
    if x.busy then dropTlb s d x else s

/-- Invalidates a page of an ASID (spec/21, R337). -/
def execTlbInvalidatePage (d : Nat) (asid : BitVec 16) (vpn : BitVec 40) (s : State) : Out := .next (startInval s d 0 asid vpn)

/-- Invalidates every page of an ASID (spec/21, R337). -/
def execTlbInvalidateAsid (d : Nat) (asid : BitVec 16) (s : State) : Out := .next (startInval s d 1 asid 0)

/-- Invalidates every translation (spec/21, R337). -/
def execTlbInvalidateAll (d : Nat) (s : State) : Out := .next (startInval s d 2 0 0)

/-- A command or an access of a die's harts still holds a translation that an invalidation removes (spec/13, R233; spec/21,
R337). -/
def heldBack (s : State) (d : Nat) (x : Inval) : Bool :=
  (s.cores.any fun e => e.1 / 96 == d && e.2.mq.any fun m => m.tr.any (invalidates x))
    || (s.net.any fun p => p.src == d && p.tr.any (invalidates x))
    || s.harts.any fun e => dieOf e.1 == d && e.2.out.any fun p => p.tr.any (invalidates x)

/-- An invalidation completes once no command and no access holds an invalidated translation; what has been cached of it
meanwhile goes, so that a later access walks the tables anew (spec/21, R337). -/
def execInvalidationComplete (d : Nat) (s : State) : Out :=
  let x := (s.die d).inval
  if x.busy && !heldBack s d x then
    .next ((dropTlb s d x).updDie d fun y => { y with inval := { y.inval with busy := false } })
  else .next s

end Sys2Proof.Machine
end

