-- ==== Sys2Proof/Machine/Registers.lean ====
section
/-!
DEFINITION. Machine/Registers.lean: the configuration registers that the boot cluster reads and writes: their map, what a
write stores, the reads that clear a count (spec/00, R6, R7; spec/25, R362 and the chapters of each register).
-/
namespace Sys2Proof.Machine

open Sys2Proof

/-! ### Memory ranges -/

/-- The first byte past the HBM of a die; its first byte is that of the die before (spec/25, R362). -/
def dieHbm (d : Nat) : Nat × Nat := (d * 0x30_0000_0000, (d + 1) * 0x30_0000_0000)

/-- The size of a range in bytes. -/
def MemRange.bytes (r : MemRange) : Nat := r.size * 2 ^ 21

/-- A range may be enabled: in the die's HBM, disjoint from the other enabled ones, encrypted exactly when it is not the
host's (spec/25, R369). -/
def rangeOk (s : State) (d i : Nat) (r : MemRange) : Bool :=
  decide ((dieHbm d).1 ≤ r.base ∧ r.base + r.bytes ≤ (dieHbm d).2)
    && ((s.die d).ranges.all fun e => e.1 == i || !e.2.en
      || decide (r.base + r.bytes ≤ e.2.base ∨ e.2.base + e.2.bytes ≤ r.base))
    && ((r.ks == 0) == r.hv)

/-- The range that a write of one of its two words asks for (spec/25, R369). -/
def MemRange.written (r : MemRange) (second : Bool) (v : Word) : MemRange :=
  if second then
    { r with en := v.getLsbD 63, hv := v.getLsbD 62, ks := v.extractLsb' 40 5, pid := v.extractLsb' 32 5,
             size := (v.extractLsb' 0 18).toNat }
  else { r with base := (v.extractLsb' 21 31).toNat * 2 ^ 21 }

/-- A span is read under a key, now, that its contents are not under (spec/25, R370). -/
def loseSpan (now : Nat) (s : State) (p : Nat × Nat) : State := { s with lost := s.lost ++ [⟨p.1, p.2 - p.1, now⟩] }

/-- The parts of a span whose contents are under another key, the latest entries first; what no entry covers is in clear. -/
def otherKey (key b e : Nat) : List Keyed → List (Nat × Nat)
  | [] => if key = 0 ∨ e ≤ b then [] else [(b, e)]
  | x :: l =>
    let lo := max b x.base
    let hi := min e (x.base + x.size)
    if hi ≤ lo then otherKey key b e l
    else (if x.key = key then [] else [(lo, hi)]) ++ otherKey key b lo l ++ otherKey key hi e l

/-- A span comes under a key: what of its contents is under this one reads as it was written, what is under another one as the
cipher gives it (spec/25, R370). -/
def rekey (s : State) (base size key : Nat) : State :=
  (otherKey key base (base + size) s.keyed).foldl (loseSpan key) { s with lost := cutLost base (base + size) s.lost }

/-- A span comes under what a key slot of a die holds: nothing for slot 0; a slot without a key holds a pseudorandom one
(spec/25, R369, R370; assumption log, 12: DESIGN CHOICE). -/
def underSlot (s : State) (d slot base size : Nat) : State :=
  if slot = 0 then rekey s base size 0
  else match (s.die d).memKeys.find? fun e => e.1 == slot with
    | some e => rekey s base size (e.2 + 1)
    | none =>
      let s' := { s.updDie d (fun x => { x with memKeys := mapSet slot s.free x.memKeys }) with free := s.free + 1 }
      rekey s' base size (s.free + 1)

/-- A write of a memory range register: applied, applied with en at 0, or ignored whole (spec/25, R369, R370). -/
def writeRange (s : State) (d i : Nat) (second : Bool) (v : Word) : State :=
  let old := mapGet MemRange.reset (s.die d).ranges i
  let new := old.written second v
  let put (r : MemRange) : State := s.updDie d fun x => { x with ranges := mapSet i r x.ranges }
  if !new.en then put new
  else if rangeOk s d i new then
    if old.en && old.base == new.base && old.ks == new.ks && old.size == new.size then put new
    else underSlot (put new) d new.ks.toNat new.base new.bytes
  else if old.en then s
  else put { new with en := false }

/-- A write of a memory range register; none while the dies are in reset (spec/25, R369, R372). -/
def execRangeRegisterWrite (d i : Nat) (second : Bool) (v : Word) (s : State) : Out :=
  .next (if i < 64 ∧ !s.diesHeld then writeRange s d i second v else s)

/-! ### Clusters and cores -/

/-- A write of a cluster's partition register, ignored while a context is occupied; it restarts a cluster that was reset
(spec/18, R291; spec/25, R368). -/
def writePartition (s : State) (cl : Nat) (v : Word) : State :=
  if (List.range 64).any fun k => (s.hart (64 * cl + k)).lane.occ then s
  else s.updCluster cl fun c => { c with en := v.getLsbD 63, pid := v.extractLsb' 0 5, down := false }

/-- A write of a cluster's partition register; none while the dies are in reset (spec/25, R368, R372). -/
def execClusterPartitionWrite (cl : Nat) (v : Word) (s : State) : Out :=
  .next (if s.diesHeld then s else writePartition s cl v)

/-- A write of a cluster register (spec/18, R281; spec/22, R348; spec/25, R368; assumption log, 31: DEDUCED). -/
def writeCluster (s : State) (cl off : Nat) (v : Word) : State :=
  if off = 0 then writePartition s cl v
  else if off = 0x40 then s.updCluster cl fun c => { c with tps := v.extractLsb' 0 3 }
  else if off = 0x48 then
    let n := (v.extractLsb' 0 9).toNat
    if 1 ≤ n ∧ n ≤ 256 then s.updCluster cl fun c => { c with wlim := n } else s
  else s

/-- A write of a lane allocation table entry (spec/12, R205, R206). -/
def writeLane (s : State) (h : Nat) (v : Word) : State :=
  let g := v.extractLsb' 32 4
  let s := s.updHart h fun x =>
    { x with lane := { x.lane with wgt := v.extractLsb' 0 8, gcap := if 1 ≤ g.toNat ∧ g.toNat ≤ 8 then g else x.lane.gcap } }
  if v.getLsbD 24 then freeParked s h else s

/-- A record area at an offset would overlap an open stream buffer of the core (spec/21, R335). -/
def areaTaken (s : State) (core roff : Nat) : Bool :=
  (List.range 8).any fun k => (s.hart (8 * core + k)).b.toList.any fun b =>
    b.kind == .stream && decide (b.boff < roff + 289 ∧ roff < b.boff + b.bsz)

/-- A write of a record area register (spec/21, R335). -/
def writeRoff (s : State) (h : Nat) (v : Word) : State :=
  let r := (v.extractLsb' 0 15).toNat
  if r ≤ 32479 ∧ !areaTaken s (coreOf h) r then s.updHart h fun x => { x with roff := r } else s

/-- A write of a core register (spec/12, R205; spec/21, R335). -/
def writeCore (s : State) (core off : Nat) (v : Word) : State :=
  if 0x100 ≤ off ∧ off < 0x140 then writeLane s (8 * core + (off - 0x100) / 8) v
  else if 0x180 ≤ off ∧ off < 0x1C0 then writeRoff s (8 * core + (off - 0x180) / 8) v
  else s

/-! ### The die -/

/-- A write of a launch FIFO's register (spec/22, R342). -/
def writeFifo (x : Fifo) (v : Word) : Fifo :=
  { x with en := v.getLsbD 63, fq := v.extractLsb' 48 6, pid := v.extractLsb' 32 5, asid := v.extractLsb' 16 16 }

/-- A write of a queue's register (spec/22, R345). -/
def writeQueue (x : Queue) (v : Word) : Queue :=
  { x with en := v.getLsbD 63, pid := v.extractLsb' 32 5, pri := v.extractLsb' 0 3 }

/-- A write of a partition's limits (spec/22, R344). -/
def writeLimits (x : Die) (p : Nat) (v : Word) : Die :=
  let m := (v.extractLsb' 16 13).toNat
  let n := (v.extractLsb' 0 4).toNat
  { x with pmax := if 1 ≤ m ∧ m ≤ 4096 then mapSet p m x.pmax else x.pmax,
           dlim := if 1 ≤ n ∧ n ≤ 8 then mapSet p n x.dlim else x.dlim }

/-- A write of a quota register (spec/21, R324). -/
def writeQuota (x : Die) (n : Nat) (v : Word) : Die :=
  let q := (v.extractLsb' 0 20).toNat
  if 4 ≤ q ∧ q ≤ quotaMax n then { x with quota := mapSet n q x.quota } else x

/-- A write of the spill register: sen only with the ring in the die's HBM (spec/25, R365). -/
def writeSpill (x : Die) (d : Nat) (v : Word) : Die :=
  let b := (v.extractLsb' 26 26).toNat * 2 ^ 26
  { x with sbase := v.extractLsb' 26 26,
           sen := v.getLsbD 0 && decide ((dieHbm d).1 ≤ b ∧ b + 2 ^ 26 ≤ (dieHbm d).2) }

/-- A write of a tack channel's owner (spec/25, R368). -/
def Channel.written (c : Channel) (v : Word) : Channel := { c with en := v.getLsbD 63, pid := v.extractLsb' 0 5 }

/-- A write of eight bytes of the route table (spec/26, R381). -/
def writeRoutes (x : Die) (c : Nat) (v : Word) : Die :=
  { x with routes := (List.range 8).foldl (fun m i => mapSet (c + i) (v.extractLsb' (8 * i) 8 &&& 0x8F) m) x.routes }

/-- A write of a port register; a port that is off, or has no key or another one, is not up (spec/26, R382; assumption log,
49: DEDUCED). -/
def writePort (x : Port) (v : Word) : Port :=
  let ks := v.extractLsb' 32 8
  { x with en := v.getLsbD 63, ks := ks, up := x.up && v.getLsbD 63 && ks == x.ks }

/-- A write of die 0's package registers (spec/25, R376, R378; spec/26, R380, R385). -/
def writePackage (s : State) (off : Nat) (v : Word) : State :=
  if off = 0xC00 then
    let w := v.extractLsb' 0 12
    if w.toNat < 400 then s else { s with plim := if 2200 < w.toNat then 2200 else w }
  else if off = 0xC08 then { s with fen := v.getLsbD 63, chip := v.extractLsb' 0 12 }
  else if off = 0xC18 then
    let r := v.extractLsb' 0 32
    if (s.ringWr - r).toNat ≤ 4096 then { s with ringRd := r } else s
  else if 0xD00 ≤ off ∧ off < 0xD80 then s.updChan 2 (64 + (off - 0xD00) / 8) fun c => c.written v
  else if 0xB000 ≤ off ∧ off < 0xB200 then
    { s with imports := mapSet ((off - 0xB000) / 8) ⟨v.getLsbD 63, v.extractLsb' 48 12, v.extractLsb' 0 16⟩ s.imports }
  else s

/-- A write of a die register (spec/20 to spec/26, at each register). -/
def writeDie (s : State) (d off : Nat) (v : Word) : State :=
  if off = 0x800 then startInval s d (v.extractLsb' 60 3) (v.extractLsb' 40 16) (v.extractLsb' 0 40)
  else if off = 0x808 then s.updDie d fun x => { x with root := v &&& 0x000FFFFFFFFFFFF8 }
  else if off = 0x900 then s.updDie d fun x => writeSpill x d v
  else if 0xA00 ≤ off ∧ off < 0xBF8 then s.updChan d ((off - 0xA00) / 8) fun c => c.written v
  else if off = 0xC30 then writePreempt s d v
  else if 0x1000 ≤ off ∧ off < 0x1000 + 8 * 35 then s.updDie d fun x => writeQuota x ((off - 0x1000) / 8) v
  else if 0x2000 ≤ off ∧ off < 0x2100 ∧ off % 16 = 0 then updFifo s d ((off - 0x2000) / 16) fun x => writeFifo x v
  else if 0x3000 ≤ off ∧ off < 0x3200 then updQueue s d ((off - 0x3000) / 8) fun x => writeQueue x v
  else if 0x4000 ≤ off ∧ off < 0x40C0 then s.updDie d fun x => writeLimits x ((off - 0x4000) / 8) v
  else if 0x5000 ≤ off ∧ off < 0x5400 then writeRange s d ((off - 0x5000) / 16) (off % 16 = 8) v
  else if 0x8000 ≤ off ∧ off < 0x9000 then s.updDie d fun x => writeRoutes x (off - 0x8000) v
  else if 0xA000 ≤ off ∧ off < 0xA040 then
    s.updDie d fun x => { x with ports := mapSet ((off - 0xA000) / 8) (writePort (mapGet Port.reset x.ports ((off - 0xA000) / 8)) v) x.ports }
  else if d = 0 then writePackage s off v
  else s

/-- The register that an address of the configuration blocks names: of a die, of a cluster, of a core (spec/25, R362). -/
inductive RegAt where
  | die (d off : Nat)
  | cluster (cl off : Nat)
  | core (core off : Nat)

/-- The register at a physical address, where there is a block. -/
def regAt (pa : Nat) : Option RegAt :=
  let blk := pa - 0xF_FF00_0000_0000
  let d := blk / 0x100_0000
  let o := blk % 0x100_0000
  if pa < 0xF_FF00_0000_0000 ∨ 2 ≤ d ∨ pa % 8 ≠ 0 then none
  else if o < 0x10000 then some (.die d o)
  else if 0x10_0000 ≤ o ∧ o < 0x1C_0000 then
    let c := (o - 0x10_0000) / 0x10000
    let q := o % 0x10000
    if q < 0x1000 then some (.cluster (12 * d + c) q)
    else if q < 0x9000 then some (.core (96 * d + 8 * c + (q / 0x1000 - 1)) (q % 0x1000))
    else none
  else none

/-- A write of a dword at a physical address of the configuration blocks (spec/25, R362). -/
def writeReg (s : State) (pa : Nat) (v : Word) : State :=
  match regAt pa with
  | some (.die d off) => writeDie s d off v
  | some (.cluster cl off) => writeCluster s cl off v
  | some (.core core off) => writeCore s core off v
  | none => s

/-- A write to a configuration register; none while the dies are in reset (spec/00, R6, R7; spec/25, R362, R372). -/
def execRegisterWrite (pa : Nat) (v : Word) (s : State) : Out := .next (if s.diesHeld then s else writeReg s pa v)

/-! ### Reads that clear -/

/-- A read returns a dword. -/
def State.answer (s : State) (v : Word) : State := { s with bus := ⟨toLe 8 v.toNat, false⟩ }

/-- A read of the poisoned-packet count (spec/00, R6; spec/21, R328). -/
def readNpois (s : State) (d : Nat) : State :=
  (s.updDie d fun x => { x with npois := 0 }).answer ((s.die d).npois.setWidth 64)

/-- A read of the spill status register (spec/00, R6; spec/25, R365). -/
def readSpfull (s : State) (d : Nat) : State :=
  (s.updDie d fun x => { x with spfull := 0 }).answer
    (BitVec.ofBool (s.die d).spill ++ (0 : BitVec 11) ++ BitVec.ofNat 20 (ringFill s d) ++ (s.die d).spfull)

/-- A read of a port register (spec/00, R6; spec/26, R382). -/
def readRtry (s : State) (port : Nat) : State :=
  let x := mapGet Port.reset (s.die (port / 8)).ports (port % 8)
  (s.updDie (port / 8) fun d => { d with ports := mapSet (port % 8) { x with rtry := 0 } d.ports }).answer
    (BitVec.ofBool x.en ++ BitVec.ofBool x.up ++ (0 : BitVec 2) ++ x.peer ++ (0 : BitVec 8) ++ x.ks ++ x.rtry)

/-- A read of the fault ring's drop count (spec/00, R6; spec/25, R378). -/
def readFaultDrops (s : State) : State := { s with ringDrops := 0 }.answer (s.ringDrops.setWidth 64)

/-- A read of the poisoned-packet count of a die. -/
def execReadNpois (d : Nat) (s : State) : Out := .next (readNpois s d)

/-- A read of the spill status register of a die. -/
def execReadSpfull (d : Nat) (s : State) : Out := .next (readSpfull s d)

/-- A read of a port register. -/
def execReadRtry (port : Nat) (s : State) : Out := .next (readRtry s port)

/-- A read of the fault ring's drop count. -/
def execReadFaultDrops (s : State) : Out := .next (readFaultDrops s)

/-! ### Reads -/

/-- A dword from fields: each a value and its lowest bit. -/
def packWord (fs : List (Nat × Nat)) : Word := BitVec.ofNat 64 (fs.map fun e => e.1 * 2 ^ e.2).sum

/-- A bit as a number. -/
def bitNat (b : Bool) : Nat := if b then 1 else 0

/-- A lane allocation table entry as read; fr reads zero (spec/12, R205). -/
def laneWord (x : LaneEntry) : Word :=
  packWord [(x.tmask.toNat, 48), (x.gmask.toNat, 40), (x.want.toNat, 36), (x.gcap.toNat, 32), (x.wl.code.toNat, 28),
    (x.st.toNat, 26), (bitNat x.occ, 25), (x.wgt.toNat, 0)]

/-- A tack channel's owner as read (spec/25, R368). -/
def Channel.word (c : Channel) : Word := packWord [(bitNat c.en, 63), (c.pid.toNat, 0)]

/-- A memory range register as read (spec/25, R369). -/
def MemRange.word (r : MemRange) (second : Bool) : Word :=
  if second then packWord [(bitNat r.en, 63), (bitNat r.hv, 62), (r.ks.toNat, 40), (r.pid.toNat, 32), (r.size, 0)]
  else packWord [(r.base, 0)]

/-- A cluster register as read (spec/18, R281; spec/22, R348; spec/25, R368). -/
def clusterWord (s : State) (cl off : Nat) : Option Word :=
  let c := s.cluster cl
  if off = 0 then some (packWord [(bitNat c.en, 63), (c.pid.toNat, 0)])
  else if off = 0x40 then some (packWord [(c.tps.toNat, 0)])
  else if off = 0x48 then some (packWord [(c.wlim, 0)])
  else none

/-- A core register as read (spec/12, R205; spec/21, R335). -/
def coreWord (s : State) (core off : Nat) : Option Word :=
  if 0x100 ≤ off ∧ off < 0x140 then some (laneWord (s.hart (8 * core + (off - 0x100) / 8)).lane)
  else if 0x180 ≤ off ∧ off < 0x1C0 then some (packWord [((s.hart (8 * core + (off - 0x180) / 8)).roff, 0)])
  else none

/-- A package register of die 0's block as read (spec/25, R368, R376, R378; spec/26, R380, R385). -/
def packageWord (s : State) (off : Nat) : Option Word :=
  if off = 0xC00 then some (packWord [(s.plim.toNat, 0)])
  else if off = 0xC08 then some (packWord [(bitNat s.fen, 63), (s.chip.toNat, 0)])
  else if off = 0xC10 then some (packWord [(s.ringWr.toNat, 0)])
  else if off = 0xC18 then some (packWord [(s.ringRd.toNat, 0)])
  else if 0xD00 ≤ off ∧ off < 0xD80 then some (s.chan 2 (64 + (off - 0xD00) / 8)).word
  else if 0xB000 ≤ off ∧ off < 0xB200 then
    let x := mapGet Import.reset s.imports ((off - 0xB000) / 8)
    some (packWord [(bitNat x.en, 63), (x.src.toNat, 48), (x.asid.toNat, 0)])
  else none

/-- The invalidation register as read (spec/21, R337). -/
def invalWord (x : Inval) : Word :=
  packWord [(bitNat x.busy, 63), (x.kind.toNat, 60), (x.asid.toNat, 40), (x.vpn.toNat, 0)]

/-- A quota register as read (spec/21, R324). -/
def quotaWord (x : Die) (n : Nat) : Word :=
  packWord [(mapGet 0 x.used n, 32), (mapGet (quotaMax n) x.quota n, 0)]

/-- A launch FIFO's register as read (spec/22, R342). -/
def fifoWord (x : Fifo) : Word :=
  packWord [(bitNat x.en, 63), (x.fq.toNat, 48), (x.pid.toNat, 32), (x.asid.toNat, 16), (x.recs.length, 0)]

/-- A queue's register as read (spec/22, R345). -/
def queueWord (x : Queue) : Word :=
  packWord [(bitNat x.en, 63), (x.pid.toNat, 32), (x.recs.length, 16), (x.pri.toNat, 0)]

/-- A die register as read (spec/20 to spec/26, at each register). -/
def dieWord (s : State) (d off : Nat) : Option Word :=
  let x := s.die d
  if off = 0x800 then some (invalWord x.inval)
  else if off = 0x808 then some x.root
  else if off = 0x900 then some (packWord [(x.sbase.toNat, 26), (bitNat x.sen, 0)])
  else if 0xA00 ≤ off ∧ off < 0xBF8 then some (s.chan d ((off - 0xA00) / 8)).word
  else if off = 0xBF8 then some 0
  else if off = 0xC30 then
    some (packWord [(bitNat x.preempt.busy, 63), (x.preempt.hart.toNat, 32), (x.preempt.ch.toNat, 0)])
  else if 0x1000 ≤ off ∧ off < 0x1000 + 8 * 35 then some (quotaWord x ((off - 0x1000) / 8))
  else if 0x2000 ≤ off ∧ off < 0x2100 ∧ off % 16 = 0 then some (fifoWord (mapGet Fifo.reset x.fifos ((off - 0x2000) / 16)))
  else if 0x3000 ≤ off ∧ off < 0x3200 then some (queueWord (mapGet Queue.reset x.queues ((off - 0x3000) / 8)))
  else if 0x4000 ≤ off ∧ off < 0x40C0 then
    some (packWord [(mapGet 4096 x.pmax ((off - 0x4000) / 8), 16), (mapGet 8 x.dlim ((off - 0x4000) / 8), 0)])
  else if 0x5000 ≤ off ∧ off < 0x5400 then
    some ((mapGet MemRange.reset x.ranges ((off - 0x5000) / 16)).word (off % 16 = 8))
  else if 0x8000 ≤ off ∧ off < 0x9000 then
    some (packWord ((List.range 8).map fun i => ((mapGet 0 x.routes (off - 0x8000 + i)).toNat, 8 * i)))
  else if d = 0 then packageWord s off
  else none

/-- A read of a die register: a count that a read clears is cleared (spec/00, R6). -/
def readDie (s : State) (d off : Nat) : State :=
  if off = 0x810 then readNpois s d
  else if off = 0x908 then readSpfull s d
  else if 0x2000 ≤ off ∧ off < 0x2100 ∧ off % 16 = 8 then readDrops s d ((off - 0x2000) / 16)
  else if 0xA000 ≤ off ∧ off < 0xA040 then readRtry s (8 * d + (off - 0xA000) / 8)
  else if d = 0 ∧ off = 0xC20 then readFaultDrops s
  else match dieWord s d off with
    | some v => s.answer v
    | none => s

/-- A read by the boot cluster of a dword of the configuration blocks; of an address that no register has the spec says
nothing, and while the dies are in reset none answers (spec/00, R6, R7; spec/25, R362, R372). -/
def readReg (s : State) (pa : Nat) : State :=
  if s.diesHeld then s else
  match regAt pa with
  | some (.die d off) => readDie s d off
  | some (.cluster cl off) => ((clusterWord s cl off).map s.answer).getD s
  | some (.core core off) => ((coreWord s core off).map s.answer).getD s
  | none => s

/-- A fault record is posted, or counted as dropped (spec/25, R378). -/
def execFaultRecordPost (r : FaultRec) (s : State) : Out := .next (s.postFault r)

end Sys2Proof.Machine
end

