-- ==== Sys2Proof/Machine/Xmss.lean ====
section
/-!
DEFINITION. Machine/Xmss.lean: verification of a signature under XMSS-SHAKE256_20_256, by which Thimble accepts an image
(spec/25, R372; the function is that of SP 800-208 and RFC 8391: assumption log, 61: PRESUMED).

A public key is 4 bytes of identifier, the root and the seed, 32 bytes each; a signature is 4 bytes of index, 32 of
randomizer, 67 chain values and 20 values of the path to the root, 32 bytes each: 2,820 bytes.
-/
namespace Sys2Proof.Machine

open Sys2Proof

/-- A number as n bytes, the most significant first. -/
def bigEnd (n x : Nat) : List Byte := (natBytes x 0 n).reverse

/-- The hash of a kind: 0 of a chain step, 1 of two nodes, 2 of the message, 3 that makes keys and masks. -/
def keyedHash (kind : Nat) (key text : List Byte) : List Byte := shake256 (bigEnd 32 kind ++ key ++ text) 32

/-- Where a hash is used: its kind of address (0 one-time key, 1 tree over one key, 2 hash tree), then three words. -/
structure HashAt where
  kind : Nat
  a : Nat
  b : Nat
  c : Nat

/-- The address of a key (0) or of a mask (1, 2) there. -/
def HashAt.bytes (x : HashAt) (which : Nat) : List Byte :=
  List.replicate 12 0 ++ [x.kind, x.a, x.b, x.c, which].flatMap (bigEnd 4)

/-- The key or a mask there, under a seed. -/
def HashAt.draw (x : HashAt) (seed : List Byte) (which : Nat) : List Byte := keyedHash 3 seed (x.bytes which)

/-- Two byte strings added bit by bit. -/
def masked (x m : List Byte) : List Byte := x.zipWith (· ^^^ ·) m

/-- The node over two nodes. -/
def nodeOver (seed : List Byte) (at' : HashAt) (l r : List Byte) : List Byte :=
  keyedHash 1 (at'.draw seed 0) (masked l (at'.draw seed 1) ++ masked r (at'.draw seed 2))

/-- A chain of one-time key idx goes n steps on from step i. -/
def climb (seed : List Byte) (idx chain : Nat) : Nat → Nat → List Byte → List Byte
  | 0, _, x => x
  | n + 1, i, x =>
    let at' : HashAt := ⟨0, idx, chain, i⟩
    climb seed idx chain n (i + 1) (keyedHash 0 (at'.draw seed 0) (masked x (at'.draw seed 1)))

/-- The half-bytes of a byte string, the upper one first. -/
def halvesOf (bs : List Byte) : List Nat := bs.flatMap fun b => [b.toNat / 16, b.toNat % 16]

/-- The 67 chain positions of a digest: its half-bytes, and those of the sum of what they lack of 15. -/
def chainSteps (digest : List Byte) : List Nat :=
  let ds := halvesOf digest
  let lack := (ds.map fun d => 15 - d).sum
  ds ++ [lack / 256, lack / 16 % 16, lack % 16]

/-- One level of the tree over a one-time key: pairs give their nodes, one left over rises as it is. -/
def pairNodes (seed : List Byte) (idx height : Nat) : Nat → List (List Byte) → List (List Byte)
  | i, l :: r :: rest => nodeOver seed ⟨1, idx, height, i⟩ l r :: pairNodes seed idx height (i + 1) rest
  | _, l => l

/-- The leaf of a one-time public key, from its nodes of a height on, n levels at most. -/
def leafOfKey (seed : List Byte) (idx : Nat) : Nat → Nat → List (List Byte) → List Byte
  | 0, _, l => l.headD []
  | n + 1, height, l => leafOfKey seed idx n (height + 1) (pairNodes seed idx height 0 l)

/-- The root over a node of index idx at a height, by the nodes beside the path. -/
def rootOver (seed : List Byte) : Nat → Nat → List (List Byte) → List Byte → List Byte
  | _, _, [], x => x
  | height, idx, y :: ys, x =>
    let at' : HashAt := ⟨2, 0, height, idx / 2⟩
    rootOver seed (height + 1) (idx / 2) ys (if idx % 2 = 0 then nodeOver seed at' x y else nodeOver seed at' y x)

/-- Values of 32 bytes, n of them. -/
def valuesOf : Nat → List Byte → List (List Byte)
  | 0, _ => []
  | n + 1, bs => bs.take 32 :: valuesOf n (bs.drop 32)

/-- A number from bytes, the most significant first. -/
def bigNat (bs : List Byte) : Nat := bytesNat bs.reverse

/-- The identifier of XMSS-SHAKE256_20_256. -/
def xmssName : Nat := 0x12

/-- A signature of a message verifies under a public key (spec/25, R372). -/
def xmssVerify (publicKey message signature : List Byte) : Bool :=
  let root := (publicKey.drop 4).take 32
  let seed := publicKey.drop 36
  let idx := bigNat (signature.take 4)
  let digest := keyedHash 2 ((signature.drop 4).take 32 ++ root ++ bigEnd 32 idx) message
  let chains := (chainSteps digest).zip (valuesOf 67 (signature.drop 36))
  let ends := ((List.range 67).zip chains).map fun e => climb seed idx e.1 (15 - e.2.1) e.2.1 e.2.2
  let leaf := leafOfKey seed idx 7 0 ends
  decide (publicKey.length = 68 ∧ signature.length = 2820 ∧ bigNat (publicKey.take 4) = xmssName ∧ idx < 2 ^ 20)
    && rootOver seed 0 idx (valuesOf 20 (signature.drop 2180)) leaf == root

end Sys2Proof.Machine
end

