-- ==== Sys2Proof/Machine/Package.lean ====
section
/-!
DEFINITION. Machine/Package.lean: memory errors, failures that are not contained, ports, the host's accesses, keys, boot and
Thimble, power and reset (spec/25; spec/26, R382 to R384).
-/
namespace Sys2Proof.Machine

open Sys2Proof

/-! ### Memory errors -/

/-- The die and stack of a physical address of HBM (spec/25, R362). -/
def stackOf (pa : Nat) : Nat × Nat := (pa / 0x30_0000_0000, pa / 4096 % 4)

/-- Adds 1 to a count of a map. -/
def bumpAt (k : Nat) (m : List (Nat × Nat)) : List (Nat × Nat) := mapSet k (mapGet 0 m k + 1) m

/-- An uncorrectable error at a location: the line or word is poisoned, counted by its controller, and reported
(spec/25, R366, R378). -/
def poisonAt (s : State) (loc : Nat) : State :=
  let s := s.addPoison loc
  let s := if loc < hbmEnd then
      s.updDie (stackOf loc).1 fun d => { d with poisonedLines := bumpAt (stackOf loc).2 d.poisonedLines }
    else s
  s.postFault (report 4 (recordPa (poisonUnit loc)))

/-- An uncorrectable error (spec/25, R366). -/
def execUncorrectableError (loc : Nat) (s : State) : Out := .next (poisonAt s loc)

/-- A patrol scrub of a stack: a correctable error is corrected and counted, an uncorrectable one poisons its line
(spec/25, R366). -/
def execPatrolScrub (d stack : Nat) (found : List LineError) (s : State) : Out :=
  let one (s : State) (e : LineError) : State :=
    if stackOf e.pa != (d, stack) || decide (hbmEnd ≤ e.pa) then s
    else if e.uncorrectable then poisonAt s e.pa
    else s.updDie d fun x => { x with corrected := bumpAt stack x.corrected }
  .next (found.foldl one s)

/-! ### Failures that are not contained -/

/-- The partitions that a failure affects: its cluster's, or every one with a cluster on the die (spec/25, R377). -/
def failedPids (s : State) (u : FailedUnit) : List Nat :=
  let of (cls : List Nat) : List Nat := (cls.filter fun c => (s.cluster c).en).map fun c => (s.cluster c).pid.toNat
  match u with
  | .cluster cl => of [cl]
  | .die d => of ((List.range 12).map (12 * d + ·))

/-- An uncontained failure of a cluster's or a die's control state (spec/25, R377). -/
def execUncontainedFailure (u : FailedUnit) (s : State) : Out := .next (failPartitions s (failedPids s u))

/-- At 115 °C or on a rail fault all compute stops (spec/25, R376, R377). -/
def execThermalStop (s : State) : Out := .next { failPartitions s (List.range 32) with halted := true }

/-- The bridge fails (spec/25, R377). -/
def execBridgeFailure (s : State) : Out := .next (failPartitions s (List.range 32))

/-! ### Ports -/

/-- The partitions of the requests and records outstanding through a port (spec/26, R384). -/
def askedBy (s : State) (port : Nat) : List Nat := (s.requests.filter fun q => q.port.toNat == port).map (·.pid)

/-- The partitions of the answers on their way by a port (spec/26, R384). -/
def owedBy (s : State) (port : Nat) : List Nat :=
  (s.answers.filter fun a => a.owed && a.port.toNat == port).flatMap (·.pids)

/-- A route of a die is no longer valid (spec/26, R384). -/
def dropRoutes (s : State) (port d : Nat) : State :=
  s.updDie d fun x => { x with routes := x.routes.map fun e =>
    (e.1, if e.2.getLsbD 7 && (e.2.extractLsb' 0 4).toNat == port then e.2 &&& 0x7F else e.2) }

/-- What is on its way through a failed port never arrives (spec/26, R384). -/
def loseTraffic (s : State) (port : Nat) : State :=
  { s with requests := s.requests.filter fun q => q.port.toNat != port,
           answers := s.answers.map fun a => if a.port.toNat = port then { a with owed := false } else a }

/-- Changes a port. -/
def updPort (s : State) (port : Nat) (f : Port → Port) : State :=
  s.updDie (port / 8) fun d => { d with ports := mapSet (port % 8) (f (mapGet Port.reset d.ports (port % 8))) d.ports }

/-- A port fails: it is down, its routes are invalid, the partitions with a request, a record or an answer through it fail
(spec/26, R384). -/
def portFails (s : State) (port : Nat) : State :=
  let pids := askedBy s port ++ owedBy s port
  let s := updPort s port fun x => { x with up := false, fails := 0 }
  failPartitions (loseTraffic (dropRoutes (dropRoutes s port 0) port 1) port) pids

/-- A port fails, as when its far end has not answered for two frames (spec/26, R384; assumption log, 58: DESIGN CHOICE). -/
def execPortFailure (port : Nat) (s : State) : Out := .next (portFails s port)

/-- A flit of a port is retried, which is counted; the eighth retry in a row that fails is the port's failure (spec/26, R382
to R384). -/
def retried (s : State) (port : Nat) (ok : Bool) : State :=
  let n := (mapGet Port.reset (s.die (port / 8)).ports (port % 8)).fails + 1
  let s := updPort s port fun x => { x with rtry := countUp x.rtry, fails := if ok then 0 else n }
  if !ok && decide (8 ≤ n) then portFails s port else s

/-! ### The host -/

/-- A line lies in an enabled range that the host may reach (spec/25, R371). -/
def hostLine (s : State) (pa : Nat) : Bool :=
  let l := pa / 64 * 64
  [0, 1].any fun d => (s.die d).ranges.any fun e =>
    e.2.en && e.2.hv && decide (e.2.base ≤ l ∧ l + 64 ≤ e.2.base + e.2.bytes)

/-- A host access through BAR2: bytes of lines outside the host's ranges are discarded or read as zero; poison gives all
ones with the EP bit; none while PERST# is asserted (spec/25, R367, R371, R375). -/
def execHostBar2Access (off : Nat) (a : BarAccess) (s : State) : Out :=
  if s.perst then .next s else
  match a with
  | .write bs =>
    let cs := (cellsAt off bs).filter fun c => hostLine s c.1
    .next ((s.setCells cs).clearPoison (cs.map (·.1)))
  | .read n =>
    let ep := (List.range n).any fun i => hostLine s (off + i) && s.readsPoison (off + i) 1
    let one (i : Nat) : Byte := if ep then 0xFF else if hostLine s (off + i) then s.byte (off + i) else 0
    .next { s with bus := ⟨(List.range n).map one, ep⟩ }

/-! ### Keys -/

/-- The enabled ranges of a die under a key slot are now under what it holds (spec/25, R370). -/
def rekeySlot (s : State) (d slot : Nat) : State :=
  (s.die d).ranges.foldl (fun s e =>
    if e.2.en ∧ e.2.ks.toNat = slot then underSlot s d slot e.2.base e.2.bytes else s) s

/-- Thimble writes a new key into a slot (spec/25, R370). -/
def execKeyRequest (d slot : Nat) (s : State) : Out :=
  if 1 ≤ slot ∧ slot < 32 then
    .next (rekeySlot { s.updDie d (fun x => { x with memKeys := mapSet slot s.free x.memKeys }) with free := s.free + 1 }
      d slot)
  else .next s

/-- Thimble zeroises a slot (spec/25, R370). -/
def execKeyZeroise (d slot : Nat) (s : State) : Out :=
  if 1 ≤ slot ∧ slot < 32 then
    .next (rekeySlot (s.updDie d fun x => { x with memKeys := mapDel slot x.memKeys }) d slot)
  else .next s

/-- The encrypted ranges of a partition (spec/25, R369, R371). -/
def encryptedRanges (s : State) (pid : BitVec 5) : List MemRange := (rangesOf s pid).filter fun r => r.ks != 0

/-- Thimble unseals an object into the encrypted memory of a partition, under the key that SHAKE256 derives from the secret
the tenant encapsulated for the session; a tag that fails writes nothing (spec/25, R371). -/
def execSessionUnseal (r : UnsealReq) (s : State) : Out :=
  match s.sessions.find? fun e => e.1 == r.pid.toNat with
  | none => .next s
  | some (_, draw) =>
    match gcmOpen (shake256 (Config.encapOpen draw r.sealedKey) 32) r.iv (s.bytes r.src r.len) r.tag with
    | none => .next s
    | some bs =>
      if covered (encryptedRanges s r.pid) (r.dst + bs.length) r.dst 130 then .next (s.putBytes r.dst bs) else .next s

/-! ### Boot and Thimble -/

/-- The chain of measurements, from its first link (spec/25, R373). -/
def measured (t : Thimble) : List Byte := if t.measure = [] then shake256 Config.romAndFuses 64 else t.measure

/-- Extends the chain (spec/25, R373). -/
def Thimble.extend (t : Thimble) (x : List Byte) : Thimble :=
  { t with measure := shake256 (measured t ++ shake256 x 64) 64 }

/-- Thimble accepts an image (spec/25, R372). -/
def imageOk (x : BootImage) : Bool :=
  shake256 x.publicKey 32 == Config.fuseKeyHash && x.signature.length == 2820
    && xmssVerify x.publicKey x.bytes x.signature && decide (Config.fuseVersion ≤ x.version)

/-- The stage after one. -/
def BootState.after : BootState → BootState
  | .rom => .stage1
  | .stage1 => .delveloth
  | .delveloth => .delveloth
  | .stopped p => .stopped p

/-- Delveloth extends the chain (spec/25, R373). -/
def execMeasurementExtend (data : List Byte) (s : State) : Out := .next { s with thimble := s.thimble.extend data }

/-- Takes the next identity block, unless the step of the counter fails (spec/25, R374, R375). -/
def Thimble.takeBlock (t : Thimble) : Thimble :=
  let n := Config.fuseCounter + t.counter
  if t.noid then t
  else if 4096 ≤ n ∨ !Config.counterStep n then { t with noid := true, block := none }
  else { t with counter := t.counter + 1, block := some (n, 0) }

/-- A stage image is checked: accepted, measured and started, or boot stops; Thimble's ROM first takes the boot's identity
block (spec/25, R372 to R374). -/
def execBootStage (img : BootImage) (s : State) : Out :=
  match s.boot with
  | .delveloth => .next s
  | .stopped _ => .next s
  | b =>
    let t := if b = .rom then s.thimble.takeBlock else s.thimble
    .next (if imageOk img then { s with thimble := t.extend img.bytes, boot := b.after }
           else { s with thimble := t, boot := .stopped !s.diesHeld })

/-- An identity block with an index left (spec/25, R374, R375). -/
def Thimble.withIndex (t : Thimble) : Thimble :=
  match t.block with
  | some (_, i) => if i < 256 then t else t.takeBlock
  | none => t.takeBlock

/-- A new attestation tree, its root signed by the next identity index where there is one (spec/25, R375). -/
def Thimble.newTree (t : Thimble) : Thimble :=
  let t := t.withIndex
  let t := { t with trees := t.trees + 1, tree := some (t.trees, 0) }
  match t.block with
  | some (b, i) => { t with certified := some (b * 256 + i), block := some (b, i + 1) }
  | none => { t with certified := none }

/-- An attestation tree with an index left (spec/25, R375). -/
def Thimble.withTree (t : Thimble) : Thimble :=
  match t.tree with
  | some (_, i) => if i < 65536 then t else t.newTree
  | none => t.newTree

/-- What a report says of a partition: its clusters, ranges and channels (spec/25, R375; assumption log, 26: DESIGN
CHOICE). -/
def partitionBytes (s : State) (pid : Nat) : List Byte :=
  let cls := (List.range 24).filter fun c => (s.cluster c).en && (s.cluster c).pid.toNat == pid
  let rs := [0, 1].flatMap fun d => ((s.die d).ranges.map (·.2)).filter fun r => r.en && r.pid.toNat == pid
  let chs := (allChans s).filter fun e => (s.chan e.1 e.2).en && (s.chan e.1 e.2).pid.toNat == pid
  cls.flatMap (toLe 1) ++ (rs.flatMap fun r => toLe 8 r.base ++ toLe 8 r.bytes) ++ chs.flatMap fun e => toLe 1 e.1 ++ toLe 1 e.2

/-- Thimble signs a report on what it says of the package, with the next index of its tree: a nonce and an encapsulation key
stand in it (spec/25, R371, R375; assumption log, 26: DESIGN CHOICE). -/
def signReport (s : State) (content nonce key : List Byte) : State :=
  let t := s.thimble.withTree
  match t.tree with
  | none => s
  | some (n, i) =>
    let idSig := match t.certified with
      | some j => Config.identitySign n j ++ toLe 4 j
      | none => []
    let body := measured t ++ content ++ nonce ++ key ++ Config.treeRoot n ++ idSig
      ++ [BitVec.ofBool t.certified.isNone |>.setWidth 8]
    { s with thimble := { t with tree := some (n, i + 1) },
             reports := s.reports ++ [body ++ toLe 4 i ++ Config.xmssSign n i body] }

/-- A report on a partition, with the encapsulation key of a new session; the nonce has 32 bytes (spec/25, R371, R375). -/
def execAttestationReport (pid : Nat) (nonce : List Byte) (s : State) : Out :=
  if nonce.length ≠ 32 then .next s
  else
    .next (signReport { s with sessions := mapSet pid s.free s.sessions, free := s.free + 1 } (partitionBytes s pid) nonce
      (Config.encapKey s.free))

/-- The secret of a link session: the end with the lower chip number opens what the other encapsulated under its key, and the
other draws one for that key (spec/26, R383). -/
def linkSecret (s : State) (r : TrainReq) : List Byte :=
  if s.chip.toNat < r.peer.toNat then Config.encapOpen s.free r.sealedKey else Config.encapSecret s.free r.sealedKey

/-- A key of 256 bits from its bytes. -/
def keyOf (bs : List Byte) : BitVec 256 := BitVec.ofNat 256 (leNat bs)

/-- A port trains: Thimble presents a report, which carries its encapsulation key when its chip number is the lower, and what
encapsulates the secret under the peer's key otherwise (assumption log, 26: DESIGN CHOICE); with both reports accepted the
port takes the link key, starts its sequence and is up, when it is enabled and names a slot (spec/26, R382, R383). -/
def execPortTraining (port : Nat) (r : TrainReq) (s : State) : Out :=
  let p := port % 8
  let x := mapGet Port.reset (s.die (port / 8)).ports p
  let lower := decide (s.chip.toNat < r.peer.toNat)
  let s' := signReport { s with free := s.free + 1 } [] r.nonce
    (if lower then Config.encapKey s.free else Config.encapText s.free r.sealedKey)
  .next (s'.updDie (port / 8) fun d =>
    if r.ok && x.en && x.ks != 0 then
      { d with ports := mapSet p { x with up := true, peer := r.peer, seq := 0, fails := 0 } d.ports,
               linkKeys := mapSet x.ks.toNat (keyOf (shake256 (linkSecret s r) 32)) d.linkKeys }
    else { d with ports := mapSet p { x with up := false } d.ports })

/-! ### Power and reset -/

/-- The caps withhold issue slots, or cease to (spec/25, R376). -/
def execCurrentAndThermalCaps (c : CapEvent) (s : State) : Out :=
  match c with
  | .withhold => .next { s with withheld := true }
  | .allow => .next { s with withheld := false }

/-- PERST# is deasserted: the host link answers, with the launch FIFOs disabled (spec/25, R375). -/
def execPerstDeassertion (s : State) : Out :=
  let off (s : State) (d : Nat) : State :=
    s.updDie d fun x => { x with fifos := x.fifos.map fun e => (e.1, { e.2 with en := false }) }
  .next { off (off s 0) 1 with perst := false }

/-- A package reset: every field takes its reset value; the monotonic counter never steps back, and no tree is generated twice
(spec/00, R8; spec/25, R374, R375; assumption log, 48: DEDUCED). -/
def execPackageReset (s : State) : Out :=
  .next { State.reset with agenda := s.agenda, free := s.free, turn := s.turn,
                           thimble := { Thimble.reset with counter := s.thimble.counter, trees := s.thimble.trees } }

end Sys2Proof.Machine
end

