-- ==== Sys2Proof/Machine/Rings.lean ====
section
/-!
DEFINITION. Machine/Rings.lean: the rings of a trio: qput, qget, qeos (spec/02, R27; spec/12, R219, R220).
-/
namespace Sys2Proof.Machine

open Sys2Proof

/-- The registers a ring holds at most (spec/12, R216). -/
def capOf (w : Word) (j : Nat) : Nat := (w >>> (16 + 12 * j)).toNat % 16

/-- The consuming role of a ring. -/
def consOf (w : Word) (j : Nat) : Nat := (w >>> (23 + 12 * j)).toNat % 4

/-- Every producing role has posted its token (spec/12, R220). -/
def ringClosed (w : Word) (j : Nat) (g : Ring) : Bool :=
  (List.range 3).all fun r => !(ringPmask w j).getLsbD r || g.tokens.contains r

/-- The trio, role and ring of an instruction, else illegal operand; a role or ring that is not allowed is a ring protocol
error (spec/02, R27; spec/12, R220). -/
def withRing (s : State) (q : QReg2) (ok : Trio → Nat → Ring → Bool) (k : Trio → Nat → Ring → Out) : Out :=
  match trioOf s s.cur with
  | none => illegalV s
  | some (t, r) =>
    let g := t.rings.get q.toFin
    if capOf t.word q.toNat != 0 && ok t r g then k t r g else .next (s.trapV 0x12 (q.setWidth 8) 0)

/-- Replaces a ring of the trio, with its dirty bit (spec/12, R219). -/
def setRing (s : State) (t : Trio) (q : QReg2) (g : Ring) : State :=
  (updTrio s (coreOf s.cur) t.word fun u => { u with rings := u.rings.set q.toNat g q.isLt }).updMe fun x =>
    x.touchF (28 + q.toNat)

/-- The role may put to the ring (spec/12, R220). -/
def mayPut (q : QReg2) (t : Trio) (r : Nat) (g : Ring) : Bool :=
  (ringPmask t.word q.toNat).getLsbD r && !g.tokens.contains r

/-- qput (spec/12, R219, R220). -/
def execQput (q : QReg2) (va : VReg5) (s : State) : Out :=
  withRing s q (mayPut q) fun t _ g =>
    if capOf t.word q.toNat ≤ g.regs.length then .next s
    else .next ((setRing s t q { g with regs := g.regs ++ [s.vreg va] }).setV va VReg.empty).advV

/-- qget (spec/12, R219, R220; spec/06, R124). -/
def execQget (vd : VReg5) (q : QReg2) (pq : Bool) (s : State) : Out :=
  let post (s : State) (x : Word) : State :=
    if pq then s.updMe fun h => { h with rq := h.rq ++ [x], event := true } else s
  withRing s q (fun t r _ => consOf t.word q.toNat == r) fun t _ g =>
    if pq && decide (8 ≤ s.me.rq.length) then .next s
    else match g.regs with
      | v :: rest => .next (post ((setRing s t q { g with regs := rest }).setV vd v) 1).advV
      | [] =>
        if ringClosed t.word q.toNat g then .next (post ((setRing s t q g).setV vd VReg.empty) 0).advV else .next s

/-- qeos (spec/12, R219, R220). -/
def execQeos (q : QReg2) (s : State) : Out :=
  withRing s q (mayPut q) fun t r g => .next (setRing s t q { g with tokens := insertNat r g.tokens }).advV

end Sys2Proof.Machine
end

