-- ==== Sys2Proof/Machine/Routing.lean ====
section
/-!
DEFINITION. Machine/Routing.lean: expert routing: vmaxclr, vselk, vhist, vrank (spec/09, R178 to R182).
-/
namespace Sys2Proof.Machine

open Sys2Proof

/-- What a round that finds no candidate writes (spec/09, R179). -/
def noPick : Word := 0xFFFFFFFF

/-- The codes vmaxclr and vselk accept (spec/09, R178). -/
def pickFmt (f : Fmt) : Bool := isFp f || (isInt f && decide (16 ≤ fmtBits f))

/-- The greatest candidate that is not a NaN, the lowest index among equals: best so far (spec/09, R179). -/
def bestFrom (f : Fmt) : Option (Nat × Val) → List (Nat × Word) → Option (Nat × Val)
  | best, [] => best
  | best, e :: l =>
    let v := readVal f e.2
    let best' := if v.isNan then best else match best with
      | none => some (e.1, v)
      | some b => if beforeV b.2 v then some (e.1, v) else best
    bestFrom f best' l

/-- k rounds of the choice, each without the elements chosen before (spec/09, R179, R180). -/
def pickRounds (f : Fmt) : Nat → List (Nat × Word) → List (Option Nat)
  | 0, _ => []
  | k + 1, l =>
    match (bestFrom f none l).map (·.1) with
    | some i => some i :: pickRounds f k (l.filter fun e => e.1 != i)
    | none => none :: pickRounds f k l

/-- The first element number of each segment. -/
def segStarts : Nat → List Nat → List Nat
  | _, [] => []
  | i, n :: ns => i :: segStarts (i + n) ns

/-- The choices of each segment, k rounds each: element numbers, and the offsets written. -/
def segPicks (f : Fmt) (k : Nat) (lens : List Nat) (cand : List Bool) (es : List Word) : List Nat × List Word :=
  let rs := ((activeSegs cand lens es).zip (segStarts 0 lens)).flatMap fun e =>
    (pickRounds f k e.1).map fun (o : Option Nat) => (o, e.2)
  (rs.filterMap (·.1), rs.map fun e => match e.1 with
    | some i => BitVec.ofNat 64 (i - e.2)
    | none => noPick)

/-- vmaxclr (spec/09, R178, R179). -/
def execVmaxclr (vd va : VReg5) (pk : PReg) (dep : Dep) (fs : SP) (s : State) : Out :=
  let fw := s.fw fs
  let v := s.vreg va
  let w := fmtWidth fw.fa
  withFmt s fw [chkA fw pickFmt] (withVl s [w] (need s (structOk v dep s.vl)
    (let bits := s.pbits pk s.vl
     let r := segPicks fw.fa 1 (segLens v.levels s.vl dep.toNat) bits (velems v w s.vl)
     unitDone (s.setP pk ((trueAt bits).filter fun i => !r.1.contains i)) vd .w32 r.2 (redLevels v.levels dep))))

/-- vselk (spec/09, R178, R180). -/
def execVselk (vd va : VReg5) (pk : PReg) (dep : Dep) (pm : PReg) (fs : SP) (s : State) : Out :=
  let fw := s.fw fs
  let v := s.vreg va
  let w := fmtWidth fw.fa
  let k := s.me.k.toNat
  withFmt s fw [chkA fw pickFmt] (withVl s [w] (need s (structOk v dep s.vl)
    (let lens := segLens v.levels s.vl dep.toNat
     let r := segPicks fw.fa k lens (s.unitActive pm) (velems v w s.vl)
     let lv : List Level := if dep = 0 then []
       else ⟨lens.map fun _ => k, false, false⟩ :: v.levels.drop dep.toNat
     need s (decide (r.2.length ≤ vlmax s s.cur .w32) && levelsFit s lv)
       (unitDone (s.setP pk (unionNat [] r.1)) vd .w32 r.2 lv))))

/-- vhist; a count is a segment of one element, as a bucket of vpart is a segment (spec/09, R181; spec/07, R141). -/
def execVhist (x : VHist) (s : State) : Out :=
  let fw := s.fw x.fs
  let v := s.vreg x.va
  let w := fmtWidth fw.fa
  let n := x.dep.toNat
  let k := x.k1.toNat + 1
  withFmt s fw [chkA fw isInt] (withVl s [w] (need s (structOk v x.dep s.vl)
    (let lens := segLens v.levels s.vl n
     let es := velems v w s.vl
     let bs := (cutSegs lens ((s.unitActive x.pm).zip ((es.map (intOf fw.fa)).zip es))).flatMap (buckets k)
     let lv : List Level := if n = 0 then []
       else ⟨bs.map fun _ => 1, false, false⟩ :: ⟨lens.map fun _ => k, false, false⟩ :: v.levels.drop n
     need s ((n == 0 || decide (v.levels.length ≤ n + 1)) && decide (bs.length ≤ vlmax s s.cur .w32) && levelsFit s lv)
       (unitDone s x.vd .w32 (bs.map fun b => BitVec.ofNat 64 b.length) lv))))

/-- The rank of each active element among those before it in its segment (spec/09, R182). -/
def rankFrom (seen : List Word) : List (Bool × Word) → List Word
  | [] => []
  | (false, _) :: l => 0 :: rankFrom seen l
  | (true, a) :: l => BitVec.ofNat 64 (seen.filter (· == a)).length :: rankFrom (a :: seen) l

/-- vrank (spec/09, R182). -/
def execVrank (x : VScan) (s : State) : Out :=
  let fw := s.fw x.fs
  let v := s.vreg x.va
  let w := fmtWidth fw.fa
  withFmt s fw [chkA fw isInt] (withVl s [w, .w32] (need s (structOk v x.dep s.vl)
    (let rs := ((cutSegs (segLens v.levels s.vl x.dep.toNat) ((s.unitActive x.m.pm).zip (velems v w s.vl))).map
       (rankFrom [])).flatten
     unitDone s x.vd .w32 (unitElems s x.vd .w32 x.m rs) (keepLevels v.levels s.vl))))

end Sys2Proof.Machine
end

