-- ==== Sys2Proof/Machine/Saves.lean ====
section
/-!
DEFINITION. Machine/Saves.lean: vsave and vrest, and their images (spec/02, R23; spec/12, R221 to R223).
-/
namespace Sys2Proof.Machine

open Sys2Proof

/-! ### Images of registers -/

/-- The header word of a vector register (spec/02, R23). -/
def headerWord (v : VReg) : Word :=
  let edge := ((indexed v.levels).map fun e => ((if e.2.ci then 1 else 0) + (if e.2.co then 2 else 0)) * 4 ^ e.1).sum
  BitVec.ofNat 64 (v.levels.length * 2 ^ 38 + edge * 2 ^ 32 + v.wt.code.toNat * 2 ^ 30 + v.elems.length)

/-- The image of a vector register (spec/12, R222). -/
def vImage (v : VReg) : List Byte :=
  toLe 8 (headerWord v).toNat ++ (padTake 0 3 (v.levels.map (·.lens.length))).flatMap (toLe 4) ++ toLe 4 0
    ++ padEight ((v.levels.flatMap (·.lens)).flatMap (toLe 4)) ++ padEight v.bytes

/-- The image of a predicate register of n bits (spec/12, R222). -/
def pImage (n : Nat) (p : Pred) : List Byte :=
  toLe 8 n ++ (List.range (n / 64)).flatMap fun d => toLe 8 ((p.filter fun i => i / 64 == d).map fun i => 2 ^ (i % 64)).sum

/-- The image of the read queue (spec/12, R222). -/
def rqImage (rq : List Word) : List Byte := toLe 8 rq.length ++ (padTake 0 8 rq).flatMap fun x => toLe 8 x.toNat

/-- The image of the vector queue and wl (spec/12, R222). -/
def vqImage (q : List Block) (wl : Width) : List Byte :=
  toLe 8 (q.length + wl.code.toNat * 256) ++ q.flatMap fun b =>
    toLe 8 b.addr.toNat ++ toLe 8 (b.off + if b.started then 2 ^ 16 else 0) ++ b.snap.toList.flatMap fun x => toLe 8 x.toNat

/-! ### Saving -/

/-- Completes a vsave or a vrest: one of a U block is a unit instruction, which leaves c.vs 0; one of a K block leaves c.vs
as it was (spec/06, R111; spec/12, R215, R221; assumption log, 43: DEDUCED). -/
def State.advKeep (s : State) : State :=
  if s.me.kq.isSome then
    let vs := s.me.vs
    s.advV.updMe fun x => { x with vs := vs }
  else s.advV

/-- A base that is not a multiple of 8 traps (spec/12, R221). -/
def withBase (s : State) (bs : SP) (k : Int → Out) : Out :=
  if (s.sp bs).toNat % 8 != 0 then .next (s.trapV 0x05 0 (s.sp bs)) else k (s.sp bs).toNat

/-- Kinds 2 and 3 are K mode's; c.tval holds the instruction word (spec/02, R37; spec/12, R221). -/
def kOnly (s : State) (i : Instr) (k : Out) : Out := if s.me.kq.isSome then k else .next (s.trapV 0x04 0 (instrWord i))

/-- Stores an image by its dwords, which leave in ascending order and become visible so, then does the rest (spec/12, R221;
assumption log, 28: DESIGN CHOICE). -/
def saveOp (s : State) (bs : SP) (img : List Byte) (fin : State → State) : Out :=
  withBase s bs fun base =>
    let l := unitsOf base 8 img
    if unitsBlocked s l then .next s
    else match storeUnits s false l with
      | (s, none) => .next (fin s).advKeep
      | (s, some e) => .next (s.trapV e.code e.sub e.tval)

/-- vsave (spec/12, R221, R222). -/
def execVsave (vd : VReg5) (bs : SP) (s : State) : Out := saveOp s bs (vImage (s.vreg vd)) id

/-- vsave.p; 0 names kc (spec/12, R221, R222). -/
def execVsaveP (pd : PReg) (bs : SP) (s : State) : Out :=
  saveOp s bs (pImage (px s s.cur) (if pd = 0 then s.me.kc else s.me.p.get pd.toFin)) id

/-- vsave.rq (spec/12, R221, R222). -/
def execVsaveRq (bs : SP) (s : State) : Out :=
  kOnly s (.vsaveRq bs) (saveOp s bs (rqImage s.me.rq) fun s => s.updMe fun x => { x with rq := [] })

/-- vsave.vq; a member of a trio, a ganged hart, a member of a tack channel and a holder of an arrival record cannot be
evicted (spec/12, R218, R221, R222; spec/18, R289; spec/20, R317). -/
def execVsaveVq (bs : SP) (s : State) : Out :=
  kOnly s (.vsaveVq bs) (need s ((trioOf s s.cur).isNone && s.me.gang == 1 && s.me.tack == [] && s.me.arec.isNone && s.me.tkreq.isNone)
    (saveOp s bs (vqImage s.me.vq s.me.lane.wl) fun s => s.updMe fun x =>
      { x with vq := [], blocks := x.blocks + x.vq.length, savedQ := x.vq.map fun b => (b.fence, b.vv) }))

/-! ### Restoring -/

/-- Reads n dwords of an image from a dword on. -/
def imageDwords (s : State) (base : Int) (i n : Nat) (k : List Word → Out) : Out :=
  withReads s 8 (unitAddrs (base + (8 * i : Nat)) 8 n) k

/-- The levels of an image, with the edge field (spec/02, R23). -/
def imageLevels (edge : Nat) (lens : List (List Nat)) : List Level :=
  (indexed lens).map fun e => ⟨e.2, (edge / 4 ^ e.1) % 2 == 1, (edge / 4 ^ e.1 / 2) % 2 == 1⟩

/-- The sums of the lengths agree (spec/02, R24). -/
def lensAgree : Nat → List (List Nat) → Bool
  | _, [] => true
  | n, l :: ls => l.sum == n && lensAgree l.length ls

/-- vrest (spec/12, R221 to R223). -/
def execVrest (vd : VReg5) (bs : SP) (s : State) : Out :=
  withBase s bs fun base => imageDwords s base 0 3 fun hd =>
    let w (i : Nat) : Word := (hd[i]?).getD 0
    let lv := ((w 0).extractLsb' 38 2).toNat
    let edge := ((w 0).extractLsb' 32 6).toNat
    let wt := Width.ofCode ((w 0).extractLsb' 30 2)
    let n := ((w 0).extractLsb' 0 18).toNat
    let ns := ([w 1 % 2 ^ 32, w 1 / 2 ^ 32, w 2 % 2 ^ 32]).map BitVec.toNat
    let counts := ns.take lv
    need s ((w 0) &&& 0xFFFFFF003FFC0000 == 0 && w 2 / 2 ^ 32 == 0 && (ns.drop lv).all (· == 0)
        && decide (edge < 4 ^ lv) && decide (n ≤ vlmax s s.cur wt)
        && decide (counts.sum ≤ slotLimit s.me.gang (held s s.cur)))
      (let nl := (counts.sum + 1) / 2
       let ne := (n * widthBytes wt + 7) / 8
       imageDwords s base 3 (nl + ne) fun ws =>
         let lens := cutSegs counts ((halves (ws.take nl)).map BitVec.toNat)
         let es := chunks (widthBytes wt) n ((ws.drop nl).flatMap fun x => toLe 8 x.toNat)
         let lvs := imageLevels edge lens
         need s ((lv == 0 || lensAgree n lens) && levelsFit s lvs) (.next (s.setV vd ⟨wt, es, lvs⟩).advKeep))

/-- The numbers of the 1 bits of dwords. -/
def dwordBits (ws : List Word) : Pred :=
  (indexed ws).flatMap fun e => ((List.range 64).filter fun b => e.2.getLsbD b).map fun b => 64 * e.1 + b

/-- vrest.p; 0 names kc (spec/12, R221 to R223). -/
def execVrestP (pd : PReg) (bs : SP) (s : State) : Out :=
  withBase s bs fun base => imageDwords s base 0 1 fun hd =>
    let n := (hd.headD 0).toNat
    need s (n % 2048 == 0 && decide (n ≤ 131072))
      (imageDwords s base 1 (n / 64) fun ws =>
        let bits := dwordBits ws
        need s (bits.all fun i => decide (i < px s s.cur))
          (.next (if pd = 0 then s.updMe fun x => { x with kc := bits, pdirty := x.pdirty ||| 1 }
            else s.setP pd bits).advKeep))

/-- vrest.rq (spec/12, R221 to R223). -/
def execVrestRq (bs : SP) (s : State) : Out :=
  kOnly s (.vrestRq bs) (withBase s bs fun base => imageDwords s base 0 9 fun ws =>
    let n := (ws.headD 0).toNat
    need s (decide (n ≤ 8) && s.me.rq == [] && (ws.drop (1 + n)).all (· == 0))
      (.next (s.updMe fun x => { x with rq := (ws.drop 1).take n }).advKeep))

/-- The most entries that a context with an empty queue may hold (spec/12, R213; assumption log, 40: DEDUCED). -/
def queueMost (s : State) (h : Nat) : Nat := 2 + (16 - sharedUsed s (coreOf h))

/-- Entry i of the vector queue from its eighteen dwords; none where a zero field is not zero. The image holds no fence: what
vsave.vq noted of them comes back with it, its first access follows every earlier access of the hart, and it follows no
route slot (spec/15, R267; spec/18, R278; assumption log, 57: DESIGN CHOICE). -/
def blockOf (s : State) (mid : Bool) (i : Nat) (ws : List Word) : Option Block :=
  let w (i : Nat) : Word := (ws[i]?).getD 0
  let note := (s.me.savedQ[i]?).getD (s.me.fenced, false)
  if w 1 / 2 ^ 17 != 0 then none
  else some { addr := w 0, snap := Vector.ofFn fun i => w (2 + i.val), off := (w 1 % 2 ^ 16).toNat,
              started := (w 1).getLsbD 16, mid := mid, xr := .off, mark := s.me.nextNum, sv := s.me.nextNum,
              vnum := s.me.nextNum, fence := note.1, vv := note.2, own := decide (i < 2) }

/-- vrest.vq; the oldest block is one stopped inside an instruction where c.vs or kc is not zero now (spec/02, R40; spec/12,
R221 to R223; assumption log, 57: DESIGN CHOICE). -/
def execVrestVq (bs : SP) (s : State) : Out :=
  kOnly s (.vrestVq bs) (withBase s bs fun base => imageDwords s base 0 1 fun hd =>
    let d := hd.headD 0
    let n := (d % 256).toNat
    need s (d / 1024 == 0 && decide (n ≤ 18) && s.me.vq == [] && decide (n ≤ queueMost s s.cur))
      (imageDwords s base 1 (18 * n) fun ws =>
        let part := s.me.vs != 0 || s.me.kc != []
        let bs := (indexed (cutSegs (List.replicate n 18) ws)).map fun e => blockOf s (part && e.1 == 0) e.1 e.2
        need s (bs.all Option.isSome)
          (.next (s.updMe fun x =>
            { x with vq := bs.filterMap id, savedQ := [], lane := { x.lane with wl := Width.ofCode (d.extractLsb' 8 2) } }).advKeep)))

end Sys2Proof.Machine
end

