-- ==== Sys2Proof/Machine/Dispatch.lean ====
section
/-!
DEFINITION. Machine/Dispatch.lean: the meaning of every instruction and event of the opcode table.
-/
namespace Sys2Proof.Machine

/-- Runs one instruction of the hart that executes, or one event. -/
def exec (i : Instr) (s : State) : Host.Outcome State Fault Refusal :=
  match i with
  | .add sd sa sb => Sys2Proof.Machine.execAdd sd sa sb s
  | .sub sd sa sb => Sys2Proof.Machine.execSub sd sa sb s
  | .and sd sa sb => Sys2Proof.Machine.execAnd sd sa sb s
  | .or sd sa sb => Sys2Proof.Machine.execOr sd sa sb s
  | .xor sd sa sb => Sys2Proof.Machine.execXor sd sa sb s
  | .sll sd sa sb => Sys2Proof.Machine.execSll sd sa sb s
  | .srl sd sa sb => Sys2Proof.Machine.execSrl sd sa sb s
  | .sra sd sa sb => Sys2Proof.Machine.execSra sd sa sb s
  | .slt sd sa sb => Sys2Proof.Machine.execSlt sd sa sb s
  | .sltu sd sa sb => Sys2Proof.Machine.execSltu sd sa sb s
  | .mul sd sa sb => Sys2Proof.Machine.execMul sd sa sb s
  | .mulh sd sa sb => Sys2Proof.Machine.execMulh sd sa sb s
  | .mulhu sd sa sb => Sys2Proof.Machine.execMulhu sd sa sb s
  | .div sd sa sb => Sys2Proof.Machine.execDiv sd sa sb s
  | .divu sd sa sb => Sys2Proof.Machine.execDivu sd sa sb s
  | .rem sd sa sb => Sys2Proof.Machine.execRem sd sa sb s
  | .remu sd sa sb => Sys2Proof.Machine.execRemu sd sa sb s
  | .min sd sa sb => Sys2Proof.Machine.execMin sd sa sb s
  | .max sd sa sb => Sys2Proof.Machine.execMax sd sa sb s
  | .minu sd sa sb => Sys2Proof.Machine.execMinu sd sa sb s
  | .maxu sd sa sb => Sys2Proof.Machine.execMaxu sd sa sb s
  | .clz sd sa => Sys2Proof.Machine.execClz sd sa s
  | .ctz sd sa => Sys2Proof.Machine.execCtz sd sa s
  | .pop sd sa => Sys2Proof.Machine.execPop sd sa s
  | .addi sd sa imm => Sys2Proof.Machine.execAddi sd sa imm s
  | .andi sd sa imm => Sys2Proof.Machine.execAndi sd sa imm s
  | .ori sd sa imm => Sys2Proof.Machine.execOri sd sa imm s
  | .xori sd sa imm => Sys2Proof.Machine.execXori sd sa imm s
  | .slti sd sa imm => Sys2Proof.Machine.execSlti sd sa imm s
  | .sltiu sd sa imm => Sys2Proof.Machine.execSltiu sd sa imm s
  | .slli sd sa amt => Sys2Proof.Machine.execSlli sd sa amt s
  | .srli sd sa amt => Sys2Proof.Machine.execSrli sd sa amt s
  | .srai sd sa amt => Sys2Proof.Machine.execSrai sd sa amt s
  | .lhi sd imm => Sys2Proof.Machine.execLhi sd imm s
  | .adrp sd off => Sys2Proof.Machine.execAdrp sd off s
  | .lra sd off => Sys2Proof.Machine.execLra sd off s
  | .ldB sd sa imm => Sys2Proof.Machine.execLdB sd sa imm s
  | .ldH sd sa imm => Sys2Proof.Machine.execLdH sd sa imm s
  | .ldW sd sa imm => Sys2Proof.Machine.execLdW sd sa imm s
  | .ldD sd sa imm => Sys2Proof.Machine.execLdD sd sa imm s
  | .ldBu sd sa imm => Sys2Proof.Machine.execLdBu sd sa imm s
  | .ldHu sd sa imm => Sys2Proof.Machine.execLdHu sd sa imm s
  | .ldWu sd sa imm => Sys2Proof.Machine.execLdWu sd sa imm s
  | .stB sd sa imm => Sys2Proof.Machine.execStB sd sa imm s
  | .stH sd sa imm => Sys2Proof.Machine.execStH sd sa imm s
  | .stW sd sa imm => Sys2Proof.Machine.execStW sd sa imm s
  | .stD sd sa imm => Sys2Proof.Machine.execStD sd sa imm s
  | .ldAcq x => Sys2Proof.Machine.execLdAcq x s
  | .ldSc x => Sys2Proof.Machine.execLdSc x s
  | .stRel x => Sys2Proof.Machine.execStRel x s
  | .stSc x => Sys2Proof.Machine.execStSc x s
  | .amoAdd x => Sys2Proof.Machine.execAmoAdd x s
  | .amoAnd x => Sys2Proof.Machine.execAmoAnd x s
  | .amoOr x => Sys2Proof.Machine.execAmoOr x s
  | .amoXor x => Sys2Proof.Machine.execAmoXor x s
  | .amoMin x => Sys2Proof.Machine.execAmoMin x s
  | .amoMax x => Sys2Proof.Machine.execAmoMax x s
  | .amoSwap x => Sys2Proof.Machine.execAmoSwap x s
  | .cas x => Sys2Proof.Machine.execCas x s
  | .beq sa sb off => Sys2Proof.Machine.execBeq sa sb off s
  | .bne sa sb off => Sys2Proof.Machine.execBne sa sb off s
  | .blt sa sb off => Sys2Proof.Machine.execBlt sa sb off s
  | .bge sa sb off => Sys2Proof.Machine.execBge sa sb off s
  | .bltu sa sb off => Sys2Proof.Machine.execBltu sa sb off s
  | .bgeu sa sb off => Sys2Proof.Machine.execBgeu sa sb off s
  | .jal sd off => Sys2Proof.Machine.execJal sd off s
  | .jalr sd sa imm => Sys2Proof.Machine.execJalr sd sa imm s
  | .fadd ff rm sd sa sb => Sys2Proof.Machine.execFadd ff rm sd sa sb s
  | .fsub ff rm sd sa sb => Sys2Proof.Machine.execFsub ff rm sd sa sb s
  | .fmul ff rm sd sa sb => Sys2Proof.Machine.execFmul ff rm sd sa sb s
  | .fdiv ff rm sd sa sb => Sys2Proof.Machine.execFdiv ff rm sd sa sb s
  | .fsqrt ff rm sd sa => Sys2Proof.Machine.execFsqrt ff rm sd sa s
  | .fmadd ff rm sd sa sb => Sys2Proof.Machine.execFmadd ff rm sd sa sb s
  | .fmin ff sd sa sb => Sys2Proof.Machine.execFmin ff sd sa sb s
  | .fmax ff sd sa sb => Sys2Proof.Machine.execFmax ff sd sa sb s
  | .fminNum ff sd sa sb => Sys2Proof.Machine.execFminNum ff sd sa sb s
  | .fmaxNum ff sd sa sb => Sys2Proof.Machine.execFmaxNum ff sd sa sb s
  | .fcmpEq ff sd sa sb => Sys2Proof.Machine.execFcmpEq ff sd sa sb s
  | .fcmpLt ff sd sa sb => Sys2Proof.Machine.execFcmpLt ff sd sa sb s
  | .fcmpLe ff sd sa sb => Sys2Proof.Machine.execFcmpLe ff sd sa sb s
  | .fcmpUn ff sd sa sb => Sys2Proof.Machine.execFcmpUn ff sd sa sb s
  | .fcls ff sd sa => Sys2Proof.Machine.execFcls ff sd sa s
  | .fcvt dst src rm sd sa => Sys2Proof.Machine.execFcvt dst src rm sd sa s
  | .fncSs scope => Sys2Proof.Machine.execFncSs scope s
  | .fncSv scope => Sys2Proof.Machine.execFncSv scope s
  | .fncVs scope => Sys2Proof.Machine.execFncVs scope s
  | .fncVv scope => Sys2Proof.Machine.execFncVv scope s
  | .crd sd idx => Sys2Proof.Machine.execCrd sd idx s
  | .cwr sa idx => Sys2Proof.Machine.execCwr sa idx s
  | .nop => Sys2Proof.Machine.execNop s
  | .sys => Sys2Proof.Machine.execSys s
  | .trp sa => Sys2Proof.Machine.execTrp sa s
  | .brk => Sys2Proof.Machine.execBrk s
  | .eret => Sys2Proof.Machine.execEret s
  | .wfe sd sa => Sys2Proof.Machine.execWfe sd sa s
  | .endL => Sys2Proof.Machine.execEndL s
  | .vrecv sd => Sys2Proof.Machine.execVrecv sd s
  | .vf off => Sys2Proof.Machine.execVf off s
  | .tkjoin sd sa => Sys2Proof.Machine.execTkjoin sd sa s
  | .tkarr sd sa => Sys2Proof.Machine.execTkarr sd sa s
  | .tkwait sd sa sb => Sys2Proof.Machine.execTkwait sd sa sb s
  | .tkbar sd sa => Sys2Proof.Machine.execTkbar sd sa s
  | .tkbc sd sa sb => Sys2Proof.Machine.execTkbc sd sa sb s
  | .tkrcv sd sa => Sys2Proof.Machine.execTkrcv sd sa s
  | .lnch sd sa => Sys2Proof.Machine.execLnch sd sa s
  | .lwait sd sa sb => Sys2Proof.Machine.execLwait sd sa sb s
  | .lstat sd sa => Sys2Proof.Machine.execLstat sd sa s
  | .lcanc sd sa => Sys2Proof.Machine.execLcanc sd sa s
  | .fwait sd sa sb => Sys2Proof.Machine.execFwait sd sa sb s
  | .ffill sd sa sb => Sys2Proof.Machine.execFfill sd sa sb s
  | .ctake sd sa => Sys2Proof.Machine.execCtake sd sa s
  | .patld sd sa sb => Sys2Proof.Machine.execPatld sd sa sb s
  | .gform sd sa => Sys2Proof.Machine.execGform sd sa s
  | .gsplit sd => Sys2Proof.Machine.execGsplit sd s
  | .tspawn sd sa => Sys2Proof.Machine.execTspawn sd sa s
  | .tabs sd => Sys2Proof.Machine.execTabs sd s
  | .twd sd => Sys2Proof.Machine.execTwd sd s
  | .tdone => Sys2Proof.Machine.execTdone s
  | .lgrel sa => Sys2Proof.Machine.execLgrel sa s
  | .trio sd sa => Sys2Proof.Machine.execTrio sd sa s
  | .vsetl k fs gmax => Sys2Proof.Machine.execVsetl k fs gmax s
  | .vadd x => Sys2Proof.Machine.execVadd x s
  | .vsub x => Sys2Proof.Machine.execVsub x s
  | .vmul x => Sys2Proof.Machine.execVmul x s
  | .vmulh x => Sys2Proof.Machine.execVmulh x s
  | .vdiv x => Sys2Proof.Machine.execVdiv x s
  | .vrem x => Sys2Proof.Machine.execVrem x s
  | .vmin x => Sys2Proof.Machine.execVmin x s
  | .vmax x => Sys2Proof.Machine.execVmax x s
  | .vand x => Sys2Proof.Machine.execVand x s
  | .vor x => Sys2Proof.Machine.execVor x s
  | .vxor x => Sys2Proof.Machine.execVxor x s
  | .vsll x => Sys2Proof.Machine.execVsll x s
  | .vsrl x => Sys2Proof.Machine.execVsrl x s
  | .vsra x => Sys2Proof.Machine.execVsra x s
  | .vmacc x => Sys2Proof.Machine.execVmacc x s
  | .vclz x => Sys2Proof.Machine.execVclz x s
  | .vpop x => Sys2Proof.Machine.execVpop x s
  | .vabs x => Sys2Proof.Machine.execVabs x s
  | .vfadd x => Sys2Proof.Machine.execVfadd x s
  | .vfsub x => Sys2Proof.Machine.execVfsub x s
  | .vfmul x => Sys2Proof.Machine.execVfmul x s
  | .vfdiv x => Sys2Proof.Machine.execVfdiv x s
  | .vfma x => Sys2Proof.Machine.execVfma x s
  | .vfsqrt x => Sys2Proof.Machine.execVfsqrt x s
  | .vfmin x => Sys2Proof.Machine.execVfmin x s
  | .vfmax x => Sys2Proof.Machine.execVfmax x s
  | .vfminNum x => Sys2Proof.Machine.execVfminNum x s
  | .vfmaxNum x => Sys2Proof.Machine.execVfmaxNum x s
  | .vfabs x => Sys2Proof.Machine.execVfabs x s
  | .vfneg x => Sys2Proof.Machine.execVfneg x s
  | .vfexp2 x => Sys2Proof.Machine.execVfexp2 x s
  | .vflog2 x => Sys2Proof.Machine.execVflog2 x s
  | .vfrec x => Sys2Proof.Machine.execVfrec x s
  | .vfrsq x => Sys2Proof.Machine.execVfrsq x s
  | .vftanh x => Sys2Proof.Machine.execVftanh x s
  | .vcmpEq x => Sys2Proof.Machine.execVcmpEq x s
  | .vcmpNe x => Sys2Proof.Machine.execVcmpNe x s
  | .vcmpLt x => Sys2Proof.Machine.execVcmpLt x s
  | .vcmpLe x => Sys2Proof.Machine.execVcmpLe x s
  | .vcmpGt x => Sys2Proof.Machine.execVcmpGt x s
  | .vcmpGe x => Sys2Proof.Machine.execVcmpGe x s
  | .vcmpUn x => Sys2Proof.Machine.execVcmpUn x s
  | .vcvt x => Sys2Proof.Machine.execVcvt x s
  | .vcvtRow x => Sys2Proof.Machine.execVcvtRow x s
  | .vcrt x => Sys2Proof.Machine.execVcrt x s
  | .vseg x => Sys2Proof.Machine.execVseg x s
  | .vsegc x => Sys2Proof.Machine.execVsegc x s
  | .vnest x => Sys2Proof.Machine.execVnest x s
  | .vflat vd va dep => Sys2Proof.Machine.execVflat vd va dep s
  | .vredAdd x => Sys2Proof.Machine.execVredAdd x s
  | .vredMul x => Sys2Proof.Machine.execVredMul x s
  | .vredMin x => Sys2Proof.Machine.execVredMin x s
  | .vredMax x => Sys2Proof.Machine.execVredMax x s
  | .vredAnd x => Sys2Proof.Machine.execVredAnd x s
  | .vredOr x => Sys2Proof.Machine.execVredOr x s
  | .vredXor x => Sys2Proof.Machine.execVredXor x s
  | .vredMinNum x => Sys2Proof.Machine.execVredMinNum x s
  | .vredMaxNum x => Sys2Proof.Machine.execVredMaxNum x s
  | .vscanAdd x => Sys2Proof.Machine.execVscanAdd x s
  | .vscanMul x => Sys2Proof.Machine.execVscanMul x s
  | .vscanMin x => Sys2Proof.Machine.execVscanMin x s
  | .vscanMax x => Sys2Proof.Machine.execVscanMax x s
  | .vscanAnd x => Sys2Proof.Machine.execVscanAnd x s
  | .vscanOr x => Sys2Proof.Machine.execVscanOr x s
  | .vscanXor x => Sys2Proof.Machine.execVscanXor x s
  | .vscanMinNum x => Sys2Proof.Machine.execVscanMinNum x s
  | .vscanMaxNum x => Sys2Proof.Machine.execVscanMaxNum x s
  | .vdist x => Sys2Proof.Machine.execVdist x s
  | .vpack x => Sys2Proof.Machine.execVpack x s
  | .vpart x => Sys2Proof.Machine.execVpart x s
  | .vcat x => Sys2Proof.Machine.execVcat x s
  | .vsort x => Sys2Proof.Machine.execVsort x s
  | .vsidxSeg x => Sys2Proof.Machine.execVsidxSeg x s
  | .vsidxOff x => Sys2Proof.Machine.execVsidxOff x s
  | .vcarry x => Sys2Proof.Machine.execVcarry x s
  | .vcarryScan x => Sys2Proof.Machine.execVcarryScan x s
  | .vld x => Sys2Proof.Machine.execVld x s
  | .vst x => Sys2Proof.Machine.execVst x s
  | .vlds x => Sys2Proof.Machine.execVlds x s
  | .vsts x => Sys2Proof.Machine.execVsts x s
  | .vldx x => Sys2Proof.Machine.execVldx x s
  | .vstx x => Sys2Proof.Machine.execVstx x s
  | .vsca x => Sys2Proof.Machine.execVsca x s
  | .vldseg x => Sys2Proof.Machine.execVldseg x s
  | .vstseg x => Sys2Proof.Machine.execVstseg x s
  | .vtld vd va dep m => Sys2Proof.Machine.execVtld vd va dep m s
  | .vtst vd va uo m => Sys2Proof.Machine.execVtst vd va uo m s
  | .vldff x => Sys2Proof.Machine.execVldff x s
  | .vldn vd cur bs => Sys2Proof.Machine.execVldn vd cur bs s
  | .vstn vd uo bs => Sys2Proof.Machine.execVstn vd uo bs s
  | .vldf vd va => Sys2Proof.Machine.execVldf vd va s
  | .vsave vd bs => Sys2Proof.Machine.execVsave vd bs s
  | .vsaveP pd bs => Sys2Proof.Machine.execVsaveP pd bs s
  | .vsaveRq bs => Sys2Proof.Machine.execVsaveRq bs s
  | .vsaveVq bs => Sys2Proof.Machine.execVsaveVq bs s
  | .vrest vd bs => Sys2Proof.Machine.execVrest vd bs s
  | .vrestP pd bs => Sys2Proof.Machine.execVrestP pd bs s
  | .vrestRq bs => Sys2Proof.Machine.execVrestRq bs s
  | .vrestVq bs => Sys2Proof.Machine.execVrestVq bs s
  | .zld zd bs => Sys2Proof.Machine.execZld zd bs s
  | .zst zd bs => Sys2Proof.Machine.execZst zd bs s
  | .zadd zd za zb fs => Sys2Proof.Machine.execZadd zd za zb fs s
  | .zmul zd za zb fs => Sys2Proof.Machine.execZmul zd za zb fs s
  | .zint vd za zb => Sys2Proof.Machine.execZint vd za zb s
  | .zfrom x => Sys2Proof.Machine.execZfrom x s
  | .ztoD vd za pm => Sys2Proof.Machine.execZtoD vd za pm s
  | .ztoC vd za xs => Sys2Proof.Machine.execZtoC vd za xs s
  | .ztoV vd za xs => Sys2Proof.Machine.execZtoV vd za xs s
  | .zlen vd za => Sys2Proof.Machine.execZlen vd za s
  | .frcfg fd k => Sys2Proof.Machine.execFrcfg fd k s
  | .frclr fd => Sys2Proof.Machine.execFrclr fd s
  | .frins fd va vb pm => Sys2Proof.Machine.execFrins fd va vb pm s
  | .frmrg fd fa => Sys2Proof.Machine.execFrmrg fd fa s
  | .frrd vd fa xs => Sys2Proof.Machine.execFrrd vd fa xs s
  | .frcnt vd fa => Sys2Proof.Machine.execFrcnt vd fa s
  | .frst fd bs => Sys2Proof.Machine.execFrst fd bs s
  | .frld fd bs => Sys2Proof.Machine.execFrld fd bs s
  | .frtest pd fa va m => Sys2Proof.Machine.execFrtest pd fa va m s
  | .vmaxclr vd va pk dep fs => Sys2Proof.Machine.execVmaxclr vd va pk dep fs s
  | .vselk vd va pk dep pm fs => Sys2Proof.Machine.execVselk vd va pk dep pm fs s
  | .vhist x => Sys2Proof.Machine.execVhist x s
  | .vrank x => Sys2Proof.Machine.execVrank x s
  | .xfwdT vd va vb dep slot => Sys2Proof.Machine.execXfwdT vd va vb dep slot s
  | .xfwdG vd va w slot m => Sys2Proof.Machine.execXfwdG vd va w slot m s
  | .xloc vd va slot m => Sys2Proof.Machine.execXloc vd va slot m s
  | .mshp k acq mask => Sys2Proof.Machine.execMshp k acq mask s
  | .mtld t bs xs pm => Sys2Proof.Machine.execMtld t bs xs pm s
  | .mtldI t bs => Sys2Proof.Machine.execMtldI t bs s
  | .mtldz t vb bs xs pm => Sys2Proof.Machine.execMtldz t vb bs xs pm s
  | .mma vd a t pm => Sys2Proof.Machine.execMma vd a t pm s
  | .mmaz vd a t ix pm => Sys2Proof.Machine.execMmaz vd a t ix pm s
  | .mtrel t => Sys2Proof.Machine.execMtrel t s
  | .mtrelS t k => Sys2Proof.Machine.execMtrelS t k s
  | .bopen b xs bs => Sys2Proof.Machine.execBopen b xs bs s
  | .bopenR b bs => Sys2Proof.Machine.execBopenR b bs s
  | .bcopy b form cv pm => Sys2Proof.Machine.execBcopy b form cv pm s
  | .bclose b => Sys2Proof.Machine.execBclose b s
  | .bcloseS b bs => Sys2Proof.Machine.execBcloseS b bs s
  | .bwait b => Sys2Proof.Machine.execBwait b s
  | .bstat vd b => Sys2Proof.Machine.execBstat vd b s
  | .bpost b bs scope => Sys2Proof.Machine.execBpost b bs scope s
  | .pand pd pa pb m => Sys2Proof.Machine.execPand pd pa pb m s
  | .por pd pa pb m => Sys2Proof.Machine.execPor pd pa pb m s
  | .pxor pd pa pb m => Sys2Proof.Machine.execPxor pd pa pb m s
  | .pnot pd pa m => Sys2Proof.Machine.execPnot pd pa m s
  | .pfirst pd pa pm => Sys2Proof.Machine.execPfirst pd pa pm s
  | .pcount vd pa pm => Sys2Proof.Machine.execPcount vd pa pm s
  | .vperm vd va vb m fs => Sys2Proof.Machine.execVperm vd va vb m fs s
  | .vslide vd va k m fs => Sys2Proof.Machine.execVslide vd va k m fs s
  | .vrev vd va dep fs => Sys2Proof.Machine.execVrev vd va dep fs s
  | .vbcast vd k m fs => Sys2Proof.Machine.execVbcast vd k m fs s
  | .vins vd k xs fs => Sys2Proof.Machine.execVins vd k xs fs s
  | .vext vd va xs fs => Sys2Proof.Machine.execVext vd va xs fs s
  | .vcompress vd va pm fs => Sys2Proof.Machine.execVcompress vd va pm fs s
  | .vexpand vd va m fs => Sys2Proof.Machine.execVexpand vd va m fs s
  | .vmv vd va => Sys2Proof.Machine.execVmv vd va s
  | .vsnd va => Sys2Proof.Machine.execVsnd va s
  | .qput q va => Sys2Proof.Machine.execQput q va s
  | .qget vd q pq => Sys2Proof.Machine.execQget vd q pq s
  | .qeos q => Sys2Proof.Machine.execQeos q s
  | .xrouteOff n => Sys2Proof.Machine.execXrouteOff n s
  | .xrouteUse n => Sys2Proof.Machine.execXrouteUse n s
  | .xrouteSave n => Sys2Proof.Machine.execXrouteSave n s
  | .tsum n va pm fs => Sys2Proof.Machine.execTsum n va pm fs s
  | .vstop => Sys2Proof.Machine.execVstop s
  | .trapEntry h t => Sys2Proof.Machine.execTrapEntry h t s
  | .asyncEventTaken h => Sys2Proof.Machine.execAsyncEventTaken h s
  | .resumption h => Sys2Proof.Machine.execResumption h s
  | .waiterServed core => Sys2Proof.Machine.execWaiterServed core s
  | .freeParkedContext h => Sys2Proof.Machine.execFreeParkedContext h s
  | .copyElementDelivery h b n => Sys2Proof.Machine.execCopyElementDelivery h b n s
  | .copyFault h b => Sys2Proof.Machine.execCopyFault h b s
  | .postPerformed h b => Sys2Proof.Machine.execPostPerformed h b s
  | .matrixIssue core num => Sys2Proof.Machine.execMatrixIssue core num s
  | .matrixComplete core num => Sys2Proof.Machine.execMatrixComplete core num s
  | .frameTick => Sys2Proof.Machine.execFrameTick s
  | .heldTickRelease => Sys2Proof.Machine.execHeldTickRelease s
  | .spillModeExit d => Sys2Proof.Machine.execSpillModeExit d s
  | .spillRingFull d => Sys2Proof.Machine.execSpillRingFull d s
  | .tackHubCycle hub ch => Sys2Proof.Machine.execTackHubCycle hub ch s
  | .tackReleaseArrival hub ch => Sys2Proof.Machine.execTackReleaseArrival hub ch s
  | .broadcastAccept hub ch => Sys2Proof.Machine.execBroadcastAccept hub ch s
  | .broadcastDelivery hub ch => Sys2Proof.Machine.execBroadcastDelivery hub ch s
  | .preemptCommandWrite d value => Sys2Proof.Machine.execPreemptCommandWrite d value s
  | .preemptionRequest h ch => Sys2Proof.Machine.execPreemptionRequest h ch s
  | .fwaitWake h => Sys2Proof.Machine.execFwaitWake h s
  | .fwaitTimeout h => Sys2Proof.Machine.execFwaitTimeout h s
  | .wfeDeadline h => Sys2Proof.Machine.execWfeDeadline h s
  | .lwaitDeadline h => Sys2Proof.Machine.execLwaitDeadline h s
  | .ctakeServed cl => Sys2Proof.Machine.execCtakeServed cl s
  | .hostLaunchPush off bytes => Sys2Proof.Machine.execHostLaunchPush off bytes s
  | .recordEntersPool d f => Sys2Proof.Machine.execRecordEntersPool d f s
  | .launchDispatch d => Sys2Proof.Machine.execLaunchDispatch d s
  | .launchCompletion d e => Sys2Proof.Machine.execLaunchCompletion d e s
  | .taskFire cl num => Sys2Proof.Machine.execTaskFire cl num s
  | .taskRetire cl num => Sys2Proof.Machine.execTaskRetire cl num s
  | .taskDispatch cl => Sys2Proof.Machine.execTaskDispatch cl s
  | .withdrawMark h j => Sys2Proof.Machine.execWithdrawMark h j s
  | .clusterReset cl => Sys2Proof.Machine.execClusterReset cl s
  | .packetArrival num => Sys2Proof.Machine.execPacketArrival num s
  | .tlbInvalidatePage d asid vpn => Sys2Proof.Machine.execTlbInvalidatePage d asid vpn s
  | .tlbInvalidateAsid d asid => Sys2Proof.Machine.execTlbInvalidateAsid d asid s
  | .tlbInvalidateAll d => Sys2Proof.Machine.execTlbInvalidateAll d s
  | .invalidationComplete d => Sys2Proof.Machine.execInvalidationComplete d s
  | .readNpois d => Sys2Proof.Machine.execReadNpois d s
  | .readDrops d f => Sys2Proof.Machine.execReadDrops d f s
  | .readSpfull d => Sys2Proof.Machine.execReadSpfull d s
  | .readRtry port => Sys2Proof.Machine.execReadRtry port s
  | .readFaultDrops => Sys2Proof.Machine.execReadFaultDrops s
  | .faultRecordPost r => Sys2Proof.Machine.execFaultRecordPost r s
  | .rangeRegisterWrite d num second value => Sys2Proof.Machine.execRangeRegisterWrite d num second value s
  | .clusterPartitionWrite cl value => Sys2Proof.Machine.execClusterPartitionWrite cl value s
  | .registerWrite pa value => Sys2Proof.Machine.execRegisterWrite pa value s
  | .patrolScrub d stack found => Sys2Proof.Machine.execPatrolScrub d stack found s
  | .uncorrectableError loc => Sys2Proof.Machine.execUncorrectableError loc s
  | .uncontainedFailure pids => Sys2Proof.Machine.execUncontainedFailure pids s
  | .thermalStop => Sys2Proof.Machine.execThermalStop s
  | .bridgeFailure => Sys2Proof.Machine.execBridgeFailure s
  | .portTraining port r => Sys2Proof.Machine.execPortTraining port r s
  | .portFailure port => Sys2Proof.Machine.execPortFailure port s
  | .fabricRequestArrival r => Sys2Proof.Machine.execFabricRequestArrival r s
  | .gatherListReturn h chip r => Sys2Proof.Machine.execGatherListReturn h chip r s
  | .inboxRecord h j r => Sys2Proof.Machine.execInboxRecord h j r s
  | .hostBar2Access off a => Sys2Proof.Machine.execHostBar2Access off a s
  | .keyRequest d slot => Sys2Proof.Machine.execKeyRequest d slot s
  | .keyZeroise d slot => Sys2Proof.Machine.execKeyZeroise d slot s
  | .sessionUnseal r => Sys2Proof.Machine.execSessionUnseal r s
  | .attestationReport pid nonce => Sys2Proof.Machine.execAttestationReport pid nonce s
  | .bootStage img => Sys2Proof.Machine.execBootStage img s
  | .packageReset => Sys2Proof.Machine.execPackageReset s
  | .currentAndThermalCaps c => Sys2Proof.Machine.execCurrentAndThermalCaps c s
  | .perstDeassertion => Sys2Proof.Machine.execPerstDeassertion s
  | .measurementExtend data => Sys2Proof.Machine.execMeasurementExtend data s
  | .joinAnswerArrival h => Sys2Proof.Machine.execJoinAnswerArrival h s

end Sys2Proof.Machine
end

