-- ==== Sys2Proof/Machine/Step.lean ====
section
/-!
DEFINITION. Machine/Step.lean: one step of the package: the agent the schedule names moves.
-/
namespace Sys2Proof.Machine

/-- What the scalar side of a hart does next, run. -/
def Todo.out : Todo → Out
  | .run i s => exec i s
  | .done s => .next s

/-- What the vector side of a hart does next, run: a word that names a register which the hart's trio lacks raises illegal
operand after the check of its formats (spec/03, R58; spec/12, R218). -/
def Todo.outV : Todo → Out
  | .run i s => poolOut s i (exec i s)
  | .done s => .next s

/-- Something that stands below a bound moves; another is no agent of this machine. -/
def below (ok : Bool) (o : Out) : Out := if ok then o else .fault .noSuchAgent

/-- The step of an agent whose read responses all arrive whole (assumption log, 3: DESIGN CHOICE). -/
noncomputable def runOne (s : State) (a : Agent) : Out :=
  match a with
  | .sword h => below (decide (h < 1536)) (swordTodo { s with cur := h, brk := none }).out
  | .vword h brk => below (decide (h < 1536)) (vwordTodo { s with cur := h, brk := brk }).outV
  | .event i =>
    if !i.isEvent then .refused .notAnEvent
    else if !i.wellFormed then .fault .noSuchAgent
    else if eventReady s i then exec i s else .next s
  | .inject h n => below (decide (h < 1536)) (.next (inject s h n))
  | .flit i => .next (flit s i)
  | .cross i => .next (cross s i)
  | .arrive i => .next (arrive s i)
  | .tlbFill core asid va => below (decide (core < 192)) (.next (tlbFill s core asid va))
  | .ctxFill h va => below (decide (h < 1536)) (.next (ctxFill s h va))
  | .walkFill core asid va level => below (decide (core < 192)) (.next (walkFill s core asid va level))
  | .tlbEvict core => below (decide (core < 192)) (.next (tlbEvict s core))
  | .endLaunch d e => below (decide (d < 2 ∧ e < 4096)) (.next (s.failLaunch d e 5))
  | .place h pc i => below (decide (h < 1536)) (.next (placeContext s h pc i))
  | .restart pid => .next { s with stopped := s.stopped.filter (· != pid) }
  | .lostResponse _ _ _ => .next s
  | .readReg pa => .next (readReg s pa)
  | .hostRead off n => .next (hostRead s off n)
  | .retry port ok => below (decide (port < 16)) (.next (retried s port ok))
  | .answered i => .next (answered s i)

/-- The lines that were lost in a step are lost no more. -/
def found : Out → Out
  | .next s => .next { s with lossy := [] }
  | .fault f => .fault f
  | .refused r => .refused r

/-- The step of an agent with the read response of some lines lost: where it reads one of them it meets poison, and the loss
is counted and reported; where it reads none of them nothing was lost (spec/21, R328; assumption log, 47: DEDUCED). -/
noncomputable def runLost (s : State) (line n : Nat) (a : Agent) : Out :=
  let ls := packetLines line n
  match reader s a, runOne s a, found (runOne { s with lossy := ls } a) with
  | some who, .next t, .next u => if u = t then .next t else found (runOne { metLoss s who line with lossy := ls } a)
  | _, o, _ => o

/-- One choice of the schedule (assumption log, 3: DESIGN CHOICE). -/
noncomputable def runPick (s : State) (a : Agent) : Out :=
  match a with
  | .lostResponse line n b => runLost s line n b
  | b => runOne s b

/-- What the choice does after its cycles have passed; where something is due within them, time first passes up to that
(spec/20, R312, R322). -/
noncomputable def stepPick (s : State) (p : Pick) : Out :=
  match untilDue s with
  | some n =>
    if n ≤ p.cycles then .next (holdPick s p n)
    else runPick (passTime { s with agenda := s.agenda.tail, turn := s.turn + 1 } p.cycles) p.agent
  | none => runPick (passTime { s with agenda := s.agenda.tail, turn := s.turn + 1 } p.cycles) p.agent

/-- One step of the package: what is due comes first, then the choice of the schedule; the dies note which queues have become
ready. -/
noncomputable def step (s : State) : Host.Outcome State Fault Refusal :=
  match dueEvent s with
  | some i => noteOut (exec i s)
  | none => noteOut (stepPick s (nextPick s))

/-- The state with an instruction stored where the next step fetches it; the state is otherwise as `placed` says
(assumption log, 11: DESIGN CHOICE). -/
def State.withFetchWord (s : State) (nbits w : Nat) : State := placed s nbits w

end Sys2Proof.Machine
end

