-- ==== Sys2Proof/Safety.lean ====
section
/-!
DEFINITION. Safety.lean: what a well-formed state of the package is, and what a step leaves alone, in the terms claims use.
-/
namespace Sys2Proof.Machine

/-- Memory is in its canonical form. -/
abbrev Memory.wf (m : List Host.Cell) : Prop := memWf m = true

/-- The state in which the agent that the schedule names moves: its cycles have passed. -/
noncomputable def State.turned (s : State) : State :=
  passTime { s with agenda := s.agenda.tail, turn := s.turn + 1 } (nextPick s).cycles

/-- Nothing of the hubs, the scoreboards or the frame is due, now or within the cycles of the choice that comes next. -/
def NotDue (s : State) : Prop := dueEvent s = none ∧ ∀ n, untilDue s = some n → (nextPick s).cycles < n

/-- Nothing outside the harts differs: every register of a unit, every packet in the network and every byte of memory is as
before. -/
def OnlyHarts (s t : State) : Prop := t = { s with harts := t.harts } ∧ ∀ loc, t.byte loc = s.byte loc

/-- Nothing outside hart h differs. -/
def OnlyHart (h : Nat) (s t : State) : Prop := OnlyHarts s t ∧ ∀ k, k ≠ h → t.hart k = s.hart k

/-- Nothing outside the hart that executes differs. -/
def OnlyMe (s t : State) : Prop := OnlyHart s.cur s t

/-- Every scalar register but sd is as before. -/
def KeepsS (s t : State) (sd : SReg) : Prop := ∀ r, r ≠ sd → t.rs r = s.rs r

/-- An S-word that completes with x in sd and the classes fl raised: s0 still reads zero, c.fi and everything else stays. -/
def SDone (s t : State) (sd : SReg) (x : Word) (fl : Flags) : Prop :=
  OnlyMe s t
    ∧ t.me = { s.me with s := t.me.s, pc := s.me.pc + 4, swait := .none, flags := s.me.flags ||| fl }
    ∧ t.rs sd = (if sd = 0 then 0 else x) ∧ KeepsS s t sd

/-- The outcome is such a completion. -/
def SEnds (s : State) (o : Out) (sd : SReg) (x : Word) (fl : Flags) : Prop := ∃ t, o = .next t ∧ SDone s t sd x fl

/-- An S-word that changes no register and goes on at an address. -/
def Jumps (s : State) (o : Out) (pc : Word) : Prop :=
  ∃ t, o = .next t ∧ OnlyMe s t ∧ t.me = { s.me with pc := pc, swait := .none }

/-- The word changes nothing: it waits, and its hart tries it again. -/
def Waits (s : State) (o : Out) : Prop := o = .next s

/-- Every hart but h is as before, and where h waits for no lane groups so is its lane entry; the entries that a wait of h
has in state 2 leave it. -/
def OthersKept (s t : State) (h : Nat) : Prop :=
  (∀ k, k ≠ h → t.hart k = { s.hart k with lane := { (s.hart k).lane with st := (t.hart k).lane.st } })
    ∧ ((s.hart h).waitFor = none → ∀ k, k ≠ h → t.hart k = s.hart k)

/-- A trap of hart h is taken: its trap words, its mode and its pc; no scalar, vector or special register, no other hart and
no byte of memory changes. -/
def TrapTaken (s t : State) (h : Nat) (cause tval vbad : Word) (qpos : BitVec 32) (vpend : Bool) : Prop :=
  let x := s.hart h
  let y := t.hart h
  OthersKept s t h ∧ (∀ loc, t.byte loc = s.byte loc)
  ∧ y.cause = cause ∧ y.epc = x.pc &&& 0x00FFFFFFFFFFFFFF ∧ y.tval = tval ∧ y.vbad = vbad ∧ y.qpos = qpos
  ∧ y.qdepth = BitVec.ofNat 8 x.vq.length ∧ y.vpend = vpend
  ∧ y.pie = x.ie ∧ y.ie = false ∧ y.pmode = x.kmode ∧ y.kmode = true ∧ y.pc = x.tvec
  ∧ y.s = x.s ∧ y.v = x.v ∧ y.p = x.p ∧ y.kc = x.kc ∧ y.z = x.z ∧ y.f = x.f ∧ y.b = x.b ∧ y.vl = x.vl ∧ y.vs = x.vs
  ∧ y.msh = x.msh ∧ y.k = x.k
  ∧ y.flags = x.flags ∧ y.fi = x.fi ∧ y.vdirty = x.vdirty ∧ y.pdirty = x.pdirty ∧ y.fdirty = x.fdirty ∧ y.lazy = x.lazy
  ∧ y.asid = x.asid ∧ y.tvec = x.tvec ∧ y.kscr = x.kscr ∧ y.rq = x.rq ∧ y.vq = x.vq ∧ y.out = x.out

/-- A block at its next word. -/
def Block.next (b : Block) : Block := { b with off := b.off + 1, started := true, mid := false }

/-- A queue whose oldest block stands at its next word. -/
def headNexts : List Block → List Block
  | [] => []
  | b :: q => b.next :: q

/-- The block whose V-words dispatch, the K entry's or the oldest of the queue, stands at its next word, with c.vs zero; the
other blocks stay. -/
def BlockAdvanced (s t : State) : Prop :=
  t.me.vs = 0 ∧ t.me.kq = s.me.kq.map Block.next ∧ t.me.vq = if s.me.kq = none then headNexts s.me.vq else s.me.vq

/-- Every vector register outside a list is as before. -/
def KeepsV (s t : State) (vs : List VReg5) : Prop := ∀ r, r ∉ vs → t.vreg r = s.vreg r

/-- What a V-word may change in its hart besides the registers its description names: nothing but the flags, the dirty bits,
c.vs, the queue's block and the reservation of an interrupted instruction. -/
def Hart.sameBut (x y : Hart) : Prop :=
  y = { x with v := y.v, p := y.p, kc := y.kc, z := y.z, f := y.f, b := y.b, vl := y.vl, vs := y.vs, flags := y.flags,
               fi := y.fi, vdirty := y.vdirty, pdirty := y.pdirty, fdirty := y.fdirty, vq := y.vq, kq := y.kq,
               resv := y.resv }

/-- A V-word that completes and writes the vector registers of a list alone, with the classes it raises. -/
def VDone (s t : State) (vs : List VReg5) : Prop :=
  OnlyMe s t ∧ BlockAdvanced s t ∧ s.me.sameBut t.me ∧ KeepsV s t vs
    ∧ t.me.p = s.me.p ∧ t.me.kc = s.me.kc ∧ t.me.z = s.me.z ∧ t.me.f = s.me.f ∧ t.me.b = s.me.b ∧ t.me.vl = s.me.vl
    ∧ t.me.pdirty = s.me.pdirty ∧ t.me.fdirty = s.me.fdirty

/-- Such a completion that raises no flag. -/
def VQuiet (s t : State) (vs : List VReg5) : Prop :=
  VDone s t vs ∧ t.me.flags = s.me.flags ∧ t.me.fi = s.me.fi

end Sys2Proof.Machine
end

