-- ==== Sys2Proof/Certificates/Slice0/Obligations.lean ====
section
/-!
DEFINITION. Certificates/Slice0/Obligations.lean: the statements for the provers. Hypotheses speak of the state and the
operands alone; a conclusion `∃ t, exec i s = .next t ∧ …` says that the instruction completes and what it leaves.
-/
open Sys2Proof Sys2Proof.Machine

/-! ### The step -/

/-- A step of a hart's scalar side runs the S-word at its pc: where nothing is due, the hart runs, no asynchronous event is
taken, no remote store of its U mode is under way, and the four bytes at the pc can be fetched and decode to i, step is exec
of i, after the cycles of the choice. The word's own meaning moves the pc (spec/02, R38; spec/03, R44, R58; spec/05, R94;
spec/26, R392). -/
def Sys2Proof.Claims.StepRunsSWord : Prop :=
  ∀ (s s1 : State) (h loc : Nat) (i : Instr),
    NotDue s → (nextPick s).agent = .sword h → h < 1536 → s1 = { s.turned with cur := h, brk := none } →
    s1.halted = false → s1.me.run = .running → s1.me.asyncReady = false → (s1.me.kmode = false → s1.me.forwards = false) →
    s1.me.pc.toNat % 4 = 0 →
    resolve s1 h (!s1.me.kmode) .fetch s1.me.pc = .ok loc → s1.readsPoison loc 4 = false →
    decodeS (BitVec.ofNat 32 (leNat (s1.bytes loc 4))) = .ok i →
    step s = noteOut (exec i s1)

/-- A step of a hart's vector side runs the V-word at the offset of the block that dispatches, where nothing is due, compute
is not stopped or withheld, the block is ready and the core's pointer at the hart, the word's bytes are performed and can be
fetched, the context's entry waits for nothing, it holds lane groups, as many on every core of its gang (or its block ends with
nothing run in it), c.lazy does not apply, and no register named waits for a result. A U block's context is parked no more. A
word that names a register which the hart's trio lacks traps instead (spec/02, R33; spec/03, R44, R58 to R60; spec/12, R204,
R205, R211, R215, R218; spec/13, R241; spec/18, R287; assumption log, 30, 53). -/
def Sys2Proof.Claims.StepRunsVWord : Prop :=
  ∀ (s : State) (h : Nat) (brk : Option Nat) (s1 s2 s3 : State) (loc : Nat) (b : Block) (i : Instr),
    NotDue s → (nextPick s).agent = .vword h brk → h < 1536 → s1 = { s.turned with cur := h, brk := brk } →
    s2 = passPointer s1 h → s1.halted = false → s1.withheld = false → vReady s1 h = true → chosenV s1 h = true →
    s1.me.block? = some b → b.off < 65535 → (b.addr + BitVec.ofNat 64 (8 * b.off)).toNat % 8 = 0 →
    resolve s2 h s2.me.kq.isNone .fetch (b.addr + BitVec.ofNat 64 (8 * b.off)) = .ok loc → s2.readsPoison loc 8 = false →
    fetchWaits s2 b loc = false → decodeV (BitVec.ofNat 64 (leNat (s2.bytes loc 8))) = .ok i →
    (s2.me.kq ≠ none ∨ (entryWaits s2 (entryHart s2 h) = false ∧ s2.me.lazy = false)) →
    let granted := held s2 h ≠ 0 ∧ ∀ e ∈ grantEntries s2 h, (bitsOf (s2.hart e).lane.gmask).length = held s2 h
    (granted ∨ (i = .vstop ∧ (s2.me.kq ≠ none ∨ b.off = 0))) →
    (granted ∧ s2.me.kq = none → s3 = unpark s2 h) → (¬(granted ∧ s2.me.kq = none) → s3 = s2) → regsWait s3 i = false →
    step s = noteOut (poolOut s3 i (exec i s3)) ∧ (trioOf s3 h = none → step s = noteOut (exec i s3))

/-- A step of an event runs it: the event that is due comes first, and without one the event the schedule names, after its
cycles; where something is due within them, time passes up to that first (spec/20, R312, R322; assumption log, 3: the schedule
is the model's). -/
def Sys2Proof.Claims.StepRunsEvent : Prop :=
  (∀ (s : State) (i : Instr), dueEvent s = some i → step s = noteOut (exec i s))
  ∧ (∀ (s : State) (i : Instr), NotDue s → (nextPick s).agent = .event i → i.isEvent = true →
      i.wellFormed = true → eventReady s.turned i = true → step s = noteOut (exec i s.turned))
  ∧ ∀ (s : State) (n : Nat), dueEvent s = none → untilDue s = some n → n ≤ (nextPick s).cycles →
      ∃ t, step s = .next t ∧ t.time = s.time + BitVec.ofNat 64 n ∧ t.mem = s.mem ∧ t.harts = s.harts

/-- A step of another agent that the schedule names is its move after its cycles: a packet goes on its way; translations are
cached or dropped; Delveloth ends a launch, places a context or restarts a partition; the boot cluster reads a register, the
host a window; a port retries a flit; an answer reaches its chip. Where the read response of some lines is lost, a step that
reads one of them meets poison, counted and reported (spec/00, R6; spec/12, R224; spec/21, R325, R326, R328, R333, R334;
spec/22, R341, R352; spec/25, R363, R377; spec/26, R382, R384; assumption log, 3, 8, 47, 57). -/
def Sys2Proof.Claims.StepRunsAgent : Prop :=
  ∀ (s : State) (a : Agent), NotDue s → (nextPick s).agent = a →
    let u := s.turned
    let moves (t : State) : Prop := step s = .next (noteReady t)
    (∀ h n, a = .inject h n → h < 1536 → moves (inject u h n))
    ∧ (∀ i, a = .flit i → moves (flit u i)) ∧ (∀ i, a = .cross i → moves (cross u i))
    ∧ (∀ i, a = .arrive i → moves (arrive u i))
    ∧ (∀ c k va, a = .tlbFill c k va → c < 192 → moves (tlbFill u c k va))
    ∧ (∀ h va, a = .ctxFill h va → h < 1536 → moves (ctxFill u h va))
    ∧ (∀ c k va l, a = .walkFill c k va l → c < 192 → moves (walkFill u c k va l))
    ∧ (∀ c, a = .tlbEvict c → c < 192 → moves (tlbEvict u c))
    ∧ (∀ d e, a = .endLaunch d e → d < 2 → e < 4096 → moves (u.failLaunch d e 5))
    ∧ (∀ h pc i, a = .place h pc i → h < 1536 → moves (placeContext u h pc i))
    ∧ (∀ pid, a = .restart pid → moves { u with stopped := u.stopped.filter (· != pid) })
    ∧ (∀ l n b, a = .lostResponse l n b →
        (reader u b = none → step s = noteOut (runOne u b))
        ∧ ∀ who t v, reader u b = some who → runOne u b = .next t →
            found (runOne { u with lossy := packetLines l n } b) = .next v →
            (v = t → step s = noteOut (.next t))
            ∧ (v ≠ t → step s = noteOut (found (runOne { metLoss u who l with lossy := packetLines l n } b))))
    ∧ (∀ pa, a = .readReg pa → moves (readReg u pa)) ∧ (∀ off n, a = .hostRead off n → moves (hostRead u off n))
    ∧ (∀ p ok, a = .retry p ok → p < 16 → moves (retried u p ok)) ∧ ∀ i, a = .answered i → moves (answered u i)

/-! ### Integer arithmetic -/

/-- Every instruction of the integer group completes with the result of its row; only the divisions by zero raise a class,
DZ (spec/05, R81, R82). -/
def Sys2Proof.Claims.IntegerGroupResults : Prop :=
  ∀ (sd sa sb : SReg) (s : State),
    let a := s.rs sa
    let b := s.rs sb
    let n := b.toNat % 64
    SEnds s (exec (.add sd sa sb) s) sd (BitVec.ofInt 64 (a.toInt + b.toInt)) 0
    ∧ SEnds s (exec (.sub sd sa sb) s) sd (BitVec.ofInt 64 (a.toInt - b.toInt)) 0
    ∧ SEnds s (exec (.and sd sa sb) s) sd (a &&& b) 0
    ∧ SEnds s (exec (.or sd sa sb) s) sd (a ||| b) 0
    ∧ SEnds s (exec (.xor sd sa sb) s) sd (a ^^^ b) 0
    ∧ SEnds s (exec (.sll sd sa sb) s) sd (BitVec.ofNat 64 (a.toNat * 2 ^ n)) 0
    ∧ SEnds s (exec (.srl sd sa sb) s) sd (BitVec.ofNat 64 (a.toNat / 2 ^ n)) 0
    ∧ SEnds s (exec (.sra sd sa sb) s) sd (BitVec.ofInt 64 (a.toInt / 2 ^ n)) 0
    ∧ SEnds s (exec (.slt sd sa sb) s) sd (if a.toInt < b.toInt then 1 else 0) 0
    ∧ SEnds s (exec (.sltu sd sa sb) s) sd (if a.toNat < b.toNat then 1 else 0) 0
    ∧ SEnds s (exec (.mul sd sa sb) s) sd (BitVec.ofInt 64 (a.toInt * b.toInt)) 0
    ∧ SEnds s (exec (.mulh sd sa sb) s) sd (BitVec.ofInt 64 (a.toInt * b.toInt / 2 ^ 64)) 0
    ∧ SEnds s (exec (.mulhu sd sa sb) s) sd (BitVec.ofNat 64 (a.toNat * b.toNat / 2 ^ 64)) 0
    ∧ SEnds s (exec (.min sd sa sb) s) sd (if a.toInt ≤ b.toInt then a else b) 0
    ∧ SEnds s (exec (.max sd sa sb) s) sd (if a.toInt ≤ b.toInt then b else a) 0
    ∧ SEnds s (exec (.minu sd sa sb) s) sd (if a.toNat ≤ b.toNat then a else b) 0
    ∧ SEnds s (exec (.maxu sd sa sb) s) sd (if a.toNat ≤ b.toNat then b else a) 0

/-- The divisions: toward zero; by zero all ones or the dividend, with DZ; −2^63 by −1 gives −2^63 and 0 with no flag
(spec/05, R82). -/
def Sys2Proof.Claims.DivisionResults : Prop :=
  ∀ (sd sa sb : SReg) (s : State),
    let a := s.rs sa
    let b := s.rs sb
    let dz : Flags := if b = 0 then 2 else 0
    SEnds s (exec (.div sd sa sb) s) sd (if b = 0 then 0xFFFFFFFFFFFFFFFF else BitVec.ofInt 64 (a.toInt.tdiv b.toInt)) dz
    ∧ SEnds s (exec (.divu sd sa sb) s) sd (if b = 0 then 0xFFFFFFFFFFFFFFFF else BitVec.ofNat 64 (a.toNat / b.toNat)) dz
    ∧ SEnds s (exec (.rem sd sa sb) s) sd (if b = 0 then a else BitVec.ofInt 64 (a.toInt - a.toInt.tdiv b.toInt * b.toInt)) dz
    ∧ SEnds s (exec (.remu sd sa sb) s) sd (if b = 0 then a else BitVec.ofNat 64 (a.toNat - a.toNat / b.toNat * b.toNat)) dz

/-- The bit counts: n leading (trailing) zero bits, then a one where n is below 64; the number of ones (spec/05, R82). -/
def Sys2Proof.Claims.BitCountResults : Prop :=
  ∀ (sd sa : SReg) (s : State),
    let a := s.rs sa
    (∃ n, n ≤ 64 ∧ SEnds s (exec (.clz sd sa) s) sd (BitVec.ofNat 64 n) 0
      ∧ (∀ i, 64 - n ≤ i → a.getLsbD i = false) ∧ (n < 64 → a.getLsbD (63 - n) = true))
    ∧ (∃ n, n ≤ 64 ∧ SEnds s (exec (.ctz sd sa) s) sd (BitVec.ofNat 64 n) 0
      ∧ (∀ i, i < n → a.getLsbD i = false) ∧ (n < 64 → a.getLsbD n = true))
    ∧ SEnds s (exec (.pop sd sa) s) sd (BitVec.ofNat 64 ((List.range 64).countP fun i => a.getLsbD i)) 0

/-- The immediate forms, lhi, adrp and lra; the last two count from the word's own address (spec/05, R83, R84). -/
def Sys2Proof.Claims.ImmediateResults : Prop :=
  ∀ (sd sa : SReg) (imm : Imm16) (off : Off21) (amt : Shamt) (s : State),
    let a := s.rs sa
    let pc := s.me.pc.toNat
    SEnds s (exec (.addi sd sa imm) s) sd (BitVec.ofInt 64 (a.toInt + imm.toInt)) 0
    ∧ SEnds s (exec (.andi sd sa imm) s) sd (a &&& BitVec.ofNat 64 imm.toNat) 0
    ∧ SEnds s (exec (.ori sd sa imm) s) sd (a ||| BitVec.ofNat 64 imm.toNat) 0
    ∧ SEnds s (exec (.xori sd sa imm) s) sd (a ^^^ BitVec.ofNat 64 imm.toNat) 0
    ∧ SEnds s (exec (.slti sd sa imm) s) sd (if a.toInt < imm.toInt then 1 else 0) 0
    ∧ SEnds s (exec (.sltiu sd sa imm) s) sd (if a.toNat < (BitVec.ofInt 64 imm.toInt).toNat then 1 else 0) 0
    ∧ SEnds s (exec (.slli sd sa amt) s) sd (BitVec.ofNat 64 (a.toNat * 2 ^ amt.toNat)) 0
    ∧ SEnds s (exec (.srli sd sa amt) s) sd (BitVec.ofNat 64 (a.toNat / 2 ^ amt.toNat)) 0
    ∧ SEnds s (exec (.srai sd sa amt) s) sd (BitVec.ofInt 64 (a.toInt / 2 ^ amt.toNat)) 0
    ∧ SEnds s (exec (.lhi sd imm) s) sd (BitVec.ofNat 64 (imm.toNat * 65536)) 0
    ∧ SEnds s (exec (.adrp sd off) s) sd (BitVec.ofInt 64 ((pc / 65536 * 65536 : Nat) + off.toInt * 65536)) 0
    ∧ SEnds s (exec (.lra sd off) s) sd (BitVec.ofInt 64 ((pc / 8 * 8 : Nat) + off.toInt * 8)) 0

/-! ### Branches and jumps -/

/-- A branch is taken when its comparison holds, to pc + 4·off, and else goes on at pc + 4; jal and jalr leave pc + 4 in sd;
a jalr to an address that is no multiple of 4 traps with cause 0x05 and sd unwritten (spec/03, R46; spec/05, R94). -/
def Sys2Proof.Claims.BranchesAndJumps : Prop :=
  ∀ (sd sa sb : SReg) (off : Imm16) (off21 : Off21) (s : State),
    let a := s.rs sa
    let b := s.rs sb
    let dest (c : Bool) : Word := if c then s.me.pc + BitVec.ofInt 64 (4 * off.toInt) else s.me.pc + 4
    Jumps s (exec (.beq sa sb off) s) (dest (decide (a = b)))
    ∧ Jumps s (exec (.bne sa sb off) s) (dest (decide (a ≠ b)))
    ∧ Jumps s (exec (.blt sa sb off) s) (dest (decide (a.toInt < b.toInt)))
    ∧ Jumps s (exec (.bge sa sb off) s) (dest (decide (b.toInt ≤ a.toInt)))
    ∧ Jumps s (exec (.bltu sa sb off) s) (dest (decide (a.toNat < b.toNat)))
    ∧ Jumps s (exec (.bgeu sa sb off) s) (dest (decide (b.toNat ≤ a.toNat)))
    ∧ (∃ t, exec (.jal sd off21) s = .next t ∧ OnlyMe s t ∧ KeepsS s t sd
        ∧ t.me = { s.me with s := t.me.s, pc := s.me.pc + BitVec.ofInt 64 (4 * off21.toInt), swait := .none }
        ∧ t.rs sd = if sd = 0 then 0 else s.me.pc + 4)
    ∧ (let dst := a + BitVec.ofInt 64 off.toInt
       (dst.toNat % 4 = 0 → ∃ t, exec (.jalr sd sa off) s = .next t ∧ OnlyMe s t ∧ KeepsS s t sd
          ∧ t.me = { s.me with s := t.me.s, pc := dst, swait := .none } ∧ t.rs sd = if sd = 0 then 0 else s.me.pc + 4)
       ∧ (dst.toNat % 4 ≠ 0 → exec (.jalr sd sa off) s = .next (s.trapS 0x05 0 dst)))
/-! ### Scalar loads and stores -/

/-- A load of n bytes from ea that can be made completes with their value, extended to 64 bits; the bytes are memory's, with
the hart's own scalar writes that are still under way. -/
def Sys2Proof.Machine.LoadEnds (s : State) (o : Out) (sd : SReg) (ea : Word) (n : Nat) (signed : Bool) : Prop :=
  ∀ loc, ea.toNat % n = 0 → resolve s s.cur (!s.me.kmode) .load ea = .ok loc → addPending s loc n = false →
    s.poisonedFor s.cur false loc n = false →
    let x := leNat (s.view s.cur false loc n)
    SEnds s o sd (if signed then BitVec.ofInt 64 (BitVec.ofNat (8 * n) x).toInt else BitVec.ofNat 64 x) 0

/-- Every scalar load completes with the bytes at its address, sign- or zero-extended; ld.sc follows every earlier
scalar access of the hart (spec/03, R44; spec/05, R85 to R87, R91, R92; spec/15, R263). -/
def Sys2Proof.Claims.ScalarLoadResults : Prop :=
  ∀ (sd sa : SReg) (imm : Imm16) (x : OrdLoad) (s : State),
    let ea := s.rs sa + BitVec.ofInt 64 imm.toInt
    let eo := s.rs x.sa + BitVec.ofNat 64 (x.off.toNat * widthBytes x.w)
    LoadEnds s (exec (.ldB sd sa imm) s) sd ea 1 true ∧ LoadEnds s (exec (.ldH sd sa imm) s) sd ea 2 true
    ∧ LoadEnds s (exec (.ldW sd sa imm) s) sd ea 4 true ∧ LoadEnds s (exec (.ldD sd sa imm) s) sd ea 8 true
    ∧ LoadEnds s (exec (.ldBu sd sa imm) s) sd ea 1 false ∧ LoadEnds s (exec (.ldHu sd sa imm) s) sd ea 2 false
    ∧ LoadEnds s (exec (.ldWu sd sa imm) s) sd ea 4 false
    ∧ LoadEnds s (exec (.ldAcq x) s) x.sd eo (widthBytes x.w) (!x.u)
    ∧ (ssDone s = true → LoadEnds s (exec (.ldSc x) s) x.sd eo (widthBytes x.w) (!x.u))

/-- A store of the low n bytes of sd to ea that can be made completes: the hart's own scalar reads see those bytes and no
other change, no register changes, and no byte of memory changes before the write is performed. A store that touches a
withdrawn output makes no access and is counted late. -/
def Sys2Proof.Machine.StoreEnds (s : State) (o : Out) (sd : SReg) (ea : Word) (n : Nat) : Prop :=
  (∀ loc, withdrawnAt s s.cur ea n = none → ea.toNat % n = 0 → resolve s s.cur (!s.me.kmode) .store ea = .ok loc →
    ∃ t, o = .next t ∧ OnlyMe s t
      ∧ t.me = { s.me with pc := s.me.pc + 4, swait := .none, out := t.me.out, nextNum := t.me.nextNum }
      ∧ t.view s.cur false loc n = toLe n (s.rs sd).toNat
      ∧ ∀ a, (a < loc ∨ loc + n ≤ a) → t.view s.cur false a 1 = s.view s.cur false a 1)
  ∧ ∀ hd, withdrawnAt s s.cur ea n = some hd → o = .next (countLate s s.cur hd n).adv

/-- A store with .sc that can be made, once every earlier scalar access of the hart is performed and its cluster has quota for
it and its core the turn, is performed in its own step: its bytes become those of sd, and no other byte and no register
changes. -/
def Sys2Proof.Machine.StoreScEnds (s : State) (o : Out) (sd : SReg) (ea : Word) (n : Nat) : Prop :=
  (∀ loc, withdrawnAt s s.cur ea n = none → ea.toNat % n = 0 → resolve s s.cur (!s.me.kmode) .store ea = .ok loc →
    (ssDone s = false ∨ s.sendNow s.cur loc = none → Waits s o)
    ∧ (∀ u, ssDone s = true → s.sendNow s.cur loc = some u → ∃ t, o = .next t
      ∧ t = { s with harts := t.harts, dies := u.dies, clusters := u.clusters, mem := t.mem, lost := t.lost, keyed := t.keyed,
                     poison := t.poison }
      ∧ (∀ k, k ≠ s.cur → t.hart k = s.hart k) ∧ t.me = { s.me with pc := s.me.pc + 4, swait := .none }
      ∧ t.bytes loc n = toLe n (s.rs sd).toNat ∧ ∀ a, (a < loc ∨ loc + n ≤ a) → t.byte a = s.byte a))
  ∧ ∀ hd, withdrawnAt s s.cur ea n = some hd → ssDone s = true → o = .next (countLate s s.cur hd n).adv

/-- Every scalar store completes so; that a store with .sc waits its core's turn, keeps the order of its route and is charged
to the cluster's quota as it is performed is the choice of assumption log, 59 (spec/05, R85 to R87, R91, R92; spec/15, R263;
spec/19, R300; spec/21, R325, R332). -/
def Sys2Proof.Claims.ScalarStoreResults : Prop :=
  ∀ (sd sa : SReg) (imm : Imm16) (x : OrdStore) (s : State),
    let ea := s.rs sa + BitVec.ofInt 64 imm.toInt
    let eo := s.rs x.sa + BitVec.ofNat 64 (x.off.toNat * widthBytes x.w)
    StoreEnds s (exec (.stB sd sa imm) s) sd ea 1 ∧ StoreEnds s (exec (.stH sd sa imm) s) sd ea 2
    ∧ StoreEnds s (exec (.stW sd sa imm) s) sd ea 4 ∧ StoreEnds s (exec (.stD sd sa imm) s) sd ea 8
    ∧ StoreEnds s (exec (.stRel x) s) x.sd eo (widthBytes x.w) ∧ StoreScEnds s (exec (.stSc x) s) x.sd eo (widthBytes x.w)

/-- The checks of an access of n bytes at ea trap in order, with c.tval the address: alignment before translation. -/
def Sys2Proof.Machine.AccessTraps (s : State) (o : Out) (a : Acc) (ea : Word) (n : Nat) : Prop :=
  (a = .store → withdrawnAt s s.cur ea n = none) →
    (ea.toNat % n ≠ 0 → o = .next (s.trapS 0x05 0 ea))
    ∧ (ea.toNat % n = 0 → ∀ e, resolve s s.cur (!s.me.kmode) a ea = .error e → o = .next (s.trapS e.code e.sub ea))

/-- Those of a load, then the wait for the hart's own reduce-adds and, with .sc, for its earlier scalar accesses, then
poison. -/
def Sys2Proof.Machine.LoadTraps (s : State) (o : Out) (ea : Word) (n : Nat) (sc : Bool) : Prop :=
  AccessTraps s o .load ea n
  ∧ ∀ loc, ea.toNat % n = 0 → resolve s s.cur (!s.me.kmode) .load ea = .ok loc →
      (addPending s loc n = true ∨ (sc = true ∧ ssDone s = false) → Waits s o)
      ∧ (addPending s loc n = false → (sc = true → ssDone s = true) → s.poisonedFor s.cur false loc n = true →
          o = .next (s.trapS 0x10 0 ea))

/-- Those of an atomic that returns a value, then the wait for the accesses it must follow, for its core's turn, for its
route and for quota, then poison. -/
def Sys2Proof.Machine.AmoTraps (s : State) (o : Out) (ea : Word) (ord : Order) (n : Nat) : Prop :=
  AccessTraps s o .atomic ea n
  ∧ ∀ loc, ea.toNat % n = 0 → resolve s s.cur (!s.me.kmode) .atomic ea = .ok loc →
      (amoWaits s ord loc n = true ∨ s.sendNow s.cur loc = none → Waits s o)
      ∧ (∀ u, amoWaits s ord loc n = false → s.sendNow s.cur loc = some u → s.poisoned loc n = true →
          o = .next (u.trapS 0x10 0 ea))

/-- The checks of every scalar access trap in order, with c.tval the address: alignment 0x05 before translation 0x06 or 0x07
(0x09 for ownership) before poison, which no handler sees. Nothing else of the access happens. A store meets no poison, nor
does an amo.add that is a reduce-add; an atomic waits its turn and is charged to the cluster's quota first (assumption log,
59; spec/05, R85, R87, R88, R91, R92; spec/02, R43; spec/21, R325; spec/25, R367). -/
def Sys2Proof.Claims.ScalarAccessTraps : Prop :=
  ∀ (sd sa : SReg) (imm : Imm16) (l : OrdLoad) (r : OrdStore) (x : AmoOp) (c : CasOp) (s : State),
    let ea := s.rs sa + BitVec.ofInt 64 imm.toInt
    let el := s.rs l.sa + BitVec.ofNat 64 (l.off.toNat * widthBytes l.w)
    let er := s.rs r.sa + BitVec.ofNat 64 (r.off.toNat * widthBytes r.w)
    let n := if x.dbl then 8 else 4
    let amo (i : Instr) : Prop := AmoTraps s (exec i s) (s.rs x.sa) x.ord n
    LoadTraps s (exec (.ldB sd sa imm) s) ea 1 false ∧ LoadTraps s (exec (.ldBu sd sa imm) s) ea 1 false
    ∧ LoadTraps s (exec (.ldH sd sa imm) s) ea 2 false ∧ LoadTraps s (exec (.ldHu sd sa imm) s) ea 2 false
    ∧ LoadTraps s (exec (.ldW sd sa imm) s) ea 4 false ∧ LoadTraps s (exec (.ldWu sd sa imm) s) ea 4 false
    ∧ LoadTraps s (exec (.ldD sd sa imm) s) ea 8 false
    ∧ LoadTraps s (exec (.ldAcq l) s) el (widthBytes l.w) false ∧ LoadTraps s (exec (.ldSc l) s) el (widthBytes l.w) true
    ∧ AccessTraps s (exec (.stB sd sa imm) s) .store ea 1 ∧ AccessTraps s (exec (.stH sd sa imm) s) .store ea 2
    ∧ AccessTraps s (exec (.stW sd sa imm) s) .store ea 4 ∧ AccessTraps s (exec (.stD sd sa imm) s) .store ea 8
    ∧ AccessTraps s (exec (.stRel r) s) .store er (widthBytes r.w)
    ∧ AccessTraps s (exec (.stSc r) s) .store er (widthBytes r.w)
    ∧ AccessTraps s (exec (.amoAdd x) s) .atomic (s.rs x.sa) n ∧ (¬(x.sd = 0 ∧ x.ord = .relaxed) → amo (.amoAdd x))
    ∧ amo (.amoAnd x) ∧ amo (.amoOr x) ∧ amo (.amoXor x) ∧ amo (.amoMin x) ∧ amo (.amoMax x) ∧ amo (.amoSwap x)
    ∧ AmoTraps s (exec (.cas c) s) (s.rs c.sa) c.ord (if c.dbl then 8 else 4)

/-- The address check of U mode and K mode alike: bits 63:56 not zero is a miss of the access's own cause, and a window of no
region is cause 0x09 (spec/05, R85; spec/21, R334, R335). -/
def Sys2Proof.Claims.AddressChecks : Prop :=
  ∀ (s : State) (h : Nat) (u : Bool) (a : Acc) (ea : Word),
    (2 ^ 56 ≤ ea.toNat → resolve s h u a ea = .error ⟨a.cause, 0⟩)
    ∧ (ea.toNat / 2 ^ 48 = 0xFF → 3 ≤ ea.toNat / 2 ^ 40 % 256 → resolve s h u a ea = .error ⟨0x09, 0⟩)
    ∧ (ea.toNat / 2 ^ 48 = 0xFF → ea.toNat / 2 ^ 40 % 256 = 2 → ea.toNat % 2 ^ 40 < 48 * 2 ^ 20 →
        resolve s h u a ea = .ok (sramBase (dieOf h) + ea.toNat % 2 ^ 40))

/-! ### Atomics and fences -/

/-- An atomic of n bytes at the address in sa that can be made, with quota for it and its core's turn, completes in one step:
sd is the old value sign-extended, the bytes become those of new, and no other byte and no other register changes. -/
def Sys2Proof.Machine.AmoEnds (s : State) (o : Out) (sd sa : SReg) (ord : Order) (n : Nat) (new : Word → Word) : Prop :=
  ∀ loc u, (s.rs sa).toNat % n = 0 → resolve s s.cur (!s.me.kmode) .atomic (s.rs sa) = .ok loc →
    amoWaits s ord loc n = false → s.sendNow s.cur loc = some u → s.poisoned loc n = false →
    let old := BitVec.ofInt 64 (BitVec.ofNat (8 * n) (leNat (s.bytes loc n))).toInt
    ∃ t, o = .next t
      ∧ t = { s with harts := t.harts, dies := u.dies, clusters := u.clusters, mem := t.mem, lost := t.lost, keyed := t.keyed }
      ∧ (∀ k, k ≠ s.cur → t.hart k = s.hart k)
      ∧ t.me = { s.me with s := t.me.s, pc := s.me.pc + 4, swait := .none } ∧ KeepsS s t sd
      ∧ t.rs sd = (if sd = 0 then 0 else old) ∧ t.bytes loc n = toLe n (new old).toNat
      ∧ ∀ a, (a < loc ∨ loc + n ≤ a) → t.byte a = s.byte a

/-- The atomics. amo.add with sd = s0 and relaxed order is a reduce-add, which leaves as a packet; the others wait their
core's turn, keep the order of their route and are charged to the cluster's quota as they are performed (assumption log, 59;
spec/05, R88 to R90; spec/21, R325, R331). -/
def Sys2Proof.Claims.AtomicResults : Prop :=
  ∀ (x : AmoOp) (c : CasOp) (s : State),
    let n := if x.dbl then 8 else 4
    let b := BitVec.ofInt 64 (BitVec.ofNat (8 * n) (s.rs x.sb).toNat).toInt
    let m := if c.dbl then 8 else 4
    (¬(x.sd = 0 ∧ x.ord = .relaxed) →
      AmoEnds s (exec (.amoAdd x) s) x.sd x.sa x.ord n fun a => a + b)
    ∧ (x.sd = 0 → x.ord = .relaxed → ∀ loc, (s.rs x.sa).toNat % n = 0 →
        resolve s s.cur (!s.me.kmode) .atomic (s.rs x.sa) = .ok loc →
        exec (.amoAdd x) s = .next ((pushAdd s s.cur ⟨false, false, s.me.nextNum, false, true, false, holds s s.cur false (s.rs x.sa),
              s.me.fenced, none⟩
          { loc := loc, fmt := if x.dbl then .int64 else .int32, rm := .rne, sat := false,
            val := BitVec.ofNat 64 ((s.rs x.sb).toNat % 2 ^ (8 * n)) }).adv))
    ∧ AmoEnds s (exec (.amoAnd x) s) x.sd x.sa x.ord n (fun a => a &&& b)
    ∧ AmoEnds s (exec (.amoOr x) s) x.sd x.sa x.ord n (fun a => a ||| b)
    ∧ AmoEnds s (exec (.amoXor x) s) x.sd x.sa x.ord n (fun a => a ^^^ b)
    ∧ AmoEnds s (exec (.amoMin x) s) x.sd x.sa x.ord n (fun a => if a.toInt ≤ b.toInt then a else b)
    ∧ AmoEnds s (exec (.amoMax x) s) x.sd x.sa x.ord n (fun a => if a.toInt ≤ b.toInt then b else a)
    ∧ AmoEnds s (exec (.amoSwap x) s) x.sd x.sa x.ord n (fun _ => b)
    ∧ AmoEnds s (exec (.cas c) s) c.sd c.sa c.ord m (fun a =>
        if a.toNat % 2 ^ (8 * m) = (s.rs c.sd).toNat % 2 ^ (8 * m) then s.rs c.sb else a)

/-- A fence completes once what it waits for is performed, and changes no register and no memory: fnc.ss the hart's scalar
accesses, fnc.vs its blocks and their accesses; fnc.sv and fnc.vv wait for nothing themselves and hold later blocks back, of
their own mode for fnc.vv (spec/05, R93; spec/12, R215). -/
def Sys2Proof.Claims.FenceResults : Prop :=
  ∀ (sc : Scope) (s : State),
    ((∀ p ∈ s.pkts s.cur, p.sca = true → s.me.nextNum ≤ p.num) → ∃ t, exec (.fncSs sc) s = .next t ∧ OnlyMe s t
      ∧ t.me = { s.me with pc := s.me.pc + 4, swait := .none, fenced := s.me.fenced + 1 })
    ∧ (∀ p ∈ s.pkts s.cur, p.sca = true → p.num < s.me.nextNum → Waits s (exec (.fncSs sc) s))
    ∧ (∃ t, exec (.fncSv sc) s = .next t ∧ OnlyMe s t
      ∧ t.me = { s.me with pc := s.me.pc + 4, swait := .none, fenced := s.me.fenced + 1, svBound := s.me.nextNum })
    ∧ (vsDone s = true → ∃ t, exec (.fncVs sc) s = .next t ∧ OnlyMe s t
      ∧ t.me = { s.me with pc := s.me.pc + 4, swait := .none, fenced := s.me.fenced + 1 })
    ∧ (vsDone s = false → Waits s (exec (.fncVs sc) s))
    ∧ (∃ t, exec (.fncVv sc) s = .next t ∧ OnlyMe s t
      ∧ t.me = { s.me with pc := s.me.pc + 4, swait := .none, fenced := s.me.fenced + 1,
                           kvFence := s.me.kmode || s.me.kvFence, vvFence := !s.me.kmode || s.me.vvFence })

/-! ### Scalar floating point -/

/-- The scalar floating-point group: each operand is read from the low bits of its register, the exact result is rounded once
into the format and zero-extended, and its classes join c.flags; c.fi stays (spec/02, R19; spec/05, R81, R95). -/
def Sys2Proof.Claims.ScalarFloatResults : Prop :=
  ∀ (ff : FpFmt) (rm : Rm) (sd sa sb : SReg) (s : State),
    let f := ffFmt ff
    let a := readVal f (s.rs sa)
    let b := readVal f (s.rs sb)
    let ends (o : Out) (rm : Rm) (x : Exact) : Prop := SEnds s o sd (deliver f rm false x).1 (deliver f rm false x).2
    ends (exec (.fadd ff rm sd sa sb) s) rm (addV rm a b) ∧ ends (exec (.fsub ff rm sd sa sb) s) rm (subV rm a b)
    ∧ ends (exec (.fmul ff rm sd sa sb) s) rm (mulV a b) ∧ ends (exec (.fdiv ff rm sd sa sb) s) rm (divV a b)
    ∧ ends (exec (.fsqrt ff rm sd sa) s) rm (sqrtV a)
    ∧ ends (exec (.fmadd ff rm sd sa sb) s) rm (fmaV rm a b (readVal f (s.rs sd)))
    ∧ ends (exec (.fmin ff sd sa sb) s) .rne (minMaxV false false a b)
    ∧ ends (exec (.fmax ff sd sa sb) s) .rne (minMaxV true false a b)
    ∧ ends (exec (.fminNum ff sd sa sb) s) .rne (minMaxV false true a b)
    ∧ ends (exec (.fmaxNum ff sd sa sb) s) .rne (minMaxV true true a b)

/-- The compares write 1 or 0 and raise what the compare raises; fcls writes one bit, that of the operand's class; fcvt
converts, clamping into an integer format, and extends by its destination code (spec/04, R66, R70; spec/05, R96, R97). -/
def Sys2Proof.Claims.ScalarFloatTestsAndConversions : Prop :=
  ∀ (ff : FpFmt) (dst src : Fmt) (rm : Rm) (sd sa sb : SReg) (s : State),
    let f := ffFmt ff
    let a := readVal f (s.rs sa)
    let b := readVal f (s.rs sb)
    let ends (o : Out) (c : Cond) : Prop := SEnds s o sd (if (compareV c a b).1 then 1 else 0) (compareV c a b).2
    ends (exec (.fcmpEq ff sd sa sb) s) .eq ∧ ends (exec (.fcmpLt ff sd sa sb) s) .lt
    ∧ ends (exec (.fcmpLe ff sd sa sb) s) .le ∧ ends (exec (.fcmpUn ff sd sa sb) s) .un
    ∧ (∀ eb fb, fkind f = .fp eb fb →
        SEnds s (exec (.fcls ff sd sa) s) sd (BitVec.ofNat 64 (2 ^ classBit eb fb (s.rs sa).toNat)) 0)
    ∧ SEnds s (exec (.fcvt dst src rm sd sa) s) sd (fmtExtend dst (convert src dst rm true 0 (s.rs sa)).1)
        (convert src dst rm true 0 (s.rs sa)).2

/-! ### Control words, traps, the return -/

/-- The mode and the waits let a control word be accessed: it exists, is not hidden from the mode, and a vector-side word
finds the vector side idle. -/
def Sys2Proof.Machine.CwReady (s : State) (i : CwIdx) : Prop :=
  cwSide i ≠ none ∧ (cwHidden i = true → s.me.kmode = true) ∧ (cwSide i = some .vector → s.me.vIdle = true)

/-- The bits of a control word that a write sets; none for c.msh and c.tstat, which hold other bits too. -/
def Sys2Proof.Machine.cwStored (i : CwIdx) : Option Word :=
  match i with
  | 0x004 => none
  | 0x044 => none
  | 0x005 => some 0x1F
  | 0x010 => some 0x1FF
  | 0x023 => some 1
  | 0x031 => some 0xFFFF
  | 0x040 => some 0x800000000000FFFF
  | 0x041 => some 0x00FFFFFFFFFFFFFF
  | 0x042 => some 0xFFFFFFFFFFFFFFFF
  | 0x045 => some 0x00FFFFFFFFFFFFFC
  | 0x046 => some 0x00FFFFFFFFFFFFFF
  | 0x047 => some 0xFFFFFFFFFFFFFFFF
  | _ => some 0xFFFFFFFF

/-- After a write of v to control word i: i reads as the bits of v that it stores; every other word reads as before, but that
a write of c.flags may reset words of c.fi. c.msh keeps the tile mask that it shows, and of c.tstat three bits are written; a
1 written to bit 4 clears kc, so that bit 3 then reads 0, and bit 4 and the others read as before. -/
def Sys2Proof.Machine.CwWrites (s t : State) (i : CwIdx) (v : Word) : Prop :=
  (∀ j, j ≠ i → ¬(i = 0x010 ∧ 0x011 ≤ j.toNat ∧ j.toNat ≤ 0x019) → cwRead t t.cur j = cwRead s s.cur j)
  ∧ (∀ m, cwStored i = some m → cwRead t t.cur i = v &&& m)
  ∧ (i = 0x004 → cwRead t t.cur i = (v &&& 0x00001FFF1F1FFFFF) ||| (s.me.lane.tmask.setWidth 64 <<< 48))
  ∧ (i = 0x044 → ∀ k, k < 64 → (cwRead t t.cur i).getLsbD k
      = if k < 3 then v.getLsbD k else if k = 3 then !v.getLsbD 4 && (cwRead s s.cur i).getLsbD k
        else (cwRead s s.cur i).getLsbD k)

/-- crd reads a control word; cwr of one that the mode may write changes that word alone and ignores the others, so that a
later crd reads what was written, and of every other word what it held; a c.k outside 1 to 16 traps; an unknown index is
illegal with subcode 4; a word hidden from U mode is privileged; a vector-side word waits (spec/02, R6, R28, R29; spec/05,
R98). -/
def Sys2Proof.Claims.ControlWordAccess : Prop :=
  ∀ (r : SReg) (i : CwIdx) (s : State),
    let v := s.rs r
    (CwReady s i → SEnds s (exec (.crd r i) s) r (cwRead s s.cur i) 0)
    ∧ (CwReady s i → cwWritable s.me.kmode i = false → Jumps s (exec (.cwr r i) s) (s.me.pc + 4))
    ∧ (CwReady s i → cwWritable s.me.kmode i = true → (i = 0x005 → 1 ≤ v.toNat % 32 ∧ v.toNat % 32 ≤ 16) →
        ∃ t, exec (.cwr r i) s = .next t ∧ OnlyMe s t
          ∧ t.me = { cwWrite s.me i v with pc := s.me.pc + 4, swait := .none })
    ∧ (CwReady s 0x005 → ¬(1 ≤ v.toNat % 32 ∧ v.toNat % 32 ≤ 16) → exec (.cwr r 0x005) s = .next (s.trapS 0x03 0 0))
    ∧ (CwReady s i → cwWritable s.me.kmode i = true → (i = 0x005 → 1 ≤ v.toNat % 32 ∧ v.toNat % 32 ≤ 16) →
        ∃ t, exec (.cwr r i) s = .next t ∧ CwWrites s t i v)
    ∧ (cwSide i = none → exec (.crd r i) s = .next (s.trapS 0x01 4 (instrWord (.crd r i)))
        ∧ exec (.cwr r i) s = .next (s.trapS 0x01 4 (instrWord (.cwr r i))))
    ∧ (cwHidden i = true → s.me.kmode = false → exec (.crd r i) s = .next (s.trapS 0x04 0 (instrWord (.crd r i)))
        ∧ exec (.cwr r i) s = .next (s.trapS 0x04 0 (instrWord (.cwr r i))))
    ∧ (cwSide i = some .vector → s.me.vIdle = false → Waits s (exec (.crd r i) s) ∧ Waits s (exec (.cwr r i) s))

/-- c.tvec holds bits 55:2 of what is written, zero elsewhere, and resets to 0; c.kscr holds all 64 bits and its write has no
other effect (spec/02, R41). -/
def Obligations.HandlerAddressAndScratch : Prop :=
  (∀ k, (State.reset.hart k).tvec = 0)
  ∧ ∀ (r q : SReg) (s : State), s.me.kmode = true →
      (∃ t, exec (.cwr r 0x045) s = .next t ∧ OnlyMe s t
        ∧ t.me = { s.me with tvec := s.rs r &&& 0x00FFFFFFFFFFFFFC, pc := s.me.pc + 4, swait := .none }
        ∧ SEnds t (exec (.crd q 0x045) t) q (s.rs r &&& 0x00FFFFFFFFFFFFFC) 0)
      ∧ ∃ u, exec (.cwr r 0x047) s = .next u ∧ OnlyMe s u ∧ u.me = { s.me with kscr := s.rs r, pc := s.me.pc + 4, swait := .none }
        ∧ SEnds u (exec (.crd q 0x047) u) q (s.rs r) 0

/-- A bit of c.flags that a cwr clears resets its c.fi word to all ones; every other c.fi word stays, and c.flags is what was
written (spec/02, R31). -/
def Sys2Proof.Claims.FlagsWriteResetsFirstIndex : Prop :=
  ∀ (r : SReg) (s : State), CwReady s 0x010 → ∃ t, exec (.cwr r 0x010) s = .next t ∧ OnlyMe s t
    ∧ t.me.flags = (s.rs r).setWidth 9
    ∧ ∀ c : Fin 9, t.me.fi.get c = if s.me.flags.getLsbD c.val ∧ ¬(s.rs r).getLsbD c.val then 0xFFFFFFFF else s.me.fi.get c

/-- sys, brk and trp trap in U mode with causes 0x0D, 0x0C and 0x0E, c.tval 0 and c.epc the word itself; trp of a zero and nop
only go on (spec/02, R36, R38, R39; spec/05, R99, R100). -/
def Sys2Proof.Claims.TrapInstructionsTrap : Prop :=
  ∀ (sa : SReg) (s : State),
    (s.me.kmode = false →
      (∃ t, exec .sys s = .next t ∧ TrapTaken s t s.cur 0x0D 0 0 0 s.me.stopped)
      ∧ (∃ t, exec .brk s = .next t ∧ TrapTaken s t s.cur 0x0C 0 0 0 s.me.stopped)
      ∧ (s.rs sa ≠ 0 → ∃ t, exec (.trp sa) s = .next t ∧ TrapTaken s t s.cur 0x0E 0 0 0 s.me.stopped))
    ∧ (s.rs sa = 0 → Jumps s (exec (.trp sa) s) (s.me.pc + 4))
    ∧ Jumps s (exec .nop s) (s.me.pc + 4)

/-- In K mode a synchronous trap is not delivered, nor that of an end, of a task or not: the hart stops, a fault record is
posted where the ring has room, alone where the hart is of no launch, and no trap word changes (spec/02, R43; spec/05, R104;
spec/25, R378). -/
def Sys2Proof.Claims.UndeliveredTraps : Prop :=
  ∀ (s : State), s.me.kmode = true → ∀ i ∈ [Instr.sys, .brk, .endL], ∃ t, exec i s = .next t ∧ t.me.run = .stopped
    ∧ t.me.cause = s.me.cause ∧ t.me.epc = s.me.epc ∧ t.me.kmode = true
    ∧ (s.me.launch = none → s.ringWr - s.ringRd ≠ 4096 → t.ringWr = s.ringWr + 1)

/-- eret in K mode goes back to the mode, the interrupt enable and the address that the trap saved, clears the fault mark of
every bobbin, keeps every register, and resumes the oldest block at the word that c.qpos and c.vbad name where a trap of a
V-word or a write of either word in K mode set them, which is the choice of assumption log, 23; in U mode it is privileged
(spec/02, R35, R42; spec/05, R100; spec/12, R214; spec/14, R244, R252). -/
def Sys2Proof.Claims.ReturnFromTrap : Prop :=
  ∀ (s : State),
    (s.me.kmode = true → ∃ t, exec .eret s = .next t ∧ OnlyMe s t
      ∧ t.me = { s.me with kmode := s.me.pmode, ie := s.me.pie, pc := s.me.epc, swait := t.me.swait, vq := t.me.vq,
                           b := t.me.b, fdirty := t.me.fdirty, arec := t.me.arec }
      ∧ (∀ b rest, s.me.vq = b :: rest → t.me.vq =
          (if s.me.vbad = b.addr &&& 0x00FFFFFFFFFFFFFF ∧ s.me.named = true
           then { b with off := s.me.qpos.toNat / 65536, mid := b.mid && decide (s.me.qpos.toNat / 65536 = b.off) } else b)
            :: rest)
      ∧ (∀ k : Fin 16, t.me.b.get k = { s.me.b.get k with flt := false })
      ∧ ∀ k : Fin 32, t.me.fdirty.getLsbD k.val
          = (s.me.fdirty.getLsbD k.val || decide (∃ i : Fin 16, k.val = 12 + i.val ∧ (s.me.b.get i).flt = true)))
    ∧ (s.me.kmode = false → ∃ t, exec .eret s = .next t ∧ TrapTaken s t s.cur 0x04 (instrWord .eret) 0 0 s.me.stopped)

/-! ### The read queue, blocks, events -/

/-- wfe completes with 1 and clears the event bit when it is set, with 0 at its deadline, and otherwise waits; vrecv pops the
oldest value, and traps where none can come; vf queues a block with its snapshot of s16 to s31, in K mode as the K entry;
vstop ends the block: the next one of the queue comes to its place, or the K entry is empty and gives back the groups that
were taken for it, and c.vs and every register stay (spec/02, R29; spec/03, R59; spec/05, R101 to R103; spec/12, R213, R215;
assumption log, 16). -/
def Obligations.EventsQueueAndBlocks : Prop :=
  ∀ (sd sa : SReg) (off : Off21) (s : State),
    let dst := s.me.pc + BitVec.ofInt 64 (4 * off.toInt)
    (s.me.event = true → ∃ t, exec (.wfe sd sa) s = .next t ∧ OnlyMe s t ∧ KeepsS s t sd ∧ t.rs sd = (if sd = 0 then 0 else 1)
      ∧ t.me = { s.me with s := t.me.s, pc := s.me.pc + 4, swait := .none, event := false })
    ∧ (s.me.event = false → s.rs sa ≠ 0 → (s.rs sa).toNat ≤ s.time.toNat → SEnds s (exec (.wfe sd sa) s) sd 0 0)
    ∧ (s.me.event = false → deadlinePast s (s.rs sa) = false → ∃ t, exec (.wfe sd sa) s = .next t ∧ OnlyMe s t
      ∧ t.me = { s.me with swait := .wfe sd (s.rs sa) })
    ∧ (∀ v rest, s.me.rq = v :: rest → ∃ t, exec (.vrecv sd) s = .next t ∧ OnlyMe s t ∧ KeepsS s t sd
        ∧ t.rs sd = (if sd = 0 then 0 else v) ∧ t.me = { s.me with s := t.me.s, pc := s.me.pc + 4, swait := .none, rq := rest })
    ∧ (s.me.rq = [] → s.me.vq = [] → s.me.kq = none → exec (.vrecv sd) s = .next (s.trapS 0x03 0 0))
    ∧ (s.me.rq = [] → (s.me.vq ≠ [] ∨ s.me.kq ≠ none) → Waits s (exec (.vrecv sd) s))
    ∧ (dst.toNat / 4 % 2 = 0 → s.me.kmode = false → queueRoom s s.cur = true →
        ∃ (t : State) (b : Block), exec (.vf off) s = .next t ∧ OnlyMe s t
          ∧ t.me = { s.me with pc := s.me.pc + 4, swait := .none, vq := s.me.vq ++ [b], vvFence := false }
          ∧ b.addr = dst ∧ b.off = 0 ∧ ∀ k : Fin 16, b.snap.get k = s.me.s.get ⟨16 + k.val, by omega⟩)
    ∧ (dst.toNat / 4 % 2 = 0 → s.me.kmode = true → s.me.kq = none →
        ∃ (t : State) (b : Block), exec (.vf off) s = .next t ∧ OnlyMe s t
          ∧ t.me = { s.me with pc := s.me.pc + 4, swait := .none, kq := some b, kvFence := false }
          ∧ b.addr = dst ∧ b.off = 0 ∧ ∀ k : Fin 16, b.snap.get k = s.me.s.get ⟨16 + k.val, by omega⟩)
    ∧ (dst.toNat / 4 % 2 = 0 → s.me.kmode = true → s.me.kq ≠ none → Waits s (exec (.vf off) s))
    ∧ (s.me.kmode = false → queueRoom s s.cur = false → dst.toNat / 4 % 2 = 0 → Waits s (exec (.vf off) s))
    ∧ (dst.toNat / 4 % 2 = 1 → exec (.vf off) s = .next (s.trapS 0x05 0 dst))
    ∧ (∀ b q, s.me.kq = none → s.me.vq = b :: q → ∃ t, exec .vstop s = .next t ∧ OnlyMe s t
        ∧ t.me = { s.me with blocks := s.me.blocks + 1, vq := t.me.vq }
        ∧ t.me.vq.length = q.length ∧ ∀ (c : Block) (r : List Block), q = c :: r → t.me.vq = { c with vnum := s.me.nextNum } :: r)
    ∧ (∀ b, s.me.kq = some b → s.me.kgrant = none → ∃ t, exec .vstop s = .next t ∧ OnlyMe s t ∧ t.me = { s.me with kq := none })
    ∧ (∀ b st, s.me.kq = some b → s.me.kgrant = some st → s.me.gang = 1 → trioOf s s.cur = none →
        ∃ t, exec .vstop s = .next t ∧ OnlyMe s t
          ∧ t.me = { s.me with kq := none, kgrant := none, lastGrant := max (held s s.cur) s.me.lastGrant,
                               lane := { s.me.lane with gmask := 0, st := st } })
/-! ### The tack net -/

/-- The checks of a channel word pass: U mode, no other bit set, lv only for tkjoin, a channel of the hart's partition that is
enabled (spec/20, R309, R313). -/
def Sys2Proof.Machine.ChannelOk (s : State) (w : Word) (join : Bool) (ch : Nat) : Prop :=
  s.me.kmode = false ∧ w.toNat < 256 ∧ (w.toNat / 128 = 1 → join = true) ∧ ch = w.toNat % 128 ∧ ch ≤ 79 ∧ ch ≠ 63
    ∧ (s.chan (hubOf s.cur ch) ch).en = true ∧ (s.chan (hubOf s.cur ch) ch).pid = s.pidOf s.cur

/-- A tack instruction changes only its hart's scalar registers, pc, wait, request, channel copies and arrival record, and the
signals on their way to one hub. -/
def Sys2Proof.Machine.TackFrame (s t : State) (sd : SReg) (ch : Nat) (sent : List (Nat × HubSig)) : Prop :=
  t = { s with harts := t.harts, dies := t.dies, pkgChans := t.pkgChans } ∧ (∀ k, k ≠ s.cur → t.hart k = s.hart k)
    ∧ t.me = { s.me with s := t.me.s, pc := t.me.pc, swait := t.me.swait, tack := t.me.tack, arec := t.me.arec,
                         tkreq := t.me.tkreq }
    ∧ KeepsS s t sd
    ∧ t.chan (hubOf s.cur ch) ch = { s.chan (hubOf s.cur ch) ch with
        toHub := (s.chan (hubOf s.cur ch) ch).toHub ++ sent }

/-- A tack instruction whose request is answered completes with the answer, and the request is done with. -/
def Sys2Proof.Machine.AnswerEnds (s : State) (o : Out) (sd : SReg) (p : BitVec 32) : Prop :=
  ∃ t, o = .next t ∧ OnlyMe s t ∧ KeepsS s t sd ∧ (t.rs sd = if sd = 0 then 0 else p.setWidth 64)
    ∧ t.me = { s.me with s := t.me.s, pc := s.me.pc + 4, swait := .none, tkreq := none }

/-- No request of the S-word at the pc is out: none at all, or an answered one of another word, address or channel word. -/
def Sys2Proof.Machine.NoRequest (s : State) (joins : Bool) (w : Word) : Prop :=
  ∀ r, s.me.tkreq = some r → r.ans ≠ none
    ∧ (r.pc ≠ s.me.pc ∨ r.joins ≠ joins ∨ w ≠ BitVec.ofNat 64 (r.ch + if r.leave then 128 else 0))

/-- tkjoin sends a join or a leave, which reaches the hub one latency later, and completes with the phase its answer carries;
a join by a member or a leave by a hart that is none completes at once with the core's phase count. That a request still out
makes it wait, that an answered one of another word is dropped, and the count of a core that has received none, are the
choices of assumption log, 37 (spec/20, R308, R309, R314). -/
def Sys2Proof.Claims.TackJoin : Prop :=
  ∀ (sd sa : SReg) (ch : Nat) (s : State), s.me.kmode = false →
    (∀ p l b, s.me.tkreq = some ⟨s.me.pc, ch, true, l, b, some p⟩ →
      s.rs sa = BitVec.ofNat 64 (ch + if l then 128 else 0) → AnswerEnds s (exec (.tkjoin sd sa) s) sd p)
    ∧ (∀ r, s.me.tkreq = some r → r.ans = none → Waits s (exec (.tkjoin sd sa) s))
    ∧ (NoRequest s true (s.rs sa) → ChannelOk s (s.rs sa) true ch →
        let leave := decide ((s.rs sa).toNat / 128 = 1)
        ((tackCopy s.me ch).isSome = leave → ∃ t, exec (.tkjoin sd sa) s = .next t
          ∧ TackFrame s t sd ch [(s.time.toNat + tackLat ch, if leave then .leave s.cur true else .join s.cur true)]
          ∧ t.me.tkreq = some ⟨s.me.pc, ch, true, leave, false, none⟩ ∧ t.me.pc = s.me.pc ∧ t.rs sd = s.rs sd)
        ∧ ((tackCopy s.me ch).isSome ≠ leave → ∃ t, exec (.tkjoin sd sa) s = .next t ∧ TackFrame s t sd ch []
          ∧ t.me.pc = s.me.pc + 4 ∧ t.rs sd = if sd = 0 then 0 else (corePhase s s.cur ch).setWidth 64))

/-- tkarr sends the arrival of a member that has not arrived, after its release, and completes with the phase; tkbar sends it
and keeps a record, and completes with the phase count once the recorded phase has passed; tkwait completes once the phase has
passed (spec/20, R315 to R317). -/
def Sys2Proof.Claims.TackArrivals : Prop :=
  ∀ (sd sa sb : SReg) (ch : Nat) (c : TackCopy) (s : State),
    ChannelOk s (s.rs sa) false ch → tackCopy s.me ch = some c →
    let sent := [(s.time.toNat + tackLat ch, HubSig.arrive s.cur)]
    let passed (n : BitVec 32) : Prop := 1 ≤ (c.phase - n).toNat ∧ (c.phase - n).toNat ≤ 2 ^ 31
    (tackReady s = true → c.arrived = false → ∃ t, exec (.tkarr sd sa) s = .next t ∧ TackFrame s t sd ch sent
      ∧ t.me.pc = s.me.pc + 4 ∧ (t.rs sd = if sd = 0 then 0 else c.phase.setWidth 64)
      ∧ tackCopy t.me ch = some { c with arrived := true } ∧ t.me.arec = none)
    ∧ (tackReady s = true → c.arrived = false → s.me.arec = none → ∃ t, exec (.tkbar sd sa) s = .next t
      ∧ TackFrame s t sd ch sent ∧ t.me.pc = s.me.pc ∧ t.rs sd = s.rs sd ∧ t.me.arec = some ⟨ch, c.phase, s.me.pc⟩)
    ∧ (∀ n, s.me.arec = some ⟨ch, n, s.me.pc⟩ → passed n → ∃ t, exec (.tkbar sd sa) s = .next t ∧ TackFrame s t sd ch []
      ∧ t.me.pc = s.me.pc + 4 ∧ (t.rs sd = if sd = 0 then 0 else c.phase.setWidth 64) ∧ t.me.arec = none)
    ∧ (passed ((s.rs sb).setWidth 32) → ∃ t, exec (.tkwait sd sa sb) s = .next t ∧ TackFrame s t sd ch []
      ∧ t.me.pc = s.me.pc + 4 ∧ (t.rs sd = if sd = 0 then 0 else c.phase.setWidth 64))

/-- tkbc sends its value after its release and completes with the sequence number of its acceptance; tkrcv pops an unread
value, and its read reaches the hub so that the slot frees one latency after that (assumption log, 37; spec/20, R318,
R319). -/
def Sys2Proof.Claims.TackBroadcasts : Prop :=
  ∀ (sd sa sb : SReg) (ch : Nat) (c : TackCopy) (s : State), s.me.kmode = false →
    (∀ q l b, s.me.tkreq = some ⟨s.me.pc, ch, false, l, b, some q⟩ →
      s.rs sa = BitVec.ofNat 64 (ch + if l then 128 else 0) → AnswerEnds s (exec (.tkbc sd sa sb) s) sd q)
    ∧ (ChannelOk s (s.rs sa) false ch → tackCopy s.me ch = some c →
      (NoRequest s false (s.rs sa) → tackReady s = true → ∃ t, exec (.tkbc sd sa sb) s = .next t
        ∧ TackFrame s t sd ch [(s.time.toNat + tackLat ch, .bcast s.cur (s.rs sb))]
        ∧ t.me.tkreq = some ⟨s.me.pc, ch, false, false, false, none⟩ ∧ t.me.pc = s.me.pc ∧ t.rs sd = s.rs sd)
      ∧ ∀ v, c.latch = some v → ∃ t, exec (.tkrcv sd sa) s = .next t
        ∧ TackFrame s t sd ch [(s.time.toNat + 2 * tackLat ch, .read s.cur)] ∧ t.me.pc = s.me.pc + 4
        ∧ (t.rs sd = if sd = 0 then 0 else v) ∧ tackCopy t.me ch = some { c with latch := none })

/-- The checks of one tack instruction with its channel word w, in order. -/
def Sys2Proof.Machine.TackTraps (s : State) (i : Instr) (w : Word) (join : Bool) : Prop :=
  let ch := w.toNat % 128
  let bad (cause tval : Word) : Prop := ∃ t, exec i s = .next t ∧ TrapTaken s t s.cur cause tval 0 0 s.me.stopped
  (s.me.kmode = true → exec i s = .next (s.trapS 0x04 0 (instrWord i)))
  ∧ (s.me.kmode = false → NoRequest s join w →
      ((256 ≤ w.toNat ∨ (w.toNat / 128 = 1 ∧ join = false) ∨ 79 < ch ∨ ch = 63) → bad 0x03 0)
      ∧ (w.toNat < 256 → (w.toNat / 128 = 1 → join = true) → ch ≤ 79 → ch ≠ 63 →
          ((s.chan (hubOf s.cur ch) ch).en = false ∨ (s.chan (hubOf s.cur ch) ch).pid ≠ s.pidOf s.cur) →
          bad 0x109 (BitVec.ofNat 64 ch))
      ∧ (ChannelOk s w join ch → join = false → tackCopy s.me ch = none → bad 0x03 0))

/-- Every tack instruction is privileged in K mode; a channel word that breaks the layout, names channel 63 or one above 79,
or sets lv outside tkjoin, is an illegal operand; a channel of another partition is refused with its number; and all but
tkjoin ask for a member of the channel (spec/20, R309, R313). -/
def Sys2Proof.Claims.TackChecks : Prop :=
  ∀ (sd sa sb : SReg) (s : State),
    let w := s.rs sa
    TackTraps s (.tkjoin sd sa) w true ∧ TackTraps s (.tkarr sd sa) w false ∧ TackTraps s (.tkwait sd sa sb) w false
    ∧ TackTraps s (.tkbar sd sa) w false ∧ TackTraps s (.tkbc sd sa sb) w false ∧ TackTraps s (.tkrcv sd sa) w false

/-! ### Launches from a hart -/

/-- lnch of a valid record with a reachable completion word waits, with what it has read, until its release is done, and then
completes on the record it read: with the handle of the pool entry that the launch enters, or the first status that applies,
and then nothing is queued; that a hart of no launch is at depth 0 is the choice of assumption log, 38 (spec/22, R354, R355,
R359). -/
def Sys2Proof.Claims.DeviceLaunch : Prop :=
  ∀ (sd sa : SReg) (s : State) (ws : List Word) (r : LRecord) (pa : Nat),
    s.me.kmode = false → parseRecord ws = some r →
    (s.me.swait = .lnch ws pa ∨ ((∀ w a, s.me.swait ≠ .lnch w a) ∧ (s.rs sa).toNat % 128 = 0
      ∧ readDwords s (s.rs sa) 16 = .ok ws ∧ cwaTarget s (dieOf s.cur) s.me.asid (s.pidOf s.cur) r.cwa = .ok pa)) →
    ((ssDone s = false ∨ vsDone s = false) → ∃ t, exec (.lnch sd sa) s = .next t ∧ OnlyMe s t
      ∧ t.me = { s.me with swait := .lnch ws pa })
    ∧ (ssDone s = true → vsDone s = true →
    let d := dieOf s.cur
    let p := s.pidOf s.cur
    let depth := (s.me.launch.bind fun l => s.launch? l.die l.entry).elim 0 (·.depth)
    let q := mapGet Queue.reset (s.die d).queues r.q.toNat
    let ends (n : Nat) : Prop := ∃ t, exec (.lnch sd sa) s = .next t ∧ OnlyMe s t ∧ KeepsS s t sd ∧ t.me.pc = s.me.pc + 4
      ∧ t.rs sd = if sd = 0 then 0 else BitVec.ofNat 64 (2 ^ 63 + n)
    (dlimOf s d p ≤ depth → ends 1)
    ∧ (depth < dlimOf s d p → (q.en = false ∨ q.pid ≠ p) → ends 2)
    ∧ (depth < dlimOf s d p → q.en = true → q.pid = p → launchContexts s d p < r.nh → ends 3)
    ∧ (depth < dlimOf s d p → q.en = true → q.pid = p → r.nh ≤ launchContexts s d p → poolRoom s d p = none → ends 4)
    ∧ ∀ e, depth < dlimOf s d p → q.en = true → q.pid = p → r.nh ≤ launchContexts s d p → poolRoom s d p = some e →
        ∃ t l, exec (.lnch sd sa) s = .next t ∧ (t.rs sd = if sd = 0 then 0 else handleOf s d e) ∧ KeepsS s t sd
          ∧ t.launch? d e = some l ∧ l.rcd = r ∧ l.cwa = pa ∧ l.pid = p ∧ l.asid = s.me.asid ∧ l.depth = depth + 1
          ∧ l.st = .queued ∧ l.live = r.nh ∧ ∀ loc, t.byte loc = s.byte loc)

/-- lwait completes with the completion word once bit 63 is set, or with the word read last at its deadline; lstat gives the
live count, depth and state of the launch a handle names, or 0; lcanc takes a queued launch out with why = 4 and gives 1, and
gives 0 otherwise (spec/22, R351, R356 to R358). -/
def Sys2Proof.Claims.LaunchWaitStateCancel : Prop :=
  ∀ (sd sa sb : SReg) (s : State), s.me.kmode = false →
    (∀ loc, s.me.swait = .none → (s.rs sa).toNat % 8 = 0 → resolve s s.cur true .load (s.rs sa) = .ok loc →
      addPending s loc 8 = false → s.poisonedFor s.cur false loc 8 = false →
      let w := BitVec.ofNat 64 (leNat (s.view s.cur false loc 8))
      ((2 ^ 63 ≤ w.toNat ∨ (s.rs sb ≠ 0 ∧ (s.rs sb).toNat ≤ s.time.toNat)) → SEnds s (exec (.lwait sd sa sb) s) sd w 0))
    ∧ (∀ r d w, s.me.swait = .lwait r d w → d ≠ 0 → d.toNat ≤ s.time.toNat → SEnds s (exec (.lwait sd sa sb) s) sd w 0)
    ∧ (∀ e l, byHandle s s.cur (s.rs sa) = some (e, l) → l.live < 512 → l.depth < 16 →
      (l.st = .queued → SEnds s (exec (.lstat sd sa) s) sd (BitVec.ofNat 64 (l.live * 65536 + l.depth * 16 + 1)) 0)
      ∧ (l.st = .dispatched → SEnds s (exec (.lstat sd sa) s) sd (BitVec.ofNat 64 (l.live * 65536 + l.depth * 16 + 2)) 0)
      ∧ (l.st = .queued → ∃ t l', exec (.lcanc sd sa) s = .next t ∧ KeepsS s t sd ∧ (t.rs sd = if sd = 0 then 0 else 1)
          ∧ t.launch? (dieOf s.cur) e = some l' ∧ l'.st = .failed 4)
      ∧ (l.st ≠ .queued → SEnds s (exec (.lcanc sd sa) s) sd 0 0))
    ∧ (byHandle s s.cur (s.rs sa) = none →
      SEnds s (exec (.lstat sd sa) s) sd 0 0 ∧ SEnds s (exec (.lcanc sd sa) s) sd 0 0)

/-! ### Clusters: futures, patterns, the cutting table, gangs, trios, grants -/

/-- The word at ea of the scratchpad window can be used as a future: aligned, inside, not poisoned; loc is its location
(spec/18, R280). -/
def Sys2Proof.Machine.FutureAt (s : State) (ea : Word) (loc : Nat) : Prop :=
  ea.toNat % 8 = 0 ∧ ea.toNat / 2 ^ 40 = 0xFF01 ∧ ea.toNat % 2 ^ 40 < 2 ^ 23
    ∧ loc = padBase (clusterOf s.cur) + ea.toNat % 2 ^ 40 ∧ s.poisoned loc 8 = false

/-- fwait of a full future completes with its word, and of an empty one parks in the wait table where an entry is free; ffill
of an empty future writes sb with bit 63 set and completes with the old word, and of a full one changes nothing (spec/18,
R280 to R282). -/
def Sys2Proof.Claims.Futures : Prop :=
  ∀ (sd sa sb : SReg) (loc : Nat) (s : State), FutureAt s (s.rs sa) loc →
    let w := s.dword loc
    let c := s.cluster (clusterOf s.cur)
    (s.me.swait = .none → ownPending s loc 8 = false →
      (2 ^ 63 ≤ w.toNat → SEnds s (exec (.fwait sd sa sb) s) sd w 0)
      ∧ (w.toNat < 2 ^ 63 → c.waits.length < c.wlim → c.waits.length + taskWaits s (clusterOf s.cur) < 256 →
          ∃ t, exec (.fwait sd sa sb) s = .next t ∧ t.me = { s.me with swait := .parked sd (BitVec.ofNat 64 loc) (s.rs sb) }
            ∧ (∀ k, k ≠ s.cur → t.hart k = s.hart k) ∧ (∀ a, t.byte a = s.byte a)
            ∧ (t.cluster (clusterOf s.cur)).waits = c.waits ++ [⟨loc, s.cur⟩]))
    ∧ (ssDone s = true → 2 ^ 63 ≤ w.toNat → ∃ t, exec (.ffill sd sa sb) s = .next t ∧ OnlyMe s t ∧ KeepsS s t sd
        ∧ t.me.pc = s.me.pc + 4 ∧ t.rs sd = if sd = 0 then 0 else w)
    ∧ (ssDone s = true → w.toNat < 2 ^ 63 → ∃ t, exec (.ffill sd sa sb) s = .next t ∧ KeepsS s t sd
        ∧ t.me.pc = s.me.pc + 4 ∧ (t.rs sd = if sd = 0 then 0 else w)
        ∧ t.bytes loc 8 = toLe 8 (s.rs sb ||| 0x8000000000000000).toNat
        ∧ (∀ a, (a < loc ∨ loc + 8 ≤ a) → t.byte a = s.byte a)
        ∧ ∀ e ∈ (t.cluster (clusterOf s.cur)).waits, e.addr ≠ loc)

/-- ctake of a slot sends its request and waits; served in turn it completes with an item, or with all ones where no list
holds one; patld of a valid pattern fills its slot and completes with 0, or with 1 where a cutting slot still holds items, and
patld of s0 empties the slots of its number (spec/18, R284 to R286; spec/26, R386; assumption log, 20). -/
def Sys2Proof.Claims.CuttingAndPatterns : Prop :=
  ∀ (sd sa sb : SReg) (s : State),
    let cl := clusterOf s.cur
    let n := (s.rs sa).toNat
    let m := (s.rs sb).toNat
    (s.me.swait = .none → n < 4 → ∃ t, exec (.ctake sd sa) s = .next t ∧ t.me = { s.me with swait := .take sd n }
      ∧ (∀ k, k ≠ s.cur → t.hart k = s.hart k) ∧ (t.cluster cl).takes = (s.cluster cl).takes ++ [s.cur]
      ∧ ∀ a, t.byte a = s.byte a)
    ∧ (∀ r k, s.me.swait = .take r k → nextTake s cl = some s.cur → ∃ t, exec (.ctake sd sa) s = .next t ∧ KeepsS s t r
      ∧ t.me.pc = s.me.pc + 4 ∧ t.me.swait = .none ∧ (∀ a, t.byte a = s.byte a)
      ∧ t.rs r = if r = 0 then 0 else
          ((takeItem ((s.cluster cl).cuts[k]?.getD []) (coreOf s.cur % 8)).map (·.1)).getD 0xFFFFFFFFFFFFFFFF)
    ∧ (sa = 0 → m ≤ 7 → locBusy s cl = false → ∃ t, exec (.patld sd sa sb) s = .next t ∧ KeepsS s t sd
      ∧ (t.rs sd = 0) ∧ t.me.pc = s.me.pc + 4 ∧ mapGet [] (t.core (coreOf s.cur)).routes m = []
      ∧ (t.cluster cl).cuts = (s.cluster cl).cuts.setIfInBounds m []
      ∧ (t.cluster cl).locs = (s.cluster cl).locs.setIfInBounds m none)
    ∧ (sa ≠ 0 → n % 64 = 0 → ssDone s = true →
      (∀ ls, readPattern s (s.rs sa) (s.rs sb) = .ok (.cut ls) → ∃ t, exec (.patld sd sa sb) s = .next t ∧ KeepsS s t sd
        ∧ t.me.pc = s.me.pc + 4
        ∧ (if (((s.cluster cl).cuts[m]?).getD []).any (· != []) then t.rs sd = (if sd = 0 then 0 else 1)
            ∧ t.cluster cl = s.cluster cl
          else t.rs sd = 0 ∧ (t.cluster cl).cuts = (s.cluster cl).cuts.setIfInBounds m ls))
      ∧ (∀ body, readPattern s (s.rs sa) (s.rs sb) = .ok (.route body) → ∃ t, exec (.patld sd sa sb) s = .next t
        ∧ KeepsS s t sd ∧ t.me.pc = s.me.pc + 4 ∧ t.rs sd = 0 ∧ mapGet [] (t.core (coreOf s.cur)).routes m = body)
      ∧ (∀ l, readPattern s (s.rs sa) (s.rs sb) = .ok (.loc l) → locBusy s cl = false →
        ∃ t, exec (.patld sd sa sb) s = .next t ∧ KeepsS s t sd ∧ t.me.pc = s.me.pc + 4 ∧ t.rs sd = 0
          ∧ (t.cluster cl).locs = (s.cluster cl).locs.setIfInBounds m (some l)))

/-- gform of 2, 4 or 8 aligned cores takes the slot on each, or gives 0 where one is occupied; with groups held, every member
core holds that many, where a group is free for each, or the hart waits in the queue of every one. gsplit gives the number of
cores, frees the other slots and waits no more. lgrel of 0 releases every group and keeps every register, and of more keeps
the first groups, to which the registers reshape; it never takes groups. A waiting hart waits no more after it, which is the
choice of assumption log, 53 (spec/12, R208, R210, R212; spec/18, R287, R289). -/
def Sys2Proof.Claims.GangsAndReleases : Prop :=
  ∀ (sd sa : SReg) (s : State), s.me.vIdle = true →
    let n := (s.rs sa).toNat
    (s.me.kmode = false → s.me.task = none → (n = 2 ∨ n = 4 ∨ n = 8) → coreOf s.cur % 8 % n = 0 → s.me.gang = 1 →
      trioOf s s.cur = none →
      ((∃ k ∈ gangSlots s.cur n, (s.hart k).lane.occ = true) → SEnds s (exec (.gform sd sa) s) sd 0 0)
      ∧ ((∀ k ∈ gangSlots s.cur n, (s.hart k).lane.occ = false) → held s s.cur = 0 →
          ∃ t, exec (.gform sd sa) s = .next t ∧ KeepsS s t sd ∧ (t.rs sd = if sd = 0 then 0 else 1) ∧ t.me.gang = n
            ∧ t.me.pc = s.me.pc + 4 ∧ (∀ a, t.byte a = s.byte a)
            ∧ ∀ k ∈ gangSlots s.cur n, (t.hart k).lane.occ = true ∧ (t.hart k).gangOf = some s.cur)
      ∧ ((∀ k ∈ gangSlots s.cur n, (s.hart k).lane.occ = false) → held s s.cur ≠ 0 →
          ∃ t, exec (.gform sd sa) s = .next t ∧ KeepsS s t sd ∧ (t.rs sd = if sd = 0 then 0 else 1) ∧ t.me.gang = n
            ∧ t.me.pc = s.me.pc + 4 ∧ (∀ a, t.byte a = s.byte a)
            ∧ (∀ k ∈ gangSlots s.cur n, (t.hart k).lane.occ = true ∧ (t.hart k).gangOf = some s.cur)
            ∧ ((∀ k ∈ gangSlots s.cur n, held s s.cur ≤ laneReach s k true) → ∀ k ∈ s.cur :: gangSlots s.cur n,
                (bitsOf (t.hart k).lane.gmask).length = held s s.cur ∧ (t.hart k).lane.st = 1)
            ∧ ((∃ k ∈ gangSlots s.cur n, laneReach s k true < held s s.cur) →
                t.me.waitFor = some ⟨held s s.cur, held s s.cur, false⟩
                ∧ (∀ k ∈ s.cur :: gangSlots s.cur n, (t.hart k).lane.st = 2)
                ∧ ∀ i < n, s.cur % 8 ∈ (t.core (coreOf s.cur + i)).laneWait)))
    ∧ (s.me.kmode = false → s.me.gang ≠ 1 → ∃ t, exec (.gsplit sd) s = .next t ∧ KeepsS s t sd
        ∧ (t.rs sd = if sd = 0 then 0 else BitVec.ofNat 64 s.me.gang) ∧ t.me.gang = 1 ∧ t.me.pc = s.me.pc + 4
        ∧ ∀ k ∈ gangSlots s.cur s.me.gang, (t.hart k).lane.occ = false ∧ (t.hart k).gangOf = none)
    ∧ (s.me.kmode = false → s.me.gang ≠ 1 → ∃ t, exec (.gsplit sd) s = .next t ∧ t.me.waitFor = none
        ∧ ∀ i < s.me.gang, s.cur % 8 ∉ (t.core (coreOf s.cur + i)).laneWait)
    ∧ (n = 0 → s.me.gang = 1 → trioOf s s.cur = none → ∃ t, exec (.lgrel sa) s = .next t
        ∧ t = { s with harts := t.harts, cores := t.cores } ∧ (∀ k, k ≠ s.cur → t.hart k = s.hart k)
        ∧ s.cur % 8 ∉ (t.core (coreOf s.cur)).laneWait
        ∧ t.me = { s.me with pc := s.me.pc + 4, swait := .none, settled := false, waitFor := none,
                             lane := { s.me.lane with gmask := 0, st := t.me.lane.st } }
        ∧ t.me.lane.st = if s.me.kmode then 3 else 0)
    ∧ (1 ≤ n → held s s.cur ≠ 0 → trioOf s s.cur = none →
        let m := min n (held s s.cur)
        let k := if m < gneed s.me then min (gneed s.me) (held s s.cur) else m
        ∃ t, exec (.lgrel sa) s = .next t ∧ t = { s with harts := t.harts, cores := t.cores }
          ∧ t.me.s = s.me.s ∧ t.me.pc = s.me.pc + 4 ∧ t.me.waitFor = none ∧ t.me.lastGrant = k
          ∧ (∀ e ∈ grantEntries s s.cur, bitsOf (t.hart e).lane.gmask = (bitsOf (s.hart e).lane.gmask).take k)
          ∧ (∀ e ∉ grantEntries s s.cur, e ≠ s.cur → t.hart e = s.hart e)
          ∧ ∀ v : Fin 32, t.me.v.get v =
              if s.me.lastGrant = 0 then s.me.v.get v else reshapeReg s.me.gang k (s.me.v.get v))
    ∧ exec (.lgrel sa) s = .next (releaseLanes s s.cur n).adv

/-- A trio forms when its last member executes trio: each member's sd is its role, its pool registers are empty, and the trio
has its word and four empty rings (spec/12, R216 to R218). -/
def Sys2Proof.Claims.TrioForms : Prop :=
  ∀ (sd sa : SReg) (s : State) (a b c : Nat),
    let w := s.rs sa
    let core := coreOf s.cur
    s.me.kmode = false → s.me.task = none → trioOf s s.cur = none → trioWordOk w = true → trioWait s.me = none →
    trioSlots w = [a, b, c] → s.cur % 8 ∈ [a, b, c] →
    (∀ k ∈ [a, b, c], k ≠ s.cur % 8 → (trioWait (s.hart (8 * core + k))).map (·.2) = some w) →
    (∀ k < 8, k ∉ [a, b, c] → trioWait (s.hart (8 * core + k)) = none) →
    ∃ t, exec (.trio sd sa) s = .next t ∧ ⟨w, Vector.replicate 4 ⟨[], []⟩, []⟩ ∈ (t.core core).trios
      ∧ (∀ x, t.byte x = s.byte x)
      ∧ ∀ role (hr : role < 3), let h := 8 * core + [a, b, c][role]
          let r := if h = s.cur then sd else ((trioWait (s.hart h)).map (·.1)).getD 0
          (t.hart h).getS r = (if r = 0 then 0 else BitVec.ofNat 64 role) ∧ (t.hart h).pc = (s.hart h).pc + 4
            ∧ (t.hart h).swait = .none ∧ ∀ i : Fin 32, 24 ≤ i.val → (t.hart h).v.get i = VReg.empty

/-! ### Tasks and the end of a launch -/

/-- tspawn of a valid record, once its release is done, binds the lowest free entry to it and completes with its number: the
entry holds the record, no input is released, each bound input has one consumer more, and each bound output without a consumer
is reserved and PENDING. It completes with the first status that applies otherwise. tabs reads the input status of the task
that runs; twd reads the marks of its outputs. The pool entry of a hart of no launch, and marks as what twd reads, are the
choices of assumption log, 52 (spec/19, R297, R303 to R305). -/
def Sys2Proof.Claims.TaskInstructions : Prop :=
  ∀ (sd sa : SReg) (s : State) (ws : List Word) (r : TaskRecord) (i : Nat) (k : Task),
    let cl := clusterOf s.cur
    let n := (s.rs sa).toNat
    (s.me.kmode = false → n % 64 = 0 → readDwords s (s.rs sa) 8 = .ok ws → parseTask ws = some r → ssDone s = true →
      (∀ c, spawnStatus s cl r = some c → ∃ t, exec (.tspawn sd sa) s = .next t ∧ OnlyMe s t ∧ KeepsS s t sd
        ∧ t.me.pc = s.me.pc + 4 ∧ t.rs sd = if sd = 0 then 0 else BitVec.ofNat 64 (2 ^ 63) ||| BitVec.ofNat 64 c)
      ∧ (spawnStatus s cl r = none →
          ∃ t i, exec (.tspawn sd sa) s = .next t ∧ KeepsS s t sd ∧ (t.rs sd = if sd = 0 then 0 else BitVec.ofNat 64 i)
            ∧ t.me.pc = s.me.pc + 4 ∧ (∀ h, h ≠ s.cur → t.hart h = s.hart h)
            ∧ i < 256 ∧ taskOf s cl i = none ∧ (∀ j < i, taskOf s cl j ≠ none) ∧ (∀ j, j ≠ i → taskOf t cl j = taskOf s cl j)
            ∧ taskOf t cl i = some
                { rcd := s.rs sa, entry := r.entry, arg := r.arg, ins := r.ins,
                  outs := r.outs.map fun o => ⟨o, o.any fun hd => (streamOf s cl hd).ncons == 0, emptySum⟩,
                  order := (s.cluster cl).spawned, asid := s.me.asid, spawner := s.cur,
                  launch := s.me.launch.getD ⟨dieOf s.cur, 4096, 0⟩, hart := none, fired := false, tabs := 0 }
            ∧ (∀ x ∈ r.ins, ∀ hd, x.handle = some hd →
                streamOf t cl hd = { streamOf s cl hd with ncons := (streamOf s cl hd).ncons + 1 })
            ∧ (∀ hd, some hd ∈ r.outs → streamOf t cl hd =
                if (streamOf s cl hd).ncons = 0
                then { streamOf s cl hd with state := .pending, producer := some i, late := 0, sum := 0 } else streamOf s cl hd)
            ∧ ∀ a, (a < padBase cl ∨ padBase cl + 2 ^ 23 ≤ a) → t.byte a = s.byte a))
    ∧ (s.me.task = some i → taskOf s cl i = some k →
      SEnds s (exec (.tabs sd) s) sd k.tabs 0
      ∧ (∃ x, SEnds s (exec (.twd sd) s) sd x 0 ∧ (∀ j, 3 ≤ j → x.getLsbD j = false)
          ∧ (x.getLsbD 0 = true ↔ 0 ∈ s.me.marks) ∧ (x.getLsbD 1 = true ↔ 1 ∈ s.me.marks)
          ∧ (x.getLsbD 2 = true ↔ (∃ o ∈ k.outs, o.handle ≠ none)
              ∧ ∀ j (h : j < k.outs.length), k.outs[j].handle ≠ none → j ∈ s.me.marks)))
    ∧ (s.me.task = none → s.me.kmode = false → (∃ t, exec (.tabs sd) s = .next t ∧ TrapTaken s t s.cur 0x03 0 0 0 s.me.stopped)
      ∧ ∃ t, exec (.twd sd) s = .next t ∧ TrapTaken s t s.cur 0x03 0 0 0 s.me.stopped)

/-- end of a drained hart frees its context: its flags join its launch, whose live count falls by one, its read queue is
discarded and it is a member of no channel; a hart that is not drained waits. tdone of a drained task without spawned tasks
waits for the posts of its outputs, which leave as packets (assumption log, 59), and then frees its context and its entry,
joins its flags to its launch, whose live count stays, makes each PENDING output that an entry still names RESIDENT with the
task's summary, and takes it from the consumers of its inputs; in U mode end does the same for a task (spec/05, R79 of
spec/04, R104; spec/19, R306; spec/20, R320; spec/22, R350). -/
def Sys2Proof.Claims.EndOfHart : Prop :=
  ∀ (s : State),
    (s.me.kmode = false → s.me.task = none → drained s s.cur = true → trioOf s s.cur = none → 1 ≤ s.me.gang →
      ∃ t, exec .endL s = .next t ∧ t.me.run = .idle ∧ t.me.rq = [] ∧ t.me.tack = [] ∧ t.me.launch = none
        ∧ t.me.lane.occ = false ∧ t.me.lane.gmask = 0 ∧ (∀ a, t.byte a = s.byte a)
        ∧ ∀ l y, s.me.launch = some l → s.launch? l.die l.entry = some y →
            t.launch? l.die l.entry = some { y with flags := y.flags ||| s.me.flags, live := y.live - 1 })
    ∧ (s.me.kmode = false → s.me.task = none → drained s s.cur = false → Waits s (exec .endL s))
    ∧ (∀ i, s.me.kmode = false → s.me.task = some i → exec .endL s = exec .tdone s)
    ∧ (∀ i, s.me.task = some i → (drained s s.cur = false ∨ publish s (clusterOf s.cur) i = none) →
        exec .tdone s = .next s)
    ∧ (∀ i p, s.me.task = some i → drained s s.cur = true → publish s (clusterOf s.cur) i = some p →
        (∀ e ∈ (s.cluster (clusterOf s.cur)).tasks, e.2.spawner ≠ s.cur) →
        let cl := clusterOf s.cur
        ∃ t, exec .tdone s = .next t ∧ t = endHart p s.cur false ∧ t.me.run = .idle ∧ t.me.launch = none
          ∧ t.me.task = none ∧ (trioOf s s.cur = none → 1 ≤ s.me.gang → t.me.lane.occ = false ∧ t.me.lane.gmask = 0)
          ∧ (∀ l y, s.me.launch = some l → s.launch? l.die l.entry = some y →
              t.launch? l.die l.entry = some { y with flags := y.flags ||| s.me.flags })
          ∧ ∀ k, taskOf s cl i = some k → taskOf t cl i = none
            ∧ (∀ o ∈ k.outs, ∀ hd x y, o.handle = some hd → k.outHandles.Nodup → hd ∉ k.held →
                findStream s cl hd = some x → findStream t cl hd = some y →
                (x.state = .pending → y.state = .resident ∧ y.sum = if o.sum.getLsbD 4 then o.sum else 0)
                ∧ (x.state ≠ .pending → y.state = x.state ∧ y.sum = x.sum))
            ∧ ∀ hd x y, hd ∈ k.held → k.held.Nodup → findStream s cl hd = some x → findStream t cl hd = some y →
                y.ncons = x.ncons - 1)
/-! ### Vector results -/

/-- Element j of a register read at a width, among the first n. -/
def Sys2Proof.Machine.elemOf (v : VReg) (w : Width) (n j : Nat) : Word := ((velems v w n)[j]?).getD 0

/-- Element j is active under a predicate register. -/
def Sys2Proof.Machine.activeAt (s : State) (pm : PReg) (j : Nat) : Bool := ((s.pbits pm s.vl)[j]?).getD false

/-- The classes of elements 0 to n − 1 are raised: c.flags takes them all, and each c.fi word the first element that raised
its class, where that is below what it held (spec/02, R17 of spec/01, R31). -/
def Sys2Proof.Machine.Raises (s t : State) (n : Nat) (cls : Nat → Flags) : Prop :=
  t.me.flags = (List.range n).foldl (fun f j => f ||| cls j) s.me.flags
  ∧ ∀ c : Fin 9, t.me.fi.get c = match (List.range n).find? fun j => (cls j).getLsbD c.val with
      | some j => if j < (s.me.fi.get c).toNat then BitVec.ofNat 32 j else s.me.fi.get c
      | none => s.me.fi.get c

/-- A V-word completes, raises no flag, and writes one vector register: its width tag, its selvedge, its elements as said. -/
def Sys2Proof.Machine.VEnds (s : State) (o : Out) (vd : VReg5) (w : Width) (lv : List Level) (els : List Word → Prop) : Prop :=
  ∃ t, o = .next t ∧ VQuiet s t [vd] ∧ (t.vreg vd).wt = w ∧ (t.vreg vd).levels = lv ∧ els (t.vreg vd).elems
    ∧ t.me.vdirty.getLsbD vd.toNat = true

/-- Elements by R109 with c.vs read as 0: c.vl of them, the result where active, zero or the old value elsewhere. -/
def Sys2Proof.Machine.Masked (s : State) (vd : VReg5) (w : Width) (m : VMask) (rs : Nat → Word) (es : List Word) : Prop :=
  es.length = s.vl ∧ ∀ j, j < s.vl →
    es[j]? = some (if activeAt s m.pm j then rs j else if m.zm then 0 else elemOf (s.vreg vd) w s.vl j)

/-- vsetl whose grant settles writes c.vl := min(value, VLMAX of fmt.d) and the width it counts at, and no vector register;
c.vs is 0. The grant is as vsetlGrant settles it; where it does not, the word waits (spec/06, R105; spec/12, R205, R208). -/
def Obligations.VectorLength : Prop :=
  ∀ (k fs : SP) (gmax : BitVec 4) (d : Fmt) (s : State), (s.fw fs).d = some d →
    (∀ u, vsetlGrant s gmax = (u, false) → exec (.vsetl k fs gmax) s = .next u)
    ∧ ∀ u, vsetlGrant s gmax = (u, true) → ∃ t, exec (.vsetl k fs gmax) s = .next t ∧ BlockAdvanced u t
      ∧ t.vl = min (s.sp k).toNat (vlmax u u.cur (fmtWidth d)) % 2 ^ 32
      ∧ t.me.lane = { u.me.lane with wl := fmtWidth d } ∧ t.me.v = u.me.v ∧ t.me.p = u.me.p ∧ t.me.flags = s.me.flags
      ∧ t.me.s = s.me.s ∧ ∀ a, t.byte a = s.byte a

/-- An element-wise instruction by its row: sources, result, mask, format word, which fields must hold which codes, and the
result of one element (spec/06, R113 to R118). -/
structure Sys2Proof.Machine.EwRow where
  a : SrcA
  b : Option SrcB
  c : Option VReg5
  vd : VReg5
  m : VMask
  fs : SP
  legal : FW → Bool
  f : FW → Word → Word → Word → Deliv

/-- The rows of R113 to R118 over exact values: an integer result is delivered by R67, a floating-point one rounded once. -/
def Sys2Proof.Machine.ewRow (i : Instr) : Option EwRow :=
  let rowB (x : VBin) (lg : FW → Bool) (f : FW → Word → Word → Deliv) : Option EwRow :=
    some ⟨x.a, some x.b, none, x.vd, x.m, x.fs, lg, fun w a b _ => f w a b⟩
  let rowU (x : VUn) (lg : FW → Bool) (f : FW → Word → Deliv) : Option EwRow :=
    some ⟨x.a, none, none, x.vd, x.m, x.fs, lg, fun w a _ _ => f w a⟩
  let ints (w : FW) : Bool := okFmt w.a isInt && okFmt w.b isInt && okFmt w.d isInt
  let int1 (w : FW) : Bool := okFmt w.a isInt && okFmt w.d isInt
  let arith (w : FW) : Bool := ints w || (okFmt w.a isRes && w.b == w.a && w.d == w.a)
  let fps (w : FW) : Bool := okFmt w.a isFp && okFmt w.b isFp && okFmt w.d isFp && w.rm.isSome
  let fp1s (w : FW) : Bool := okFmt w.a isFp && okFmt w.d isFp && w.rm.isSome
  let sps (w : FW) : Bool := okFmt w.a spFmt && okFmt w.d spFmt && w.rm.isSome
  let nar2 (w : FW) (a b : Word) : Bool := isNar w.fa a.toNat || isNar w.fb b.toNat
  let I (f : FW → Int → Int → Int × Flags) (w : FW) (a b : Word) : Deliv :=
    let r := f w (intOf w.fa a) (intOf w.fb b)
    ((deliverInt w.fd w.sat r.1).1, (deliverInt w.fd w.sat r.1).2 ||| r.2)
  let P (f : FW → Nat → Nat → Nat) (w : FW) (a b : Word) : Deliv :=
    (BitVec.ofNat 64 (f w (patOf w (intOf w.fa a)) (patOf w (intOf w.fb b)) % 2 ^ fmtBits w.fd), 0)
  let F (f : Rm → Val → Val → Exact) (w : FW) (a b : Word) : Deliv :=
    deliver w.fd w.frm false (f w.frm (readVal w.fa a) (readVal w.fb b))
  let F1 (f : Val → Exact) (w : FW) (a : Word) : Deliv := deliver w.fd w.frm false (f (readVal w.fa a))
  let sh (w : FW) (b : Int) : Nat := patOf w b % fmtBits w.fd
  match i with
  | .vadd x => rowB x arith fun w a b => deliverArith w.fd w.sat (nar2 w a b) (intOf w.fa a + intOf w.fb b)
  | .vsub x => rowB x arith fun w a b => deliverArith w.fd w.sat (nar2 w a b) (intOf w.fa a - intOf w.fb b)
  | .vmul x => rowB x arith fun w a b => deliverArith w.fd w.sat (nar2 w a b) (intOf w.fa a * intOf w.fb b)
  | .vmulh x => rowB x ints (I fun w a b => (a * b / (2 ^ fmtBits w.fd : Nat), 0))
  | .vdiv x => rowB x ints fun w a b => if intOf w.fb b = 0 then (intPat w.fd (-1), fDZ)
      else deliverInt w.fd w.sat ((intOf w.fa a).tdiv (intOf w.fb b))
  | .vrem x => rowB x ints (I fun _ a b => if b = 0 then (a, fDZ) else (a - a.tdiv b * b, 0))
  | .vmin x => rowB x ints (I fun _ a b => (if a ≤ b then a else b, 0))
  | .vmax x => rowB x ints (I fun _ a b => (if a ≤ b then b else a, 0))
  | .vand x => rowB x ints (P fun _ a b => a &&& b)
  | .vor x => rowB x ints (P fun _ a b => a ||| b)
  | .vxor x => rowB x ints (P fun _ a b => a ^^^ b)
  | .vsll x => rowB x ints (I fun w a b => (a * (2 ^ sh w b : Nat), 0))
  | .vsrl x => rowB x ints (P fun w a b => a / 2 ^ (b % fmtBits w.fd))
  | .vsra x => rowB x ints (I fun w a b => (a / (2 ^ sh w b : Nat), 0))
  | .vmacc x => some ⟨x.a, some x.b, some x.c, x.vd, x.m, x.fs,
      fun w => (ints w && okFmt w.c isInt) || (okFmt w.a isRes && w.b == w.a && w.d == w.a && w.c == w.a),
      fun w a b c => deliverArith w.fd w.sat (nar2 w a b || isNar w.fc c.toNat)
        (intOf w.fa a * intOf w.fb b + intOf w.fc c)⟩
  | .vclz x => rowU x int1 fun w a => deliverInt w.fd w.sat (clzNat (patOf w (intOf w.fa a)) (fmtBits w.fd))
  | .vpop x => rowU x int1 fun w a => deliverInt w.fd w.sat (popNat (patOf w (intOf w.fa a)) (fmtBits w.fd))
  | .vabs x => rowU x int1 fun w a => deliverInt w.fd w.sat (if intOf w.fa a < 0 then - intOf w.fa a else intOf w.fa a)
  | .vfadd x => rowB x fps (F addV)
  | .vfsub x => rowB x fps (F subV)
  | .vfmul x => rowB x fps (F fun _ => mulV)
  | .vfdiv x => rowB x fps (F fun _ => divV)
  | .vfma x => some ⟨x.a, some x.b, some x.c, x.vd, x.m, x.fs, fun w => fps w && okFmt w.c isFp,
      fun w a b c => deliver w.fd w.frm false (fmaV w.frm (readVal w.fa a) (readVal w.fb b) (readVal w.fc c))⟩
  | .vfsqrt x => rowU x fp1s (F1 sqrtV)
  | .vfmin x => rowB x fps (F fun _ => minMaxV false false)
  | .vfmax x => rowB x fps (F fun _ => minMaxV true false)
  | .vfminNum x => rowB x fps (F fun _ => minMaxV false true)
  | .vfmaxNum x => rowB x fps (F fun _ => minMaxV true true)
  | .vfabs x => rowU x fp1s (F1 (signV fun _ => false))
  | .vfneg x => rowU x fp1s (F1 (signV fun n => !n))
  | .vfexp2 x => rowU x sps fun w a => special .exp2 w.fa w.fd w.frm a
  | .vflog2 x => rowU x sps fun w a => special .log2 w.fa w.fd w.frm a
  | .vfrec x => rowU x sps fun w a => special .recip w.fa w.fd w.frm a
  | .vfrsq x => rowU x sps fun w a => special .rsq w.fa w.fd w.frm a
  | .vftanh x => rowU x sps fun w a => special .tanh w.fa w.fd w.frm a
  | .vcvt x => rowU x (fun w => w.a.isSome && w.d.isSome && w.rm.isSome) fun w a => convert w.fa w.fd w.frm w.sat w.e a
  | .vcrt x => rowB x (fun w => okFmt w.a isRes && w.b == some .fp32 && okFmt w.d isFp && w.rm.isSome)
      fun w a b => deliver w.fd w.frm false (crtScaled w.e (readVal w.fa a) (readVal w.fb b))
  | _ => none

/-- The widths that a row reads and writes. -/
def Sys2Proof.Machine.EwRow.widths (r : EwRow) (w : FW) : List Width :=
  [fmtWidth w.fa, fmtWidth w.fd] ++ (if r.b.isSome then [fmtWidth w.fb] else []) ++ if r.c.isSome then [fmtWidth w.fc] else []

/-- The result of element j, from source A's element. -/
def Sys2Proof.Machine.EwRow.at (r : EwRow) (s : State) (n j : Nat) (a : Word) : Deliv :=
  let w := s.fw r.fs
  r.f w a (match r.b with
    | some b => ((srcB s b w.fb n)[j]?).getD 0
    | none => 0)
    (match r.c with
    | some v => elemOf (s.vreg v) (fmtWidth w.fc) n j
    | none => 0)

/-- Every element-wise instruction on a vector source, uninterrupted, completes: each active element from c.vs on takes its
row's result, the others keep their value or become zero, the selvedge of source A stays where its lengths sum to c.vl, the
active elements raise their classes, and no other register and no byte of memory changes (spec/04, R77, R78; spec/06, R106 to
R118). -/
def Obligations.ElementwiseResults : Prop :=
  ∀ (i : Instr) (r : EwRow) (v : VReg5) (s : State),
    ewRow i = some r → r.a = .vec v → s.brk = none → r.legal (s.fw r.fs) = true →
    (∀ w ∈ r.widths (s.fw r.fs), s.vl ≤ vlmax s s.cur w) →
    let w := s.fw r.fs
    let n := s.vl
    let vs := s.me.vs.toNat
    let res (j : Nat) : Deliv := r.at s n j (elemOf (s.vreg v) (fmtWidth w.fa) n j)
    ∃ t, exec i s = .next t ∧ VDone s t [r.vd] ∧ (t.vreg r.vd).wt = fmtWidth w.fd
      ∧ (t.vreg r.vd).levels = keepLevels (s.vreg v).levels n ∧ (t.vreg r.vd).elems.length = n
      ∧ (∀ j, j < n → (t.vreg r.vd).elems[j]? = some
          (if j < vs then elemOf (s.vreg r.vd) (fmtWidth w.fd) n j
           else if activeAt s r.m.pm j then (res j).1
           else if r.m.zm then 0 else elemOf (s.vreg r.vd) (fmtWidth w.fd) n j))
      ∧ Raises s t n fun j => if vs ≤ j ∧ activeAt s r.m.pm j then (res j).2 else 0

/-- What a read of n elements of stream bobbin b from element `first` on needs: the word's own reservation where it was
stopped inside, else a stream of the width whose elements have arrived, n being c.vl or, with av, what has arrived up to
it. -/
def Sys2Proof.Machine.BobReads (s : State) (b : BReg4) (av : Bool) (w : Width) (first n : Nat) : Prop :=
  let x := s.bob s.cur b
  streamPoisoned s s.cur x first n = false ∧ match heldResv s b with
    | some f => first = f ∧ n = s.vl
    | none => x.kind = .stream ∧ x.ew = w ∧ s.vl ≤ x.cap ∧ first = x.reserved
        ∧ n = (if av then min s.vl (x.arrived - x.reserved) else s.vl) ∧ x.reserved + n ≤ x.arrived ∧ x.arrived ≤ x.issued
        ∧ (av = true → x.reserved < x.arrived ∨ x.arrived = x.issued) ∧ mayPop s x (x.reserved + n) = true

/-- The same instructions on a stream bobbin whose elements have arrived: n elements are reserved and read, n being c.vl or,
with av, what has arrived up to it, which c.vl then holds; a word that was stopped inside reads what it had reserved. The
elements follow as those of a vector source, and the result is flat (spec/06, R109, R110; spec/14, R250, R251). -/
def Obligations.BobbinSourceResults : Prop :=
  ∀ (i : Instr) (r : EwRow) (b : BReg4) (av : Bool) (first n : Nat) (s : State),
    ewRow i = some r → r.a = .bob b av → s.brk = none → r.legal (s.fw r.fs) = true →
    (∀ w ∈ r.widths (s.fw r.fs), s.vl ≤ vlmax s s.cur w) → BobReads s b av (fmtWidth (s.fw r.fs).fa) first n →
    let w := s.fw r.fs
    let x := s.bob s.cur b
    let vs := s.me.vs.toNat
    let res (j : Nat) : Deliv := r.at s n j (((streamElems s s.cur x first n)[j]?).getD 0)
    ∃ t, exec i s = .next t ∧ OnlyMe s t ∧ BlockAdvanced s t ∧ KeepsV s t [r.vd] ∧ t.me.p = s.me.p ∧ t.vl = n
      ∧ (t.vreg r.vd).wt = fmtWidth w.fd ∧ (t.vreg r.vd).levels = [] ∧ (t.vreg r.vd).elems.length = n
      ∧ (t.bob s.cur b).reserved = (if (heldResv s b).isSome then x.reserved else x.reserved + n)
      ∧ (t.bob s.cur b).arrived = x.arrived
      ∧ (∀ j, j < n → (t.vreg r.vd).elems[j]? = some
          (if j < vs then elemOf (s.vreg r.vd) (fmtWidth w.fd) n j
           else if activeAt s r.m.pm j then (res j).1
           else if r.m.zm then 0 else elemOf (s.vreg r.vd) (fmtWidth w.fd) n j))
      ∧ Raises s t n fun j => if vs ≤ j ∧ activeAt s r.m.pm j then (res j).2 else 0

/-- The conditions of the compares. -/
def Sys2Proof.Machine.cmpRows (x : VCmp) : List (Instr × Cond) :=
  [(.vcmpEq x, .eq), (.vcmpNe x, .ne), (.vcmpLt x, .lt), (.vcmpLe x, .le), (.vcmpGt x, .gt), (.vcmpGe x, .ge), (.vcmpUn x, .un)]

/-- A compare of n elements completes: bit j of each active element from c.vs on is its result, the classes are raised, and no
other predicate and no vector register changes; p0 keeps its bits. -/
def Sys2Proof.Machine.CmpEnds (s : State) (o : Out) (x : VCmp) (n : Nat) (res : Nat → Bool × Flags) : Prop :=
  let vs := s.me.vs.toNat
  ∃ t, o = .next t ∧ OnlyMe s t ∧ BlockAdvanced s t ∧ t.me.v = s.me.v ∧ t.vl = n
    ∧ (∀ q, q ≠ x.pd → t.pbits q n = s.pbits q n) ∧ (x.pd = 0 → t.me.p = s.me.p)
    ∧ (x.pd ≠ 0 → (∀ j, j < n → activeAt t x.pd j =
          if vs ≤ j ∧ activeAt s x.m.pm j then (res j).1
          else if vs ≤ j ∧ x.m.zm = true then false else activeAt s x.pd j)
        ∧ ∀ k ∈ t.me.p.get x.pd.toFin, k < n)
    ∧ Raises s t n (fun j => if vs ≤ j ∧ activeAt s x.m.pm j then (res j).2 else 0)
    ∧ (∀ v, x.a = .vec v → s.me.sameBut t.me)

/-- The compares write a predicate from a vector or a bobbin source. Integer and floating-point codes may be mixed; a residue
code stands in both places, and only with eq, ne and un. An operand that is a NaN or NaR makes ne and un true and the others
false, and NaR raises no flag (spec/06, R109, R110, R116; spec/14, R250, R251). -/
def Sys2Proof.Claims.CompareResults : Prop :=
  (∀ (x : VCmp) (s : State) (fa fb : Fmt), s.brk = none → (s.fw x.fs).a = some fa → (s.fw x.fs).b = some fb →
    s.vl ≤ vlmax s s.cur (fmtWidth fa) → s.vl ≤ vlmax s s.cur (fmtWidth fb) → s.vl ≤ vlmax s s.cur .w8 →
    ∀ p ∈ cmpRows x,
      (isRes fa = false ∧ isRes fb = false) ∨ (fb = fa ∧ (p.2 = .eq ∨ p.2 = .ne ∨ p.2 = .un)) →
      let val (f : Fmt) (l : List Word) (j : Nat) : Val := readVal f ((l[j]?).getD 0)
      (∀ v, x.a = .vec v → CmpEnds s (exec p.1 s) x s.vl fun j =>
        compareV p.2 (val fa (velems (s.vreg v) (fmtWidth fa) s.vl) j) (val fb (srcB s x.b fb s.vl) j))
      ∧ ∀ b av first n, x.a = .bob b av → BobReads s b av (fmtWidth fa) first n → CmpEnds s (exec p.1 s) x n fun j =>
          compareV p.2 (val fa (streamElems s s.cur (s.bob s.cur b) first n) j) (val fb (srcB s x.b fb n) j))
  ∧ ∀ (c : Cond) (a b : Val),
      ((a.isNan || b.isNan) = true → (compareV c a b).1 = decide (c = .ne ∨ c = .un))
      ∧ ((a = .nar ∨ a.isNan = false) → (b = .nar ∨ b.isNan = false) → (compareV c a b).2 = 0)

/-- The predicate instructions: bitwise results by R109, the first active 1 bit alone, the count of them (spec/06, R109,
R120). -/
def Sys2Proof.Claims.PredicateResults : Prop :=
  ∀ (vd : VReg5) (pd pa pb : PReg) (m : VMask) (s : State), s.vl ≤ vlmax s s.cur .w8 →
    let n := s.vl
    let bit (p : PReg) (j : Nat) : Bool := activeAt s p j
    let ends (o : Out) (f : Nat → Bool) : Prop := ∃ t, o = .next t ∧ OnlyMe s t ∧ BlockAdvanced s t ∧ s.me.sameBut t.me
      ∧ t.me.v = s.me.v ∧ t.me.flags = s.me.flags ∧ (∀ q, q ≠ pd → t.pbits q n = s.pbits q n)
      ∧ ∀ j, j < n → activeAt t pd j = if pd = 0 then true else f j
    let masked (f : Nat → Bool) (j : Nat) : Bool := if bit m.pm j then f j else if m.zm then false else bit pd j
    ends (exec (.pand pd pa pb m) s) (masked fun j => bit pa j && bit pb j)
    ∧ ends (exec (.por pd pa pb m) s) (masked fun j => bit pa j || bit pb j)
    ∧ ends (exec (.pxor pd pa pb m) s) (masked fun j => bit pa j != bit pb j)
    ∧ ends (exec (.pnot pd pa m) s) (masked fun j => !bit pa j)
    ∧ ends (exec (.pfirst pd pa m.pm) s) (fun j =>
        bit pa j && bit m.pm j && (List.range j).all fun k => !(bit pa k && bit m.pm k))
    ∧ VEnds s (exec (.pcount vd pa m.pm) s) vd .w64 [] fun es =>
        es = [BitVec.ofNat 64 ((List.range n).countP fun j => bit pa j && bit m.pm j)]

/-- The permutes. An index outside the source gives 0; a result is flat but for vrev and vins, which keep the selvedge, and
vcompress, whose filled length is its count (spec/06, R109, R110, R121, R123). -/
def Obligations.PermuteResults : Prop :=
  ∀ (vd va vb : VReg5) (k xs fs : SP) (dep : Dep) (m : VMask) (s : State) (fa fd : Fmt),
    (s.fw fs).a = some fa → (s.fw fs).d = some fd →
    let w := fmtWidth fa
    let n := s.vl
    let src (i : Int) : Word := if 0 ≤ i ∧ i < n then elemOf (s.vreg va) w n i.toNat else 0
    let low (w : Width) : Word := BitVec.ofNat 64 ((s.sp k).toNat % 2 ^ widthBits w)
    let wd := fmtWidth fd
    (n ≤ vlmax s s.cur wd →
      VEnds s (exec (.vbcast vd k m fs) s) vd wd [] (Masked s vd wd m fun _ => low wd)
      ∧ VEnds s (exec (.vins vd k xs fs) s) vd wd (keepLevels (s.vreg vd).levels n) fun es => es.length = n
          ∧ ∀ j, j < n → es[j]? = some (if j = (s.sp xs).toNat then low wd else elemOf (s.vreg vd) wd n j))
    ∧ (wd = w → n ≤ vlmax s s.cur w →
      (∀ fb, (s.fw fs).b = some fb → isInt fb = true → n ≤ vlmax s s.cur (fmtWidth fb) →
        VEnds s (exec (.vperm vd va vb m fs) s) vd w [] (Masked s vd w m fun j =>
          src (intOf fb (elemOf (s.vreg vb) (fmtWidth fb) n j))))
      ∧ VEnds s (exec (.vslide vd va k m fs) s) vd w [] (Masked s vd w m fun j => src (j - (s.sp k).toInt))
      ∧ (dep = 0 → VEnds s (exec (.vrev vd va dep fs) s) vd w (keepLevels (s.vreg va).levels n)
          fun es => es = (velems (s.vreg va) w n).reverse)
      ∧ VEnds s (exec (.vext vd va xs fs) s) vd w [] (fun es => es = [src (s.sp xs).toNat])
      ∧ VEnds s (exec (.vcompress vd va m.pm fs) s) vd w
          (keepLevels (s.vreg va).levels ((List.range n).countP fun j => activeAt s m.pm j))
          (fun es => es = ((List.range n).filter fun j => activeAt s m.pm j).map fun j => elemOf (s.vreg va) w n j)
      ∧ VEnds s (exec (.vexpand vd va m fs) s) vd w [] (Masked s vd w m fun j =>
          elemOf (s.vreg va) w n ((List.range j).countP fun i => activeAt s m.pm i)))
    ∧ (∃ t, exec (.vmv vd va) s = .next t ∧ t.vreg vd = s.vreg va ∧ KeepsV s t [vd] ∧ OnlyMe s t ∧ BlockAdvanced s t
        ∧ s.me.sameBut t.me ∧ t.me.flags = s.me.flags)
    ∧ (s.me.rq.length < 8 → ∃ t, exec (.vsnd va) s = .next t ∧ OnlyMe s t ∧ t.me.v = s.me.v ∧ BlockAdvanced s t
        ∧ t.me.rq = s.me.rq ++ [sextAt (s.vreg va).wt ((s.vreg va).elems.headD 0)] ∧ t.me.event = true)
    ∧ (8 ≤ s.me.rq.length → Waits s (exec (.vsnd va) s))

/-! ### Nested registers -/

/-- A result whose selvedge fits the grant comes to pass; with one that does not, the word is an illegal operand. Of words
that add no length only one of a K block on fewer groups than the registers were shaped for can fail so (spec/07, R130;
assumption log, 16). -/
def Sys2Proof.Machine.Fitting (s : State) (o : Out) (lv : List Level) (p : Prop) : Prop :=
  (levelsFit s lv = true → p) ∧ (levelsFit s lv = false → o = .next (s.trapV 0x03 0 0))

/-- Building and removing levels: vseg and vsegc give one level, vnest one more outside, vflat dN keeps levels 1 to N − 1; a
selvedge above the capacity is an illegal operand (spec/07, R129, R130, R132 to R135). -/
def Obligations.SelvedgeResults : Prop :=
  ∀ (x : VSegOp) (vd va : VReg5) (dep : Dep) (s : State) (fa fb : Fmt) (lens : List Nat),
    (s.fw x.fs).a = some fa → (s.fw x.fs).b = some fb → (s.fw x.fs).d = some fa →
    let w := fmtWidth fa
    let n := s.vl
    let v := s.vreg x.va
    let one (l : List Nat) : List Level := [⟨l, x.ci, x.co⟩]
    (n ≤ vlmax s s.cur w → n ≤ vlmax s s.cur (fmtWidth fb) → isInt fb = true → lensOf (s.vreg x.vb) fb = some lens →
      lens.sum = n → Fitting s (exec (.vseg x) s) (one lens)
        (VEnds s (exec (.vseg x) s) x.vd w (one lens) fun es => es = velems v w n))
    ∧ (n ≤ vlmax s s.cur w → ∀ b bs, s.pbits x.vb n = b :: bs → Fitting s (exec (.vsegc x) s) (one (headLens 1 bs))
        (VEnds s (exec (.vsegc x) s) x.vd w (one (headLens 1 bs)) fun es => es = velems v w n))
    ∧ (isInt fb = true → lensOf (s.vreg x.vb) fb = some lens → v.levels.length ≤ 2 →
        lens.sum = ((v.levels.getLast?.map fun l => l.lens.length).getD v.elems.length) →
        Fitting s (exec (.vnest x) s) (v.levels ++ one lens)
          (VEnds s (exec (.vnest x) s) x.vd v.wt (v.levels ++ one lens) fun es => es = v.elems))
    ∧ (dep.toNat ≤ (s.vreg va).levels.length →
        let kept := (s.vreg va).levels.take (dep.toNat - 1)
        Fitting s (exec (.vflat vd va dep) s) kept
          (VEnds s (exec (.vflat vd va dep) s) vd (s.vreg va).wt kept fun es => es = (s.vreg va).elems))

/-- The operations of a reduction, by instruction. -/
def Sys2Proof.Machine.redRows (x : VRed) : List (Instr × RedOp) :=
  [(.vredAdd x, .add), (.vredMul x, .mul), (.vredMin x, .min), (.vredMax x, .max), (.vredAnd x, .and), (.vredOr x, .or),
   (.vredXor x, .xor), (.vredMinNum x, .minNum), (.vredMaxNum x, .maxNum)]

/-- The operations of a scan, by instruction. -/
def Sys2Proof.Machine.scanRows (x : VScan) : List (Instr × RedOp) :=
  [(.vscanAdd x, .add), (.vscanMul x, .mul), (.vscanMin x, .min), (.vscanMax x, .max), (.vscanAnd x, .and),
   (.vscanOr x, .or), (.vscanXor x, .xor), (.vscanMinNum x, .minNum), (.vscanMaxNum x, .maxNum)]

/-- A reduction at depth N gives one element for each level-N segment, the tree of R73 over its active elements, or the
identity for none; the levels outside N stay, and at depth 0 the result is flat with one element (spec/04, R73, R75; spec/07,
R129, R136). -/
def Sys2Proof.Claims.ReductionResults : Prop :=
  ∀ (x : VRed) (s : State), ∀ p ∈ redRows x,
    let w := s.fw x.fs
    let v := s.vreg x.va
    let n := s.vl
    (∀ c ∈ redChk p.2 w, c.2 = true) → n ≤ vlmax s s.cur (fmtWidth w.fa) → n ≤ vlmax s s.cur (fmtWidth w.fd) →
    structOk v x.dep n = true →
    let rs := (activeSegs (s.pbits x.pm n) (segLens v.levels n x.dep.toNat) (velems v (fmtWidth w.fa) n)).map
      (reduceSeg p.2 w)
    let kept := if x.dep = 0 then [] else v.levels.drop x.dep.toNat
    Fitting s (exec p.1 s) kept (∃ t, exec p.1 s = .next t ∧ VDone s t [x.vd]
      ∧ t.vreg x.vd = ⟨fmtWidth w.fd, rs.map (·.1), kept⟩
      ∧ (x.dep = 0 → (t.vreg x.vd).elems.length = 1)
      ∧ t.me.flags = (rs.flatMap (·.2)).foldl (fun f e => f ||| e.2) s.me.flags)

/-- What the reduction of a segment's active elements is: the identity of none; one element delivered in fmt.d; of more, the
tree that splits n of them at the largest power of two below n and combines the two results by one operation, a signalling NaN
being read as a quiet one. On integers the operation is exact, then wrapped or clamped into fmt.d; and, or and xor work on the
bits; residues add and multiply by channel (spec/04, R69, R73, R75; spec/07, R136). -/
def Sys2Proof.Claims.ReductionTree : Prop :=
  (∀ (op : RedOp) (x : FW),
    reduceSeg op x [] = (identityOf op x.fd, [])
    ∧ (∀ e, (reduceSeg op x [e]).1 = (roundTo x.fd x.frm x.sat (readVal x.fa e.2)).1)
    ∧ ∃ tree : List Opnd → Opnd, (∀ a, tree [a] = a)
      ∧ (∀ k l r, l.length = 2 ^ k → 1 ≤ r.length → r.length ≤ 2 ^ k →
          tree (l ++ r) = ((redStep op x.fd x.frm x.sat (tree l) (tree r)).1, x.fd))
      ∧ ∀ l : List (Nat × Word), 2 ≤ l.length →
          (reduceSeg op x l).1 = (tree (l.map fun e => ((quietRead x.fa e.2).1, x.fa))).1)
  ∧ (∀ (d fa fb : Fmt) (rm : Rm) (sat : Bool) (a b : Word), isInt d = true → isInt fa = true → isInt fb = true →
    let x := intOf fa a
    let y := intOf fb b
    let bits (z : Int) : Nat := (z % (2 ^ fmtBits d : Nat)).toNat
    let step (op : RedOp) : Deliv := redStep op d rm sat (a, fa) (b, fb)
    step .add = deliverInt d sat (x + y) ∧ step .mul = deliverInt d sat (x * y)
    ∧ step .min = deliverInt d sat (min x y) ∧ step .max = deliverInt d sat (max x y)
    ∧ step .minNum = step .min ∧ step .maxNum = step .max
    ∧ step .and = (BitVec.ofNat 64 (bits x &&& bits y), 0) ∧ step .or = (BitVec.ofNat 64 (bits x ||| bits y), 0)
    ∧ step .xor = (BitVec.ofNat 64 (bits x ^^^ bits y), 0)
    ∧ identityOf .add d = 0 ∧ identityOf .or d = 0 ∧ identityOf .xor d = 0 ∧ identityOf .mul d = 1
    ∧ identityOf .min d = intPat d (fmtRange d).2 ∧ identityOf .minNum d = intPat d (fmtRange d).2
    ∧ identityOf .max d = intPat d (fmtRange d).1 ∧ identityOf .maxNum d = intPat d (fmtRange d).1
    ∧ identityOf .and d = intPat d (-1))
  ∧ ∀ (d : Fmt) (rm : Rm) (sat : Bool) (a b : Word), isRes d = true → isNar d a.toNat = false → isNar d b.toNat = false →
    redStep .add d rm sat (a, d) (b, d) = (resEnc d (intOf d a + intOf d b), 0)
    ∧ redStep .mul d rm sat (a, d) (b, d) = (resEnc d (intOf d a * intOf d b), 0)

/-- What the scan of a segment is: one result for each element, those of the active ones being the scan of the active ones
alone; of active elements, the first starts the running value, and each later one is combined by one operation with the result
before it. That the first is delivered in fmt.d, and that the first operation combines the delivered value, is the choice of
assumption log, 42 (spec/04, R74, R75; spec/07, R137). -/
def Sys2Proof.Claims.ScanSteps : Prop :=
  ∀ (op : RedOp) (x : FW),
    (∀ l : List (Bool × Word), (scanSeg op x none l).length = l.length
      ∧ (((scanSeg op x none l).zip l).filter fun e => e.2.1).map (·.1) = scanSeg op x none (l.filter (·.1)))
    ∧ ∀ ws : List Word,
      let qs := scanSeg op x none (ws.map fun a => (true, a))
      (∀ a, ws[0]? = some a → qs[0]? = some (roundTo x.fd x.frm x.sat (readVal x.fa a)))
      ∧ ∀ j a r, ws[j + 1]? = some a → qs[j]? = some r →
          qs[j + 1]? = some (redStep op x.fd x.frm x.sat (r.1, x.fd) (a, x.fa))

/-- A scan combines the active elements of each segment from left to right: the first starts the running value, each later one
is combined with it by one operation, and each active element takes the running value (spec/04, R74, R75; spec/07, R137). -/
def Sys2Proof.Claims.ScanResults : Prop :=
  ∀ (x : VScan) (s : State), ∀ p ∈ scanRows x,
    let w := s.fw x.fs
    let v := s.vreg x.va
    let n := s.vl
    (∀ c ∈ redChk p.2 w, c.2 = true) → n ≤ vlmax s s.cur (fmtWidth w.fa) → n ≤ vlmax s s.cur (fmtWidth w.fd) →
    structOk v x.dep n = true →
    let rs := ((cutSegs (segLens v.levels n x.dep.toNat) ((s.pbits x.m.pm n).zip (velems v (fmtWidth w.fa) n))).map
      (scanSeg p.2 w none)).flatten
    Fitting s (exec p.1 s) (keepLevels v.levels n) (∃ t, exec p.1 s = .next t ∧ VDone s t [x.vd]
      ∧ (t.vreg x.vd).wt = fmtWidth w.fd ∧ (t.vreg x.vd).levels = keepLevels v.levels n
      ∧ (rs.length = n → Masked s x.vd (fmtWidth w.fd) x.m (fun j => ((rs[j]?).getD (0, 0)).1) (t.vreg x.vd).elems
          ∧ Raises s t n fun j => if activeAt s x.m.pm j then ((rs[j]?).getD (0, 0)).2 else 0))

/-- Distribution and the segment and offset indices: a segment number at or beyond va's filled length, counted at its own
width tag, which is the choice of assumption log, 60, gives 0 (spec/07, R129, R138, R139). -/
def Sys2Proof.Claims.DistributionResults : Prop :=
  ∀ (s : State),
    let n := s.vl
    (∀ (x : VDist) (fa fd : Fmt), (s.fw x.fs).a = some fa → (s.fw x.fs).d = some fd → fmtWidth fd = fmtWidth fa →
      n ≤ vlmax s s.cur (fmtWidth fa) → structOk (s.vreg x.vb) x.dep n = true →
      let va := s.vreg x.va
      let lens := segLens (s.vreg x.vb).levels n x.dep.toNat
      let kept := keepLevels (s.vreg x.vb).levels n
      Fitting s (exec (.vdist x) s) kept (∃ t, exec (.vdist x) s = .next t ∧ VQuiet s t [x.vd]
        ∧ (t.vreg x.vd).wt = fmtWidth fa ∧ (t.vreg x.vd).levels = kept
        ∧ ((segIndex lens).length = n → Masked s x.vd (fmtWidth fa) x.m (fun j =>
            let k := ((segIndex lens)[j]?).getD 0
            if k < va.elems.length then elemOf va (fmtWidth fa) (k + 1) k else 0) (t.vreg x.vd).elems)))
    ∧ ∀ (x : VSidx), n ≤ vlmax s s.cur .w32 → structOk (s.vreg x.va) x.dep n = true →
      let lens := segLens (s.vreg x.va).levels n x.dep.toNat
      let kept := keepLevels (s.vreg x.va).levels n
      let ends (o : Out) (f : List Nat) : Prop := Fitting s o kept (∃ t, o = .next t ∧ VQuiet s t [x.vd]
        ∧ (t.vreg x.vd).wt = .w32 ∧ (t.vreg x.vd).levels = kept
        ∧ (lens.sum = n → Masked s x.vd .w32 x.m (fun j => BitVec.ofNat 64 ((f[j]?).getD 0)) (t.vreg x.vd).elems))
      ends (exec (.vsidxSeg x) s) (segIndex lens) ∧ ends (exec (.vsidxOff x) s) (lens.flatMap List.range)

/-- vpack: at depth N ≥ 1 the segments whose bit is 1 stay, with what they hold; at d0 the active elements, and each level-1
length falls by those that left it. A result at d0 whose level-1 lengths do not sum to its filled length is flat, which is the
choice of assumption log, 21 (spec/07, R129, R140). -/
def Sys2Proof.Claims.PackResults : Prop :=
  ∀ (x : VRed) (fa fd : Fmt) (s : State),
    let n := s.vl
    (s.fw x.fs).a = some fa → (s.fw x.fs).d = some fd → fmtWidth fd = fmtWidth fa →
      n ≤ vlmax s s.cur (fmtWidth fa) → structOk (s.vreg x.va) x.dep n = true →
      let v := s.vreg x.va
      let es := velems v (fmtWidth fa) n
      let bits := s.pbits x.pm (lensAt v.levels x.dep.toNat).length
      let ends (lv : List Level) (r : List Word) : Prop :=
        Fitting s (exec (.vpack x) s) lv (VEnds s (exec (.vpack x) s) x.vd (fmtWidth fa) lv fun es => es = r)
      (x.dep ≠ 0 → ends (packLevels v.levels x.dep.toNat bits)
          (selected bits (cutSegs (segLens v.levels n x.dep.toNat) es)).flatten)
      ∧ (x.dep = 0 → ends (keepLevels (match v.levels with
              | [] => []
              | l :: rest => { l with lens := (cutSegs l.lens (s.pbits x.pm n)).map fun b => b.countP id } :: rest)
            (selected (s.pbits x.pm n) es).length) (selected (s.pbits x.pm n) es))

/-- vpart cuts each segment of the depth into K buckets by its keys, stably: an inactive element and one whose key is outside
0 to K − 1 are dropped; at d0 one level of bucket lengths, and else the buckets of each segment inside the kept levels, of
which only one may stand outside the depth (spec/07, R129, R141). -/
def Sys2Proof.Claims.PartitionResults : Prop :=
  ∀ (x : VPart) (fa fb fd : Fmt) (s : State),
    let n := s.vl
    (s.fw x.fs).a = some fa → (s.fw x.fs).b = some fb → (s.fw x.fs).d = some fd →
      isInt fb = true → fmtWidth fd = fmtWidth fa → n ≤ vlmax s s.cur (fmtWidth fa) → n ≤ vlmax s s.cur (fmtWidth fb) →
      structOk (s.vreg x.va) x.dep n = true →
      let v := s.vreg x.va
      let d := x.dep.toNat
      let k := x.k1.toNat + 1
      let keys := (velems (s.vreg x.vb) (fmtWidth fb) n).map (intOf fb)
      let rows := cutSegs (segLens v.levels n d) ((s.pbits x.pm n).zip (keys.zip (velems v (fmtWidth fa) n)))
      let bucket (r : List (Bool × Int × Word)) (b : Nat) : List Word :=
        r.filterMap fun e => if e.1 && e.2.1 == (b : Int) then some e.2.2 else none
      let bs := rows.flatMap fun r => (List.range k).map (bucket r)
      let inner : Level := ⟨bs.map List.length, false, false⟩
      let lv := if d = 0 then [inner] else inner :: ⟨rows.map fun _ => k, false, false⟩ :: v.levels.drop d
      (d = 0 ∨ v.levels.length ≤ d + 1 → Fitting s (exec (.vpart x) s) lv
        (VEnds s (exec (.vpart x) s) x.vd (fmtWidth fa) lv fun r => r = bs.flatten))
      ∧ (d ≠ 0 → d + 1 < v.levels.length → exec (.vpart x) s = .next (s.trapV 0x03 0 0))

/-- vcat: at d0 the elements and lengths of vb after those of va, with ci of va and co of vb; at dN each level-N segment of va
followed by that of vb, with the inner lengths of each, the level-N lengths added, and the levels above and every flag of va.
c.vl becomes the filled length (spec/07, R129, R142). -/
def Sys2Proof.Claims.ConcatenationResults : Prop :=
  ∀ (x : VCat) (fa fb fd : Fmt) (s : State),
    (s.fw x.fs).a = some fa → (s.fw x.fs).b = some fb → (s.fw x.fs).d = some fd →
      fmtWidth fb = fmtWidth fa → fmtWidth fd = fmtWidth fa →
      let a := s.vreg x.va
      let b := s.vreg x.vb
      let d := x.dep.toNat
      let n := a.elems.length
      let m := b.elems.length
      let ea := velems a (fmtWidth fa) n
      let eb := velems b (fmtWidth fa) m
      a.levels.length = b.levels.length → n + m ≤ vlmax s s.cur (fmtWidth fa) →
      (d ≠ 0 → d ≤ a.levels.length ∧ (lensAt a.levels d).length = (lensAt b.levels d).length) →
      ∀ lv : List Level, lv.length = a.levels.length →
      (d = 0 → lv = a.levels.zipWith (fun p q => (⟨p.lens ++ q.lens, p.ci, q.co⟩ : Level)) b.levels) →
      (∀ i p q l, d ≠ 0 → a.levels[i]? = some p → b.levels[i]? = some q → lv[i]? = some l →
        l.ci = p.ci ∧ l.co = p.co ∧ l.lens =
          if i + 1 < d then ((cutSegs (segLens (a.levels.drop (i + 1)) 0 (d - 1 - i)) p.lens).zipWith (· ++ ·)
            (cutSegs (segLens (b.levels.drop (i + 1)) 0 (d - 1 - i)) q.lens)).flatten
          else if i + 1 = d then p.lens.zipWith (· + ·) q.lens else p.lens) →
      Fitting s (exec (.vcat x) s) lv (∃ t, exec (.vcat x) s = .next t ∧ OnlyMe s t ∧ BlockAdvanced s t ∧ KeepsV s t [x.vd]
        ∧ t.vl = (n + m) % 2 ^ 32 ∧ (t.vreg x.vd).wt = fmtWidth fa ∧ (t.vreg x.vd).levels = lv
        ∧ (t.vreg x.vd).elems = if d = 0 then ea ++ eb
          else ((cutSegs (segLens a.levels n d) ea).zipWith (· ++ ·) (cutSegs (segLens b.levels m d) eb)).flatten)

/-- vsort sorts each segment of the depth in its order and keeps the selvedge; residue codes have none (spec/07, R129,
R143). -/
def Sys2Proof.Claims.SortResults : Prop :=
  ∀ (x : VSort) (fa fd : Fmt) (s : State), (s.fw x.fs).a = some fa → (s.fw x.fs).d = some fd → isRes fa = false →
      fmtWidth fd = fmtWidth fa → s.vl ≤ vlmax s s.cur (fmtWidth fa) → structOk (s.vreg x.va) x.dep s.vl = true →
      let kept := keepLevels (s.vreg x.va).levels s.vl
      Fitting s (exec (.vsort x) s) kept (VEnds s (exec (.vsort x) s) x.vd (fmtWidth fa) kept fun r =>
        r = ((cutSegs (segLens (s.vreg x.va).levels s.vl x.dep.toNat) (velems (s.vreg x.va) (fmtWidth fa) s.vl)).map
          (sortBy fun a b => if x.ds then sortLe fa b a else sortLe fa a b)).flatten)

/-- Elements compare by value, −0 before +0 and every NaN last; vsort leaves each segment a permutation of itself, in
ascending order, or with .ds in descending; elements that compare equal keep their source order in both directions (spec/07,
R143). -/
def Obligations.SortIsAnOrderedPermutation : Prop :=
  ∀ (f : Fmt) (ds : Bool) (l : List Word), isRes f = false →
    let before (a b : Word) : Bool := if ds then sortLe f b a else sortLe f a b
    let r := sortBy before l
    r.Perm l ∧ r.Pairwise (fun a b => before a b = true)
      ∧ ∀ e : Word, (r.filter fun a => before a e && before e a) = l.filter fun a => before a e && before e a

/-- vcarry combines the carry of vb with the first element (the first segment of a scan) where the level's ci is set, and its
predicate leaves out the elements that stay open where co is set. That the reduce form of no partial result has no operation
is the choice of assumption log, 60 (spec/07, R144). -/
def Sys2Proof.Claims.CarryResults : Prop :=
  ∀ (x : VCarry) (s : State) (scan : Bool) (l : Level),
    let w := s.fw x.fs
    let a := s.vreg x.va
    let c := s.vreg x.vc
    let n := s.vl
    let flen := a.elems.length
    (∀ k ∈ carryChk x.op w, k.2 = true) → n ≤ vlmax s s.cur (fmtWidth w.fd) → x.dep ≠ 0 →
    c.levels[x.dep.toNat - 1]? = some l → structOk c x.dep n = true → flen = (if scan then n else l.lens.length) →
    let carry := ((velems (s.vreg x.vb) (fmtWidth w.fd) (s.vreg x.vb).elems.length).getLast?).getD (identityOf x.op w.fd)
    let lens := segLens c.levels n x.dep.toNat
    let first := if scan then lens.headD 0 else min flen 1
    let last := if l.co then (if scan then (lens.getLast?).getD 0 else min flen 1) else 0
    let res (j : Nat) : Deliv :=
      let e := elemOf a (fmtWidth w.fd) flen j
      if l.ci ∧ j < first then redStep x.op w.fd w.frm w.sat (carry, w.fd) (e, w.fd) else (e, 0)
    let o := exec (if scan then .vcarryScan x else .vcarry x) s
    Fitting s o a.levels (∃ t, o = .next t ∧ OnlyMe s t ∧ BlockAdvanced s t ∧ KeepsV s t [x.vd]
      ∧ t.vreg x.vd = ⟨fmtWidth w.fd, (List.range flen).map fun j => (res j).1, a.levels⟩
      ∧ (x.pk ≠ 0 → t.me.p.get x.pk.toFin = List.range (flen - last)) ∧ (x.pk = 0 → t.me.p = s.me.p)
      ∧ Raises s t flen fun j => (res j).2)

/-- vcvt.row of a vector source scales each row, a segment of the depth, by one power of two into 16-bit elements and writes
the row scales beside them; the scales' register holds one element for each row (spec/04, R72; spec/06, R119). -/
def Sys2Proof.Claims.RowConversionResults : Prop :=
  ∀ (x : VCvtRow) (v : VReg5) (s : State) (fa fd : Fmt) (rm : Rm), x.a = .vec v → x.vc ≠ x.vd → v ≠ x.vc →
    (s.fw x.fs).a = some fa → (s.fw x.fs).d = some fd → (s.fw x.fs).rm = some rm → (fa = .bf16 ∨ fa = .fp16) →
    (fd = .rq16 ∨ fd = .int16) → s.vl ≤ vlmax s s.cur .w16 → depOk (s.vreg v) x.dep s.vl = true →
    let n := s.vl
    let es := (velems (s.vreg v) .w16 n).map (readVal fa)
    let rows := cutSegs (segLens (s.vreg v).levels n x.dep.toNat) ((s.pbits x.m.pm n).zip es)
    ∃ t, exec (.vcvtRow x) s = .next t ∧ VDone s t [x.vd, x.vc] ∧ (t.vreg x.vd).wt = .w16
      ∧ (t.vreg x.vd).levels = keepLevels (s.vreg v).levels n ∧ (t.vreg x.vc).wt = .w32
      ∧ (t.vreg x.vc).elems = rows.map (fun r => BitVec.ofNat 64 ((-(rowShift fd r)) % 2 ^ 32).toNat)
      ∧ (t.vreg x.vc).levels = (if x.dep = 0 then [] else (s.vreg v).levels.drop x.dep.toNat)
      ∧ ((segIndex (segLens (s.vreg v).levels n x.dep.toNat)).length = n → Masked s x.vd .w16 x.m (fun j =>
          let r := ((segIndex (segLens (s.vreg v).levels n x.dep.toNat))[j]?).getD 0
          (rowElem fd rm (rowShift fd ((rows[r]?).getD [])) ((es[j]?).getD (.fin false 0 1))).1) (t.vreg x.vd).elems)
      ∧ (x.dep = 0 → rows = [(s.pbits x.m.pm n).zip es] → Masked s x.vd .w16 x.m (fun j =>
          (rowElem fd rm (rowShift fd ((s.pbits x.m.pm n).zip es)) ((es[j]?).getD (.fin false 0 1))).1) (t.vreg x.vd).elems)
/-! ### Vector memory -/

/-- The element accesses of an ordered load from lo up to hi can be made now: loc j is the location of an active element j
whose address is ea j. -/
def Sys2Proof.Machine.CanLoad (s : State) (pm : PReg) (z lo hi : Nat) (ea : Nat → Option Int) (loc : Nat → Nat) : Prop :=
  ∀ j, lo ≤ j → j < hi → activeAt s pm j = true → ∀ a, ea j = some a →
    vAccessMe s .load a z = .ok (loc j) ∧ vBlocked s false (loc j) z = false

/-- An element of an ordered load: kept below c.vs, read (or the fill) where active, zero or kept elsewhere. -/
def Sys2Proof.Machine.loadedAt (s : State) (vd : VReg5) (w : Width) (m : VMask) (ea : Nat → Option Int) (loc : Nat → Nat)
    (fill : Word) (j : Nat) : Word :=
  let old := elemOf (s.vreg vd) w s.vl j
  if j < s.me.vs.toNat then old
  else if activeAt s m.pm j then (if (ea j).isSome then vRead s (loc j) (widthBytes w) else fill)
  else if m.zm then 0 else old

/-- An ordered load whose accesses can be made completes, with a flat result but for a tensor tile's levels. -/
def Sys2Proof.Machine.VLoads (s : State) (o : Out) (vd : VReg5) (w : Width) (m : VMask) (lv : List Level)
    (ea : Nat → Option Int) (fill : Word) : Prop :=
  ∀ loc, CanLoad s m.pm (widthBytes w) s.me.vs.toNat s.vl ea loc → VEnds s o vd w lv fun es =>
    es.length = s.vl ∧ ∀ j, j < s.vl → es[j]? = some (loadedAt s vd w m ea loc fill j)

/-- The state in which c.vs is the number of the element that stopped the instruction. -/
def Sys2Proof.Machine.State.stoppedAt (s : State) (j : Nat) : State := s.updMe fun x => { x with vs := BitVec.ofNat 32 j }

/-- An ordered load whose element j fails, the ones before it being possible, stops there: c.vs names it, the elements before
it are written where there is one to write, and it traps with the access's cause. -/
def Sys2Proof.Machine.VLoadStops (s : State) (o : Out) (vd : VReg5) (w : Width) (m : VMask) (lv : List Level)
    (ea : Nat → Option Int) (fill : Word) (when' : Nat → VErr → Prop) : Prop :=
  ∀ loc j a e, s.me.vs.toNat ≤ j → j < s.vl → activeAt s m.pm j = true → ea j = some a →
    vAccessMe s .load a (widthBytes w) = .error e → CanLoad s m.pm (widthBytes w) s.me.vs.toNat j ea loc → when' j e →
    let part := ∃ i, s.me.vs.toNat ≤ i ∧ i < j ∧ (activeAt s m.pm i = true ∨ m.zm = true)
    (¬part → o = .next ((s.stoppedAt j).trapVAt (j != 0) e.code e.sub e.tval))
    ∧ (part → ∃ r : VReg, o = .next (((s.setV vd r).stoppedAt j).trapVAt (j != 0) e.code e.sub e.tval)
        ∧ r.wt = w ∧ r.levels = lv ∧ r.elems.length = s.vl
        ∧ ∀ i, i < s.vl → r.elems[i]? = some (if i < j then loadedAt s vd w m ea loc fill i else elemOf (s.vreg vd) w s.vl i))

/-- Units of z bytes at ascending addresses can be read now and hold these values. -/
def Sys2Proof.Machine.ReadsAs (s : State) (z : Nat) (eas : List Int) (ws : List Word) : Prop :=
  ∃ locs : List Nat, eas.map (fun a => vAccessMe s .load a z) = locs.map .ok
    ∧ (∀ l ∈ locs, vBlocked s false l z = false) ∧ ws = locs.map fun l => vRead s l z

/-- Some element from c.vs to below j is active. -/
def Sys2Proof.Machine.activeBefore (s : State) (pm : PReg) (j : Nat) : Prop :=
  ∃ i, s.me.vs.toNat ≤ i ∧ i < j ∧ activeAt s pm i = true

/-- The contiguous, strided, fault-only-first and tensor loads. One whose element fails stops at it, with the elements before
it done, c.vs its number, and a trap; that its register stays as it was while no element is done, and has its new tag and
filled length once one is, is the choice of assumption log, 51. vldff that fails after an active element, but for poison,
completes instead and sets c.vl to the element that failed (spec/08, R148 to R151, R154, R155; spec/25, R367). -/
def Obligations.OrderedLoads : Prop :=
  ∀ (x : VLoad) (y : VLoadS) (s : State), s.brk = none →
    let vs := s.me.vs.toNat
    let step (bs : SP) (n : Int) (j : Nat) : Option Int := some ((s.sp bs).toNat + j * n)
    (s.vl ≤ vlmax s s.cur x.w →
      let z := widthBytes x.w
      let ea := step x.bs z
      VLoads s (exec (.vld x) s) x.vd x.w x.m [] ea 0 ∧ VLoads s (exec (.vldff x) s) x.vd x.w x.m [] ea 0
      ∧ VLoadStops s (exec (.vld x) s) x.vd x.w x.m [] ea 0 (fun _ _ => True)
      ∧ VLoadStops s (exec (.vldff x) s) x.vd x.w x.m [] ea 0 (fun j e => ¬activeBefore s x.m.pm j ∨ e.code = 0x10)
      ∧ ∀ loc j a e, vs ≤ j → j < s.vl → activeAt s x.m.pm j = true → ea j = some a → vAccessMe s .load a z = .error e →
          activeBefore s x.m.pm j → CanLoad s x.m.pm z vs j ea loc → e.code ≠ 0x10 →
            ∃ t, exec (.vldff x) s = .next t ∧ OnlyMe s t ∧ KeepsV s t [x.vd] ∧ t.me.vs = 0 ∧ t.vl = j
              ∧ (t.vreg x.vd).wt = x.w ∧ (t.vreg x.vd).levels = [] ∧ (t.vreg x.vd).elems.length = j
              ∧ ∀ i, i < j → (t.vreg x.vd).elems[i]? = some (loadedAt s x.vd x.w x.m ea loc 0 i))
    ∧ (s.vl ≤ vlmax s s.cur y.w →
        let ea := step y.bs (s.sp y.xs).toInt
        VLoads s (exec (.vlds y) s) y.vd y.w y.m [] ea 0
        ∧ VLoadStops s (exec (.vlds y) s) y.vd y.w y.m [] ea 0 (fun _ _ => True))
    ∧ ∀ (vd va : VReg5) (dep : Dep) (m : VMask) (r : Shape), shapeOf (recordOf s va) = some r →
        r.count ≤ vlmax s s.cur (fmtWidth r.fmt) → dep.toNat ≤ min (r.tile.length - 1) 3 →
        levelsFit s (r.levels dep.toNat) = true →
        let u := s.setVl r.count (fmtWidth r.fmt)
        VLoads u (exec (.vtld vd va dep m) s) vd (fmtWidth r.fmt) m (r.levels dep.toNat) r.addr r.fill
        ∧ VLoadStops u (exec (.vtld vd va dep m) s) vd (fmtWidth r.fmt) m (r.levels dep.toNat) r.addr r.fill (fun _ _ => True)

/-- What an indexed form does with element j: nothing below c.vs or where it is not active, its bound's predicate, or an
access (spec/01, R17; spec/08, R147, R156). -/
def Sys2Proof.Machine.idxAt (s : State) (va : VReg5) (pm : PReg) (bnd : Option Bound) (bs : SP) (z j : Nat) : IdxEl :=
  let v := s.vreg va
  let ix := (elemOf v v.wt s.vl j).toNat
  if j < s.me.vs.toNat ∨ activeAt s pm j = false ∨ ix = 2 ^ widthBits v.wt - 1 then .skip
  else if (bnd.map fun b => decide ((s.sp b.xs).toNat ≤ ix)).getD false then .oob
  else .at ((s.sp bs).toNat + ix * z)

/-- The bound's predicate holds the elements out of bound, and no other predicate register changes. -/
def Sys2Proof.Machine.BoundSet (s t : State) (bnd : Option Bound) (el : Nat → IdxEl) : Prop :=
  (∀ q, (bnd.map (·.pb)) ≠ some q → t.pbits q s.vl = s.pbits q s.vl)
  ∧ ∀ b, bnd = some b → b.pb ≠ 0 → ∀ j, j < s.vl → (activeAt t b.pb j = true ↔ el j = .oob)

/-- The routes of an indexed V-word under xroute.save go into the slot; but for those, nothing outside its hart changes. -/
def Sys2Proof.Machine.OnlyMeAndRoutes (s t : State) : Prop :=
  (∀ k, k ≠ s.cur → t.hart k = s.hart k) ∧ (∀ loc, t.byte loc = s.byte loc)
  ∧ (∀ c, t.core c = { s.core c with routes := (t.core c).routes })
  ∧ ((∀ b n, s.me.block? = some b → b.xr ≠ .save n) → OnlyMe s t)
  ∧ ∀ b n, s.me.block? = some b → b.xr = .save n → ∀ c m, (c ≠ coreOf s.cur ∨ m ≠ n.toNat) →
      mapGet [] (t.core c).routes m = mapGet [] (s.core c).routes m

/-- The indexed, segment, nested and fibre loads. vldx keeps the elements below c.vs and those that kc marks, and clears kc
when it completes. That vldn reads its header and lengths in units of 4 bytes, and what it reads of a cursor, is the choice of
assumption log, 44; from a cursor that has consumed the whole image it loads an empty strip and keeps the cursor. vldf with oc
writes the coordinates of the positions one level out, one for each level-1 segment. A fault of vldn or of vldf traps with
c.vs 0 and no register changed (spec/01, R17; spec/02, R25; spec/06,
R109; spec/08, R147, R148, R153, R156 to R159; spec/09, R174, R175; spec/18, R278). -/
def Obligations.GatherAndNestedLoads : Prop :=
  (∀ (x : VLoadX) (s : State) (loc : Nat → Nat), s.brk = none → s.vl ≤ vlmax s s.cur x.w → boundOk x.bnd x.m.pm = true →
      indexedPending s.me = false →
      let z := widthBytes x.w
      let el := idxAt s x.va x.m.pm x.bnd x.bs z
      let old := elemOf (s.vreg x.vd) x.w s.vl
      (∀ j a, j < s.vl → el j = .at a → j ∉ s.me.kc → idxCheck s s.cur s.vUser .load a z = .ok (loc j)
        ∧ vBlocked s false (loc j) z = false ∧ s.poisonedFor s.cur true (loc j) z = false) →
      ∃ t, exec (.vldx x) s = .next t ∧ OnlyMeAndRoutes s t ∧ BlockAdvanced s t
        ∧ { s.me with vgates := t.me.vgates }.sameBut t.me ∧ KeepsV s t [x.vd]
        ∧ t.me.kc = [] ∧ t.me.flags = s.me.flags ∧ t.me.vl = s.me.vl ∧ BoundSet s t x.bnd el
        ∧ (t.vreg x.vd).wt = x.w ∧ (t.vreg x.vd).levels = [] ∧ (t.vreg x.vd).elems.length = s.vl
        ∧ ∀ j, j < s.vl → (t.vreg x.vd).elems[j]? = some (if j < s.me.vs.toNat ∨ j ∈ s.me.kc then old j else match el j with
          | .skip => if x.m.zm then 0 else old j
          | .oob => 0
          | .at _ => vRead s (loc j) z))
  ∧ (∀ (x : VLoadSeg) (s : State) (fa fd : Fmt) (rm : Rm) (loc : Nat → Nat → Nat), (Instr.vldseg x).wellFormed = true →
      s.brk = none → (s.fw x.fs).a = some fa → (s.fw x.fs).d = some fd → (s.fw x.fs).rm = some rm →
      s.vl ≤ vlmax s s.cur (fmtWidth fa) → s.vl ≤ vlmax s s.cur (fmtWidth fd) →
      let n := x.nf.toNat + 1
      let z := widthBytes (fmtWidth fa)
      let vs := s.me.vs.toNat
      let got (j f : Nat) : Deliv := convert fa fd rm (s.fw x.fs).sat (s.fw x.fs).e (vRead s (loc j f) z)
      (∀ j f, vs ≤ j → j < s.vl → f < n → activeAt s x.m.pm j = true →
        vAccessMe s .load ((s.sp x.bs).toNat + (j * n + f : Nat) * z) z = .ok (loc j f)
        ∧ vBlocked s false (loc j f) z = false) →
      ∃ t, exec (.vldseg x) s = .next t ∧ VDone s t ((List.range n).map fun f => x.vd + BitVec.ofNat 5 f)
        ∧ (∀ f, f < n →
          let v := x.vd + BitVec.ofNat 5 f
          let old := elemOf (s.vreg v) (fmtWidth fd) s.vl
          (t.vreg v).wt = fmtWidth fd ∧ (t.vreg v).levels = [] ∧ (t.vreg v).elems.length = s.vl
          ∧ ∀ j, j < s.vl → (t.vreg v).elems[j]? = some (if j < vs then old j
              else if activeAt s x.m.pm j then (got j f).1 else if x.m.zm then 0 else old j))
        ∧ Raises s t s.vl fun j => if vs ≤ j ∧ activeAt s x.m.pm j
            then (List.range n).foldl (fun a f => a ||| (got j f).2) 0 else 0)
  ∧ (∀ (vd : VReg5) (cur : Option VReg5) (bs : SP) (s : State) (h : NestHead) (st : Strip) (hd lens es : List Word),
      let base : Int := (s.sp bs).toNat
      let levels := cutSegs h.counts (lens.map BitVec.toNat)
      let w := fmtWidth h.fmt
      let cw := cursorWords s cur
      ReadsAs s 4 (unitAddrs base 4 8) hd → nestHead hd = some h →
      ReadsAs s 4 (unitAddrs (base + 32) 4 h.counts.sum) lens → sumsOk h levels = true → (cw[7]?).getD 0 = 0 →
      stripOf h levels (vlmax s s.cur w) (slotLimit s.me.gang (held s s.cur)) (cursorOf cw) = some st →
      ReadsAs s (widthBytes w)
        (unitAddrs (base + (32 + (4 * h.counts.sum + 7) / 8 * 8 + (cursorOf cw).e * widthBytes w : Nat)) (widthBytes w) st.took) es →
      ∃ t, exec (.vldn vd cur bs) s = .next t ∧ OnlyMe s t ∧ BlockAdvanced s t ∧ KeepsV s t (vd :: cur.toList)
        ∧ t.vl = st.took % 2 ^ 32 ∧ (cur ≠ some vd → t.vreg vd = ⟨w, es, st.levels h.lv (cursorOf cw)⟩)
        ∧ ∀ c, cur = some c → t.vreg c = ⟨.w64, st.cur.words (consumed h st.cur), []⟩)
  ∧ (∀ (vd : VReg5) (cur : Option VReg5) (bs : SP) (s : State) (h : NestHead) (hd lens : List Word),
      let base : Int := (s.sp bs).toNat
      ReadsAs s 4 (unitAddrs base 4 8) hd → nestHead hd = some h → ReadsAs s 4 (unitAddrs (base + 32) 4 h.counts.sum) lens →
      sumsOk h (cutSegs h.counts (lens.map BitVec.toNat)) = true → (cursorWords s cur)[7]? = some 1 →
      ∃ t, exec (.vldn vd cur bs) s = .next t ∧ OnlyMe s t ∧ BlockAdvanced s t ∧ KeepsV s t [vd] ∧ t.vl = 0
        ∧ (t.vreg vd).elems = [] ∧ (t.vreg vd).levels = [])
  ∧ (∀ (vd va : VReg5) (cur : Option VReg5) (bs : SP) (s : State) (e : VErr),
      (vAccessMe s .load (s.sp bs).toNat 4 = .error e → exec (.vldn vd cur bs) s = .next (s.trapUnit e.code e.sub e.tval))
      ∧ (decodeFibre s vd (velems (s.vreg va) .w64 25) = .error (.err e) →
          exec (.vldf vd va) s = .next (s.trapUnit e.code e.sub e.tval))
      ∧ ∀ b c d, (s.trapUnit b c d).me.v = s.me.v ∧ (s.trapUnit b c d).me.vs = 0)
  ∧ (∀ (vd va : VReg5) (s : State) (r : FRecord) (f : FSub) (vals : List Nat),
      decodeFibre s vd (velems (s.vreg va) .w64 25) = .ok (r, f, vals) →
      let lv : List Level := f.lens.map fun l => ⟨l, false, false⟩
      ∃ t, exec (.vldf vd va) s = .next t ∧ OnlyMe s t ∧ BlockAdvanced s t ∧ KeepsV s t [vd, vd + 1, vd + 2]
        ∧ t.vl = f.leaves.length % 2 ^ 32 ∧ t.vreg vd = ⟨fmtWidth r.fmt, vals.map (BitVec.ofNat 64), lv⟩
        ∧ t.vreg (vd + 1) = ⟨.w32, f.leaves.map fun e => BitVec.ofNat 64 e.2, lv⟩
        ∧ (r.oc = true → 2 ≤ r.levels.length → t.vreg (vd + 2) = ⟨.w32, f.outer.map (BitVec.ofNat 64), []⟩
            ∧ (t.vreg (vd + 2)).elems.length = (f.lens.headD []).length)
        ∧ (¬(r.oc = true ∧ 2 ≤ r.levels.length) → t.vreg (vd + 2) = s.vreg (vd + 2)))

/-- The vector side of hart h sees the bytes written in order, and every other byte as before. -/
def Sys2Proof.Machine.StoredBy (h : Nat) (s t : State) (l : List (Nat × List Byte)) : Prop :=
  ∀ a, t.view h true a 1 = match l.reverse.find? fun e => decide (e.1 ≤ a ∧ a < e.1 + e.2.length) with
    | some e => [(e.2[a - e.1]?).getD 0]
    | none => s.view h true a 1

/-- The same of the hart that executes. -/
def Sys2Proof.Machine.Stored (s : State) : State → List (Nat × List Byte) → Prop := StoredBy s.cur s

/-- A V-word that stores these bytes completes: they leave through the hart's outbound buffer, no byte of memory changes
before they are performed, and no register changes. -/
def Sys2Proof.Machine.VStored (s t : State) (l : List (Nat × List Byte)) : Prop :=
  OnlyMe s t ∧ BlockAdvanced s t ∧ Stored s t l
  ∧ t.me = { s.me with vs := 0, resv := t.me.resv, vq := t.me.vq, kq := t.me.kq, out := t.me.out, nextNum := t.me.nextNum }

/-- A store to an address can be made now: its location, no wait, and no withdrawn output. -/
def Sys2Proof.Machine.CanStore (s : State) (ea : Int) (z loc : Nat) : Prop :=
  vAccess s s.cur s.vUser .store ea z = .ok loc ∧ vBlocked s true loc z = false ∧ withdrawnAt s s.cur (wordOf ea) z = none

/-- The elements from c.vs on that an ordered store writes. -/
def Sys2Proof.Machine.storedEls (s : State) (pm : PReg) (ea : Nat → Option Int) : List Nat :=
  (List.range s.vl).filter fun j => decide (s.me.vs.toNat ≤ j) && activeAt s pm j && (ea j).isSome

/-- An ordered store whose accesses can be made completes. -/
def Sys2Proof.Machine.VStores (s : State) (o : Out) (vd : VReg5) (w : Width) (pm : PReg) (ea : Nat → Option Int) : Prop :=
  let z := widthBytes w
  ∀ loc : Nat → Nat, (∀ j ∈ storedEls s pm ea, ∀ a, ea j = some a → CanStore s a z (loc j)) →
    ∃ t, o = .next t ∧ VStored s t ((storedEls s pm ea).map fun j => (loc j, toLe z (elemOf (s.vreg vd) w s.vl j).toNat))

/-- One whose element j fails, the ones before it being possible, stops there: those stores leave, c.vs names j, and it
traps. -/
def Sys2Proof.Machine.VStoreStops (s : State) (o : Out) (vd : VReg5) (w : Width) (pm : PReg) (ea : Nat → Option Int) : Prop :=
  let z := widthBytes w
  ∀ (loc : Nat → Nat) (j : Nat) (a : Int) (e : VErr), s.me.vs.toNat ≤ j → j < s.vl → activeAt s pm j = true → ea j = some a →
    vAccess s s.cur s.vUser .store a z = .error e →
    (∀ i ∈ storedEls s pm ea, i < j → ∀ b, ea i = some b → CanStore s b z (loc i)) →
    ∃ u : State, o = .next ((u.stoppedAt j).trapVAt (j != 0) e.code e.sub e.tval) ∧ OnlyMe s u
      ∧ u.me = { s.me with out := u.me.out, nextNum := u.me.nextNum }
      ∧ Stored s u (((storedEls s pm ea).filter fun i => decide (i < j)).map fun i =>
          (loc i, toLe z (elemOf (s.vreg vd) w s.vl i).toNat))

/-- Units of an image can be stored now: loc is where each address lies. -/
def Sys2Proof.Machine.CanStoreUnits (s : State) (l : List (Int × Nat × List Byte)) (loc : Int → Nat) : Prop :=
  ∀ e ∈ l, CanStore s e.1 e.2.1 (loc e.1)

/-- The units with their locations. -/
def Sys2Proof.Machine.unitsAt (loc : Int → Nat) (l : List (Int × Nat × List Byte)) : List (Nat × List Byte) :=
  l.map fun e => (loc e.1, e.2.2)

/-- An image whose unit fails, those before it being possible and none having to wait, traps there with c.vs 0; the units
before it leave. -/
def Sys2Proof.Machine.UnitStops (s : State) (o : Out) (l : List (Int × Nat × List Byte)) : Prop :=
  ∀ loc first u rest e, l = first ++ u :: rest → unitsBlocked s l = false → CanStoreUnits s first loc →
    vAccess s s.cur s.vUser .store u.1 u.2.1 = .error e →
    ∃ v : State, OnlyMe s v ∧ v.me = { s.me with out := v.me.out, nextNum := v.me.nextNum } ∧ Stored s v (unitsAt loc first)
      ∧ o = .next (v.trapUnit e.code e.sub e.tval)

/-- The contiguous, strided, tensor and nested stores, in the width their form gives or the register's own; vstn writes its
lengths, its elements and then its header, the lengths and the header in units of 4 bytes, which is the choice of assumption
log, 44, and a fault of it traps with c.vs 0. A store of the others whose element fails stops at it with c.vs, and traps
(spec/01, R14; spec/03, R57; spec/08, R148 to R150, R154, R155, R160). -/
def Sys2Proof.Claims.OrderedStores : Prop :=
  ∀ (x : VStore) (y : VStoreS) (s : State), s.brk = none →
    let step (bs : SP) (n : Int) (j : Nat) : Option Int := some ((s.sp bs).toNat + j * n)
    let wx := x.tw.getD (s.vreg x.vd).wt
    let wy := y.tw.getD (s.vreg y.vd).wt
    (s.vl ≤ vlmax s s.cur wx → VStores s (exec (.vst x) s) x.vd wx x.m.pm (step x.bs (widthBytes wx))
      ∧ VStoreStops s (exec (.vst x) s) x.vd wx x.m.pm (step x.bs (widthBytes wx)))
    ∧ (s.vl ≤ vlmax s s.cur wy → VStores s (exec (.vsts y) s) y.vd wy y.m.pm (step y.bs (s.sp y.xs).toInt)
      ∧ VStoreStops s (exec (.vsts y) s) y.vd wy y.m.pm (step y.bs (s.sp y.xs).toInt))
    ∧ (∀ (vd va : VReg5) (uo : Bool) (m : VMask) (r : Shape), shapeOf (recordOf s va) = some r →
        r.count ≤ vlmax s s.cur (fmtWidth r.fmt) → r.count = s.vl →
        VStores s (exec (.vtst vd va uo m) s) vd (fmtWidth r.fmt) m.pm r.addr
        ∧ VStoreStops s (exec (.vtst vd va uo m) s) vd (fmtWidth r.fmt) m.pm r.addr)
    ∧ ∀ (vd : VReg5) (uo : Bool) (bs : SP) (loc : Int → Nat),
        let v := s.vreg vd
        let base : Int := (s.sp bs).toNat
        let img := nestImage v
        let l := unitsOf (base + 32) 4 img.2.1 ++ unitsOf (base + (32 + img.2.1.length : Nat)) (widthBytes v.wt) img.2.2
          ++ unitsOf base 4 img.1
        UnitStops s (exec (.vstn vd uo bs) s) l
        ∧ (CanStoreUnits s l loc → ∃ t, exec (.vstn vd uo bs) s = .next t ∧ VStored s t (unitsAt loc l))

/-- The indexed and segment stores and the scatter-add. Without uo only the highest active element of each address is stored;
vsca sends one addition for each element, in fmt.d, with the conversion's flags; both clear kc. Elements below c.vs and those
that kc marks are not stored again (spec/01, R17; spec/02, R25; spec/08, R147, R153, R156 to R158; spec/21, R331). -/
def Sys2Proof.Claims.ScatterStores : Prop :=
  (∀ (x : VStoreX) (s : State) (loc : Nat → Nat), s.brk = none →
      let w := x.tw.getD (s.vreg x.vd).wt
      let z := widthBytes w
      let el := idxAt s x.va x.m.pm x.bnd x.bs z
      let todo := (List.range s.vl).filter fun j => (el j != .skip) && (el j != .oob) && !s.me.kc.contains j
      s.vl ≤ vlmax s s.cur w → boundOk x.bnd x.m.pm = true → indexedPending s.me = false →
      (∀ j ∈ todo, ∀ a, el j = .at a → idxCheck s s.cur s.vUser .store a z = .ok (loc j) ∧ vBlocked s true (loc j) z = false
        ∧ withdrawnAt s s.cur (wordOf a) z = none) →
      ∃ t, exec (.vstx x) s = .next t ∧ OnlyMeAndRoutes s t ∧ BlockAdvanced s t ∧ t.me.v = s.me.v ∧ t.me.kc = []
        ∧ t.me.flags = s.me.flags ∧ BoundSet s t x.bnd el
        ∧ Stored s t ((todo.filter fun j => x.uo || !(List.range s.vl).any fun k => decide (j < k) && el k == el j).map fun j =>
            (loc j, toLe z (elemOf (s.vreg x.vd) w s.vl j).toNat)))
  ∧ (∀ (x : VScatAdd) (s : State) (fa fd : Fmt) (rm : Rm) (loc : Nat → Nat), s.brk = none →
      (s.fw x.fs).a = some fa → (s.fw x.fs).d = some fd → (s.fw x.fs).rm = some rm → addFmt fd = true →
      let w := x.tw.getD (s.vreg x.vd).wt
      let z := widthBytes (fmtWidth fd)
      let el := idxAt s x.va x.m.pm x.bnd x.bs z
      let todo := (List.range s.vl).filter fun j => (el j != .skip) && (el j != .oob) && !s.me.kc.contains j
      let val (j : Nat) : Deliv := convert fa fd rm (s.fw x.fs).sat (s.fw x.fs).e (elemOf (s.vreg x.vd) w s.vl j)
      fmtWidth fa = w → s.vl ≤ vlmax s s.cur w → s.vl ≤ vlmax s s.cur (fmtWidth fd) → boundOk x.bnd x.m.pm = true →
      indexedPending s.me = false →
      (∀ j ∈ todo, ∀ a, el j = .at a → idxCheck s s.cur s.vUser .store a z = .ok (loc j) ∧ vBlocked s true (loc j) z = false
        ∧ withdrawnAt s s.cur (wordOf a) z = none ∧ loc j ≠ lateLoc) →
      ∃ t, exec (.vsca x) s = .next t ∧ OnlyMeAndRoutes s t ∧ BlockAdvanced s t ∧ t.me.v = s.me.v ∧ t.me.kc = [] ∧ BoundSet s t x.bnd el
        ∧ t.me.out = (todo.foldl (fun u j => pushAdd u s.cur
            ⟨true, s.me.kq.isSome, s.me.nextNum, x.uo, true, false, match el j with
              | .at a => holds s s.cur true (wordOf a)
              | _ => [], s.me.fencesBefore true, none⟩
            { loc := loc j, fmt := fd, rm := rm, sat := false, val := (val j).1 }) s).me.out
        ∧ Raises s t s.vl fun j => if j ∈ todo then (val j).2 else 0)
  ∧ (∀ (x : VStoreSeg) (s : State) (fa fd : Fmt) (rm : Rm) (loc : Nat → Nat → Nat), s.brk = none →
      (s.fw x.fs).a = some fa → (s.fw x.fs).d = some fd → (s.fw x.fs).rm = some rm →
      s.vl ≤ vlmax s s.cur (fmtWidth fa) → s.vl ≤ vlmax s s.cur (fmtWidth fd) →
      let n := x.nf.toNat + 1
      let z := widthBytes (fmtWidth fd)
      let ea (j f : Nat) : Int := (s.sp x.bs).toNat + (j * n + f : Nat) * z
      let val (j f : Nat) : Deliv := convert fa fd rm (s.fw x.fs).sat (s.fw x.fs).e
        (elemOf (s.vreg (x.vd + BitVec.ofNat 5 f)) (fmtWidth fa) s.vl j)
      let js := storedEls s x.m.pm fun j => some (ea j 0)
      (∀ j ∈ js, ∀ f, f < n → CanStore s (ea j f) z (loc j f) ∧ loc j f ≠ lateLoc) →
      ∃ t, exec (.vstseg x) s = .next t ∧ OnlyMe s t ∧ BlockAdvanced s t ∧ t.me.v = s.me.v
        ∧ Stored s t (js.flatMap fun j => (List.range n).map fun f => (loc j f, toLe z (val j f).1.toNat))
        ∧ Raises s t s.vl fun j => if j ∈ js then (List.range n).foldl (fun a f => a ||| (val j f).2) 0 else 0)

/-- The checks and the translation of element j of an indexed form, where it still has to be performed (spec/08, R158). -/
def Sys2Proof.Machine.idxTodo (s : State) (a : Acc) (el : Nat → IdxEl) (z j : Nat) : Option IdxChk :=
  match el j with
  | .at ea => if j ∈ s.me.kc then none else some (idxCheck s s.cur s.vUser a ea z)
  | _ => none

/-- How an indexed form of acc a faults. An element that fails a check of step 1 traps, the lowest first, and nothing is
performed. Where elements miss their translation, the others, fin, are performed and marked in kc as `ends` says, with those
out of bound, which is the choice of assumption log, 51; then one record takes the elements that missed and their pages, and
the form traps with subcode 1 at the lowest page. -/
def Sys2Proof.Machine.IdxFaults (s : State) (o : Out) (a : Acc) (el : Nat → IdxEl) (z : Nat) (ready : Nat → Nat → Prop)
    (ends : State → List Nat → (Nat → Nat) → Prop) : Prop :=
  let todo := idxTodo s a el z
  let bad (j : Nat) : Bool := match todo j with
    | some (.bad _) => true
    | _ => false
  (∀ j e, j < s.vl → todo j = some (.bad e) → (∀ i, i < j → bad i = false) →
    o = .next (s.trapVAt (s.me.kc != []) e.code e.sub e.tval))
  ∧ ∀ (loc : Nat → Nat) (fin : List Nat) (miss : List (Nat × Nat)) (low : Nat),
    (∀ j c, j < s.vl → todo j = some c → c = .ok (loc j) ∧ ready j (loc j) ∨ ∃ p, c = .miss p) →
    fin = ((List.range s.vl).filter fun j => todo j == some (.ok (loc j))) →
    miss = ((List.range s.vl).filterMap fun j => match todo j with
      | some (.miss p) => some (j, p)
      | _ => none) →
    low ∈ miss.map (·.2) → (∀ p ∈ miss.map (·.2), low ≤ p) →
    ∃ u, OnlyMeAndRoutes s u ∧ (∀ j, j ∈ u.me.kc ↔ j ∈ s.me.kc ∨ j ∈ fin ∨ (j < s.vl ∧ el j = .oob)) ∧ ends u fin loc
      ∧ o = .next ((writeRecord u s.cur s.vl (a != .load) (miss.map (·.1)) (miss.map (·.2))).trapVAt (u.me.kc != []) a.cause 1
          (BitVec.ofNat 64 low))

/-- A gather fault record of hart h lies in its record area: the count of elements, of pages, the marks, the number of the
record, the mask of the elements that missed, the pages in ascending order; nothing else of memory changes (spec/21,
R335, R336). -/
def Sys2Proof.Machine.RecordHolds (s : State) (h n : Nat) (wr : Bool) (mask pages : List Nat) : Prop :=
  let t := writeRecord s h n wr mask pages
  let base := tcmBase (coreOf h) + 64 * (s.hart h).roff
  let dwords := (n + 63) / 64
  let num (loc k : Nat) : Nat := leNat (t.bytes loc k)
  ∀ ps : List Nat, ps.Pairwise (· < ·) → (∀ p ∈ ps, p ∈ pages) → (∀ p ∈ pages, p ∈ ps) → (∀ p ∈ ps, p < 2 ^ 64) → mask.Nodup → n < 2 ^ 32 →
    (s.hart h).recs + 1 < 2 ^ 64 →
    let np := min 256 ps.length
    num base 4 = n ∧ num (base + 8) 8 = (s.hart h).recs + 1 ∧ (t.hart h).recs = (s.hart h).recs + 1
    ∧ num (base + 4) 4 = np + (if 256 < ps.length then 2 ^ 16 else 0) + (if wr then 2 ^ 17 else 0)
    ∧ (∀ i, i < n → ((num (base + 64 + 8 * (i / 64)) 8).testBit (i % 64) = true ↔ i ∈ mask))
    ∧ (∀ i p, i < np → ps[i]? = some p → num (base + 64 + 8 * dwords + 8 * i) 8 = p)
    ∧ ∀ loc, (loc < base ∨ base + 64 + 8 * dwords + 8 * np ≤ loc) → t.byte loc = s.byte loc

/-- The faults of the indexed loads, stores and scatter-adds, which go on from kc when they are executed again: a load keeps
the elements that it has not performed and its register's new tag comes with the first one performed; c.vs stays (spec/08,
R156 to R158; spec/17, R269; spec/21, R335, R336; assumption log, 51). -/
def Sys2Proof.Claims.GatherFaults : Prop :=
  (∀ (x : VLoadX) (s : State), s.brk = none → s.vl ≤ vlmax s s.cur x.w → boundOk x.bnd x.m.pm = true →
      indexedPending s.me = false →
      let z := widthBytes x.w
      let el := idxAt s x.va x.m.pm x.bnd x.bs z
      let old := elemOf (s.vreg x.vd) x.w s.vl
      IdxFaults s (exec (.vldx x) s) .load el z
        (fun _ loc => vBlocked s false loc z = false ∧ s.poisonedFor s.cur true loc z = false) fun u fin loc =>
          KeepsV s u [x.vd] ∧ u.me.vs = s.me.vs ∧ u.me.vl = s.me.vl ∧ u.me.p = s.me.p ∧ u.me.flags = s.me.flags
          ∧ ((fin = [] ∧ ∀ j, j < s.vl → el j ≠ .oob) → u.vreg x.vd = s.vreg x.vd)
          ∧ ((fin ≠ [] ∨ ∃ j, j < s.vl ∧ el j = .oob) →
              (u.vreg x.vd).wt = x.w ∧ (u.vreg x.vd).levels = [] ∧ (u.vreg x.vd).elems.length = s.vl
              ∧ ∀ j, j < s.vl → (u.vreg x.vd).elems[j]? = some (if j ∈ fin then vRead s (loc j) z
                  else if el j = .oob ∧ j ∉ s.me.kc then 0 else old j)))
  ∧ (∀ (x : VStoreX) (s : State), s.brk = none →
      let w := x.tw.getD (s.vreg x.vd).wt
      let z := widthBytes w
      let el := idxAt s x.va x.m.pm x.bnd x.bs z
      s.vl ≤ vlmax s s.cur w → boundOk x.bnd x.m.pm = true → indexedPending s.me = false →
      IdxFaults s (exec (.vstx x) s) .store el z
        (fun j loc => vBlocked s true loc z = false
          ∧ ∀ a, el j = .at a → withdrawnAt s s.cur (wordOf a) z = none) fun u fin loc =>
          u.me = { s.me with kc := u.me.kc, pdirty := u.me.pdirty, out := u.me.out, nextNum := u.me.nextNum }
          ∧ Stored s u ((fin.filter fun j => x.uo || !(List.range s.vl).any fun k => decide (j < k) && el k == el j).map fun j =>
              (loc j, toLe z (elemOf (s.vreg x.vd) w s.vl j).toNat)))
  ∧ (∀ (x : VScatAdd) (s : State) (fa fd : Fmt) (rm : Rm), s.brk = none →
      (s.fw x.fs).a = some fa → (s.fw x.fs).d = some fd → (s.fw x.fs).rm = some rm → addFmt fd = true →
      let w := x.tw.getD (s.vreg x.vd).wt
      let z := widthBytes (fmtWidth fd)
      let el := idxAt s x.va x.m.pm x.bnd x.bs z
      let val (j : Nat) : Deliv := convert fa fd rm (s.fw x.fs).sat (s.fw x.fs).e (elemOf (s.vreg x.vd) w s.vl j)
      fmtWidth fa = w → s.vl ≤ vlmax s s.cur w → s.vl ≤ vlmax s s.cur (fmtWidth fd) → boundOk x.bnd x.m.pm = true →
      indexedPending s.me = false →
      IdxFaults s (exec (.vsca x) s) .store el z
        (fun j loc => vBlocked s true loc z = false ∧ loc ≠ lateLoc
          ∧ ∀ a, el j = .at a → withdrawnAt s s.cur (wordOf a) z = none) fun u fin loc =>
          u.me.v = s.me.v ∧ u.me.vs = s.me.vs ∧ u.me.p = s.me.p
          ∧ u.me.out = (fin.foldl (fun r j => pushAdd r s.cur
              ⟨true, s.me.kq.isSome, s.me.nextNum, x.uo, true, false, match el j with
                | .at a => holds s s.cur true (wordOf a)
                | _ => [], s.me.fencesBefore true, none⟩
              { loc := loc j, fmt := fd, rm := rm, sat := false, val := (val j).1 }) s).me.out
          ∧ Raises s u s.vl fun j => if j ∈ fin then (val j).2 else 0)
  ∧ ∀ (s : State) (h n : Nat) (wr : Bool) (mask pages : List Nat), h < 1536 → RecordHolds s h n wr mask pages

/-! ### Saves and restores -/

/-- A save or a restore goes on; in a K block it leaves c.vs, in a U block it leaves it 0 (spec/06, R111; spec/12, R215); x is
what else it makes of the hart. -/
def Sys2Proof.Machine.KeptVs (s t : State) (x : Hart) : Prop :=
  OnlyMe s t ∧ t.me = { x with vs := if s.me.kq = none then 0 else s.me.vs, resv := t.me.resv, vq := t.me.vq, kq := t.me.kq, out := t.me.out, nextNum := t.me.nextNum }
    ∧ t.me.kq = s.me.kq.map Block.next ∧ t.me.vq = if s.me.kq = none then headNexts x.vq else x.vq

/-- A vector register that the context can hold, with a selvedge that agrees with it (spec/02, R24; spec/12, R223). -/
def Sys2Proof.Machine.VRegOk (s : State) (v : VReg) : Prop :=
  v.elems.length < 2 ^ 18 ∧ v.elems.length ≤ vlmax s s.cur v.wt ∧ (∀ x ∈ v.elems, x.toNat < 2 ^ widthBits v.wt)
    ∧ v.levels.length ≤ 3 ∧ (∀ l ∈ v.levels, ∀ n ∈ l.lens, n < 2 ^ 32)
    ∧ (v.levels.map (·.lens.length)).sum ≤ slotLimit s.me.gang (held s s.cur)
    ∧ (v.levels = [] ∨ lensAgree v.elems.length (v.levels.map (·.lens)) = true) ∧ levelsFit s v.levels = true

/-- The dwords of an image. -/
def Sys2Proof.Machine.imgDwords (bs : List Byte) : List Word := chunks 8 (bs.length / 8) bs

/-- The vsave forms store their image; vsave.rq and vsave.vq, in K mode only, empty their queue (spec/12, R221,
R222). -/
def Sys2Proof.Claims.Saves : Prop :=
  ∀ (vd : VReg5) (pd : PReg) (bs : SP) (s : State) (loc : Int → Nat),
    let base : Int := (s.sp bs).toNat
    let ends (o : Out) (img : List Byte) (x : Hart) : Prop := CanStoreUnits s (unitsOf base 8 img) loc →
      ∃ t, o = .next t ∧ KeptVs s t x ∧ Stored s t (unitsAt loc (unitsOf base 8 img))
    ((s.sp bs).toNat % 8 = 0 →
      ends (exec (.vsave vd bs) s) (vImage (s.vreg vd)) s.me
      ∧ ends (exec (.vsaveP pd bs) s) (pImage (px s s.cur) (if pd = 0 then s.me.kc else s.me.p.get pd.toFin)) s.me
      ∧ (s.me.kq ≠ none → ends (exec (.vsaveRq bs) s) (rqImage s.me.rq) { s.me with rq := [] })
      ∧ (s.me.kq ≠ none → trioOf s s.cur = none → s.me.gang = 1 → s.me.tack = [] → s.me.arec = none → s.me.tkreq = none →
          ends (exec (.vsaveVq bs) s) (vqImage s.me.vq s.me.lane.wl)
            { s.me with vq := [], blocks := s.me.blocks + s.me.vq.length, savedQ := s.me.vq.map fun b => (b.fence, b.vv) }))
    ∧ ((s.sp bs).toNat % 8 ≠ 0 → exec (.vsave vd bs) s = .next (s.trapV 0x05 0 (s.sp bs)))
    ∧ (s.me.kq = none → ∀ i ∈ [Instr.vsaveRq bs, .vsaveVq bs, .vrestRq bs, .vrestVq bs],
        exec i s = .next (s.trapV 0x04 0 (instrWord i)))

/-- Where memory holds the image that a save stores, the restore gives the register or the queue back (spec/12, R221 to
R223). -/
def Sys2Proof.Claims.RestoresGiveBackWhatSavesStore : Prop :=
  ∀ (vd : VReg5) (pd : PReg) (bs : SP) (s : State), (s.sp bs).toNat % 8 = 0 →
    let holds (img : List Byte) : Prop := ReadsAs s 8 (unitAddrs (s.sp bs).toNat 8 (img.length / 8)) (imgDwords img)
    (∀ v, VRegOk s v → holds (vImage v) → ∃ t, exec (.vrest vd bs) s = .next t
      ∧ KeptVs s t { s.me with v := t.me.v, vdirty := t.me.vdirty } ∧ t.vreg vd = v ∧ KeepsV s t [vd]
      ∧ t.me.vdirty.getLsbD vd.toNat = true)
    ∧ (∀ p : Pred, ascending p = true → (∀ i ∈ p, i < px s s.cur) → px s s.cur ≤ 131072 → holds (pImage (px s s.cur) p) →
      ∃ t, exec (.vrestP pd bs) s = .next t ∧ KeptVs s t { s.me with p := t.me.p, kc := t.me.kc, pdirty := t.me.pdirty }
        ∧ (if pd = 0 then t.me.kc = p ∧ t.me.p = s.me.p else t.me.kc = s.me.kc ∧ t.me.p.get pd.toFin = p)
        ∧ (∀ q : PReg, q ≠ pd → t.me.p.get q.toFin = s.me.p.get q.toFin) ∧ t.me.pdirty.getLsbD pd.toNat = true)
    ∧ (∀ q : List Word, s.me.kq ≠ none → s.me.rq = [] → q.length ≤ 8 → holds (rqImage q) →
      ∃ t, exec (.vrestRq bs) s = .next t ∧ KeptVs s t { s.me with rq := q })
    ∧ (∀ (q : List Block) (wl : Width), s.me.kq ≠ none → s.me.vq = [] → q.length ≤ queueMost s s.cur →
      (∀ b ∈ q, b.off < 65536) → holds (vqImage q wl) →
      ∃ t, exec (.vrestVq bs) s = .next t ∧ KeptVs s t { s.me with vq := t.me.vq, savedQ := [], lane := { s.me.lane with wl := wl } }
        ∧ t.me.vq.map (fun b => (b.addr, b.off, b.started, b.snap)) = q.map fun b => (b.addr, b.off, b.started, b.snap))
/-! ### Sparse registers -/

/-- The value that a sparse register holds at a coordinate. -/
def Sys2Proof.Machine.ZReg.look (r : ZReg) (c : Nat) : Option Word := (r.pairs.find? fun e => e.1 == c).map (·.2)

/-- The coordinates of a sparse register. -/
def Sys2Proof.Machine.ZReg.crd (r : ZReg) : List Nat := r.pairs.map (·.1)

/-- A unit instruction completes and writes one sparse register, with its dirty bit. -/
def Sys2Proof.Machine.ZDone (s t : State) (zd : ZReg3) (r : ZReg) : Prop :=
  OnlyMe s t ∧ BlockAdvanced s t ∧ t.me.v = s.me.v ∧ t.me.p = s.me.p ∧ t.me.vl = s.me.vl ∧ t.zreg zd = r
    ∧ (∀ q, q ≠ zd → t.zreg q = s.zreg q) ∧ t.me.fdirty.getLsbD (4 + zd.toNat) = true

/-- A unit instruction of two writes one flat vector register and c.vl. -/
def Sys2Proof.Machine.RunDone (s t : State) (vd : VReg5) (w : Width) (es : List Word) : Prop :=
  OnlyMe s t ∧ BlockAdvanced s t ∧ KeepsV s t [vd] ∧ t.me.p = s.me.p ∧ t.me.z = s.me.z ∧ t.me.f = s.me.f
    ∧ t.me.flags = s.me.flags ∧ t.vl = es.length % 2 ^ 32 ∧ t.vreg vd = ⟨w, es, []⟩

/-- zadd takes the union and zmul the intersection of the coordinates, with one rounded operation where both sides hold one
and a conversion where one does, and raises the flags of pair p at index p; zint writes the intersection and c.vl (spec/02,
R26; spec/09, R164, R167). -/
def Sys2Proof.Claims.SparseMerges : Prop :=
  ∀ (zd za zb : ZReg3) (vd : VReg5) (fs : SP) (s : State) (l : List Nat),
    let a := s.zreg za
    let b := s.zreg zb
    let w := s.fw fs
    ascending a.crd = true → ascending b.crd = true → ascending l = true →
    let one (op : RedOp) (c : Nat) : Deliv := match a.look c, b.look c with
      | some x, some y => redStep op w.fd w.frm w.sat (x, a.fmt) (y, b.fmt)
      | some x, none => convert a.fmt w.fd w.frm w.sat 0 x
      | none, some y => convert b.fmt w.fd w.frm w.sat 0 y
      | none, none => (0, 0)
    let fits : Prop := (if isRes a.fmt then b.fmt = a.fmt ∧ w.d = some a.fmt
      else isRes b.fmt = false ∧ okFmt w.d (fun f => !isRes f) = true) ∧ w.rm.isSome = true
    let ends (o : Out) (op : RedOp) : Prop := ∃ t, o = .next t
      ∧ ZDone s t zd ⟨w.fd, l.map fun c => (c, (one op c).1)⟩
      ∧ Raises s t l.length fun p => (one op ((l[p]?).getD 0)).2
    (fits → l.length ≤ 1024 → (∀ c, c ∈ l ↔ c ∈ a.crd ∨ c ∈ b.crd) → ends (exec (.zadd zd za zb fs) s) .add)
    ∧ (fits → l.length ≤ 1024 → (∀ c, c ∈ l ↔ c ∈ a.crd ∧ c ∈ b.crd) → ends (exec (.zmul zd za zb fs) s) .mul)
    ∧ (l.length ≤ vlmax s s.cur .w32 → (∀ c, c ∈ l ↔ c ∈ a.crd ∧ c ∈ b.crd) →
        ∃ t, exec (.zint vd za zb) s = .next t ∧ RunDone s t vd .w32 (l.map (BitVec.ofNat 64)))

/-- zfrom takes the active elements (in the dense form those that are not zero) in order, after the pairs already there with
ap; zto.d scatters, zto.c and zto.v read a run from an offset, zlen counts (spec/09, R168 to R170). -/
def Sys2Proof.Claims.SparseAndVectors : Prop :=
  (∀ (x : ZFrom) (s : State) (fa fd : Fmt) (rm : Rm), (s.fw x.fs).a = some fa → (s.fw x.fs).d = some fd →
      (s.fw x.fs).rm = some rm → s.vl ≤ vlmax s s.cur (fmtWidth fa) → s.vl ≤ vlmax s s.cur (fmtWidth fd) →
      (∀ vb, x.vb = some vb → isInt fa = true ∧ ∃ fb, (s.fw x.fs).b = some fb ∧ s.vl ≤ vlmax s s.cur (fmtWidth fb)) →
      let n := s.vl
      let fb := (s.fw x.fs).fb
      let ea (j : Nat) : Word := elemOf (s.vreg x.va) (fmtWidth fa) n j
      let js := (List.range n).filter fun j => activeAt s x.pm j && (x.vb.isSome || !(readVal fa (ea j)).isZero)
      let crd (j : Nat) : Int := if x.vb.isSome then intOf fa (ea j) else j
      let val (j : Nat) : Deliv := match x.vb with
        | some vb => convert fb fd rm (s.fw x.fs).sat 0 (elemOf (s.vreg vb) (fmtWidth fb) n j)
        | none => convert fa fd rm (s.fw x.fs).sat 0 (ea j)
      let old := if x.ap then (s.zreg x.zd).pairs else []
      let pairs := old ++ js.map fun j => ((crd j).toNat, (val j).1)
      (∀ j ∈ js, 0 ≤ crd j ∧ crd j < 2 ^ 32) → ascending (pairs.map (·.1)) = true → pairs.length ≤ 1024 →
      (x.ap = true → (s.zreg x.zd).fmt = fd) →
      ∃ t, exec (.zfrom x) s = .next t ∧ ZDone s t x.zd ⟨fd, pairs⟩ ∧ Raises s t n fun j => if j ∈ js then (val j).2 else 0)
  ∧ ∀ (vd : VReg5) (za : ZReg3) (pm : PReg) (xs : SP) (s : State),
      let a := s.zreg za
      let w := fmtWidth a.fmt
      let o := (s.sp xs).toNat
      let part (l : List Word) (w : Width) : List Word := (l.drop o).take (min (l.length - o) (vlmax s s.cur w))
      (s.vl ≤ vlmax s s.cur w →
        VEnds s (exec (.ztoD vd za pm) s) vd w [] (Masked s vd w ⟨pm, false⟩ fun i => (a.look i).getD 0))
      ∧ (∃ t, exec (.ztoC vd za xs) s = .next t ∧ RunDone s t vd .w32 (part (a.crd.map (BitVec.ofNat 64)) .w32))
      ∧ (∃ t, exec (.ztoV vd za xs) s = .next t ∧ RunDone s t vd w (part (a.pairs.map (·.2)) w))
      ∧ VEnds s (exec (.zlen vd za) s) vd .w64 [] fun es => es = [BitVec.ofNat 64 a.pairs.length]

/-! ### The front accumulator -/

/-- A front instruction completes and writes one front register, with its dirty bit. -/
def Sys2Proof.Machine.FDone (s t : State) (fd : FReg2) : Prop :=
  OnlyMe s t ∧ BlockAdvanced s t ∧ t.me.v = s.me.v ∧ t.me.p = s.me.p ∧ t.me.z = s.me.z ∧ t.me.vl = s.me.vl
    ∧ (∀ q, q ≠ fd → t.freg q = s.freg q)

/-- frcfg of a valid word writes it with n and ctr zero; any other word, 0 included, is an illegal operand and leaves fd;
frclr clears n and ctr and keeps the configuration; neither raises a flag (spec/10, R192). -/
def Obligations.FrontConfiguration : Prop :=
  ∀ (fd : FReg2) (k : SP) (s : State),
    (cfgValid (s.sp k) = true → ∃ t, exec (.frcfg fd k) s = .next t ∧ FDone s t fd ∧ t.freg fd = ⟨s.sp k, 0, []⟩
      ∧ t.me.flags = s.me.flags ∧ t.me.fi = s.me.fi)
    ∧ (cfgValid (s.sp k) = false → exec (.frcfg fd k) s = .next (s.trapV 0x03 0 0)
      ∧ (s.trapV 0x03 0 0).me.f = s.me.f)
    ∧ ∃ t, exec (.frclr fd) s = .next t ∧ FDone s t fd ∧ t.freg fd = ⟨(s.freg fd).cfg, 0, []⟩
      ∧ t.me.flags = s.me.flags ∧ t.me.fi = s.me.fi

/-- frcnt writes n as UINT64 into element 0 with tag 64, filled length 1 and no level; every other element reads 0, and an
unconfigured register, which holds no tuple, gives 0 (spec/10, R197). -/
def Obligations.FrontCount : Prop :=
  ∀ (vd : VReg5) (fa : FReg2) (s : State), ∃ t, exec (.frcnt vd fa) s = .next t ∧ VQuiet s t [vd]
    ∧ (t.vreg vd).wt = .w64 ∧ (t.vreg vd).elems.length = 1 ∧ (t.vreg vd).levels = []
    ∧ (t.vreg vd).elems[0]? = some (BitVec.ofNat 64 (s.freg fa).tuples.length)
    ∧ (∀ n j, 1 ≤ j → elemOf (t.vreg vd) .w64 n j = 0)
    ∧ ((s.freg fa).tuples = [] → (t.vreg vd).elems = [0])

/-- An offer: a NaN key is discarded with NK, a tuple that a held one dominates or equals is discarded, else it joins at the
last slot and the held tuples it dominates leave; a front that stays full overflows by its policy. Tuples of which none covers
another stay so, and never exceed 256 (spec/10, R188 to R190). -/
def Sys2Proof.Claims.FrontOffers : Prop :=
  ∀ (c : Word) (l : List FTuple) (x : FTuple),
    let ks := cfgKeys c
    let rest := l.filter fun h => !dominates ks x h
    (hasNan ks x = true → offer c l x = some (l, fNK))
    ∧ (hasNan ks x = false → (∃ h ∈ l, covers ks h x = true) → offer c l x = some (l, 0))
    ∧ (hasNan ks x = false → (∀ h ∈ l, covers ks h x = false) →
        (rest.length ≠ 256 → offer c l x = some (rest ++ [x], 0))
        ∧ (rest.length = 256 → (cfgPol c = some .trap → offer c l x = none)
            ∧ (cfgPol c = some .refuse → offer c l x = some (rest, fOVF))
            ∧ (cfgPol c = some .evict → (∀ h ∈ l, hasNan ks h = false) → ∀ k, (cfgKeys c).find? (fun k => k.j == cfgPkey c) = some k →
                ∃ i, i ≤ 256 ∧ offer c l x = some ((rest ++ [x]).eraseIdx i, fOVF)
                  ∧ ∀ w, (rest ++ [x])[i]? = some w → ∀ (j : Nat) (u : FTuple), (rest ++ [x])[j]? = some u →
                      noWorse k u w = true ∧ (i < j → noWorse k w u = false))))
    ∧ (l.length ≤ 256 → noneCovers ks l = true → ∀ r fl, offer c l x = some (r, fl) → r.length ≤ 256 ∧ noneCovers ks r = true)

/-- frins offers the active elements in order and the counter tags each; frmrg offers the tuples of another front with their
own tags; frtest asks of each element alone; frrd reads a run of tuples into registers (spec/10, R193 to R196). -/
def Sys2Proof.Claims.FrontInstructions : Prop :=
  (∀ (fd : FReg2) (va vb : VReg5) (pm : PReg) (s : State) (f : Front) (fl : List (Nat × Flags)),
      let d := s.freg fd
      let nk := cfgNk d.cfg
      let n := s.vl
      let tuple (j : Nat) : FTuple :=
        ⟨(List.range 6).map fun k => if k < nk then
            (elemOf (s.vreg (va + BitVec.ofNat 5 k)) .w32 n j).setWidth 32 else 0,
         (elemOf (s.vreg vb) .w32 n j).setWidth 32, 0⟩
      let js := (List.range n).filter fun j => decide (s.me.vs.toNat ≤ j) && activeAt s pm j
      s.brk = none → n ≤ vlmax s s.cur .w32 → d.cfg ≠ 0 → va.toNat + nk ≤ 32 → nk ≤ 6 →
      offerAll true d (js.map fun j => (j, tuple j)) = (f, fl, none) →
      ∃ t, exec (.frins fd va vb pm) s = .next t ∧ FDone s t fd ∧ t.freg fd = f ∧ f.cfg = d.cfg
        ∧ f.ctr = d.ctr + BitVec.ofNat 32 js.length ∧ Raises s t n fun j => ((fl.find? fun e => e.1 == j).map (·.2)).getD 0)
  ∧ (∀ (fd fa : FReg2) (s : State) (f : Front) (fl : List (Nat × Flags)),
      let d := s.freg fd
      let a := s.freg fa
      d.cfg ≠ 0 → a.cfg ≠ 0 → d.cfg.extractLsb' 0 27 = a.cfg.extractLsb' 0 27 →
      offerAll false d ((indexed a.tuples).drop s.me.vs.toNat) = (f, fl, none) →
      ∃ t, exec (.frmrg fd fa) s = .next t ∧ FDone s t fd ∧ t.freg fd = f ∧ f.cfg = d.cfg ∧ f.ctr = d.ctr)
  ∧ ∀ (pd : PReg) (fa : FReg2) (va vd : VReg5) (xs : SP) (m : VMask) (s : State),
      let f := s.freg fa
      let nk := cfgNk f.cfg
      let n := s.vl
      let tuple (j : Nat) : FTuple :=
        ⟨(List.range 6).map fun k => if k < nk then
            (elemOf (s.vreg (va + BitVec.ofNat 5 k)) .w32 n j).setWidth 32 else 0, 0, 0⟩
      let fresh (j : Nat) : Bool := !hasNan (cfgKeys f.cfg) (tuple j) && f.tuples.all fun h => !covers (cfgKeys f.cfg) h (tuple j)
      f.cfg ≠ 0 → nk ≤ 6 →
      (n ≤ vlmax s s.cur .w32 → va.toNat + nk ≤ 32 → ∃ t, exec (.frtest pd fa va m) s = .next t ∧ OnlyMe s t
        ∧ BlockAdvanced s t ∧ t.me.v = s.me.v ∧ t.me.f = s.me.f ∧ t.me.flags = s.me.flags
        ∧ (∀ q, q ≠ pd → t.pbits q n = s.pbits q n)
        ∧ ∀ j, j < n → activeAt t pd j = if pd = 0 then true
            else if activeAt s m.pm j then fresh j else if m.zm then false else activeAt s pd j)
      ∧ (vd.toNat + nk + 1 ≤ 31 →
        let o := (s.sp xs).toNat
        let ts := (f.tuples.drop o).take (min (f.tuples.length - o) (vlmax s s.cur .w32))
        let reg (l : List (BitVec 32)) : VReg := ⟨.w32, l.map fun x => x.setWidth 64, []⟩
        ∃ t, exec (.frrd vd fa xs) s = .next t ∧ OnlyMe s t ∧ BlockAdvanced s t ∧ t.me.f = s.me.f ∧ t.vl = ts.length % 2 ^ 32
          ∧ (∀ r : VReg5, (r.toNat < vd.toNat ∨ vd.toNat + nk + 1 < r.toNat) → t.vreg r = s.vreg r)
          ∧ (∀ j, j < nk → t.vreg (vd + BitVec.ofNat 5 j) = reg (ts.map fun x => (x.keys[j]?).getD 0))
          ∧ t.vreg (vd + BitVec.ofNat 5 nk) = reg (ts.map (·.payload))
          ∧ t.vreg (vd + BitVec.ofNat 5 (nk + 1)) = reg (ts.map (·.tag)))

/-- zst and frst store the image of their register, its header last, and zld and frld of such an image give the register back
with its dirty bit; a fault of zst or frst, a misaligned base among them, traps with c.vs 0 (spec/09, R162, R165, R166;
spec/10, R187, R198 to R200). -/
def Sys2Proof.Claims.SparseAndFrontImages : Prop :=
  (∀ (zd : ZReg3) (fd : FReg2) (bs : SP) (s : State), (s.sp bs).toNat % 8 ≠ 0 →
    exec (.zst zd bs) s = .next (s.trapUnit 0x05 0 (s.sp bs)) ∧ exec (.frst fd bs) s = .next (s.trapUnit 0x05 0 (s.sp bs)))
  ∧ ∀ (zd : ZReg3) (fd : FReg2) (bs : SP) (s : State), (s.sp bs).toNat % 8 = 0 →
    let base : Int := (s.sp bs).toNat
    (∀ loc : Int → Nat,
      let zi := zImage (s.zreg zd)
      let lz := unitsOf (base + 16) 8 (zi.1 ++ zi.2.1) ++ unitsOf base 8 zi.2.2
      let fi := frontImage (s.freg fd)
      let lf := unitsOf (base + 32) 8 fi.1 ++ unitsOf base 8 fi.2
      UnitStops s (exec (.zst zd bs) s) lz ∧ UnitStops s (exec (.frst fd bs) s) lf
      ∧ (CanStoreUnits s lz loc → ∃ t, exec (.zst zd bs) s = .next t ∧ VStored s t (unitsAt loc lz))
      ∧ (CanStoreUnits s lf loc → ∃ t, exec (.frst fd bs) s = .next t ∧ VStored s t (unitsAt loc lf)))
    ∧ (∀ r : ZReg, r.pairs.length ≤ 1024 → ascending r.crd = true → (∀ e ∈ r.pairs, e.1 < 2 ^ 32
        ∧ e.2.toNat < 2 ^ widthBits (fmtWidth r.fmt)) →
      let img := (zImage r).2.2 ++ (zImage r).1 ++ (zImage r).2.1
      ReadsAs s 8 (unitAddrs base 8 (img.length / 8)) (imgDwords img) →
      ∃ t, exec (.zld zd bs) s = .next t ∧ ZDone s t zd r ∧ t.me.flags = s.me.flags)
    ∧ ∀ f : Front, (cfgValid f.cfg = true ∨ f.cfg = 0 ∧ f.tuples = []) → f.tuples.length ≤ 256 →
      (∀ x ∈ f.tuples, x.keys.length = 6) → tuplesOk f.cfg f.tuples = true →
      let img := (frontImage f).2 ++ (frontImage f).1
      ReadsAs s 8 (unitAddrs base 8 (img.length / 8)) (imgDwords img) →
      ∃ t, exec (.frld fd bs) s = .next t ∧ FDone s t fd ∧ t.freg fd = f ∧ t.me.flags = s.me.flags
        ∧ t.me.fdirty.getLsbD fd.toNat = true

/-! ### Expert routing -/

/-- vmaxclr chooses in each segment the greatest candidate that is no NaN, the lowest index among equals, and clears its bit;
vselk makes c.k such choices, each without those before it; vhist counts the keys of each segment below K; vrank counts the
equal active elements before each (spec/09, R178 to R182). -/
def Obligations.RoutingResults : Prop :=
  ∀ (vd va : VReg5) (pk pm : PReg) (dep : Dep) (fs : SP) (x : VHist) (y : VScan) (s : State) (f : Fmt),
    let v := s.vreg va
    let n := s.vl
    let w := fmtWidth f
    let lens := segLens v.levels n dep.toNat
    let segOf (i : Nat) : Option Nat := (segIndex lens)[i]?
    let val (i : Nat) : Val := readVal f (elemOf v w n i)
    ((s.fw fs).a = some f → pickFmt f = true → n ≤ vlmax s s.cur w → structOk v dep n = true →
      (pk ≠ 0 → ∃ t, exec (.vmaxclr vd va pk dep fs) s = .next t ∧ OnlyMe s t ∧ BlockAdvanced s t ∧ KeepsV s t [vd]
        ∧ t.me.flags = s.me.flags ∧ (t.vreg vd).wt = .w32 ∧ (t.vreg vd).elems.length = lens.length
        ∧ (t.vreg vd).levels = (if dep = 0 then [] else v.levels.drop dep.toNat)
        ∧ ∃ pick : Nat → Option Nat,
          (∀ j, j < lens.length →
            let cand (i : Nat) : Prop := i < n ∧ segOf i = some j ∧ activeAt s pk i = true ∧ (val i).isNan = false
            match pick j with
            | none => (t.vreg vd).elems[j]? = some 0xFFFFFFFF ∧ ∀ i, ¬cand i
            | some i => cand i ∧ (t.vreg vd).elems[j]? = some (BitVec.ofNat 64 (i - (lens.take j).sum))
                ∧ ∀ k, cand k → beforeV (val i) (val k) = false ∧ (beforeV (val k) (val i) = false → i ≤ k))
          ∧ ∀ i, i < n → (activeAt t pk i = true ↔ activeAt s pk i = true ∧ ∀ j, j < lens.length → pick j ≠ some i))
      ∧ (let k := s.me.k.toNat
         let r := segPicks f k lens (s.pbits pm n) (velems v w n)
         let lv : List Level := if dep = 0 then [] else ⟨lens.map fun _ => k, false, false⟩ :: v.levels.drop dep.toNat
         r.2.length ≤ vlmax s s.cur .w32 → levelsFit s lv = true →
         ∃ t, exec (.vselk vd va pk dep pm fs) s = .next t ∧ OnlyMe s t ∧ BlockAdvanced s t ∧ KeepsV s t [vd]
           ∧ t.me.flags = s.me.flags ∧ t.vreg vd = ⟨.w32, r.2, lv⟩ ∧ r.2.length = lens.length * k
           ∧ (pk ≠ 0 → ∀ i, i ∈ t.me.p.get pk.toFin ↔ i ∈ r.1)
           ∧ ∃ pick : Nat → Nat → Option Nat,
             (∀ j q, j < lens.length → q < k →
               let cand (i : Nat) : Prop := i < n ∧ segOf i = some j ∧ activeAt s pm i = true ∧ (val i).isNan = false
                 ∧ ∀ p < q, pick j p ≠ some i
               match pick j q with
               | none => r.2[j * k + q]? = some 0xFFFFFFFF ∧ ∀ i, ¬cand i
               | some i => cand i ∧ r.2[j * k + q]? = some (BitVec.ofNat 64 (i - (lens.take j).sum))
                   ∧ ∀ m, cand m → beforeV (val i) (val m) = false ∧ (beforeV (val m) (val i) = false → i ≤ m))
             ∧ ∀ i, i ∈ r.1 ↔ ∃ j q, j < lens.length ∧ q < k ∧ pick j q = some i))
    ∧ ((s.fw x.fs).a = some f → isInt f = true → n ≤ vlmax s s.cur w → structOk (s.vreg x.va) x.dep n = true →
      let k := x.k1.toNat + 1
      let u := s.vreg x.va
      let ls := segLens u.levels n x.dep.toNat
      let lv : List Level := if x.dep = 0 then []
        else ⟨List.replicate (ls.length * k) 1, false, false⟩ :: ⟨ls.map fun _ => k, false, false⟩ :: u.levels.drop x.dep.toNat
      (x.dep = 0 ∨ u.levels.length ≤ x.dep.toNat + 1) → ls.length * k ≤ vlmax s s.cur .w32 → levelsFit s lv = true →
      VEnds s (exec (.vhist x) s) x.vd .w32 lv fun es => es.length = ls.length * k ∧ ∀ j b, j < ls.length → b < k →
        es[j * k + b]? = some (BitVec.ofNat 64 ((List.range n).countP fun i =>
          (segIndex ls)[i]? == some j && activeAt s x.pm i && decide (intOf f (elemOf u w n i) = b))))
    ∧ ((s.fw y.fs).a = some f → isInt f = true → n ≤ vlmax s s.cur w → n ≤ vlmax s s.cur .w32 →
      structOk (s.vreg y.va) y.dep n = true →
      let u := s.vreg y.va
      let seg := segIndex (segLens u.levels n y.dep.toNat)
      seg.length = n → VEnds s (exec (.vrank y) s) y.vd .w32 (keepLevels u.levels n) (Masked s y.vd .w32 y.m fun i =>
        BitVec.ofNat 64 ((List.range i).countP fun k => seg[k]? == seg[i]? && activeAt s y.m.pm k
          && elemOf u w n k == elemOf u w n i)))
/-! ### The matrix engine -/

/-- A matrix V-word completes and its command joins the core's queue; no register and no byte of memory changes but what the
reservation of a bobbin source takes. The command takes the hart's next number, the fences before its block and the
translations it holds. -/
def Sys2Proof.Machine.Enqueued (s t : State) (tile : TReg3) (tr : List Held) (w : MWork) : Prop :=
  t = { s with harts := t.harts, cores := t.cores } ∧ (∀ a, t.byte a = s.byte a) ∧ BlockAdvanced s t
    ∧ (∀ k, k ≠ s.cur → t.hart k = s.hart k) ∧ Hart.sameBut { s.me with nextNum := s.me.nextNum + 1 } t.me
    ∧ t.me.v = s.me.v
    ∧ t.me.p = s.me.p ∧ t.me.flags = s.me.flags
    ∧ (t.core (coreOf s.cur)).tiles = (s.core (coreOf s.cur)).tiles
    ∧ ∃ m : MCmd, (t.core (coreOf s.cur)).mq = (s.core (coreOf s.cur)).mq ++ [m] ∧ m.hart = s.cur ∧ m.tile = tile.toNat
      ∧ m.msh = s.me.msh ∧ m.user = s.vUser ∧ m.seq = s.me.blockSeq ∧ m.num = s.me.nextNum ∧ m.issued = false
      ∧ m.fence = s.me.fencesBefore true ∧ m.mark = ((s.me.block?.map (·.mark)).getD 0) ∧ m.tr = tr ∧ m.work = w

/-- Words with their locations lie page by page: those of a page that make an access lie in one frame, at their own
offsets. -/
def Sys2Proof.Machine.OnePlace (els : List (Nat × Nat)) : Prop :=
  ∀ e ∈ els, e.2 ≠ lateLoc → e.2 % 65536 = e.1 % 65536
    ∧ ∀ f ∈ els, f.1 / 65536 = e.1 / 65536 → f.2 ≠ lateLoc → f.2 / 65536 = e.2 / 65536

/-- mshp writes c.msh; with acq it also changes the held set at once, when nothing under way names a tile it gives up and no
other context holds one it asks for: the tiles it acquires are dense and zero. Otherwise it gives up what it holds and joins
the core's list. mtrel gives up one tile; mtrel.s puts a save of it into the matrix queue, which gives it up when it is done:
the save holds the pages of the image, which give every word of it that is not withdrawn its own location (spec/13, R226,
R227, R230, R231, R243; spec/15, R264; spec/19, R300; assumption log, 46). -/
def Sys2Proof.Claims.TilesAndShapes : Prop :=
  ∀ (k : SP) (mask : BitVec 8) (tl : TReg3) (s : State),
    let v := s.sp k
    let core := coreOf s.cur
    let mine := heldTiles s s.cur
    let bit : BitVec 8 := 1 <<< tl.toNat
    (shapeOk v = true →
      (∃ t, exec (.mshp k false mask) s = .next t ∧ OnlyMe s t ∧ BlockAdvanced s t ∧ t.me.msh = v &&& mshMask
        ∧ t.me.lane = s.me.lane ∧ t.me.v = s.me.v)
      ∧ ((s.core core).tileWait.any (fun e => e.1 == s.cur % 8) = false → tilesBusy s s.cur (mine &&& ~~~mask) = false →
        tilesLeave s s.cur mask = false →
        (tilesFree s s.cur mask = true → ∃ t, exec (.mshp k true mask) s = .next t ∧ BlockAdvanced s t
          ∧ t.me.msh = v &&& mshMask ∧ heldTiles t s.cur = mask ∧ (∀ h, h ≠ s.cur → heldTiles t h = heldTiles s h)
          ∧ (∀ a, t.byte a = s.byte a) ∧ ∀ i : Fin 8, (t.core core).tiles.get i =
              if mask.getLsbD i.val ∧ ¬mine.getLsbD i.val then Tile.zero else (s.core core).tiles.get i)
        ∧ (tilesFree s s.cur mask = false → tilesBusy s s.cur mine = false →
            ∃ t, exec (.mshp k true mask) s = .next t ∧ heldTiles t s.cur = 0 ∧ t.me.block? = s.me.block?
              ∧ (t.core core).tileWait = (s.core core).tileWait ++ [(s.cur % 8, mask)])))
    ∧ (shapeOk v = false → exec (.mshp k false mask) s = .next (s.trapV 0x03 0 0))
    ∧ (holdsTile s tl = true → tilesBusy s s.cur bit = false →
        (∃ t, exec (.mtrel tl) s = .next t ∧ BlockAdvanced s t ∧ heldTiles t s.cur = mine &&& ~~~bit ∧ t.me.v = s.me.v
          ∧ (∀ a, t.byte a = s.byte a)))
    ∧ (holdsTile s tl = true → (s.sp k).toNat % 8 = 0 → queueFree s s.cur = true → ∀ loc : Int → Nat,
        (∀ a ∈ imageAddrs (s.sp k), vAccessMe s .store a 8 = .ok (loc a) ∧ vBlocked s true (loc a) 8 = false) →
        let els := (imageAddrs (s.sp k)).map fun a => (a.toNat, loc a)
        (∃ t, exec (.mtrelS tl k) s = .next t ∧ Enqueued s t tl (pagesHeld s (pagesOf els)) (.save (s.sp k) (pagesOf els))
          ∧ holdsTile t tl = false)
        ∧ (OnePlace els → ∀ e ∈ els, e.2 ≠ lateLoc → heldLoc (pagesOf els) e.1 = e.2))
    ∧ ((s.sp k).toNat % 8 ≠ 0 → exec (.mtrelS tl k) s = .next (s.trapV 0x05 0 (s.sp k)))
    ∧ (holdsTile s tl = false → exec (.mtrel tl) s = .next (s.trapV 0x03 0 0)
        ∧ ((s.sp k).toNat % 8 = 0 → exec (.mtrelS tl k) s = .next (s.trapV 0x03 0 0)))

/-- The elements of a tile load can be translated and read now: row r of the rows loaded, column c. -/
def Sys2Proof.Machine.CanLoadTile (s : State) (base stride : Word) (rows : List Nat) (loc : Nat → Nat → Nat) : Prop :=
  ∀ r ∈ rows, ∀ c, c < mshN s.me.msh →
    idxCheck s s.cur s.vUser .load ((base.toNat : Int) + r * stride.toInt + c * mshZ s.me.msh) (mshZ s.me.msh) = .ok (loc r c)
    ∧ vBlocked s false (loc r c) (mshZ s.me.msh) = false

/-- The rows or columns whose mask bit is 1, where masked. -/
def Sys2Proof.Machine.rowsOn (s : State) (pm : PReg) (n : Nat) : Option (List Nat) :=
  if pm = 0 then none else some ((List.range n).filter fun j => ((s.pbits pm n)[j]?).getD false)

/-- The matrix V-words put their commands into the queue: loads with the pages of their elements, which give every element the
location it translated to, row products with the values of a register source, or with the elements they reserve of a bobbin
(spec/13, R231 to R237, R243; assumption log, 46). -/
def Sys2Proof.Claims.MatrixCommands : Prop :=
  ∀ (tl : TReg3) (bs xs : SP) (vd va vb : VReg5) (b c : BReg4) (pm : PReg) (s : State), holdsTile s tl = true →
    queueFree s s.cur = true →
    let m := s.me.msh
    let ix := (velems (s.vreg vb) .w8 (mshP m)).map fun x => x.setWidth 8
    let soon := tileSoon s s.cur tl
    ((mshBf m).isSome = true → ∀ loc,
      let els (z : Bool) : List (Nat × Nat) := (loadRows m (rowsOn s pm 256) z).flatMap fun (r : Nat) =>
        (List.range (mshN m)).map fun (c : Nat) => ((((s.sp bs).toNat : Int) + r * (s.sp xs).toInt + c * mshZ m).toNat, loc r c)
      let queued (t : State) (ix : Option (List (BitVec 8))) : Prop :=
        let pages := pagesOf (els ix.isSome)
        Enqueued s t tl (pagesHeld s pages) (.load (s.sp bs) (s.sp xs) (rowsOn s pm 256) ix pages)
      (CanLoadTile s (s.sp bs) (s.sp xs) (loadRows m (rowsOn s pm 256) false) loc →
        ∃ t, exec (.mtld tl bs xs pm) s = .next t ∧ queued t none)
      ∧ (compactOk m = true → indicesOk m ix = true →
          CanLoadTile s (s.sp bs) (s.sp xs) (loadRows m (rowsOn s pm 256) true) loc →
          ∃ t, exec (.mtldz tl vb bs xs pm) s = .next t ∧ queued t (some ix))
      ∧ ∀ z, OnePlace (els z) → ∀ e ∈ els z, e.2 ≠ lateLoc → heldLoc (pagesOf (els z)) e.1 = e.2)
    ∧ (∀ (ws : List Word) (x : Tile), (s.sp bs).toNat % 8 = 0 → ReadsAs s 8 (unitAddrs (s.sp bs).toNat 8 49186) ws →
        (∀ i, i < 49186 → ∃ l, idxCheck s s.cur s.vUser .load ((s.sp bs).toNat + (8 * i : Nat)) 8 = .ok l) →
        tileOf (ws.take 2) (ws.drop 2) = some x →
        ∃ t, exec (.mtldI tl bs) s = .next t ∧ Enqueued s t tl [] (.restore x))
    ∧ ∀ f, mshAf m = some f →
        let w := fmtWidth f
        let vals (n : Nat) : MSrc := .vals (velems (s.vreg va) w n)
        let x := s.bob s.cur b
        let resv (n : Nat) : MSrc := .bob ⟨b.toNat, x.reserved, n⟩
        let has (n : Nat) : Prop := x.kind = .stream ∧ x.ew = w ∧ n ≤ x.cap ∧ x.reserved + n ≤ x.issued
        let took (t : State) (n : Nat) : Prop := (t.bob s.cur b).reserved = x.reserved + n
        let off (a : VOrB) : Nat := match a with
          | .vec _ => 0
          | .bob d => if d = c then mshKl m else 0
        (soon.1 = false →
          (∃ t, exec (.mma vd (.vec va) tl pm) s = .next t
            ∧ Enqueued s t tl [] (.mul vd (vals (mshK m)) (rowsOn s pm (mshK m)) false none))
          ∧ (has (mshK m) → ∃ t, exec (.mma vd (.bob b) tl pm) s = .next t ∧ took t (mshK m)
            ∧ Enqueued s t tl [] (.mul vd (resv (mshK m)) (rowsOn s pm (mshK m)) false none)))
        ∧ (compactOk m = true → soon.1 = true → soon.2.extractLsb' 32 13 = m.extractLsb' 32 13 →
          let y := s.bob s.cur c
          ∀ p ∈ [((.vec va : VOrB), vals (mshKl m), mshKl m ≤ vlmax s s.cur w), (.bob b, resv (mshKl m), has (mshKl m))],
          ∀ q ∈ [((none : Option VOrB), (none : Option MSrc), True),
            (some (.vec vb), some (.vals (velems (s.vreg vb) .w8 (mshP m))), indicesOk m ix = true),
            (some (.bob c), some (.bob ⟨c.toNat, y.reserved + off p.1, mshP m⟩), y.kind = .stream ∧ y.ew = .w8 ∧ mshP m ≤ y.cap
              ∧ y.reserved + off p.1 + mshP m ≤ y.issued)],
          p.2.2 → q.2.2 → ∃ t, exec (.mmaz vd p.1 tl q.1 pm) s = .next t
            ∧ Enqueued s t tl [] (.mul vd p.2.1 (rowsOn s pm (mshKl m)) true q.2.1))

/-- The engine: a command whose turn has come issues once the bobbin elements it reserved are there, or traps at one that it
reads and that is poisoned, or at indices that fail their checks; a load that is done leaves each row and column its element
and makes the tile dense or compacted with the shape it was given, or traps at the first element that is poisoned; a restored
tile is the image's; a save stores the tile's image and gives the tile up; a row product adds, to each of the first N
accumulators, the exact sum over what it uses, reduced, and is NaR where the accumulator or anything it uses is: of a dense
tile the rows below K, of a compacted one each physical row with the logical element that its index names, both under the
mask; its source is a register's values or the elements it reserved of a bobbin (spec/13, R225, R228, R231 to R239, R241,
R243; spec/25, R367). -/
def Obligations.MatrixEngine : Prop :=
  ∀ (s : State) (core : Nat) (m : MCmd) (rest : List MCmd), (s.core core).mq = m :: rest → m.tile < 8 →
    let tl := (BitVec.ofNat 3 m.tile).toFin
    (m.issued = false → (∀ r ∈ m.resvs, r.first + r.len ≤ (resvBob s m.hart r).arrived) → s.withheld = false →
      s.halted = false →
      (cmdPoisoned s m = false → cmdIndices s m ≠ none →
        ∃ t, exec (.matrixIssue core 0) s = .next t ∧ t = { s with cores := t.cores }
          ∧ (t.core core).mq = { m with issued := true } :: rest ∧ (t.core core).tiles = (s.core core).tiles)
      ∧ (cmdPoisoned s m = true → exec (.matrixIssue core 0) s = .next (cmdTrap s core 0 m 0x10 0))
      ∧ (cmdPoisoned s m = false → cmdIndices s m = none → (s.hart m.hart).holdsEngine m.user = false →
          exec (.matrixIssue core 0) s = .next (cmdTrap s core 0 m 0x03 0)))
    ∧ (m.issued = true →
      (∀ x, m.work = .restore x → ∃ t, exec (.matrixComplete core 0) s = .next t ∧ t = { s with cores := t.cores }
        ∧ (t.core core).mq = rest ∧ (t.core core).tiles.get tl = x)
      ∧ (∀ base pages, m.work = .save base pages →
          (∀ a ∈ imageAddrs base, withdrawnAt s m.hart (wordOf a) 8 = none) → m.hart < 1536 →
          ∃ t, exec (.matrixComplete core 0) s = .next t ∧ (∀ a, t.byte a = s.byte a)
            ∧ heldTiles t m.hart = heldTiles s m.hart &&& ~~~((1 : BitVec 8) <<< m.tile) ∧ (t.hart m.hart).v = (s.hart m.hart).v
            ∧ StoredBy m.hart s t ((unitsOf (base.toNat : Int) 8 (tileImage ((s.core core).tiles.get tl))).map fun e =>
                (heldLoc pages e.1.toNat, e.2.2)))
      ∧ (∀ base stride rows ix pages, m.work = .load base stride rows ix pages →
        let z := mshZ m.msh
        let rs := loadRows m.msh rows ix.isSome
        let at' (r c : Nat) : Nat := heldLoc pages ((base.toNat : Int) + r * stride.toInt + c * z).toNat
        let clean (r c : Nat) : Prop := s.poisonedFor m.hart true (at' r c) z = false
        (∀ (i r c : Nat), rs[i]? = some r → c < mshN m.msh → ¬clean r c →
          (∀ (j q d : Nat), rs[j]? = some q → d < mshN m.msh → (j < i ∨ j = i ∧ d < c) → clean q d) →
          exec (.matrixComplete core 0) s
            = .next (cmdTrap s core 0 m 0x10 (BitVec.ofInt 64 ((base.toNat : Int) + r * stride.toInt + (c * z : Nat)))))
        ∧ ((∀ r ∈ rs, ∀ c, c < mshN m.msh → clean r c) →
        ∃ t, exec (.matrixComplete core 0) s = .next t ∧ t = { s with cores := t.cores } ∧ (t.core core).mq = rest
          ∧ ((t.core core).tiles.get tl).compacted = ix.isSome ∧ ((t.core core).tiles.get tl).shp = m.msh
          ∧ ((t.core core).tiles.get tl).idx = ix.getD []
          ∧ ∀ r c, r < 256 → c < 256 → mapGet 0 ((t.core core).tiles.get tl).ents (256 * r + c) =
              if r ∈ rs ∧ c < mshN m.msh then
                loadEntry ((mshBf m.msh).getD .int8) (BitVec.ofNat 64 (leNat (s.view m.hart true (at' r c) z)))
              else 0))
      ∧ ∀ vd src mask compacted ix f, m.work = .mul vd src mask compacted ix → pushDone s m.hart m.num m.mark = true →
        mshAf m.msh = some f →
        let tile := (s.core core).tiles.get tl
        let old (c : Nat) : Word := ((velems ((s.hart m.hart).v.get vd.toFin) .w64 256)[c]?).getD 0
        let a (j : Nat) : Word := ((src.read s m.hart)[j]?).getD 0
        let b (r c : Nat) : Word := entryWord (mapGet 0 tile.ents (256 * r + c))
        let rows : List (Nat × Nat) :=
          if compacted then (List.range (mshP m.msh)).map fun p => (p, 32 * (p / mshKz m.msh) + (((cmdIndices s m).getD [])[p]?).getD 0)
          else (List.range (mshK m.msh)).map fun r => (r, r)
        let used := rows.filter fun e => (mask.map fun l => l.contains e.2).getD true
        ∃ t, exec (.matrixComplete core 0) s = .next t ∧ (t.core core).mq = rest ∧ (∀ a, t.byte a = s.byte a)
          ∧ (∀ v : VReg5, v ≠ vd → (t.hart m.hart).v.get v.toFin = (s.hart m.hart).v.get v.toFin)
          ∧ ((t.hart m.hart).v.get vd.toFin).wt = .w64 ∧ ((t.hart m.hart).v.get vd.toFin).levels = []
          ∧ ((t.hart m.hart).v.get vd.toFin).elems.length = 256
          ∧ ∀ c, c < 256 → ((t.hart m.hart).v.get vd.toFin).elems[c]? = some
              (if mshN m.msh ≤ c then old c
               else if isNar .ra48 (old c).toNat = true ∨ ∃ e ∈ used, isNar f (a e.2).toNat = true ∨ isNar .ra48 (b e.1 c).toNat = true
                 then narPat .ra48
               else resEnc .ra48 (crt .ra48 (old c).toNat + (used.map fun e => intOf f (a e.2) * crt .ra48 (b e.1 c).toNat).sum)))

/-! ### Bobbins -/

/-- A bobbin V-word completes and changes one bobbin, with its dirty bit. -/
def Sys2Proof.Machine.BDone (s t : State) (b : BReg4) (x : Bobbin) : Prop :=
  OnlyMe s t ∧ BlockAdvanced s t ∧ t.me.v = s.me.v ∧ t.me.p = s.me.p ∧ t.me.flags = s.me.flags ∧ t.bob s.cur b = x
    ∧ (∀ c, c ≠ b → t.bob s.cur c = s.bob s.cur c) ∧ t.me.fdirty.getLsbD (12 + b.toNat) = true

/-- bopen of a closed bobbin by a valid open word; bclose of one that is idle and that no queued matrix command has reserved,
and its wait otherwise; bwait; bstat's eight elements;
bpost (spec/14, R245, R247, R254, R255). -/
def Sys2Proof.Claims.BobbinsOpenAndClose : Prop :=
  ∀ (b : BReg4) (xs bs : SP) (vd : VReg5) (scope : Scope) (s : State),
    let x := s.bob s.cur b
    (∀ y, openOf s (s.sp xs) = some y → x.kind = .closed →
      y.issued = 0 ∧ y.arrived = 0 ∧ y.reserved = 0 ∧ y.freed = 0 ∧ y.queue = [] ∧ y.nb = 0
      ∧ (y.kind = .stream → ∃ t, exec (.bopen b xs bs) s = .next t ∧ BDone s t b y)
      ∧ (y.kind = .transfer → (s.sp bs).toNat % widthBytes y.ew = 0 →
          ∃ t, exec (.bopen b xs bs) s = .next t ∧ BDone s t b { y with dst := s.sp bs })
      ∧ (y.kind = .transfer → (s.sp bs).toNat % widthBytes y.ew ≠ 0 →
          exec (.bopen b xs bs) s = .next (s.trapV 0x05 0 (s.sp bs))))
    ∧ ((openOf s (s.sp xs) = none ∨ x.kind ≠ .closed) → exec (.bopen b xs bs) s = .next (s.trapV 0x03 0 0))
    ∧ (x.kind = .closed → exec (.bclose b) s = .next (s.trapV 0x03 0 0)
        ∧ exec (.bwait b) s = .next (s.trapV 0x03 0 0)
        ∧ VEnds s (exec (.bstat vd b) s) vd .w64 [] fun es => es = List.replicate 8 0)
    ∧ (x.kind ≠ .closed →
      ((x.queue = [] ∨ x.flt = true) → queuedResvs s s.cur b.toNat = [] →
        ∃ t, exec (.bclose b) s = .next t ∧ BDone s t b Bobbin.closed)
      ∧ ((x.queue ≠ [] ∧ x.flt = false ∨ queuedResvs s s.cur b.toNat ≠ []) → Waits s (exec (.bclose b) s))
      ∧ (x.queue = [] → x.flt = false → ∃ t, exec (.bwait b) s = .next t ∧ OnlyMe s t ∧ BlockAdvanced s t ∧ t.me.v = s.me.v
          ∧ t.me.b = s.me.b ∧ t.me.flags = s.me.flags)
      ∧ ((x.queue ≠ [] ∨ x.flt = true) → Waits s (exec (.bwait b) s))
      ∧ VEnds s (exec (.bstat vd b) s) vd .w64 [] (fun es => es =
          [BitVec.ofNat 64 (x.ew.code.toNat * 64 + x.queue.length * 8 + (if x.flt then 4 else 0)
              + (if x.kind = .stream then 1 else 2)), BitVec.ofNat 64 (x.arrived - x.reserved),
           BitVec.ofNat 64 (startOf s.me.kc x), BitVec.ofNat 64 x.arrived, BitVec.ofNat 64 x.reserved,
           BitVec.ofNat 64 x.freed, BitVec.ofNat 64 x.issued, BitVec.ofNat 64 x.nb])
      ∧ ((s.sp bs).toNat % 8 = 0 → x.queue.length < 4 → ∃ t p, exec (.bpost b bs scope) s = .next t
          ∧ BDone s t b { x with queue := x.queue ++ [.post p] } ∧ p.addr = s.sp bs ∧ p.scope = scope ∧ p.user = s.vUser
          ∧ p.num = s.me.nextNum))

/-- The copy that bcopy issues. -/
def Sys2Proof.Machine.Issued (s : State) (o : Out) (b : BReg4) (form : BitVec 2) (base stride : Word) (len z : Nat)
    (mask : Option (List Nat)) (rcd idx : List Word) (cv : Option Word) : Prop :=
  let x := s.bob s.cur b
  ∃ t c, o = .next t ∧ (if form = 3 then OnlyMeAndRoutes s t else OnlyMe s t) ∧ BlockAdvanced s t ∧ t.me.v = s.me.v ∧ t.me.p = s.me.p ∧ t.me.flags = s.me.flags
    ∧ (t.bob s.cur b).queue = x.queue ++ [.copy c] ∧ (t.bob s.cur b).issued = x.issued + len
    ∧ (t.bob s.cur b).arrived = x.arrived ∧ (t.bob s.cur b).reserved = x.reserved
    ∧ (t.bob s.cur b).dst = (if x.kind = .transfer then x.dst + BitVec.ofNat 64 (len * widthBytes x.ew) else x.dst)
    ∧ c.form = form ∧ c.base = base ∧ c.stride = stride ∧ c.len = len ∧ c.z = z ∧ c.mask = mask ∧ c.rcd = rcd ∧ c.idx = idx
    ∧ c.cv = cv ∧ c.next = 0 ∧ c.first = (x.issued : Int) ∧ c.dst = x.dst ∧ c.user = s.vUser ∧ c.ord = s.me.nextNum
    ∧ t.me.nextNum = s.me.nextNum + 1

/-- bcopy of each source form issues a copy that holds what it read at dispatch, converts where it is told to, and advances I
and dst; no element below c.vs is active. Of an indexed one, no address that its checks reject issues it (spec/01, R17;
spec/14, R248, R249, R253; spec/18, R278). -/
def Obligations.CopiesIssue : Prop :=
  ∀ (b : BReg4) (bs xs : SP) (va : VReg5) (cv : Option SP) (pm : PReg) (s : State),
    let x := s.bob s.cur b
    let w := cv.map s.sp
    let fw := fwOf (w.getD 0)
    let z := if cv.isSome then widthBytes (fmtWidth fw.fa) else widthBytes x.ew
    let mask (n : Nat) : Option (List Nat) := if pm = 0 ∧ s.me.vs = 0 then none
      else some ((List.range n).filter fun j => decide (s.me.vs.toNat ≤ j) && ((s.pbits pm n)[j]?).getD false)
    x.kind ≠ .closed → x.queue.length < 4 →
    (cv ≠ none → fw.a ≠ none ∧ fw.rm ≠ none ∧ fw.d.map fmtWidth = some x.ew) →
    (s.vl ≤ vlmax s s.cur x.ew → s.vl * z * 8 ≤ s.me.gang * held s s.cur * 16384 →
      Issued s (exec (.bcopy b (.contig bs) cv pm) s) b 0 (s.sp bs) 0 s.vl z (mask s.vl) [] [] w
      ∧ Issued s (exec (.bcopy b (.strided bs xs) cv pm) s) b 1 (s.sp bs) (s.sp xs) s.vl z (mask s.vl) [] [] w
      ∧ (indexedPending s.me = false →
          (∀ j a, j < s.vl → idxAt s va pm none bs z j = .at a → j ∉ s.me.kc →
            (∀ e, idxCheck s s.cur s.vUser .load a z ≠ .bad e) ∧ (x.kind = .transfer → ∀ e,
              idxCheck s s.cur s.vUser .store (x.dst.toNat + (j : Int) * widthBytes x.ew) (widthBytes x.ew) ≠ .bad e)) →
          ∃ mk, Issued s (exec (.bcopy b (.indexed bs va) cv pm) s) b 3 (s.sp bs) 0 s.vl z mk []
              (velems (s.vreg va) (s.vreg va).wt s.vl) w
            ∧ (∀ l, mk = some l → l = (List.range s.vl).filter fun j => idxAt s va pm none bs z j != .skip)
            ∧ (mk = none → ∀ j, j < s.vl → idxAt s va pm none bs z j ≠ .skip)))
    ∧ ∀ r, shapeOf (recordOf s va) = some r → r.count ≤ vlmax s s.cur x.ew →
        r.count * widthBytes (fmtWidth r.fmt) * 8 ≤ s.me.gang * held s s.cur * 16384 → (cv = none → fmtWidth r.fmt = x.ew) → (cv ≠ none → fw.a = some r.fmt) →
        Issued s (exec (.bcopy b (.tensor va) cv pm) s) b 2 0 0 r.count (widthBytes (fmtWidth r.fmt)) (mask r.count)
          (recordOf s va) [] w

/-- The copy engine: an element that may move goes to its place in the stream buffer, or to its destination, converted, and
its flags are raised; the last one ends its copy. An indexed transfer marks what it moves in kc. An element that fails a check
stops the bobbin and traps with src 2; missing pages of an indexed copy go into the gather fault record first. A post adds the
bytes moved since the last one (spec/02, R39; spec/14, R244, R248, R252 to R254; spec/17, R269; spec/21, R325; assumption log,
59). -/
def Obligations.CopyEngine : Prop :=
  (∀ (s : State) (h : Nat) (b : BReg4) (c : Copy) (rest : List BEntry) (e : Ends),
      let x := s.bob h b
      x.queue = .copy c :: rest → x.flt = false → c.form ≠ 3 → c.next < c.len → hasRoom x c c.next = true →
      copyEnds s h x c c.next = .ok e → endsClear s h x c c.next e = true → 0 ≤ c.first →
      let z := widthBytes x.ew
      let val := if c.active c.next then copyVal s h c e.src else (0, 0)
      ∃ t, exec (.copyElementDelivery h b 1) s = .next t
        ∧ (t.bob h b).arrived = c.first.toNat + c.next + 1
        ∧ (if c.next + 1 < c.len then (t.bob h b).queue = .copy { c with next := c.next + 1 } :: rest ∧ (t.bob h b).nb = x.nb
           else (t.bob h b).queue = rest ∧ (t.bob h b).nb = x.nb + c.len * c.z)
        ∧ (t.hart h).v = (s.hart h).v
        ∧ (x.kind = .stream → t.bytes (slotLoc h x (c.first.toNat + c.next)) z = toLe z val.1.toNat
            ∧ (∀ a, (a < slotLoc h x (c.first.toNat + c.next) ∨ slotLoc h x (c.first.toNat + c.next) + z ≤ a) →
                t.byte a = s.byte a)
            ∧ (t.hart h).flags = (s.hart h).flags ||| val.2)
        ∧ (x.kind ≠ .stream → e.dst = none → ∀ a, t.byte a = s.byte a)
        ∧ ∀ loc, x.kind ≠ .stream → e.dst = some loc → withdrawnAt s h (wordOf (c.destAt x c.next)) z = none →
            t.bytes loc z = toLe z val.1.toNat ∧ (∀ a, (a < loc ∨ loc + z ≤ a) → t.byte a = s.byte a)
              ∧ (t.hart h).flags = (s.hart h).flags ||| val.2)
  ∧ (∀ (s : State) (h : Nat) (b : BReg4) (c : Copy) (rest : List BEntry) (e : Ends) (i loc : Nat) (l : List Nat),
      let x := s.bob h b
      let z := widthBytes x.ew
      x.queue = .copy c :: rest → x.flt = false → c.form = 3 → x.kind = .transfer → c.rest (s.hart h).kc = i :: l → l ≠ [] →
      indexedErr s h x c = none → bothOf x (indexedChk s h x c i) = some e → endsClear s h x c i e = true → e.dst = some loc →
      withdrawnAt s h (wordOf (c.destAt x i)) z = none →
      ∃ t, exec (.copyElementDelivery h b 1) s = .next t ∧ t.bytes loc z = toLe z (copyVal s h c e.src).1.toNat
        ∧ (∀ a, (a < loc ∨ loc + z ≤ a) → t.byte a = s.byte a) ∧ (∀ j, j ∈ (t.hart h).kc ↔ j = i ∨ j ∈ (s.hart h).kc)
        ∧ (t.bob h b).nb = x.nb ∧ (t.hart h).v = (s.hart h).v)
  ∧ (∀ (s : State) (h : Nat) (b : BReg4) (c : Copy) (rest : List BEntry),
      let x := s.bob h b
      let stops (s : State) (code : BitVec 6) (sub : BitVec 8) (tval : Word) : Out :=
        .next (engineTrap (s.updBob h b fun y => { y with flt := true }) h 2 code sub tval c.blk c.seq)
      x.queue = .copy c :: rest → x.flt = false → lowerFault s h b = false → (s.hart h).holdsEngine c.user = false →
      (∀ e : VErr, c.form ≠ 3 → c.next < c.len → hasRoom x c c.next = true → copyEnds s h x c c.next = .error e →
        exec (.copyFault h b) s = stops s e.code 0 e.tval)
      ∧ (∀ e : VErr, c.form = 3 → indexedErr s h x c = some e → exec (.copyFault h b) s = stops s e.code e.sub e.tval)
      ∧ ∀ (wr : Bool) (m : Nat × Nat) (ms : List (Nat × Nat)), c.form = 3 → indexedErr s h x c = none →
          indexedMiss s h x c = (wr, m :: ms) →
          exec (.copyFault h b) s = stops (writeRecord s h c.len wr (unionNat [] ((m :: ms).map (·.1))) ((m :: ms).map (·.2)))
            (if wr then 0x07 else 0x06) 1 (BitVec.ofNat 64 (ms.foldl (fun p y => min p y.2) m.2)))
  ∧ ∀ (s : State) (h : Nat) (b : BReg4) (p : Post) (rest : List BEntry) (loc : Nat),
      let x := s.bob h b
      x.queue = .post p :: rest → x.flt = false → vAccess s h p.user .atomic p.addr.toNat 8 = .ok loc →
      pushDone s h p.num p.mark = true → (s.pkts h).all (fun q => !q.touches loc 8) = true →
      (s.sendNow h loc).isSome = true →
      ∃ t, exec (.postPerformed h b) s = .next t ∧ (t.bob h b).queue = rest ∧ (t.bob h b).nb = 0
        ∧ t.bytes loc 8 = toLe 8 (leNat (s.bytes loc 8) + x.nb)
        ∧ (∀ a, (a < loc ∨ loc + 8 ≤ a) → t.byte a = s.byte a) ∧ (t.hart h).v = (s.hart h).v

/-- bclose.s in K mode stores the bobbin's image and closes it, an indexed copy at its head stopped at an element boundary; a
poisoned element of a stream that it would save traps with 0x10 and leaves all as it was; bopen.r of the image of a bobbin
without queued entries opens it again with its counters relative to H and, of a stream, its unread elements; in U mode both
are privileged. The order numbers of the queued entries, for which the image has no field, stay noted with the hart until
then, which is the choice of assumption log, 57 (spec/14, R257; spec/15, R267; spec/25, R367). -/
def Sys2Proof.Claims.BobbinImages : Prop :=
  ∀ (b : BReg4) (bs : SP) (s : State),
    (s.me.kq = none → exec (.bcloseS b bs) s = .next (s.trapV 0x04 0 (instrWord (.bcloseS b bs)))
      ∧ exec (.bopenR b bs) s = .next (s.trapV 0x04 0 (instrWord (.bopenR b bs))))
    ∧ (s.me.kq ≠ none → (s.sp bs).toNat % 8 = 0 →
    let base : Int := (s.sp bs).toNat
    let x := s.bob s.cur b
    (x.kind ≠ .closed → ∀ loc : Int → Nat,
      let u := stopHead s s.cur b
      let l := unitsOf base 8 (bobImage u u.cur (u.bob u.cur b))
      let y := u.bob u.cur b
      let bad := y.kind = .stream ∧ streamPoisoned u u.cur y y.freed (y.arrived - y.freed) = true
      (bad → exec (.bcloseS b bs) s = .next (s.trapV 0x10 0 0))
      ∧ (¬bad → CanStoreUnits u l loc →
        ∃ t, exec (.bcloseS b bs) s = .next t ∧ BDone u t b Bobbin.closed ∧ Stored u t (unitsAt loc l)
          ∧ mapGet [] t.me.savedB b.toNat = y.queue.map BEntry.order))
    ∧ (x.kind = .closed → ∀ (ws es : List Word) (y : Bobbin), ReadsAs s 8 (unitAddrs base 8 8) ws →
      openOf s ((ws[0]?).getD 0) = some y →
      let w (i : Nat) : Word := (ws[i]?).getD 0
      let d := (w 3).toNat
      let z := widthBytes y.ew
      (w 1).toNat = kindCode y.kind → w 7 = 0 → d ≤ (w 5).toNat → (w 4).toNat ≤ (w 5).toNat →
      (y.kind = .stream → d ≤ y.cap ∧ ReadsAs s 8 (unitAddrs (base + 64) 8 ((d * z + 7) / 8)) es
        ∧ (s.pkts s.cur).all (fun p => !p.touches (slotLoc s.cur y 0) (d * z)) = true) →
      (y.kind = .transfer → (w 2).toNat % z = 0) →
      ∃ t, exec (.bopenR b bs) s = .next t ∧ BlockAdvanced s t ∧ t.me.v = s.me.v
        ∧ t.bob s.cur b = { y with dst := w 2, arrived := d, reserved := (w 4).toNat, issued := (w 5).toNat,
                                   nb := (w 6).toNat, gates := [⟨0, s.me.nextNum, s.me.nextNum⟩] }
        ∧ mapGet [] t.me.savedB b.toNat = []
        ∧ (y.kind = .transfer → ∀ a, t.byte a = s.byte a)
        ∧ (y.kind = .stream → streamElems t s.cur y 0 d = chunks z d (es.flatMap fun x => toLe 8 x.toNat))))

/-! ### Rings, routes, summaries -/

/-- qput by a producing role of an open ring with room moves the register to the tail and leaves it empty; qget by the
consuming role takes the head, or an empty register once the ring is closed and empty; qeos posts the role's token; a ring
that the role may not use is a ring protocol error, and outside a trio an illegal operand (spec/02, R27; spec/12, R219,
R220). -/
def Sys2Proof.Claims.TrioRings : Prop :=
  ∀ (q : QReg2) (va : VReg5) (pq : Bool) (s : State),
    (trioOf s s.cur = none → exec (.qput q va) s = .next (s.trapV 0x03 0 0)
      ∧ exec (.qget va q pq) s = .next (s.trapV 0x03 0 0) ∧ exec (.qeos q) s = .next (s.trapV 0x03 0 0))
    ∧ ∀ (tr : Trio) (r : Nat), trioOf s s.cur = some (tr, r) →
      let g := tr.rings.get q.toFin
      let cap := capOf tr.word q.toNat
      let mine := (ringPmask tr.word q.toNat).getLsbD r = true ∧ r ∉ g.tokens
      let after (t : State) (g' : Ring) : Prop := ∃ tr', trioOf t s.cur = some (tr', r) ∧ tr'.word = tr.word
        ∧ tr'.rings = tr.rings.set q.toNat g' q.isLt
      (cap ≠ 0 → mine →
        (g.regs.length < cap → ∃ t, exec (.qput q va) s = .next t ∧ BlockAdvanced s t ∧ KeepsV s t [va]
          ∧ t.vreg va = VReg.empty ∧ after t { g with regs := g.regs ++ [s.vreg va] } ∧ ∀ a, t.byte a = s.byte a)
        ∧ (cap ≤ g.regs.length → Waits s (exec (.qput q va) s))
        ∧ ∃ t, exec (.qeos q) s = .next t ∧ BlockAdvanced s t ∧ t.me.v = s.me.v
            ∧ after t { g with tokens := insertNat r g.tokens })
      ∧ (cap ≠ 0 → consOf tr.word q.toNat = r → (pq = true → s.me.rq.length < 8) →
        (∀ v rest, g.regs = v :: rest → ∃ t, exec (.qget va q pq) s = .next t ∧ BlockAdvanced s t ∧ KeepsV s t [va]
          ∧ t.vreg va = v ∧ after t { g with regs := rest } ∧ t.me.rq = s.me.rq ++ if pq then [1] else [])
        ∧ (g.regs = [] → ringClosed tr.word q.toNat g = true → ∃ t, exec (.qget va q pq) s = .next t ∧ BlockAdvanced s t
          ∧ KeepsV s t [va] ∧ t.vreg va = VReg.empty ∧ t.me.rq = s.me.rq ++ if pq then [0] else [])
        ∧ (g.regs = [] → ringClosed tr.word q.toNat g = false → Waits s (exec (.qget va q pq) s)))
      ∧ ((cap = 0 ∨ ¬mine) → exec (.qput q va) s = .next (s.trapV 0x12 (q.setWidth 8) 0)
          ∧ exec (.qeos q) s = .next (s.trapV 0x12 (q.setWidth 8) 0))
      ∧ ((cap = 0 ∨ consOf tr.word q.toNat ≠ r) → exec (.qget va q pq) s = .next (s.trapV 0x12 (q.setWidth 8) 0))

/-- xroute sets the route mode of its block and changes no register; tsum folds the active elements of a register into the
summary of its task's output: bit 0 stays while all are zero, bit 1 while all are ones, bit 2 comes with a NaN or NaR, bit 3
stays while none is zero, bit 4 says that there was one (spec/18, R277, R278; spec/19, R294, R307). -/
def Sys2Proof.Claims.RoutesAndSummaries : Prop :=
  ∀ (n : BitVec 3) (j : Bool) (va : VReg5) (pm : PReg) (fs : SP) (s : State),
    let ends (o : Out) (m : XRoute) : Prop := ∃ t, o = .next t ∧ OnlyMe s t ∧ t.me.vs = 0
      ∧ t.me = { s.me with vs := 0, resv := t.me.resv, vq := t.me.vq, kq := t.me.kq }
      ∧ t.me.block? = s.me.block?.map fun b => { b.next with xr := m }
    ends (exec (.xrouteOff n) s) .off ∧ ends (exec (.xrouteUse n) s) (.use n) ∧ ends (exec (.xrouteSave n) s) (.save n)
    ∧ ∀ (f : Fmt) (i : Nat) (k : Task) (o : TaskOut) (hd : Nat), (s.fw fs).a = some f → s.vl ≤ vlmax s s.cur (fmtWidth f) →
        s.me.task = some i → taskOf s (clusterOf s.cur) i = some k → k.outs[if j then 1 else 0]? = some o →
        o.handle = some hd →
        let act := (List.range s.vl).filter fun e => activeAt s pm e
        let val (e : Nat) : Word := elemOf (s.vreg va) (fmtWidth f) s.vl e
        ∃ t k' o', exec (.tsum j va pm fs) s = .next t ∧ BlockAdvanced s t ∧ t.me.v = s.me.v ∧ t.me.flags = s.me.flags
          ∧ (∀ a, t.byte a = s.byte a) ∧ taskOf t (clusterOf s.cur) i = some k' ∧ k'.outs[if j then 1 else 0]? = some o'
          ∧ o' = { o with sum := o'.sum }
          ∧ (o'.sum.getLsbD 0 = true ↔ o.sum.getLsbD 0 = true ∧ ∀ e ∈ act, (readVal f (val e)).isZero = true)
          ∧ (o'.sum.getLsbD 1 = true ↔ o.sum.getLsbD 1 = true ∧ ∀ e ∈ act, (val e).toNat = 2 ^ fmtBits f - 1)
          ∧ (o'.sum.getLsbD 2 = true ↔ o.sum.getLsbD 2 = true ∨ ∃ e ∈ act, (readVal f (val e)).isNan = true)
          ∧ (o'.sum.getLsbD 3 = true ↔ o.sum.getLsbD 3 = true ∧ ∀ e ∈ act, (readVal f (val e)).isZero = false)
          ∧ o'.sum.getLsbD 4 = true

/-! ### Location slots and the fabric -/

/-- The entry of a key in a location slot. -/
def Sys2Proof.Machine.entryAt (t : LocTable) (key : Nat) : Option LocEntry := t.ents.find? fun e => decide (e.key.toNat = key)

/-- An element of a remote gather is performed: active from c.vs on, an index that is not all ones, a kc bit of 0 (spec/01,
R17; spec/02, R25; spec/26, R390). -/
def Sys2Proof.Machine.XAct (s : State) (va : VReg5) (pm : PReg) (j : Nat) : Prop :=
  s.me.vs.toNat ≤ j ∧ activeAt s pm j = true ∧ elemOf (s.vreg va) .w64 s.vl j ≠ BitVec.allOnes 64 ∧ j ∉ s.me.kc

/-- What a remote gather into vd has of element j so far: where kc marks it and vd holds the indices, the value taken aside
(spec/26, R390; assumption log, 39). -/
def Sys2Proof.Machine.xKept (s : State) (vd : VReg5) (w : Width) (j : Nat) : Word :=
  let old := elemOf (s.vreg vd) w s.vl j
  if j ∈ s.me.kc then ((s.me.xvals.find? fun v => v.1 == j).map (·.2)).getD old else old

/-- A request of the hart that executes to a chip is outstanding. -/
def Sys2Proof.Machine.Asked (s t : State) (chip : BitVec 12) (seg : Option Nat) : Prop :=
  ∃ q ∈ t.requests, q.hart = s.cur ∧ q.chip = chip ∧ q.seg = seg ∧ q.live = true ∧ q.port = routePort s (dieOf s.cur) chip

/-- A remote gather that completes with these elements. -/
def Sys2Proof.Machine.XGathers (s : State) (o : Out) (vd va : VReg5) (w : Width) (m : VMask) (x : Nat → Word) : Prop :=
  ∃ u, o = .next u ∧ OnlyMe s u ∧ BlockAdvanced s u ∧ KeepsV s u [vd] ∧ u.me.p = s.me.p ∧ u.me.vl = s.me.vl ∧ u.me.kc = []
    ∧ u.me.flags = s.me.flags ∧ u.me.xlists = [] ∧ u.me.xvals = [] ∧ (u.vreg vd).wt = w ∧ (u.vreg vd).levels = [] ∧ (u.vreg vd).elems.length = s.vl
    ∧ (∀ j, j < s.vl → XAct s va m.pm j → (u.vreg vd).elems[j]? = some (x j))
    ∧ ∀ j, j < s.vl → ¬XAct s va m.pm j → (u.vreg vd).elems[j]? =
        some (if j < s.me.vs.toNat ∨ j ∈ s.me.kc ∨ m.zm = false then xKept s vd w j else 0)

/-- xloc writes each active element's chip, or all ones; a remote gather whose elements all lie here completes as an indexed
load does; one with elements elsewhere sends a list to each chip and waits, and completes with what the lists returned;
elements below c.vs and those that kc marks stay. xfwd.t forwards a record for each segment once the hart's earlier stores are
performed, waits for every status, and completes with them. Of both, a key with no entry, and then a chip with no route, traps
before a list or a record leaves; an empty slot is an illegal operand. That a gather into its own index register takes what
returns aside, and the records kept of each xfwd.t, are the choices of assumption log, 39 (spec/01, R17; spec/02, R25;
spec/26, R384, R386, R388 to R392). -/
def Sys2Proof.Claims.RemoteInstructions : Prop :=
  ∀ (vd va vb : VReg5) (w : Width) (slot : BitVec 2) (dep : Dep) (m : VMask) (s : State),
    let fresh : State := if s.me.kc = [] then s.updMe fun x => { x with xvals := [] } else s
    (locSlot s slot = none → exec (.xloc vd va slot m) s = .next (s.trapV 0x03 0 0)
      ∧ exec (.xfwdG vd va w slot m) s = .next (s.trapV 0x03 0 0)
      ∧ exec (.xfwdT vd va vb dep slot) s = .next (s.trapV 0x03 0 0))
    ∧ ∀ t, locSlot s slot = some t →
      (s.vl ≤ vlmax s s.cur .w32 →
        VEnds s (exec (.xloc vd va slot m) s) vd .w32 (keepLevels (s.vreg va).levels s.vl) (Masked s vd .w32 m fun j =>
          ((entryAt t (elemOf (s.vreg va) .w32 s.vl j).toNat).map fun e => e.chip.setWidth 64).getD 0xFFFFFFFF))
      ∧ (s.vl ≤ vlmax s s.cur .w64 → s.vl ≤ vlmax s s.cur w → indexedPending s.me = false →
        let gi (j : Nat) : Word := elemOf (s.vreg va) .w64 s.vl j
        let act := XAct s va m.pm
        let z := widthBytes w
        let ea (e : LocEntry) (j : Nat) : Int := e.gbase.toNat + ((gi j).toNat % 2 ^ t.sh : Nat) * z
        let here (e : LocEntry) (loc : Nat → Nat) (j : Nat) : Prop := e.chip = s.chip
          ∧ idxCheck s s.cur s.vUser .load (ea e j) z = .ok (loc j)
          ∧ vBlocked s false (loc j) z = false ∧ s.poisonedFor s.cur true (loc j) z = false
        (s.me.xlists = [] → ∀ j, j < s.vl → act j → entryAt t ((gi j).toNat / 2 ^ t.sh) = none →
          (∀ i, i < j → act i → entryAt t ((gi i).toNat / 2 ^ t.sh) ≠ none) →
          exec (.xfwdG vd va w slot m) s = .next (fresh.trapVAt (s.me.kc != []) 0x09 0 (gi j)))
        ∧ (s.me.xlists = [] → ∀ (j : Nat) (ent : Nat → LocEntry),
          (∀ i, i < s.vl → act i → entryAt t ((gi i).toNat / 2 ^ t.sh) = some (ent i)) → j < s.vl → act j →
          (ent j).chip ≠ s.chip → routeOpen s s.cur (ent j).chip = false →
          (∀ i, i < j → act i → (ent i).chip = s.chip ∨ routeOpen s s.cur (ent i).chip = true) →
          exec (.xfwdG vd va w slot m) s = .next (fresh.trapVAt (s.me.kc != []) 0x09 1 ((ent j).chip.setWidth 64)))
        ∧ ∀ (ent : Nat → LocEntry), (∀ j, j < s.vl → act j → entryAt t ((gi j).toNat / 2 ^ t.sh) = some (ent j)) →
        (s.me.xlists = [] → ∀ loc : Nat → Nat, (∀ j, j < s.vl → act j → here (ent j) loc j) →
          XGathers s (exec (.xfwdG vd va w slot m) s) vd va w m fun j => vRead s (loc j) z)
        ∧ (s.me.xlists = [] → (∃ j, j < s.vl ∧ act j) →
          (∀ j, j < s.vl → act j → (ent j).chip ≠ s.chip ∧ routeOpen s s.cur (ent j).chip = true) →
          ∃ u, exec (.xfwdG vd va w slot m) s = .next u ∧ (∀ a, u.byte a = s.byte a) ∧ (∀ k, k ≠ s.cur → u.hart k = s.hart k)
            ∧ u.me = { fresh.me with xlists := u.me.xlists }
            ∧ ∀ j, j < s.vl → act j → ∃ l ∈ u.me.xlists, l.chip = (ent j).chip ∧ l.vd = vd ∧ l.w = w ∧ l.reply = none
                ∧ l.early = (vd != va || w == .w64) ∧ Asked s u l.chip none
                ∧ (j, BitVec.ofNat 64 ((gi j).toNat % 2 ^ t.sh)) ∈ l.elems.zip l.offs)
        ∧ (s.me.xlists ≠ [] → (s.me.xlists.any fun l => l.reply.isNone) = false →
          ∀ vals : XList → List Word, (∀ l ∈ s.me.xlists, l.reply = some (.values (vals l) []) ∧ (vals l).length = l.elems.length) →
          (s.me.xlists.flatMap (·.elems)).Nodup → ∀ (x : Nat → Word) (loc : Nat → Nat),
          (∀ j, j < s.vl → act j → (here (ent j) loc j ∧ x j = vRead s (loc j) z)
            ∨ ((ent j).chip ≠ s.chip ∧ ∃ l ∈ s.me.xlists, (j, x j) ∈ l.elems.zip (vals l))) →
          XGathers s (exec (.xfwdG vd va w slot m) s) vd va w m x))
      ∧ (let v := s.vreg va
         let segs := cutSegs (segLens v.levels v.elems.length dep.toNat) v.elems
         let key (j : Nat) : Word := elemOf (s.vreg vb) .w32 segs.length j
         dep.toNat ≤ v.levels.length →
         (ownRecs s = [] → ∀ j, j < segs.length → entryAt t (key j).toNat = none →
           (∀ i, i < j → entryAt t (key i).toNat ≠ none) →
           exec (.xfwdT vd va vb dep slot) s = .next (s.trapV 0x09 0 (key j)))
         ∧ (ownRecs s = [] → ∀ (j : Nat) (ent : Nat → LocEntry), (∀ i, i < segs.length → entryAt t (key i).toNat = some (ent i)) →
           j < segs.length → (ent j).chip ≠ s.chip → routeOpen s s.cur (ent j).chip = false →
           (∀ i, i < j → (ent i).chip = s.chip ∨ routeOpen s s.cur (ent i).chip = true) →
           exec (.xfwdT vd va vb dep slot) s = .next (s.trapV 0x09 1 ((ent j).chip.setWidth 64)))
         ∧ (ownRecs s = [] → segs ≠ [] → pushDone s s.cur s.me.nextNum ((s.me.block?.map (·.mark)).getD 0) = true →
           ∀ ent : Nat → LocEntry, (∀ j, j < segs.length → entryAt t (key j).toNat = some (ent j) ∧ (ent j).chip ≠ s.chip
             ∧ routeOpen s s.cur (ent j).chip = true) →
           ∃ u, exec (.xfwdT vd va vb dep slot) s = .next u ∧ (∀ a, u.byte a = s.byte a)
             ∧ (∀ k, k ≠ s.cur → u.hart k = s.hart k) ∧ u.me = { s.me with xrecs := u.me.xrecs }
             ∧ ∀ j, j < segs.length → ∃ r ∈ u.me.xrecs, r.seg = j ∧ r.chip = (ent j).chip ∧ r.key = (ent j).key ∧ r.reply = none
                 ∧ Asked s u r.chip (some j))
         ∧ ((∀ j, j < segs.length → ∃ r ∈ ownRecs s, r.seg = j) →
         (pushDone s s.cur s.me.nextNum ((s.me.block?.map (·.mark)).getD 0) = false → Waits s (exec (.xfwdT vd va vb dep slot) s))
         ∧ (pushDone s s.cur s.me.nextNum ((s.me.block?.map (·.mark)).getD 0) = true →
         (∀ r ∈ ownRecs s, r.reply ≠ none ∧ r.reply ≠ some .refused) →
         ∃ u, exec (.xfwdT vd va vb dep slot) s = .next u ∧ OnlyMe s u ∧ BlockAdvanced s u ∧ KeepsV s u [vd]
           ∧ (u.vreg vd).wt = .w64 ∧ (u.vreg vd).elems = (List.range segs.length).map (recStatus (ownRecs s))
           ∧ (u.vreg vd).levels = (if dep = 0 then [] else v.levels.drop dep.toNat)
           ∧ u.me.xrecs = s.me.xrecs.filter fun r => !ownsRec s r)))

/-- What returns from the fabric answers the oldest outstanding request of its kind, and joins what waits for it: a peer's
list, whose elements without poison are marked in kc at once, and written unless the gather's result replaces its indices
(then they are taken aside), and an inbox status; the answer to a hart that no longer waits is dropped. A request of a peer
under an ASID that no import entry admits is refused and changes no byte, and one that is admitted reads the elements asked
for. The marks and writes at a list's return and the records kept of each xfwd.t are the choices of assumption log, 39; that
an answer is owed until it has reached its chip is that of 25 (spec/26, R384, R385, R390, R392). -/
def Sys2Proof.Claims.FabricEvents : Prop :=
  ∀ (h j : Nat) (r : InboxReply) (q : FabricReq) (s : State),
    let rests (o : Out) (p : FabricOut) (k : State → Prop) : Prop := ∃ t, o = .next t
      ∧ t = { s with harts := t.harts, requests := s.requests.erase p } ∧ (∀ a, t.byte a = s.byte a)
      ∧ (∀ k, k ≠ h → t.hart k = s.hart k) ∧ k t
    (∀ p, s.requests.find? (fun p => p.hart == h && p.seg == some j) = some p → rests (exec (.inboxRecord h j r) s) p fun t =>
      t.hart h = if p.live then { s.hart h with
          xrecs := (s.hart h).xrecs.map fun e => if e.seg = j ∧ e.reply = none then { e with reply := some r } else e }
        else s.hart h)
    ∧ (∀ (c : BitVec 12) (p : FabricOut),
        s.requests.find? (fun p => p.hart == h && p.chip.toNat == c.toNat && p.seg.isNone) = some p →
        (∀ a, p.live = false → rests (exec (.gatherListReturn h c.toNat a) s) p fun t => t.hart h = s.hart h)
        ∧ ∀ (l : XList) (ls : List XList), p.live = true → (s.hart h).xlists = l :: ls → l.chip = c → l.reply = none →
          rests (exec (.gatherListReturn h c.toNat .refused) s) p (fun t =>
            t.hart h = { s.hart h with xlists := { l with reply := some .refused } :: ls })
          ∧ ∀ (vs : List Word) (ps : List Nat), l.elems.length = vs.length →
            rests (exec (.gatherListReturn h c.toNat (.values vs ps)) s) p fun t =>
              let x := s.hart h
              let y := t.hart h
              let back (e : Nat) (v : Word) : Prop := ∃ i, l.elems[i]? = some e ∧ vs[i]? = some v ∧ i ∉ ps
              y.xlists = { l with reply := some (.values vs ps) } :: ls
              ∧ y = { x with v := y.v, xlists := y.xlists, kc := y.kc, pdirty := y.pdirty, vdirty := y.vdirty, xvals := y.xvals,
                             vq := y.vq, kq := y.kq }
              ∧ (∀ e, e ∈ y.kc ↔ e ∈ x.kc ∨ ∃ v, back e v)
              ∧ (∀ v : VReg5, (v ≠ l.vd ∨ l.early = false) → y.v.get v.toFin = x.v.get v.toFin)
              ∧ (l.elems.Nodup → ∀ e v, back e v →
                  if l.early then e < x.vl.toNat → (y.v.get l.vd.toFin).elems[e]? = some v
                  else y.xvals.find? (fun g => g.1 == e) = some (e, v)))
    ∧ (imported s q.src q.asid = false → ∃ t a, exec (.fabricRequestArrival q) s = .next t ∧ t.answers = s.answers ++ [a]
        ∧ a.chip = q.src ∧ a.owed = true ∧ (a.ans = .list .refused ∨ a.ans = .inbox .refused) ∧ (∀ x, t.byte x = s.byte x)
        ∧ t.harts = s.harts)
    ∧ ∀ gbase w offs, q.body = .gather gbase w offs → imported s q.src q.asid = true →
        let z := widthBytes w
        let ea (o : Word) : Nat := gbase.toNat + o.toNat * z
        ∀ r, (∀ locs : List Nat, (∀ o ∈ offs, ea o < 2 ^ 64) →
            offs.map (fun o => peerAccess s q.asid z .load (BitVec.ofNat 64 (ea o))) = locs.map .ok →
            r = .values (locs.map fun l => BitVec.ofNat 64 (leNat (s.bytes l z))) (trueAt (locs.map fun l => s.readsPoison l z))) →
          (∀ o ∈ offs, (2 ^ 64 ≤ ea o ∨ ∃ e, peerAccess s q.asid z .load (BitVec.ofNat 64 (ea o)) = .error e) → r = .refused) →
          ∃ t a, exec (.fabricRequestArrival q) s = .next t ∧ t.answers = s.answers ++ [a] ∧ a.chip = q.src ∧ a.ans = .list r
            ∧ a.owed = true ∧ (∀ x, t.byte x = s.byte x) ∧ t.harts = s.harts

/-! ### Events of a hart -/

/-- The S-word on which hart h waits completes with x in sd: no other hart and no byte of memory changes. -/
def Sys2Proof.Machine.HartEnds (s t : State) (h : Nat) (sd : SReg) (x : Word) : Prop :=
  (∀ k, k ≠ h → t.hart k = s.hart k) ∧ (∀ a, t.byte a = s.byte a)
  ∧ t.hart h = { s.hart h with s := (t.hart h).s, pc := (s.hart h).pc + 4, swait := .none }
  ∧ (t.hart h).getS sd = (if sd = 0 then 0 else x) ∧ ∀ r, r ≠ sd → (t.hart h).getS r = (s.hart h).getS r

/-- A trap of a running hart in U mode saves its cause, address, position and pending bit and enters K mode at c.tvec; poison
is not delivered and stops the hart; a pending request is taken where interrupts are enabled, the lowest channel first
(spec/02, R36, R38, R39, R43; spec/20, R323). -/
def Sys2Proof.Claims.TrapsAndRequests : Prop :=
  ∀ (h : Nat) (r : TrapReq) (s : State),
    ((s.hart h).run = .running → (s.hart h).kmode = false → r.code ≠ 0x10 → ∃ t, exec (.trapEntry h r) s = .next t
      ∧ TrapTaken s t h (BitVec.ofNat 64 (r.code.toNat + 64 * r.src.toNat + 256 * r.sub.toNat)) r.tval
          (if r.src = 0 then 0 else r.blk &&& 0x00FFFFFFFFFFFFFF)
          (if r.src = 0 then 0 else match r.pos with
            | some p => BitVec.ofNat 32 ((if r.src = 1 then r.off.toNat * 65536 else 0) + p.toNat)
            | none => 0xFFFF001F)
          r.vpend)
    ∧ ((s.hart h).run = .running → r.code = 0x10 → ∃ t, exec (.trapEntry h r) s = .next t ∧ (t.hart h).run = .stopped)
    ∧ ((s.hart h).run ≠ .running → exec (.trapEntry h r) s = .next s ∧ exec (.asyncEventTaken h) s = .next s)
    ∧ ∀ ch rest, (s.hart h).run = .running → (s.hart h).asyncReady = true → (s.hart h).pending = ch :: rest → ch < 64 →
        ∃ t, exec (.asyncEventTaken h) s = .next t ∧ (t.hart h).pending = rest
          ∧ TrapTaken s t h (BitVec.ofNat 64 (2 ^ 63 + 256 * ch + 0x11)) 0 0 0 (((s.hart h).vq.head?.map (·.mid)).getD false)

/-- A context without groups renegotiates for its block, once that may go on, and then holds what c.vl needs, or waits its
turn; the oldest waiter of a core is served once its need can be met, and a vsetl that asked has then its grant; a parked
context with nothing under way is freed, and what its placing needs of it is kept (spec/12, R206 to R209, R211, R224; spec/15,
R267; spec/19, R300, R305; assumption log, 57). -/
def Sys2Proof.Claims.GrantEvents : Prop :=
  ∀ (h : Nat) (s : State), (s.hart h).gang = 1 → trioOf s h = none →
    ((s.hart h).run = .running → (s.hart h).kmode = false → (s.hart h).kq = none → (s.hart h).vq ≠ [] →
      (s.hart h).waitFor = none → held s h = 0 → vReady s h = true → ∃ t, exec (.resumption h) s = .next t
        ∧ (∀ k, k ≠ h → t.hart k = s.hart k) ∧ (∀ a, t.byte a = s.byte a) ∧ (t.hart h).s = (s.hart h).s
        ∧ (((t.hart h).waitFor = some ⟨gneed (s.hart h), 0, false⟩ ∧ h % 8 ∈ (t.core (coreOf h)).laneWait)
            ∨ (gneed (s.hart h) ≤ held t h ∧ (t.hart h).lane.st = 1)))
    ∧ (∀ rest need want vs, (s.hart h).gangOf = none → (s.core (coreOf h)).laneWait = h % 8 :: rest → (s.hart h).waitFor = some ⟨need, want, vs⟩ →
        kBlockWaits s (coreOf h) = false → need ≤ 8 → need ≤ laneReach s h false →
        ∃ t, exec (.waiterServed (coreOf h)) s = .next t ∧ (∀ k, k ≠ h → t.hart k = s.hart k) ∧ (∀ a, t.byte a = s.byte a)
          ∧ (t.hart h).waitFor = none ∧ (t.hart h).settled = vs ∧ need ≤ held t h ∧ (t.hart h).lane.st = 1 ∧ h % 8 ∉ (t.core (coreOf h)).laneWait)
    ∧ ((s.hart h).lane.st = 3 → (s.hart h).vq = [] → (s.hart h).kq = none → (s.hart h).rq = [] → s.pkts h = [] →
        copiesDone (s.hart h) false = true → matrixDone s h false = true → ∃ t, exec (.freeParkedContext h) s = .next t
          ∧ (t.hart h).run = .idle ∧ (t.hart h).lane.occ = false ∧ (t.hart h).lane.gmask = 0 ∧ (t.hart h).launch = none
          ∧ (t.hart h).tack = [] ∧ (∀ a, t.byte a = s.byte a)
          ∧ ∀ l, (s.hart h).launch = some l → ∃ e, t.evicted = s.evicted ++ [e] ∧ e.launch = l ∧ e.task = (s.hart h).task
            ∧ e.slot = h ∧ e.marks = (s.hart h).marks ∧ e.fenced = (s.hart h).fenced ∧ e.vvFence = (s.hart h).vvFence
            ∧ e.nextNum = (s.hart h).nextNum ∧ e.savedQ = (s.hart h).savedQ ∧ e.savedB = (s.hart h).savedB
            ∧ e.xvals = (s.hart h).xvals)
    ∧ ((s.hart h).lane.st ≠ 3 → exec (.freeParkedContext h) s = .next s)

/-- What a waiting S-word waits for lets it go on: an fwait with the word that filled its future, or with the word it finds at
its deadline, unless that is poisoned, which stops the hart; wfe with 0 and lwait with the word last read at their deadlines;
ctake with the item that the table gives it; tkjoin with the hub's answer, by which the hart becomes a member or ceases to be
one; the mark of a withdrawn output reaches its producer (spec/05, R101; spec/18, R281, R286; spec/19, R300; spec/20, R314;
spec/22, R356; spec/25, R367). -/
def Sys2Proof.Claims.WaitsEnd : Prop :=
  ∀ (h : Nat) (s : State),
    let x := s.hart h
    let due (d : Word) : Prop := d ≠ 0 ∧ d.toNat ≤ s.time.toNat
    (∀ sd w, x.swait = .woken sd w → ∃ t, exec (.fwaitWake h) s = .next t ∧ HartEnds s t h sd w)
    ∧ (∀ sd loc d, x.swait = .parked sd loc d → due d → s.poisoned loc.toNat 8 = true →
        ∃ t, exec (.fwaitTimeout h) s = .next t ∧ (t.hart h).run = .stopped)
    ∧ (∀ sd loc d, x.swait = .parked sd loc d → due d → s.poisoned loc.toNat 8 = false → ∃ t, exec (.fwaitTimeout h) s = .next t
        ∧ HartEnds s t h sd (s.dword loc.toNat) ∧ ∀ e ∈ (t.cluster (clusterOf h)).waits, e.hart ≠ h)
    ∧ (∀ sd d, x.swait = .wfe sd d → x.event = false → due d → ∃ t, exec (.wfeDeadline h) s = .next t ∧ HartEnds s t h sd 0)
    ∧ (∀ sd d w, x.swait = .lwait sd d w → due d → ∃ t, exec (.lwaitDeadline h) s = .next t ∧ HartEnds s t h sd w)
    ∧ (∀ cl sd n, nextTake s cl = some h → x.swait = .take sd n → ∃ t, exec (.ctakeServed cl) s = .next t
        ∧ h ∉ (t.cluster cl).takes ∧ HartEnds s t h sd
          (((takeItem ((s.cluster cl).cuts[n]?.getD []) (coreOf h % 8)).map (·.1)).getD 0xFFFFFFFFFFFFFFFF))
    ∧ (∀ ch p r, answerFor s h = some (ch, p) → x.tkreq = some r → r.ch = ch → r.joins = true → r.ans = none →
        ∃ t, exec (.joinAnswerArrival h) s = .next t
        ∧ (∀ k, k ≠ h → t.hart k = s.hart k)
        ∧ t.hart h = { x with tkreq := some { r with ans := some p }, tack := (t.hart h).tack }
        ∧ tackCopy (t.hart h) ch = if (tackCopy x ch).isSome then none else some ⟨ch, p, none, false⟩)
    ∧ ∀ i k j, x.task = some i → taskOf s (clusterOf h) i = some k → j ∈ withdrawnOuts s (clusterOf h) k →
        ∃ t, exec (.withdrawMark h j) s = .next t ∧ OnlyHart h s t ∧ t.hart h = { x with marks := insertNat j x.marks }

/-! ### The network, frames, the spill rule -/

/-- A packet that has reached its point of performance leaves the network and is performed whole: its bytes are written and no
other byte changes; an addition adds at its location; a poisoned packet writes nothing and is counted; one that is not the
next of its point stays, and so does one behind another of its route in the queue (spec/08, R157; spec/21, R326, R328, R329,
R331, R332; spec/25, R364). -/
def Sys2Proof.Claims.PacketsArePerformed : Prop :=
  ∀ (i : Nat) (p : Pkt) (s : State), s.net[i]? = some p →
    (arrivable s i = false → exec (.packetArrival i) s = .next s)
    ∧ (∀ q ∈ s.net, q.place = .queue → q.sameRoute p = true → q.arrival < p.arrival → exec (.packetArrival i) s = .next s)
    ∧ (arrivable s i = true → p.poisoned = false → ∀ cs, p.body = .write cs → (cs.map (·.1)).Nodup →
        ∃ t, exec (.packetArrival i) s = .next t ∧ t.net = s.net.eraseIdx i ∧ (∀ k, t.hart k = s.hart k)
          ∧ (∀ c ∈ cs, t.byte c.1 = c.2) ∧ ∀ a, (∀ c ∈ cs, c.1 ≠ a) → t.byte a = s.byte a)
    ∧ (arrivable s i = true → p.poisoned = false → ∀ o, p.body = .add [o] →
        let n := widthBytes (fmtWidth o.fmt)
        let old := BitVec.ofNat 64 (leNat (s.bytes o.loc n))
        let sum := if isRes o.fmt then (redStep .add o.fmt o.rm o.sat (old, o.fmt) (o.val, o.fmt)).1
          else (deliver o.fmt o.rm o.sat (addV o.rm (readVal o.fmt old) (readVal o.fmt o.val))).1
        ∃ t, exec (.packetArrival i) s = .next t ∧ t.net = s.net.eraseIdx i ∧ (∀ k, t.hart k = s.hart k)
          ∧ t.bytes o.loc n = toLe n sum.toNat
          ∧ ∀ a, (a < o.loc ∨ o.loc + n ≤ a) → t.byte a = s.byte a)
    ∧ (arrivable s i = true → p.poisoned = true → ∃ t, exec (.packetArrival i) s = .next t ∧ t.net = s.net.eraseIdx i
        ∧ (∀ k, t.hart k = s.hart k) ∧ (∀ a, a < 2 ^ 55 → t.byte a = s.byte a)
        ∧ (t.die p.dst).npois = if (s.die p.dst).npois = 0xFFFFFFFF then 0xFFFFFFFF else (s.die p.dst).npois + 1)

/-- A frame tick that no flit holds begins a frame: c.ftick counts, every quota is whole again, the next tick is 2,048 cycles
later; one that a flit of age 32 holds is sent once none does, and the frame lasts 2,048 cycles from then; a buffer leaves
spill mode when its ring is empty, and a ring that fills is counted (spec/20, R322; spec/21, R325, R327; spec/25, R364,
R365). -/
def Sys2Proof.Claims.FramesAndSpilling : Prop :=
  ∀ (d : Nat) (s : State),
    let begun (t : State) (next : Word) : Prop := t.ftick = s.ftick + 1 ∧ t.nextTick = next ∧ t.tickHeld = false
      ∧ (t.die 0).used = [] ∧ (t.die 1).used = [] ∧ (∀ k, (t.hart k).s = (s.hart k).s) ∧ ∀ a, a < 2 ^ 55 → t.byte a = s.byte a
    (holdsTick s = false → ∃ t, exec .frameTick s = .next t ∧ begun t (s.nextTick + 2048))
    ∧ (holdsTick s = true → exec .frameTick s = .next { s with tickHeld := true } ∧ exec .heldTickRelease s = .next s)
    ∧ (s.tickHeld = true → holdsTick s = false → ∃ t, exec .heldTickRelease s = .next t ∧ begun t (s.time + 2048))
    ∧ ((s.die d).spill = true → ringFill s d = 0 → bufferFill s d < 4096 → ∃ t, exec (.spillModeExit d) s = .next t
        ∧ t = { s with dies := t.dies } ∧ t.die d = { s.die d with spill := false, ringFull := false }
        ∧ ∀ e, e ≠ d → t.die e = s.die e)
    ∧ ((s.die d).spill = true → (s.die d).ringFull = false → 1048576 ≤ ringFill s d →
        ∃ t, exec (.spillRingFull d) s = .next t ∧ (∀ k, t.hart k = s.hart k) ∧ (∀ a, a < 2 ^ 55 → t.byte a = s.byte a)
          ∧ t.die d = { s.die d with
              ringFull := true,
              spfull := if (s.die d).spfull = 0xFFFFFFFF then 0xFFFFFFFF else (s.die d).spfull + 1 })

/-! ### The hubs of the tack net -/

/-- A hub handles the signals of a cycle: an arrival is counted, and the last one releases the phase to every member one
latency later; a join makes a member and is answered with the phase count; a leave of a member that has not arrived removes
it. The broadcast of the lowest hart that holds one is accepted when the slot is free, with the next sequence number, for
every other member. That the answer to a leave carries the count after the release of its cycle is the choice of assumption
log, 37 (spec/20, R308, R310 to R312, R314, R318). -/
def Sys2Proof.Claims.HubCycles : Prop :=
  ∀ (hub ch n h : Nat) (s : State),
    let c := s.chan hub ch
    let at' := n + tackLat ch
    let gives (c' : Channel) : Prop := ∃ t, exec (.tackHubCycle hub ch) s = .next t ∧ t.chan hub ch = c'
      ∧ t = { s with dies := t.dies, pkgChans := t.pkgChans }
    (n ≤ s.time.toNat → c.toHub = [(n, .arrive h)] → h ∈ c.members → c.leaving = [] →
      ((∃ m ∈ c.members, m ≠ h ∧ m ∉ c.arrived) → gives { c with toHub := [], arrived := insertNat h c.arrived })
      ∧ ((∀ m ∈ c.members, m ≠ h → m ∈ c.arrived) → gives { c with
          toHub := [], arrived := [], phase := c.phase + 1,
          fromHub := c.fromHub ++ [(at', .release (c.phase + 1) c.members)] }))
    ∧ (n ≤ s.time.toNat → c.toHub = [(n, .join h true)] → c.leaving = [] → (c.members = [] ∨ ∃ m ∈ c.members, m ∉ c.arrived) →
      gives { c with toHub := [], members := insertNat h c.members, fromHub := c.fromHub ++ [(at', .answer h c.phase)] })
    ∧ (∀ ans, n ≤ s.time.toNat → c.toHub = [(n, .leave h ans)] → h ∉ c.arrived → c.leaving = [] →
      ∃ t, exec (.tackHubCycle hub ch) s = .next t ∧ h ∉ (t.chan hub ch).members
        ∧ (∀ m ∈ c.members, m ≠ h → m ∈ (t.chan hub ch).members)
        ∧ (ans = true → (at', .answer h (t.chan hub ch).phase) ∈ (t.chan hub ch).fromHub))
    ∧ (∀ w v, (w, v) ∈ c.held → (∀ e ∈ c.held, e = (w, v) ∨ w < e.1) → c.slot = [] →
      let readers := c.members.filter (· != w)
      let when := s.time.toNat + tackLat ch
      ∃ t, exec (.broadcastAccept hub ch) s = .next t ∧ t = { s with dies := t.dies, pkgChans := t.pkgChans, harts := t.harts }
        ∧ (∀ k, k ≠ w → t.hart k = s.hart k)
        ∧ t.hart w = { s.hart w with tkreq := (s.hart w).tkreq.map fun r =>
            if r.ch = ch ∧ r.joins = false then { r with taken := true } else r }
        ∧ t.chan hub ch = { c with
            held := c.held.filter (fun e => e.1 != w), slot := readers,
            seq := if c.seq = 0xFFFFFFFF then 1 else c.seq + 1,
            fromHub := c.fromHub ++ [(when, .value v readers), (when, .accepted w c.seq)] })
    ∧ (c.slot ≠ [] → exec (.broadcastAccept hub ch) s = .next s)

/-- A release reaches every member core: its phase count becomes the new one, its arrival is spent, its event bit is set, as
is that of a hart whose join is under way; a broadcast value reaches the latches of its members and sets their event bits; its
acceptance reaches the sender (spec/05, R101; spec/20, R310, R312, R318). -/
def Sys2Proof.Claims.HubSignalsArrive : Prop :=
  ∀ (hub ch n : Nat) (rest : List (Nat × HubOut)) (s : State), n ≤ s.time.toNat →
    let from' := (s.chan hub ch).fromHub
    (∀ p ms, from' = (n, .release p ms) :: rest → ∃ t, exec (.tackReleaseArrival hub ch) s = .next t
      ∧ (t.chan hub ch).fromHub = rest ∧ (∀ k, k ∉ ms → t.hart k = s.hart k)
      ∧ ∀ k ∈ ms, ∀ c, tackCopy (s.hart k) ch = some c → (t.hart k).event = true
          ∧ tackCopy (t.hart k) ch = some { c with phase := p, arrived := false })
    ∧ (∀ p ms, from' = (n, .release p ms) :: rest → ∀ k ∈ ms, ∀ r, (s.hart k).tkreq = some r → r.joins = true → r.ch = ch →
        ∃ t, exec (.tackReleaseArrival hub ch) s = .next t ∧ (t.hart k).event = true)
    ∧ (∀ v ms, from' = (n, .value v ms) :: rest → ∃ t, exec (.broadcastDelivery hub ch) s = .next t
      ∧ (t.chan hub ch).fromHub = rest ∧ (∀ k, k ∉ ms → t.hart k = s.hart k)
      ∧ ∀ k ∈ ms, ∀ c, tackCopy (s.hart k) ch = some c → (t.hart k).event = true
          ∧ tackCopy (t.hart k) ch = some { c with latch := some v })
    ∧ ∀ h q r, from' = (n, .accepted h q) :: rest → (s.hart h).tkreq = some r → r.ch = ch → r.joins = false →
        ∃ t, exec (.broadcastDelivery hub ch) s = .next t ∧ (t.chan hub ch).fromHub = rest
          ∧ (∀ k, k ≠ h → t.hart k = s.hart k) ∧ t.hart h = { s.hart h with tkreq := some { r with ans := some q } }

/-- A write of the pre-emption command register while it is not busy takes the channel and, for channel 63, a hart of the die;
while it is busy, or for a package channel or another die's hart, it has no effect. The signal makes its channel pending at
the hart and sets the event bit (spec/02, R38; spec/05, R101; spec/20, R323; assumption log, 27, 56). -/
def Sys2Proof.Claims.Preemption : Prop :=
  ∀ (d h ch : Nat) (v : Word) (s : State),
    let c := v.toNat % 128
    let k := v.toNat / 2 ^ 32 % 2048
    ((s.die d).preempt.busy = false → c ≤ 63 → (c = 63 → k / 768 = d) → ∃ t, exec (.preemptCommandWrite d v) s = .next t
      ∧ t = { s with dies := t.dies } ∧ (∀ e, e ≠ d → t.die e = s.die e)
      ∧ t.die d = { s.die d with preempt :=
          { busy := true, hart := BitVec.ofNat 11 k, ch := BitVec.ofNat 7 c, since := s.time.toNat } })
    ∧ (((s.die d).preempt.busy = true ∨ 63 < c ∨ (c = 63 ∧ k / 768 ≠ d)) → exec (.preemptCommandWrite d v) s = .next s)
    ∧ (dueSignal s h ch = none → exec (.preemptionRequest h ch) s = .next s)
    ∧ ∀ g, dueSignal s h ch = some g → ∃ t, exec (.preemptionRequest h ch) s = .next t
        ∧ (∀ j, j ≠ h → t.hart j = s.hart j) ∧ (∀ a, t.byte a = s.byte a)
        ∧ t.hart h = { s.hart h with pending := insertNat ch (s.hart h).pending, event := true }

/-! ### Launches and tasks -/

/-- A host write of 128 bytes at a launch port pushes its record where the FIFO is enabled and has room, and is dropped and
counted otherwise; the head record of a FIFO takes the lowest free pool entry of its partition and joins its queue as a launch
of depth 1, or is dropped where its completion word cannot be written; the records of a partition that a failure has stopped
stay. That a push while PERST is asserted or the dies are held in reset is ignored is the choice of assumption log, 48
(spec/22, R339 to R345; spec/25, R377). -/
def Sys2Proof.Claims.HostLaunches : Prop :=
  ∀ (off d f : Nat) (bytes : List Byte) (s : State),
    let fifo (s : State) : Fifo := mapGet Fifo.reset (s.die d).fifos f
    let x := fifo s
    let dropped (n : BitVec 32) : BitVec 32 := if n = 0xFFFFFFFF then 0xFFFFFFFF else n + 1
    (s.perst = true ∨ s.diesHeld = true → exec (.hostLaunchPush off bytes) s = .next s)
    ∧ (fifoAt off = some (d, f) → s.perst = false → s.diesHeld = false →
      (∀ r, off % 0x1000 = 0 → bytes.length = 128 → x.en = true → x.recs.length < 16 →
        parseRecord (dwordsOf bytes 16) = some r → ∃ t, exec (.hostLaunchPush off bytes) s = .next t
          ∧ t = { s with dies := t.dies } ∧ fifo t = { x with recs := x.recs ++ [r] })
      ∧ ((off % 0x1000 ≠ 0 ∨ bytes.length ≠ 128 ∨ x.en = false ∨ 16 ≤ x.recs.length
          ∨ parseRecord (dwordsOf bytes 16) = none) → ∃ t, exec (.hostLaunchPush off bytes) s = .next t
          ∧ t = { s with dies := t.dies } ∧ fifo t = { x with drops := dropped x.drops }))
    ∧ ∀ r rest e, x.recs = r :: rest → (mapGet Queue.reset (s.die d).queues x.fq.toNat).en = true →
        poolRoom s d x.pid = some e →
        (x.pid.toNat ∈ s.stopped → exec (.recordEntersPool d f) s = .next s) ∧ (x.pid.toNat ∉ s.stopped →
        (∀ pa, cwaTarget s d x.asid x.pid r.cwa = .ok pa → r.nh ≤ launchContexts s d x.pid →
          ∃ t, exec (.recordEntersPool d f) s = .next t ∧ fifo t = { x with recs := rest }
            ∧ (∀ k, t.hart k = s.hart k) ∧ (∀ a, t.byte a = s.byte a)
            ∧ (mapGet Queue.reset (t.die d).queues x.fq.toNat).recs
                = (mapGet Queue.reset (s.die d).queues x.fq.toNat).recs ++ [e]
            ∧ t.launch? d e = some { rcd := r, cwa := pa, pid := x.pid, asid := x.asid, depth := 1, issuer := none,
                                     harts := [], st := .queued, live := r.nh, flags := 0 })
        ∧ (∀ err, cwaTarget s d x.asid x.pid r.cwa = .error err → ∃ t, exec (.recordEntersPool d f) s = .next t
            ∧ fifo t = { x with recs := rest, drops := dropped x.drops } ∧ ∀ k, t.hart k = s.hart k))

/-- A launch is dispatched to the contexts chosen for it, one in a cycle of its die: hart j starts in U mode at the record's
entry with the completion word's address, j, the count and the arguments in s1 to s15 and every vector register empty. It
completes once its harts and tasks have ended: its completion word is written, its entry is free and of the next generation; a
failure is written once no write of its harts is under way in the network, which is the choice of assumption log, 36 (spec/02,
R35; spec/22, R346 to R352). -/
def Sys2Proof.Claims.LaunchesDispatchAndComplete : Prop :=
  ∀ (d e : Nat) (l : Launch) (s : State),
    (let s0 := markReady (failUnplaceable s d) d
     ∀ n tied hs, chooseQueue s0 d = some (n, tied) → headPlace s0 d (mapGet Queue.reset (s0.die d).queues n) = some (e, hs) →
      (s0.die d).lastLaunch ≠ some s.time → s0.launch? d e = some l → hs.Nodup → ∃ t, exec (.launchDispatch d) s = .next t
        ∧ t.launch? d e = some { l with st := .dispatched, live := hs.length, harts := hs }
        ∧ ∀ j (hj : j < hs.length),
            let x := t.hart hs[j]
            x.run = .running ∧ x.lane.occ = true ∧ x.kmode = false ∧ x.pc = l.rcd.entry ∧ x.asid = l.asid ∧ x.launch = some ⟨d, e, j⟩
              ∧ x.task = none ∧ x.vl = 0 ∧ x.flags = 0 ∧ (∀ i : Fin 32, x.v.get i = VReg.empty)
              ∧ ∀ i : Fin 32, x.s.get i
                  = (0 :: l.rcd.cwa :: BitVec.ofNat 64 j :: BitVec.ofNat 64 l.rcd.nh :: l.rcd.args).getD i.val 0)
    ∧ ((s.die d).lastLaunch = some s.time → exec (.launchDispatch d) s = .next (markReady (failUnplaceable s d) d))
    ∧ (s.launch? d e = some l →
      let ended (w : Word) : Prop := ∃ t, exec (.launchCompletion d e) s = .next t ∧ t.launch? d e = none
        ∧ (mapGet PoolEntry.reset (t.die d).pool e).gen = (mapGet PoolEntry.reset (s.die d).pool e).gen + 1
        ∧ t.bytes l.cwa 8 = toLe 8 w.toNat ∧ (∀ a, (a < l.cwa ∨ l.cwa + 8 ≤ a) → t.byte a = s.byte a)
        ∧ (∀ k, (t.hart k).s = (s.hart k).s) ∧ t.msix = s.msix ++ if l.rcd.me then [l.rcd.mv] else []
      (l.st = .dispatched → l.live = 0 → hasTasks s d e = false → ended (BitVec.ofNat 64 (2 ^ 63 + l.flags.toNat)))
      ∧ (l.st = .dispatched → (l.live ≠ 0 ∨ hasTasks s d e = true) → exec (.launchCompletion d e) s = .next s)
      ∧ ∀ why, l.st = .failed why → (∀ p ∈ s.net, p.hart ∉ l.harts) →
          ended (BitVec.ofNat 64 (2 ^ 63 + 2 ^ 62 + why.toNat * 2 ^ 58 + l.flags.toNat)))

/-- A task whose absorbing test is met fires; the oldest ready task starts on the lowest free context of the task pool, which
is the choice of assumption log, 19, with its record, argument and number in s1 to s3; a task to be retired leaves the
scoreboard unrun once its posts, which leave as packets (assumption log, 59), can go; a cluster reset fails the launches of
the partition, stops every hart of the cluster, frees its contexts, ends its packets, those on their way to its own memories
too, and zeroes its scratchpad and TCMs (spec/18, R291, R292; spec/19, R297 to R299, R304; spec/22, R348; spec/25, R377). -/
def Sys2Proof.Claims.TasksAndClusterReset : Prop :=
  ∀ (cl i : Nat) (k : Task) (s : State),
    (taskOf s cl i = some k →
      (mayFire s cl i k = true → ∃ t k', exec (.taskFire cl i) s = .next t ∧ taskOf t cl i = some k' ∧ k'.fired = true
        ∧ ∀ h, t.hart h = s.hart h)
      ∧ (mayFire s cl i k = false → exec (.taskFire cl i) s = .next s)
      ∧ (i ∈ (s.cluster cl).retire → (retireTask s cl i k).isSome = true →
        ∃ t, exec (.taskRetire cl i) s = .next t ∧ taskOf t cl i = none
        ∧ i ∉ (t.cluster cl).retire ∧ ∀ h, t.hart h = s.hart h)
      ∧ (k.outs = [] → (retireTask s cl i k).isSome = true)
      ∧ ((retireTask s cl i k).isSome = false → exec (.taskRetire cl i) s = .next s)
      ∧ (∀ h rest, oldestReady s cl = some (i, k) → taskContexts s cl = h :: rest →
          takesWork (s.cluster cl) (s.cluster cl).pid = true → mayFire s cl i k = false →
          ∃ t k', exec (.taskDispatch cl) s = .next t ∧ taskOf t cl i = some k' ∧ k'.hart = some h
            ∧ k'.tabs = tabsWord s cl k ∧ (∀ a, t.byte a = s.byte a) ∧ (∀ j, j ≠ h → t.hart j = s.hart j)
            ∧ let x := t.hart h
              x.run = .running ∧ x.kmode = false ∧ x.pc = k.entry ∧ x.asid = k.asid ∧ x.task = some i
                ∧ x.launch = some k.launch
                ∧ ∀ r : Fin 32, x.s.get r = [0, k.rcd, k.arg, BitVec.ofNat 64 i].getD r.val 0))
    ∧ ∃ t, exec (.clusterReset cl) s = .next t ∧ (t.cluster cl).tasks = [] ∧ (t.cluster cl).down = true
        ∧ (∀ j, j < 64 → (t.hart (64 * cl + j)).run = .stopped ∧ (t.hart (64 * cl + j)).lane.occ = false
            ∧ (t.hart (64 * cl + j)).lane.gmask = 0)
        ∧ (∀ p ∈ t.net, clusterOf p.hart = cl → isLocal p = false ∧ p.flits ≤ p.sent)
        ∧ (∀ a, a < 2 ^ 23 → memGet t.mem (padBase cl + a) = 0)
        ∧ ∀ j a, j < 8 → a < 2 ^ 21 → memGet t.mem (tcmBase (8 * cl + j) + a) = 0

/-! ### Registers of the package -/

/-- An invalidation that is not busy removes the cached translations of a page, of an ASID, or all of them from every core of
the die, from its slices and its contexts' tables, with the walk cache's entries of the ASID, and is ignored while one is
busy; it completes once no command of the matrix queues and no access under way holds one of them, and what was cached of them
meanwhile goes too (spec/13, R233; spec/21, R333, R334, R337). -/
def Sys2Proof.Claims.Invalidations : Prop :=
  ∀ (d : Nat) (asid : BitVec 16) (vpn : BitVec 40) (s : State),
    let starts (o : Out) (x : Inval) (gone : TlbEntry → Prop) : Prop := ∃ t, o = .next t
      ∧ t = { s with dies := t.dies, cores := t.cores, harts := t.harts } ∧ t.die d = { s.die d with inval := x }
      ∧ (∀ c i e, c / 96 = d → (e ∈ (t.core c).tlb.get i ↔ e ∈ (s.core c).tlb.get i ∧ ¬gone e))
      ∧ (∀ c w, c / 96 = d → (w ∈ (t.core c).walks ↔ w ∈ (s.core c).walks ∧ x.kind ≠ 2 ∧ w.asid ≠ x.asid))
      ∧ (∀ h e, dieOf h = d → (e ∈ (t.hart h).tlb ↔ e ∈ (s.hart h).tlb ∧ ¬gone e))
      ∧ (∀ c, t.core c = { s.core c with tlb := (t.core c).tlb, walks := (t.core c).walks })
      ∧ (∀ c, c / 96 ≠ d → t.core c = s.core c) ∧ (∀ h, t.hart h = { s.hart h with tlb := (t.hart h).tlb })
      ∧ ∀ h, dieOf h ≠ d → t.hart h = s.hart h
    let x := (s.die d).inval
    ((s.die d).inval.busy = false →
      starts (exec (.tlbInvalidatePage d asid vpn) s) ⟨true, 0, asid, vpn⟩ (fun e => e.asid = asid
        ∧ e.va ≤ vpn.toNat * 65536 ∧ vpn.toNat * 65536 < e.va + pageSize e.level)
      ∧ starts (exec (.tlbInvalidateAsid d asid) s) ⟨true, 1, asid, 0⟩ (fun e => e.asid = asid)
      ∧ starts (exec (.tlbInvalidateAll d) s) ⟨true, 2, 0, 0⟩ (fun _ => True))
    ∧ (x.busy = true → exec (.tlbInvalidatePage d asid vpn) s = .next s
      ∧ exec (.tlbInvalidateAsid d asid) s = .next s ∧ exec (.tlbInvalidateAll d) s = .next s
      ∧ ((∀ e ∈ s.cores, e.1 / 96 = d → ∀ m ∈ e.2.mq, ∀ r ∈ m.tr, invalidates x r = false) →
          (∀ p ∈ s.net, p.src = d → ∀ r ∈ p.tr, invalidates x r = false) →
          (∀ e ∈ s.harts, dieOf e.1 = d → ∀ p ∈ e.2.out, ∀ r ∈ p.tr, invalidates x r = false) →
          starts (exec (.invalidationComplete d) s) { x with busy := false } fun e => invalidates x e.held = true)
      ∧ ((∃ e ∈ s.cores, e.1 / 96 = d ∧ ∃ m ∈ e.2.mq, ∃ r ∈ m.tr, invalidates x r = true)
          ∨ (∃ p ∈ s.net, p.src = d ∧ ∃ r ∈ p.tr, invalidates x r = true) →
          exec (.invalidationComplete d) s = .next s))
    ∧ (x.busy = false → exec (.invalidationComplete d) s = .next s)

/-- The reads that clear: each returns its count in bits 31:0 and leaves it zero, with nothing else changed (spec/00, R6;
spec/21, R328; spec/22, R342; spec/25, R365, R378; spec/26, R382). The word of the spill status shows the ring's flits modulo
2^20, which is the choice of assumption log, 50. -/
def Sys2Proof.Claims.ReadsThatClear : Prop :=
  ∀ (d f port : Nat) (s : State),
    let answers (o : Out) (n : BitVec 32) (t : State) : Prop := o = .next t ∧ t.bus.ep = false ∧ t.bus.bytes.length = 8
      ∧ leNat (t.bus.bytes.take 4) = n.toNat ∧ (∀ a, t.byte a = s.byte a) ∧ ∀ k, t.hart k = s.hart k
    (∃ t, answers (exec (.readNpois d) s) (s.die d).npois t ∧ t.die d = { s.die d with npois := 0 })
    ∧ (∃ t, answers (exec (.readDrops d f) s) (mapGet Fifo.reset (s.die d).fifos f).drops t
        ∧ mapGet Fifo.reset (t.die d).fifos f = { mapGet Fifo.reset (s.die d).fifos f with drops := 0 })
    ∧ (∃ t, answers (exec (.readSpfull d) s) (s.die d).spfull t ∧ t.die d = { s.die d with spfull := 0 }
        ∧ leNat (t.bus.bytes.drop 4) = ringFill s d % 2 ^ 20 + if (s.die d).spill then 2 ^ 31 else 0)
    ∧ (∃ t, answers (exec (.readRtry port) s) (mapGet Port.reset (s.die (port / 8)).ports (port % 8)).rtry t
        ∧ mapGet Port.reset (t.die (port / 8)).ports (port % 8)
            = { mapGet Port.reset (s.die (port / 8)).ports (port % 8) with rtry := 0 })
    ∧ ∃ t, answers (exec .readFaultDrops s) s.ringDrops t ∧ t.ringDrops = 0

/-- A fault record goes to the next place of the ring, or is counted as dropped where the ring is full (spec/25, R378). -/
def Sys2Proof.Claims.FaultRecords : Prop :=
  ∀ (r : FaultRec) (s : State),
    let at' := bootBase + 0x7C0000 + 64 * (s.ringWr.toNat % 4096)
    (s.ringWr - s.ringRd ≠ 4096 → ∃ t, exec (.faultRecordPost r) s = .next t
      ∧ t = { s with mem := t.mem, lost := t.lost, keyed := t.keyed, poison := t.poison, ringWr := s.ringWr + 1 }
      ∧ t.poisoned at' 64 = false
      ∧ t.bytes at' 64 = [r.kind.toNat * 2 ^ 56 + r.pid.toNat * 2 ^ 32 + r.hid.toNat, r.cause.toNat, r.epc.toNat, r.tval.toNat,
          r.qpos.toNat, r.handle.toNat, s.time.toNat, 0].flatMap (toLe 8)
      ∧ ∀ a, (a < at' ∨ at' + 64 ≤ a) → t.byte a = s.byte a)
    ∧ (s.ringWr - s.ringRd = 4096 → exec (.faultRecordPost r) s
        = .next { s with ringDrops := if s.ringDrops = 0xFFFFFFFF then 0xFFFFFFFF else s.ringDrops + 1 })

/-- Until an image has been accepted the dies are in reset; that no register is written then is the choice of assumption log,
48, and that a write of a partition register ends the stop of its cluster that of 31. From then on, a write of a memory range
is applied, applied with en 0, or ignored whole, as the range is permitted; a partition register is ignored while a context of
its cluster is occupied; a register write stores the fields of the register at its address: the table root, a FIFO, a
partition's limits, the power cap, the fault ring's read count, and a read returns them (spec/00, R6, R7; spec/21, R334;
spec/22, R342, R344; spec/25, R362, R368, R369, R372, R376, R378). -/
def Sys2Proof.Claims.RegisterWrites : Prop :=
  ∀ (d i cl : Nat) (second : Bool) (v : Word) (s : State),
    let range (s : State) : MemRange := mapGet MemRange.reset (s.die d).ranges i
    let new := (range s).written second v
    let kept (t : State) : Prop := t.mem = s.mem ∧ ∀ k, t.hart k = s.hart k
    let base := 0xF_FF00_0000_0000
    (s.diesHeld = true → ∀ pa, exec (.registerWrite pa v) s = .next s ∧ exec (.rangeRegisterWrite d i second v) s = .next s
      ∧ exec (.clusterPartitionWrite cl v) s = .next s)
    ∧ (s.diesHeld = false →
    (i < 64 →
      ((new.en = false ∨ rangeOk s d i new = true) →
        ∃ t, exec (.rangeRegisterWrite d i second v) s = .next t ∧ kept t ∧ range t = new)
      ∧ (new.en = true → rangeOk s d i new = false → (range s).en = true → exec (.rangeRegisterWrite d i second v) s = .next s)
      ∧ (new.en = true → rangeOk s d i new = false → (range s).en = false →
          ∃ t, exec (.rangeRegisterWrite d i second v) s = .next t ∧ kept t ∧ range t = { new with en := false }))
    ∧ ((∀ k, k < 64 → (s.hart (64 * cl + k)).lane.occ = false) → ∃ t, exec (.clusterPartitionWrite cl v) s = .next t ∧ kept t
        ∧ t.cluster cl = { s.cluster cl with en := v.getLsbD 63, pid := v.setWidth 5, down := false })
    ∧ ((∃ k, k < 64 ∧ (s.hart (64 * cl + k)).lane.occ = true) → exec (.clusterPartitionWrite cl v) s = .next s)
    ∧ (d < 2 →
      let reg (off : Nat) : Out := exec (.registerWrite (base + d * 0x1000000 + off) v) s
      (∃ t, reg 0x808 = .next t ∧ kept t ∧ t.die d = { s.die d with root := v &&& 0x000FFFFFFFFFFFF8 }
        ∧ (readReg t (base + d * 0x1000000 + 0x808)).bus = ⟨toLe 8 (v &&& 0x000FFFFFFFFFFFF8).toNat, false⟩)
      ∧ (i < 16 → ∃ t, reg (0x2000 + 16 * i) = .next t ∧ kept t ∧ mapGet Fifo.reset (t.die d).fifos i
          = { mapGet Fifo.reset (s.die d).fifos i with
              en := v.getLsbD 63, fq := v.extractLsb' 48 6, pid := v.extractLsb' 32 5, asid := v.extractLsb' 16 16 }
          ∧ (readReg t (base + d * 0x1000000 + 0x2000 + 16 * i)).bus.bytes
              = toLe 8 ((v &&& 0x803F001FFFFF0000).toNat + (mapGet Fifo.reset (s.die d).fifos i).recs.length))
      ∧ (i < 24 → 1 ≤ v.toNat % 16 → v.toNat % 16 ≤ 8 → ∃ t, reg (0x4000 + 8 * i) = .next t ∧ kept t
          ∧ mapGet 8 (t.die d).dlim i = v.toNat % 16))
    ∧ (let reg (off : Nat) : Out := exec (.registerWrite (base + off) v) s
       (400 ≤ v.toNat % 4096 → ∃ t, reg 0xC00 = .next t ∧ t = { s with plim := t.plim }
          ∧ t.plim.toNat = min (v.toNat % 4096) 2200)
       ∧ ((s.ringWr - v.setWidth 32).toNat ≤ 4096 → reg 0xC18 = .next { s with ringRd := v.setWidth 32 })
       ∧ (4096 < (s.ringWr - v.setWidth 32).toNat → reg 0xC18 = .next s)))

/-! ### Errors, the host, Thimble, reset -/

/-- An uncorrectable error poisons its line or word and posts a report, whether met by an access or by a patrol scrub, which
counts a correctable one; an uncontained failure of a cluster, or of a die, fails each launch of its partition, or of those
with a cluster on the die, that has not failed, with why 3, and stops the partition until it is restarted; at the thermal
limit compute stops as well (spec/25, R366, R376 to R378). -/
def Sys2Proof.Claims.ErrorsAndFailures : Prop :=
  ∀ (s : State),
    let failed (t : State) (ps : List Nat) : Prop := (∀ p ∈ ps, p ∈ t.stopped)
      ∧ ∀ d e l, d < 2 → s.launch? d e = some l → l.pid.toNat ∈ ps →
        (∀ why, l.st ≠ .failed why) → ∃ l', t.launch? d e = some l' ∧ l'.st = .failed 3 ∧ l'.live = 0
    (∀ loc, ∃ t, exec (.uncorrectableError loc) s = .next t ∧ (loc < 2 ^ 55 → poisonUnit loc ∈ t.poison) ∧ (∀ u ∈ s.poison, u < 2 ^ 55 → u ∈ t.poison)
      ∧ (∀ k, t.hart k = s.hart k) ∧ (∀ a, a < 2 ^ 55 → t.byte a = s.byte a)
      ∧ (s.ringWr - s.ringRd ≠ 4096 → t.ringWr = s.ringWr + 1))
    ∧ (∀ d k e, stackOf e.pa = (d, k) → e.pa < hbmEnd →
      (e.uncorrectable = false → ∃ t, exec (.patrolScrub d k [e]) s = .next t ∧ t = { s with dies := t.dies }
        ∧ t.die d = { s.die d with corrected := mapSet k (mapGet 0 (s.die d).corrected k + 1) (s.die d).corrected })
      ∧ (e.uncorrectable = true → ∃ t, exec (.patrolScrub d k [e]) s = .next t ∧ poisonUnit e.pa ∈ t.poison
        ∧ mapGet 0 (t.die d).poisonedLines k = mapGet 0 (s.die d).poisonedLines k + 1))
    ∧ (∀ cl, ∃ t, exec (.uncontainedFailure (.cluster cl)) s = .next t ∧ t.halted = s.halted
        ∧ ((s.cluster cl).en = true → failed t [(s.cluster cl).pid.toNat]))
    ∧ (∀ d, ∃ t, exec (.uncontainedFailure (.die d)) s = .next t ∧ t.halted = s.halted
        ∧ ∀ c, c < 12 → (s.cluster (12 * d + c)).en = true → failed t [(s.cluster (12 * d + c)).pid.toNat])
    ∧ (∃ t, exec .thermalStop s = .next t ∧ failed t (List.range 32) ∧ t.halted = true)
    ∧ ∃ t, exec .bridgeFailure s = .next t ∧ failed t (List.range 32) ∧ t.halted = s.halted

/-- A port that trains with both reports accepted, enabled and with a key slot, is up, takes its peer and the key that
SHAKE256 derives from the secret of the session, and starts its sequence; otherwise it is down; Thimble has presented a
report. A port that fails is down, no route leads through it, what was outstanding through it is lost, and the launches of the
partitions it concerns fail. A retry is counted, and the eighth in a row that fails brings the port down (spec/25, R377;
spec/26, R382 to R384; assumption log, 26, 58). -/
def Sys2Proof.Claims.PortsTrainAndFail : Prop :=
  ∀ (port : Nat) (r : TrainReq) (s : State),
    let at' (t : State) : Port := mapGet Port.reset (t.die (port / 8)).ports (port % 8)
    let x := at' s
    let rest (t : State) : Prop := t = { s with dies := t.dies, free := t.free, thimble := t.thimble, reports := t.reports }
      ∧ (∃ rep, t.reports = s.reports ++ [rep]) ∧ t.thimble.measure = s.thimble.measure
    let failed (t : State) (p : Nat) : Prop := ∀ d e l, d < 2 → s.launch? d e = some l → l.pid.toNat = p →
      (∀ why, l.st ≠ .failed why) → ∃ l', t.launch? d e = some l' ∧ l'.st = .failed 3
    (r.ok = true → x.en = true → x.ks ≠ 0 → ∃ t, exec (.portTraining port r) s = .next t ∧ rest t
      ∧ at' t = { x with up := true, peer := r.peer, seq := 0, fails := 0 }
      ∧ mapGet 0 (t.die (port / 8)).linkKeys x.ks.toNat = keyOf (shake256
          (if s.chip.toNat < r.peer.toNat then Config.encapOpen s.free r.sealedKey else Config.encapSecret s.free r.sealedKey) 32))
    ∧ ((r.ok = false ∨ x.en = false ∨ x.ks = 0) → ∃ t, exec (.portTraining port r) s = .next t ∧ rest t
      ∧ at' t = { x with up := false })
    ∧ (port < 16 → ∃ t, exec (.portFailure port) s = .next t ∧ (at' t).up = false
      ∧ (∀ d c, d < 2 →
        let q := mapGet (0 : BitVec 8) (t.die d).routes c
        ¬(q.getLsbD 7 = true ∧ q.toNat % 16 = port))
      ∧ (∀ q ∈ s.requests, q.port.toNat = port → failed t q.pid)
      ∧ (∀ a ∈ s.answers, a.owed = true → a.port.toNat = port → ∀ p ∈ a.pids, failed t p)
      ∧ (∀ q ∈ t.requests, q.port.toNat ≠ port) ∧ ∀ a ∈ t.answers, a.port.toNat = port → a.owed = false)
    ∧ (port < 16 → at' (retried s port true) = { x with rtry := countUp x.rtry, fails := 0 }
      ∧ (x.fails + 1 < 8 → at' (retried s port false) = { x with rtry := countUp x.rtry, fails := x.fails + 1 })
      ∧ (8 ≤ x.fails + 1 → (at' (retried s port false)).up = false ∧ (at' (retried s port false)).rtry = countUp x.rtry))

/-- The host reads and writes memory through BAR2 only in lines of the ranges it may reach: elsewhere it reads zero and its
writes are discarded; poison reads as ones. Under a key that Thimble writes into a slot, or that a zeroised slot holds, the
memory of its ranges reads as what lies there deciphers to; a span that comes back under the key its contents were written
under reads as they were written. An object that a session unseals, under the key derived from the secret encapsulated for it,
is written where its tag holds and its destination lies in the partition's encrypted ranges (spec/25, R367, R369 to R371;
assumption log, 12). -/
def Sys2Proof.Claims.HostAndKeys : Prop :=
  ∀ (s : State),
    (s.perst = false → ∀ off bs, ∃ t, exec (.hostBar2Access off (.write bs)) s = .next t ∧ (∀ k, t.hart k = s.hart k)
      ∧ (∀ i (h : i < bs.length), t.byte (off + i) = if hostLine s (off + i) then bs[i] else s.byte (off + i))
      ∧ ∀ a, (a < off ∨ off + bs.length ≤ a) → t.byte a = s.byte a)
    ∧ (s.perst = false → ∀ off n, (∀ i, i < n → hostLine s (off + i) = true → s.readsPoison (off + i) 1 = false) → exec (.hostBar2Access off (.read n)) s = .next { s with
        bus := ⟨(List.range n).map fun i => if hostLine s (off + i) then s.byte (off + i) else 0, false⟩ })
    ∧ (s.perst = false → ∀ off n i, i < n → hostLine s (off + i) = true → s.readsPoison (off + i) 1 = true →
        exec (.hostBar2Access off (.read n)) s = .next { s with bus := ⟨List.replicate n 0xFF, true⟩ })
    ∧ (∀ d slot, (∀ x ∈ s.keyed, x.key ≤ s.free) →
        let reads (t : State) (n a : Nat) : Prop := t.byte a =
          ((underKey decipher (n + 1) (a / 64) (underKey encipher (keyAt (a / 64) s.keyed) (a / 64)
            ((List.range 64).map fun i => memGet s.mem (64 * (a / 64) + i))))[a % 64]?).getD 0
        let under (t : State) : Prop := t.mem = s.mem ∧ ∀ e ∈ (s.die d).ranges, e.2.en = true → e.2.ks.toNat = slot → ∀ a,
          e.2.base ≤ 64 * (a / 64) → 64 * (a / 64) < e.2.base + e.2.bytes → ∃ n, s.free ≤ n ∧ reads t n a ∧ mapGet 0 (t.die d).memKeys slot = n
        (1 ≤ slot → slot < 32 →
          (∃ t, exec (.keyRequest d slot) s = .next t ∧ under t ∧ mapGet 0 (t.die d).memKeys slot = s.free)
          ∧ ∃ t, exec (.keyZeroise d slot) s = .next t ∧ under t ∧ ∀ e ∈ (t.die d).memKeys, e.1 = slot → s.free ≤ e.2)
        ∧ ((slot = 0 ∨ 32 ≤ slot) → exec (.keyRequest d slot) s = .next s ∧ exec (.keyZeroise d slot) s = .next s))
    ∧ (∀ base size key a, base ≤ 64 * (a / 64) → 64 * (a / 64) < base + size → keyAt (a / 64) s.keyed = key →
        (rekey s base size key).byte a = memGet s.mem a)
    ∧ ∀ (r : UnsealReq) e, s.sessions.find? (fun e => e.1 == r.pid.toNat) = some e →
        ∃ t, exec (.sessionUnseal r) s = .next t ∧ (∀ k, t.hart k = s.hart k) ∧
          match gcmOpen (shake256 (Config.encapOpen e.2 r.sealedKey) 32) r.iv (s.bytes r.src r.len) r.tag with
          | none => t = s
          | some bs => if covered (encryptedRanges s r.pid) (r.dst + bs.length) r.dst 130 then
              t.bytes r.dst bs.length = bs ∧ ∀ a, (a < r.dst ∨ r.dst + bs.length ≤ a) → t.byte a = s.byte a
            else t = s

/-- The first boot stage takes an identity block; a stage whose image is accepted is measured and started, and another stops
boot; the chain of measurements is extended by hashing; a report is signed and starts a session; the caps withhold issue
slots; PERST disables the launch FIFOs; a package reset leaves every field at its reset value but the counters of boots and of
trees, with the model's schedule kept: that these and the count of draws stay is the choice of assumption log, 48 (spec/00,
R8; spec/25, R371 to R376; assumption log, 3, 13, 26). -/
def Sys2Proof.Claims.BootAndReset : Prop :=
  ∀ (img : BootImage) (pid : Nat) (data nonce : List Byte) (s : State),
    let chain := if s.thimble.measure = [] then shake256 Config.romAndFuses 64 else s.thimble.measure
    let ext (x : List Byte) : Thimble := { s.thimble with measure := shake256 (chain ++ shake256 x 64) 64 }
    let ok := shake256 img.publicKey 32 = Config.fuseKeyHash ∧ img.signature.length = 2820
      ∧ xmssVerify img.publicKey img.bytes img.signature = true ∧ Config.fuseVersion ≤ img.version
    let n := Config.fuseCounter + s.thimble.counter
    let block : Thimble := if s.thimble.noid = true then s.thimble
      else if 4096 ≤ n ∨ Config.counterStep n = false then { s.thimble with noid := true, block := none }
      else { s.thimble with counter := s.thimble.counter + 1, block := some (n, 0) }
    (s.boot = .rom → exec (.bootStage img) s =
        .next (if ok then { s with thimble := { block with measure := (ext img.bytes).measure }, boot := .stage1 }
               else { s with thimble := block, boot := .stopped false }))
    ∧ (s.boot = .stage1 → exec (.bootStage img) s =
        .next (if ok then { s with thimble := ext img.bytes, boot := .delveloth } else { s with boot := .stopped true }))
    ∧ ((s.boot = .delveloth ∨ ∃ p, s.boot = .stopped p) → exec (.bootStage img) s = .next s)
    ∧ exec (.measurementExtend data) s = .next { s with thimble := ext data }
    ∧ (nonce.length ≠ 32 → exec (.attestationReport pid nonce) s = .next s)
    ∧ (nonce.length = 32 → ∃ t r, exec (.attestationReport pid nonce) s = .next t ∧ t.reports = s.reports ++ [r]
        ∧ mapGet 0 t.sessions pid = s.free ∧ t.free = s.free + 1 ∧ t.thimble.measure = s.thimble.measure
        ∧ (∀ k, t.hart k = s.hart k) ∧ ∀ a, t.byte a = s.byte a)
    ∧ exec (.currentAndThermalCaps .withhold) s = .next { s with withheld := true }
    ∧ exec (.currentAndThermalCaps .allow) s = .next { s with withheld := false }
    ∧ (∃ t, exec .perstDeassertion s = .next t ∧ t = { s with dies := t.dies, perst := false }
        ∧ ∀ d f, d < 2 → (mapGet Fifo.reset (t.die d).fifos f) = { mapGet Fifo.reset (s.die d).fifos f with en := false })
    ∧ exec .packageReset s = .next { State.reset with
        agenda := s.agenda, free := s.free, turn := s.turn,
        thimble := { Thimble.reset with counter := s.thimble.counter, trees := s.thimble.trees } }

/-! ### Encodings -/

/-- Words written out from the layouts and tables of the spec decode to the instructions they stand for, and words that break
them are refused by the check that they fail (spec/03, R45, R48 to R58; the words worked in spec/06, R124, spec/09, spec/10,
spec/20, spec/22). -/
def Sys2Proof.Claims.DecodedWords : Prop :=
  decodeS 0x04430800 = .ok (.add 2 3 1) ∧ decodeS 0xB4000000 = .ok .nop ∧ decodeS 0xC0B40000 = .ok (.tkjoin 5 20)
  ∧ decodeS 0xC0D40001 = .ok (.tkarr 6 20) ∧ decodeS 0xC0F43002 = .ok (.tkwait 7 20 6)
  ∧ decodeS 0xC4F60002 = .ok (.lstat 7 22) ∧ decodeS 0xD0050000 = .ok (.lgrel 5)
  ∧ decodeV 0xD24A000014000000 = .ok (.vrev 9 8 1 4) ∧ decodeV 0x9000040000000000 = .ok (.frcfg 0 2)
  ∧ decodeV 0x8218440003000000 = .ok (.zadd 3 1 2 3) ∧ decodeV 0x9720800000000000 = .ok (.frtest 4 0 2 ⟨0, false⟩)
  ∧ decodeS 0x00000000 = .error .reservedOpcode ∧ decodeS 0x044307FF = .error .reservedFunction
  ∧ decodeS 0xB4010000 = .error .nonzeroField

/-- Decoding the word of a well-formed S-word gives the instruction back (spec/03, R45 to R52). -/
def Obligations.ScalarEncodingRoundTrip : Prop :=
  ∀ (i : Instr) (f : SFields), i.wellFormed = true → encode i = .s f → decodeS f.word = .ok i

/-- Decoding the word of a well-formed V-word gives the instruction back (spec/03, R53 to R57). -/
def Obligations.VectorEncodingRoundTrip : Prop :=
  ∀ (i : Instr) (f : VFields), i.wellFormed = true → encode i = .v f → decodeV f.word = .ok i

/-- Each S-word has one meaning: a word that decodes is the one its instruction encodes to, and that instruction is well
formed (spec/03, R45, R58). -/
def Obligations.ScalarWordsHaveOneMeaning : Prop :=
  ∀ (w : BitVec 32) (i : Instr), decodeS w = .ok i → i.wellFormed = true ∧ ∃ f, encode i = .s f ∧ f.word = w

/-! ### Reset and what every step keeps -/

/-- After package reset: every hart is idle in U state with c.k 1, no flag, every c.fi all ones and an empty handler address;
no range, FIFO, queue, channel or port is enabled, limits and quotas are at their maxima, counts are zero, the first tick
comes at cycle 2,048, and memory is in its canonical form (spec/00, R8; spec/02, R28; spec/12, R205; spec/20, R310, R322;
spec/21, R324; spec/22, R342 to R345; spec/25, R364, R365, R376, R378; the values the spec does not give: assumption log, 1,
2). -/
def Sys2Proof.Claims.ResetState : Prop :=
  let s := State.reset
  (∀ h, (s.hart h).run = .idle ∧ (s.hart h).kmode = false ∧ (s.hart h).k = 1 ∧ (s.hart h).flags = 0 ∧ (s.hart h).tvec = 0
    ∧ (∀ c : Fin 9, (s.hart h).fi.get c = 0xFFFFFFFF) ∧ (∀ r, (s.hart h).getS r = 0)
    ∧ (s.hart h).lane.gcap = 8 ∧ (s.hart h).lane.wgt = 1 ∧ (s.hart h).lane.occ = false)
  ∧ (∀ d i, (mapGet MemRange.reset (s.die d).ranges i).en = false ∧ (mapGet Fifo.reset (s.die d).fifos i).en = false
    ∧ (mapGet Queue.reset (s.die d).queues i).en = false ∧ (mapGet Port.reset (s.die d).ports i).en = false
    ∧ (s.chan d i).en = false ∧ (s.chan d i).phase = 0 ∧ (s.die d).npois = 0 ∧ (s.die d).spfull = 0 ∧ (s.die d).sen = false)
  ∧ (∀ d p, pmaxOf s d p = 4096 ∧ dlimOf s d p = 8) ∧ (∀ c, (s.cluster c).en = false ∧ (s.cluster c).wlim = 256)
  ∧ s.plim = 2200 ∧ s.time = 0 ∧ s.ftick = 0 ∧ s.nextTick = 2048 ∧ s.ringWr = s.ringRd ∧ Memory.wf s.mem

/-- Every step keeps memory in its canonical form: locations strictly rising, none listed with the value an unlisted one reads
as. -/
def Obligations.StepsKeepMemoryCanonical : Prop :=
  ∀ s t : State, Memory.wf s.mem → step s = .next t → Memory.wf t.mem

/-- Every step keeps s0 at zero and c.k between 1 and 16 in every context (spec/02, R18, R19, R29, R35). -/
def Obligations.StepsKeepZeroAndBaseCount : Prop :=
  let inv (s : State) : Prop := ∀ h, (s.hart h).s.get 0 = 0 ∧ 1 ≤ (s.hart h).k.toNat ∧ (s.hart h).k.toNat ≤ 16
  inv State.reset ∧ ∀ s t : State, inv s → step s = .next t → inv t

/-- An instruction that a hart executes in U mode changes neither its handler address, its scratch word, c.lazy nor its ASID,
and leaves U mode only at the handler's address (spec/02, R28, R35, R38, R41). -/
def Obligations.UserModeKeepsKernelWords : Prop :=
  ∀ (i : Instr) (s t : State), i.isEvent = false → s.me.kmode = false → exec i s = .next t →
    t.me.tvec = s.me.tvec ∧ t.me.kscr = s.me.kscr ∧ t.me.lazy = s.me.lazy ∧ t.me.asid = s.me.asid
    ∧ (t.me.kmode = true → t.me.pc = s.me.tvec ∧ t.me.pmode = false)

/-! ### The claims above, as the provers take them -/

/-- A step runs the S-word at the pc, the V-word of the block, the event that is due or named, or another agent: StepRunsSWord, StepRunsVWord, StepRunsEvent, StepRunsAgent above. -/
def Obligations.StepRunsTheNextInstruction : Prop :=
  Sys2Proof.Claims.StepRunsSWord ∧ Sys2Proof.Claims.StepRunsVWord ∧ Sys2Proof.Claims.StepRunsEvent ∧ Sys2Proof.Claims.StepRunsAgent

/-- The integer group: every result and the divisions by zero: IntegerGroupResults, DivisionResults, BitCountResults above. -/
def Obligations.IntegerResults : Prop :=
  Sys2Proof.Claims.IntegerGroupResults ∧ Sys2Proof.Claims.DivisionResults ∧ Sys2Proof.Claims.BitCountResults

/-- Immediate forms, branches, jumps: ImmediateResults, BranchesAndJumps above. -/
def Obligations.ImmediatesAndBranches : Prop :=
  Sys2Proof.Claims.ImmediateResults ∧ Sys2Proof.Claims.BranchesAndJumps

/-- Scalar loads and stores complete, with their frame: ScalarLoadResults, ScalarStoreResults above. -/
def Obligations.ScalarLoadsAndStores : Prop :=
  Sys2Proof.Claims.ScalarLoadResults ∧ Sys2Proof.Claims.ScalarStoreResults

/-- The checks of scalar accesses, in order: ScalarAccessTraps, AddressChecks above. -/
def Obligations.ScalarAccessChecks : Prop :=
  Sys2Proof.Claims.ScalarAccessTraps ∧ Sys2Proof.Claims.AddressChecks

/-- Atomics and fences complete, with their frame: AtomicResults, FenceResults above. -/
def Obligations.AtomicsAndFences : Prop :=
  Sys2Proof.Claims.AtomicResults ∧ Sys2Proof.Claims.FenceResults

/-- The scalar floating-point group, compares, classification, conversion: ScalarFloatResults, ScalarFloatTestsAndConversions above. -/
def Obligations.ScalarFloat : Prop :=
  Sys2Proof.Claims.ScalarFloatResults ∧ Sys2Proof.Claims.ScalarFloatTestsAndConversions

/-- Control words are read and written: ControlWordAccess, FlagsWriteResetsFirstIndex above. -/
def Obligations.ControlWords : Prop :=
  Sys2Proof.Claims.ControlWordAccess ∧ Sys2Proof.Claims.FlagsWriteResetsFirstIndex

/-- sys, brk, trp and nop; traps that are not delivered: TrapInstructionsTrap, UndeliveredTraps above. -/
def Obligations.TrapInstructions : Prop :=
  Sys2Proof.Claims.TrapInstructionsTrap ∧ Sys2Proof.Claims.UndeliveredTraps

/-- Taking a trap or a request, and eret: TrapsAndRequests, ReturnFromTrap above. -/
def Obligations.TrapEntryAndReturn : Prop :=
  Sys2Proof.Claims.TrapsAndRequests ∧ Sys2Proof.Claims.ReturnFromTrap

/-- The instructions of the tack net: TackJoin, TackArrivals, TackBroadcasts, TackChecks above. -/
def Obligations.TackInstructions : Prop :=
  Sys2Proof.Claims.TackJoin ∧ Sys2Proof.Claims.TackArrivals ∧ Sys2Proof.Claims.TackBroadcasts ∧ Sys2Proof.Claims.TackChecks

/-- The hubs of the tack net and pre-emption: HubCycles, HubSignalsArrive, Preemption above. -/
def Obligations.TackHubs : Prop :=
  Sys2Proof.Claims.HubCycles ∧ Sys2Proof.Claims.HubSignalsArrive ∧ Sys2Proof.Claims.Preemption

/-- lnch, lwait, lstat, lcanc: DeviceLaunch, LaunchWaitStateCancel above. -/
def Obligations.LaunchInstructions : Prop :=
  Sys2Proof.Claims.DeviceLaunch ∧ Sys2Proof.Claims.LaunchWaitStateCancel

/-- Futures, the cutting table, patterns, and how waits end: Futures, CuttingAndPatterns, WaitsEnd above. -/
def Obligations.FuturesAndWaits : Prop :=
  Sys2Proof.Claims.Futures ∧ Sys2Proof.Claims.CuttingAndPatterns ∧ Sys2Proof.Claims.WaitsEnd

/-- Grants, gangs, trios: GangsAndReleases, TrioForms, GrantEvents above. -/
def Obligations.GrantsGangsTrios : Prop :=
  Sys2Proof.Claims.GangsAndReleases ∧ Sys2Proof.Claims.TrioForms ∧ Sys2Proof.Claims.GrantEvents

/-- Task instructions, end, tdone: TaskInstructions, EndOfHart above. -/
def Obligations.TasksAndEnd : Prop :=
  Sys2Proof.Claims.TaskInstructions ∧ Sys2Proof.Claims.EndOfHart

/-- Vector compares and predicate instructions: CompareResults, PredicateResults above. -/
def Obligations.ComparesAndPredicates : Prop :=
  Sys2Proof.Claims.CompareResults ∧ Sys2Proof.Claims.PredicateResults

/-- Reshaping instructions: DistributionResults, PackResults, PartitionResults, ConcatenationResults, SortResults above. -/
def Obligations.ReshapingResults : Prop :=
  Sys2Proof.Claims.DistributionResults ∧ Sys2Proof.Claims.PackResults ∧ Sys2Proof.Claims.PartitionResults ∧ Sys2Proof.Claims.ConcatenationResults ∧ Sys2Proof.Claims.SortResults

/-- Reductions and scans of segments: ReductionResults, ReductionTree, ScanResults, ScanSteps above. -/
def Obligations.ReductionsAndScans : Prop :=
  Sys2Proof.Claims.ReductionResults ∧ Sys2Proof.Claims.ReductionTree ∧ Sys2Proof.Claims.ScanResults ∧ Sys2Proof.Claims.ScanSteps

/-- Carries across segments and row conversions: CarryResults, RowConversionResults above. -/
def Obligations.CarriesAndRowConversions : Prop :=
  Sys2Proof.Claims.CarryResults ∧ Sys2Proof.Claims.RowConversionResults

/-- Faults of the indexed forms and their records: GatherFaults above. -/
def Obligations.VectorMemoryFaults : Prop :=
  Sys2Proof.Claims.GatherFaults

/-- Vector stores, ordered and scattered: OrderedStores, ScatterStores above. -/
def Obligations.StoresOfVectors : Prop :=
  Sys2Proof.Claims.OrderedStores ∧ Sys2Proof.Claims.ScatterStores

/-- A restore gives back what a save stored: Saves, RestoresGiveBackWhatSavesStore above. -/
def Obligations.SavesAndRestores : Prop :=
  Sys2Proof.Claims.Saves ∧ Sys2Proof.Claims.RestoresGiveBackWhatSavesStore

/-- Sparse merges, conversions, images: SparseMerges, SparseAndVectors, SparseAndFrontImages above. -/
def Obligations.SparseRegisters : Prop :=
  Sys2Proof.Claims.SparseMerges ∧ Sys2Proof.Claims.SparseAndVectors ∧ Sys2Proof.Claims.SparseAndFrontImages

/-- Insertions, merges, reads and tests of front registers: FrontOffers, FrontInstructions above. -/
def Obligations.FrontOperations : Prop :=
  Sys2Proof.Claims.FrontOffers ∧ Sys2Proof.Claims.FrontInstructions

/-- Tiles, shapes, commands of the matrix queue: TilesAndShapes, MatrixCommands above. -/
def Obligations.MatrixInstructions : Prop :=
  Sys2Proof.Claims.TilesAndShapes ∧ Sys2Proof.Claims.MatrixCommands

/-- Bobbins open, close, save and restore: BobbinsOpenAndClose, BobbinImages above. -/
def Obligations.Bobbins : Prop :=
  Sys2Proof.Claims.BobbinsOpenAndClose ∧ Sys2Proof.Claims.BobbinImages

/-- Rings, route modes, task summaries: TrioRings, RoutesAndSummaries above. -/
def Obligations.RingsRoutesSummaries : Prop :=
  Sys2Proof.Claims.TrioRings ∧ Sys2Proof.Claims.RoutesAndSummaries

/-- Remote instructions and what the fabric brings: RemoteInstructions, FabricEvents above. -/
def Obligations.FabricRequests : Prop :=
  Sys2Proof.Claims.RemoteInstructions ∧ Sys2Proof.Claims.FabricEvents

/-- Packets are performed; frames and spilling: PacketsArePerformed, FramesAndSpilling above. -/
def Obligations.NetworkAndFrames : Prop :=
  Sys2Proof.Claims.PacketsArePerformed ∧ Sys2Proof.Claims.FramesAndSpilling

/-- Host records, dispatch, completion: HostLaunches, LaunchesDispatchAndComplete above. -/
def Obligations.LaunchesFromHostToCompletion : Prop :=
  Sys2Proof.Claims.HostLaunches ∧ Sys2Proof.Claims.LaunchesDispatchAndComplete

/-- Tasks fire, start and retire; a cluster is reset: TasksAndClusterReset above. -/
def Obligations.TaskEventsAndClusterReset : Prop :=
  Sys2Proof.Claims.TasksAndClusterReset

/-- Invalidations; the counts that a read clears: Invalidations, ReadsThatClear above. -/
def Obligations.InvalidationsAndCounts : Prop :=
  Sys2Proof.Claims.Invalidations ∧ Sys2Proof.Claims.ReadsThatClear

/-- Register writes and the fault ring: FaultRecords, RegisterWrites above. -/
def Obligations.RegistersAndFaultRecords : Prop :=
  Sys2Proof.Claims.FaultRecords ∧ Sys2Proof.Claims.RegisterWrites

/-- Memory errors, failures, ports: ErrorsAndFailures, PortsTrainAndFail above. -/
def Obligations.FailuresAndPorts : Prop :=
  Sys2Proof.Claims.ErrorsAndFailures ∧ Sys2Proof.Claims.PortsTrainAndFail

/-- Host accesses, keys, boot, package reset: HostAndKeys, BootAndReset above. -/
def Obligations.HostKeysBootReset : Prop :=
  Sys2Proof.Claims.HostAndKeys ∧ Sys2Proof.Claims.BootAndReset

/-- Words written out from the spec decode as they stand: DecodedWords above. -/
def Obligations.WordsDecodeAsWritten : Prop :=
  Sys2Proof.Claims.DecodedWords

/-- The state after package reset: ResetState above. -/
def Obligations.ResetStateHolds : Prop :=
  Sys2Proof.Claims.ResetState
end

