-- ==== Sys2Proof/Laws/Encoding.lean ====
section
/-!
SUPPORT. Laws/Encoding.lean: cutting a joined word gives its fields back.
-/
namespace Sys2Proof

theorem SFields.ofWord_word (f : SFields) : SFields.ofWord f.word = f := by
  obtain ⟨op, d, a, lo⟩ := f
  simp only [SFields.ofWord, SFields.word, SFields.mk.injEq]
  refine ⟨?_, ?_, ?_, ?_⟩ <;> (apply BitVec.eq_of_getLsbD_eq; intro i hi)
  all_goals
    simp only [BitVec.getLsbD_extractLsb', BitVec.getLsbD_append, hi, decide_true, Bool.true_and]
    repeat (first | rw [if_pos (by omega)] | rw [if_neg (by omega)])
    congr 1; omega

theorem VFields.ofWord_word (f : VFields) : VFields.ofWord f.word = f := by
  obtain ⟨op, vd, va, vb, vc, pm, zm, dep, fs, fn, imm⟩ := f
  simp only [VFields.ofWord, VFields.word, VFields.mk.injEq]
  refine ⟨?_, ?_, ?_, ?_, ?_, ?_, ?_, ?_, ?_, ?_, ?_⟩ <;> (apply BitVec.eq_of_getLsbD_eq; intro i hi)
  all_goals
    simp only [BitVec.getLsbD_extractLsb', BitVec.getLsbD_append, hi, decide_true, Bool.true_and]
    repeat (first | rw [if_pos (by omega)] | rw [if_neg (by omega)])
    congr 1; omega

/-- A word cut into fields is joined again. -/
theorem SFields.word_ofWord (w : BitVec 32) : (SFields.ofWord w).word = w := by
  apply BitVec.eq_of_getLsbD_eq
  intro i hi
  simp only [SFields.ofWord, SFields.word, BitVec.getLsbD_append, BitVec.getLsbD_extractLsb']
  repeat' split
  all_goals rw [decide_eq_true (by omega), Bool.true_and]; congr 1; omega

/-- A word cut into fields is joined again. -/
theorem VFields.word_ofWord (w : BitVec 64) : (VFields.ofWord w).word = w := by
  apply BitVec.eq_of_getLsbD_eq
  intro i hi
  simp only [VFields.ofWord, VFields.word, BitVec.getLsbD_append, BitVec.getLsbD_extractLsb']
  repeat' split
  all_goals rw [decide_eq_true (by omega), Bool.true_and]; congr 1; omega

end Sys2Proof
end

