-- ==== Sys2Proof/Laws/Maps.lean ====
section
/-!
SUPPORT. Laws/Maps.lean: reading a sparse map after a write.
-/
namespace Sys2Proof.Machine

theorem mapGet_mapSet {α : Type} (d x : α) (i j : Nat) (m : List (Nat × α)) :
    mapGet d (mapSet i x m) j = if i = j then x else mapGet d m j := by
  induction m with
  | nil => simp [mapSet, mapGet]
  | cons e m ih =>
    obtain ⟨k, y⟩ := e
    simp only [mapSet]
    split
    · simp only [mapGet]
    · split
      · simp only [mapGet]; subst i; split <;> simp_all
      · simp only [mapGet, ih]
        split <;> split <;> first | rfl | omega

@[simp] theorem mapGet_mapSet_same {α : Type} (d x : α) (i : Nat) (m : List (Nat × α)) :
    mapGet d (mapSet i x m) i = x := by
  simp [mapGet_mapSet]

theorem mapGet_mapSet_other {α : Type} (d x : α) {i j : Nat} (h : j ≠ i) (m : List (Nat × α)) :
    mapGet d (mapSet i x m) j = mapGet d m j := by
  simp [mapGet_mapSet, Ne.symm h]

end Sys2Proof.Machine
end

