-- ==== Sys2Proof/Laws/State.lean ====
section
/-!
SUPPORT. Laws/State.lean: each field of the state after each update, so that no proof unfolds a record update.
-/
namespace Sys2Proof.Machine

/-! ### Harts -/

@[simp] theorem State.hart_updHart_same (s : State) (h : Nat) (f : Hart → Hart) : (s.updHart h f).hart h = f (s.hart h) := by
  simp [State.updHart, State.setHart, State.hart]

theorem State.hart_updHart_other (s : State) {h k : Nat} (hk : k ≠ h) (f : Hart → Hart) :
    (s.updHart h f).hart k = s.hart k := by
  simp [State.updHart, State.setHart, State.hart, mapGet_mapSet_other _ _ hk]

theorem State.hart_updHart (s : State) (h k : Nat) (f : Hart → Hart) :
    (s.updHart h f).hart k = if k = h then f (s.hart h) else s.hart k := by
  by_cases hk : k = h
  · subst hk; simp
  · simp [hk, State.hart_updHart_other s hk f]

theorem State.updMe_eq (s : State) (f : Hart → Hart) : s.updMe f = s.updHart s.cur f := rfl

@[simp] theorem State.me_updMe (s : State) (f : Hart → Hart) : (s.updMe f).me = f s.me := State.hart_updHart_same s s.cur f

theorem State.hart_updMe_other (s : State) {k : Nat} (hk : k ≠ s.cur) (f : Hart → Hart) : (s.updMe f).hart k = s.hart k :=
  State.hart_updHart_other s hk f

/-! ### Cores, clusters, dies -/

@[simp] theorem State.core_updCore_same (s : State) (i : Nat) (f : Core → Core) : (s.updCore i f).core i = f (s.core i) := by
  simp [State.updCore, State.core]

theorem State.core_updCore_other (s : State) {i j : Nat} (h : j ≠ i) (f : Core → Core) :
    (s.updCore i f).core j = s.core j := by
  simp [State.updCore, State.core, mapGet_mapSet_other _ _ h]

@[simp] theorem State.cluster_updCluster_same (s : State) (i : Nat) (f : Cluster → Cluster) :
    (s.updCluster i f).cluster i = f (s.cluster i) := by
  simp [State.updCluster, State.cluster]

theorem State.cluster_updCluster_other (s : State) {i j : Nat} (h : j ≠ i) (f : Cluster → Cluster) :
    (s.updCluster i f).cluster j = s.cluster j := by
  simp [State.updCluster, State.cluster, mapGet_mapSet_other _ _ h]

@[simp] theorem State.die_updDie_same (s : State) (i : Nat) (f : Die → Die) : (s.updDie i f).die i = f (s.die i) := by
  simp [State.updDie, State.die]

theorem State.die_updDie_other (s : State) {i j : Nat} (h : j ≠ i) (f : Die → Die) :
    (s.updDie i f).die j = s.die j := by
  simp [State.updDie, State.die, mapGet_mapSet_other _ _ h]

/-! ### Fields -/

@[simp] theorem State.updHart_cur (s : State) (h : Nat) (f : Hart → Hart) : (s.updHart h f).cur = s.cur := rfl
@[simp] theorem State.updHart_agenda (s : State) (h : Nat) (f : Hart → Hart) : (s.updHart h f).agenda = s.agenda := rfl
@[simp] theorem State.updHart_free (s : State) (h : Nat) (f : Hart → Hart) : (s.updHart h f).free = s.free := rfl
@[simp] theorem State.updHart_turn (s : State) (h : Nat) (f : Hart → Hart) : (s.updHart h f).turn = s.turn := rfl
@[simp] theorem State.updHart_brk (s : State) (h : Nat) (f : Hart → Hart) : (s.updHart h f).brk = s.brk := rfl
@[simp] theorem State.updHart_arrivals (s : State) (h : Nat) (f : Hart → Hart) : (s.updHart h f).arrivals = s.arrivals := rfl
@[simp] theorem State.updHart_time (s : State) (h : Nat) (f : Hart → Hart) : (s.updHart h f).time = s.time := rfl
@[simp] theorem State.updHart_nextTick (s : State) (h : Nat) (f : Hart → Hart) : (s.updHart h f).nextTick = s.nextTick := rfl
@[simp] theorem State.updHart_ftick (s : State) (h : Nat) (f : Hart → Hart) : (s.updHart h f).ftick = s.ftick := rfl
@[simp] theorem State.updHart_tickHeld (s : State) (h : Nat) (f : Hart → Hart) : (s.updHart h f).tickHeld = s.tickHeld := rfl
@[simp] theorem State.updHart_mem (s : State) (h : Nat) (f : Hart → Hart) : (s.updHart h f).mem = s.mem := rfl
@[simp] theorem State.updHart_poison (s : State) (h : Nat) (f : Hart → Hart) : (s.updHart h f).poison = s.poison := rfl
@[simp] theorem State.updHart_lossy (s : State) (h : Nat) (f : Hart → Hart) : (s.updHart h f).lossy = s.lossy := rfl
@[simp] theorem State.updHart_lost (s : State) (h : Nat) (f : Hart → Hart) : (s.updHart h f).lost = s.lost := rfl
@[simp] theorem State.updHart_keyed (s : State) (h : Nat) (f : Hart → Hart) : (s.updHart h f).keyed = s.keyed := rfl
@[simp] theorem State.updHart_net (s : State) (h : Nat) (f : Hart → Hart) : (s.updHart h f).net = s.net := rfl
@[simp] theorem State.updHart_cores (s : State) (h : Nat) (f : Hart → Hart) : (s.updHart h f).cores = s.cores := rfl
@[simp] theorem State.updHart_clusters (s : State) (h : Nat) (f : Hart → Hart) : (s.updHart h f).clusters = s.clusters := rfl
@[simp] theorem State.updHart_dies (s : State) (h : Nat) (f : Hart → Hart) : (s.updHart h f).dies = s.dies := rfl
@[simp] theorem State.updHart_pkgChans (s : State) (h : Nat) (f : Hart → Hart) : (s.updHart h f).pkgChans = s.pkgChans := rfl
@[simp] theorem State.updHart_plim (s : State) (h : Nat) (f : Hart → Hart) : (s.updHart h f).plim = s.plim := rfl
@[simp] theorem State.updHart_withheld (s : State) (h : Nat) (f : Hart → Hart) : (s.updHart h f).withheld = s.withheld := rfl
@[simp] theorem State.updHart_halted (s : State) (h : Nat) (f : Hart → Hart) : (s.updHart h f).halted = s.halted := rfl
@[simp] theorem State.updHart_ringWr (s : State) (h : Nat) (f : Hart → Hart) : (s.updHart h f).ringWr = s.ringWr := rfl
@[simp] theorem State.updHart_ringRd (s : State) (h : Nat) (f : Hart → Hart) : (s.updHart h f).ringRd = s.ringRd := rfl
@[simp] theorem State.updHart_ringDrops (s : State) (h : Nat) (f : Hart → Hart) : (s.updHart h f).ringDrops = s.ringDrops := rfl
@[simp] theorem State.updHart_fen (s : State) (h : Nat) (f : Hart → Hart) : (s.updHart h f).fen = s.fen := rfl
@[simp] theorem State.updHart_chip (s : State) (h : Nat) (f : Hart → Hart) : (s.updHart h f).chip = s.chip := rfl
@[simp] theorem State.updHart_imports (s : State) (h : Nat) (f : Hart → Hart) : (s.updHart h f).imports = s.imports := rfl
@[simp] theorem State.updHart_thimble (s : State) (h : Nat) (f : Hart → Hart) : (s.updHart h f).thimble = s.thimble := rfl
@[simp] theorem State.updHart_boot (s : State) (h : Nat) (f : Hart → Hart) : (s.updHart h f).boot = s.boot := rfl
@[simp] theorem State.updHart_perst (s : State) (h : Nat) (f : Hart → Hart) : (s.updHart h f).perst = s.perst := rfl
@[simp] theorem State.updHart_sessions (s : State) (h : Nat) (f : Hart → Hart) : (s.updHart h f).sessions = s.sessions := rfl
@[simp] theorem State.updHart_msix (s : State) (h : Nat) (f : Hart → Hart) : (s.updHart h f).msix = s.msix := rfl
@[simp] theorem State.updHart_bus (s : State) (h : Nat) (f : Hart → Hart) : (s.updHart h f).bus = s.bus := rfl
@[simp] theorem State.updHart_reports (s : State) (h : Nat) (f : Hart → Hart) : (s.updHart h f).reports = s.reports := rfl
@[simp] theorem State.updHart_answers (s : State) (h : Nat) (f : Hart → Hart) : (s.updHart h f).answers = s.answers := rfl
@[simp] theorem State.updHart_requests (s : State) (h : Nat) (f : Hart → Hart) : (s.updHart h f).requests = s.requests := rfl
@[simp] theorem State.updHart_wire (s : State) (h : Nat) (f : Hart → Hart) : (s.updHart h f).wire = s.wire := rfl
@[simp] theorem State.updHart_stopped (s : State) (h : Nat) (f : Hart → Hart) : (s.updHart h f).stopped = s.stopped := rfl
@[simp] theorem State.updHart_evicted (s : State) (h : Nat) (f : Hart → Hart) : (s.updHart h f).evicted = s.evicted := rfl
@[simp] theorem State.updHart_core (s : State) (h : Nat) (f : Hart → Hart) (k : Nat) : (s.updHart h f).core k = s.core k := rfl
@[simp] theorem State.updHart_cluster (s : State) (h : Nat) (f : Hart → Hart) (k : Nat) : (s.updHart h f).cluster k = s.cluster k := rfl
@[simp] theorem State.updHart_die (s : State) (h : Nat) (f : Hart → Hart) (k : Nat) : (s.updHart h f).die k = s.die k := rfl
@[simp] theorem State.updHart_byte (s : State) (h : Nat) (f : Hart → Hart) (k : Nat) : (s.updHart h f).byte k = s.byte k := rfl

@[simp] theorem State.updMe_cur (s : State) (f : Hart → Hart) : (s.updMe f).cur = s.cur := rfl
@[simp] theorem State.updMe_agenda (s : State) (f : Hart → Hart) : (s.updMe f).agenda = s.agenda := rfl
@[simp] theorem State.updMe_free (s : State) (f : Hart → Hart) : (s.updMe f).free = s.free := rfl
@[simp] theorem State.updMe_turn (s : State) (f : Hart → Hart) : (s.updMe f).turn = s.turn := rfl
@[simp] theorem State.updMe_brk (s : State) (f : Hart → Hart) : (s.updMe f).brk = s.brk := rfl
@[simp] theorem State.updMe_arrivals (s : State) (f : Hart → Hart) : (s.updMe f).arrivals = s.arrivals := rfl
@[simp] theorem State.updMe_time (s : State) (f : Hart → Hart) : (s.updMe f).time = s.time := rfl
@[simp] theorem State.updMe_nextTick (s : State) (f : Hart → Hart) : (s.updMe f).nextTick = s.nextTick := rfl
@[simp] theorem State.updMe_ftick (s : State) (f : Hart → Hart) : (s.updMe f).ftick = s.ftick := rfl
@[simp] theorem State.updMe_tickHeld (s : State) (f : Hart → Hart) : (s.updMe f).tickHeld = s.tickHeld := rfl
@[simp] theorem State.updMe_mem (s : State) (f : Hart → Hart) : (s.updMe f).mem = s.mem := rfl
@[simp] theorem State.updMe_poison (s : State) (f : Hart → Hart) : (s.updMe f).poison = s.poison := rfl
@[simp] theorem State.updMe_lossy (s : State) (f : Hart → Hart) : (s.updMe f).lossy = s.lossy := rfl
@[simp] theorem State.updMe_lost (s : State) (f : Hart → Hart) : (s.updMe f).lost = s.lost := rfl
@[simp] theorem State.updMe_keyed (s : State) (f : Hart → Hart) : (s.updMe f).keyed = s.keyed := rfl
@[simp] theorem State.updMe_net (s : State) (f : Hart → Hart) : (s.updMe f).net = s.net := rfl
@[simp] theorem State.updMe_cores (s : State) (f : Hart → Hart) : (s.updMe f).cores = s.cores := rfl
@[simp] theorem State.updMe_clusters (s : State) (f : Hart → Hart) : (s.updMe f).clusters = s.clusters := rfl
@[simp] theorem State.updMe_dies (s : State) (f : Hart → Hart) : (s.updMe f).dies = s.dies := rfl
@[simp] theorem State.updMe_pkgChans (s : State) (f : Hart → Hart) : (s.updMe f).pkgChans = s.pkgChans := rfl
@[simp] theorem State.updMe_plim (s : State) (f : Hart → Hart) : (s.updMe f).plim = s.plim := rfl
@[simp] theorem State.updMe_withheld (s : State) (f : Hart → Hart) : (s.updMe f).withheld = s.withheld := rfl
@[simp] theorem State.updMe_halted (s : State) (f : Hart → Hart) : (s.updMe f).halted = s.halted := rfl
@[simp] theorem State.updMe_ringWr (s : State) (f : Hart → Hart) : (s.updMe f).ringWr = s.ringWr := rfl
@[simp] theorem State.updMe_ringRd (s : State) (f : Hart → Hart) : (s.updMe f).ringRd = s.ringRd := rfl
@[simp] theorem State.updMe_ringDrops (s : State) (f : Hart → Hart) : (s.updMe f).ringDrops = s.ringDrops := rfl
@[simp] theorem State.updMe_fen (s : State) (f : Hart → Hart) : (s.updMe f).fen = s.fen := rfl
@[simp] theorem State.updMe_chip (s : State) (f : Hart → Hart) : (s.updMe f).chip = s.chip := rfl
@[simp] theorem State.updMe_imports (s : State) (f : Hart → Hart) : (s.updMe f).imports = s.imports := rfl
@[simp] theorem State.updMe_thimble (s : State) (f : Hart → Hart) : (s.updMe f).thimble = s.thimble := rfl
@[simp] theorem State.updMe_boot (s : State) (f : Hart → Hart) : (s.updMe f).boot = s.boot := rfl
@[simp] theorem State.updMe_perst (s : State) (f : Hart → Hart) : (s.updMe f).perst = s.perst := rfl
@[simp] theorem State.updMe_sessions (s : State) (f : Hart → Hart) : (s.updMe f).sessions = s.sessions := rfl
@[simp] theorem State.updMe_msix (s : State) (f : Hart → Hart) : (s.updMe f).msix = s.msix := rfl
@[simp] theorem State.updMe_bus (s : State) (f : Hart → Hart) : (s.updMe f).bus = s.bus := rfl
@[simp] theorem State.updMe_reports (s : State) (f : Hart → Hart) : (s.updMe f).reports = s.reports := rfl
@[simp] theorem State.updMe_answers (s : State) (f : Hart → Hart) : (s.updMe f).answers = s.answers := rfl
@[simp] theorem State.updMe_requests (s : State) (f : Hart → Hart) : (s.updMe f).requests = s.requests := rfl
@[simp] theorem State.updMe_wire (s : State) (f : Hart → Hart) : (s.updMe f).wire = s.wire := rfl
@[simp] theorem State.updMe_stopped (s : State) (f : Hart → Hart) : (s.updMe f).stopped = s.stopped := rfl
@[simp] theorem State.updMe_evicted (s : State) (f : Hart → Hart) : (s.updMe f).evicted = s.evicted := rfl
@[simp] theorem State.updMe_core (s : State) (f : Hart → Hart) (k : Nat) : (s.updMe f).core k = s.core k := rfl
@[simp] theorem State.updMe_cluster (s : State) (f : Hart → Hart) (k : Nat) : (s.updMe f).cluster k = s.cluster k := rfl
@[simp] theorem State.updMe_die (s : State) (f : Hart → Hart) (k : Nat) : (s.updMe f).die k = s.die k := rfl
@[simp] theorem State.updMe_byte (s : State) (f : Hart → Hart) (k : Nat) : (s.updMe f).byte k = s.byte k := rfl

@[simp] theorem State.updCore_cur (s : State) (i : Nat) (f : Core → Core) : (s.updCore i f).cur = s.cur := rfl
@[simp] theorem State.updCore_agenda (s : State) (i : Nat) (f : Core → Core) : (s.updCore i f).agenda = s.agenda := rfl
@[simp] theorem State.updCore_free (s : State) (i : Nat) (f : Core → Core) : (s.updCore i f).free = s.free := rfl
@[simp] theorem State.updCore_turn (s : State) (i : Nat) (f : Core → Core) : (s.updCore i f).turn = s.turn := rfl
@[simp] theorem State.updCore_brk (s : State) (i : Nat) (f : Core → Core) : (s.updCore i f).brk = s.brk := rfl
@[simp] theorem State.updCore_arrivals (s : State) (i : Nat) (f : Core → Core) : (s.updCore i f).arrivals = s.arrivals := rfl
@[simp] theorem State.updCore_time (s : State) (i : Nat) (f : Core → Core) : (s.updCore i f).time = s.time := rfl
@[simp] theorem State.updCore_nextTick (s : State) (i : Nat) (f : Core → Core) : (s.updCore i f).nextTick = s.nextTick := rfl
@[simp] theorem State.updCore_ftick (s : State) (i : Nat) (f : Core → Core) : (s.updCore i f).ftick = s.ftick := rfl
@[simp] theorem State.updCore_tickHeld (s : State) (i : Nat) (f : Core → Core) : (s.updCore i f).tickHeld = s.tickHeld := rfl
@[simp] theorem State.updCore_mem (s : State) (i : Nat) (f : Core → Core) : (s.updCore i f).mem = s.mem := rfl
@[simp] theorem State.updCore_poison (s : State) (i : Nat) (f : Core → Core) : (s.updCore i f).poison = s.poison := rfl
@[simp] theorem State.updCore_lossy (s : State) (i : Nat) (f : Core → Core) : (s.updCore i f).lossy = s.lossy := rfl
@[simp] theorem State.updCore_lost (s : State) (i : Nat) (f : Core → Core) : (s.updCore i f).lost = s.lost := rfl
@[simp] theorem State.updCore_keyed (s : State) (i : Nat) (f : Core → Core) : (s.updCore i f).keyed = s.keyed := rfl
@[simp] theorem State.updCore_net (s : State) (i : Nat) (f : Core → Core) : (s.updCore i f).net = s.net := rfl
@[simp] theorem State.updCore_harts (s : State) (i : Nat) (f : Core → Core) : (s.updCore i f).harts = s.harts := rfl
@[simp] theorem State.updCore_clusters (s : State) (i : Nat) (f : Core → Core) : (s.updCore i f).clusters = s.clusters := rfl
@[simp] theorem State.updCore_dies (s : State) (i : Nat) (f : Core → Core) : (s.updCore i f).dies = s.dies := rfl
@[simp] theorem State.updCore_pkgChans (s : State) (i : Nat) (f : Core → Core) : (s.updCore i f).pkgChans = s.pkgChans := rfl
@[simp] theorem State.updCore_plim (s : State) (i : Nat) (f : Core → Core) : (s.updCore i f).plim = s.plim := rfl
@[simp] theorem State.updCore_withheld (s : State) (i : Nat) (f : Core → Core) : (s.updCore i f).withheld = s.withheld := rfl
@[simp] theorem State.updCore_halted (s : State) (i : Nat) (f : Core → Core) : (s.updCore i f).halted = s.halted := rfl
@[simp] theorem State.updCore_ringWr (s : State) (i : Nat) (f : Core → Core) : (s.updCore i f).ringWr = s.ringWr := rfl
@[simp] theorem State.updCore_ringRd (s : State) (i : Nat) (f : Core → Core) : (s.updCore i f).ringRd = s.ringRd := rfl
@[simp] theorem State.updCore_ringDrops (s : State) (i : Nat) (f : Core → Core) : (s.updCore i f).ringDrops = s.ringDrops := rfl
@[simp] theorem State.updCore_fen (s : State) (i : Nat) (f : Core → Core) : (s.updCore i f).fen = s.fen := rfl
@[simp] theorem State.updCore_chip (s : State) (i : Nat) (f : Core → Core) : (s.updCore i f).chip = s.chip := rfl
@[simp] theorem State.updCore_imports (s : State) (i : Nat) (f : Core → Core) : (s.updCore i f).imports = s.imports := rfl
@[simp] theorem State.updCore_thimble (s : State) (i : Nat) (f : Core → Core) : (s.updCore i f).thimble = s.thimble := rfl
@[simp] theorem State.updCore_boot (s : State) (i : Nat) (f : Core → Core) : (s.updCore i f).boot = s.boot := rfl
@[simp] theorem State.updCore_perst (s : State) (i : Nat) (f : Core → Core) : (s.updCore i f).perst = s.perst := rfl
@[simp] theorem State.updCore_sessions (s : State) (i : Nat) (f : Core → Core) : (s.updCore i f).sessions = s.sessions := rfl
@[simp] theorem State.updCore_msix (s : State) (i : Nat) (f : Core → Core) : (s.updCore i f).msix = s.msix := rfl
@[simp] theorem State.updCore_bus (s : State) (i : Nat) (f : Core → Core) : (s.updCore i f).bus = s.bus := rfl
@[simp] theorem State.updCore_reports (s : State) (i : Nat) (f : Core → Core) : (s.updCore i f).reports = s.reports := rfl
@[simp] theorem State.updCore_answers (s : State) (i : Nat) (f : Core → Core) : (s.updCore i f).answers = s.answers := rfl
@[simp] theorem State.updCore_requests (s : State) (i : Nat) (f : Core → Core) : (s.updCore i f).requests = s.requests := rfl
@[simp] theorem State.updCore_wire (s : State) (i : Nat) (f : Core → Core) : (s.updCore i f).wire = s.wire := rfl
@[simp] theorem State.updCore_stopped (s : State) (i : Nat) (f : Core → Core) : (s.updCore i f).stopped = s.stopped := rfl
@[simp] theorem State.updCore_evicted (s : State) (i : Nat) (f : Core → Core) : (s.updCore i f).evicted = s.evicted := rfl
@[simp] theorem State.updCore_hart (s : State) (i : Nat) (f : Core → Core) (k : Nat) : (s.updCore i f).hart k = s.hart k := rfl
@[simp] theorem State.updCore_cluster (s : State) (i : Nat) (f : Core → Core) (k : Nat) : (s.updCore i f).cluster k = s.cluster k := rfl
@[simp] theorem State.updCore_die (s : State) (i : Nat) (f : Core → Core) (k : Nat) : (s.updCore i f).die k = s.die k := rfl
@[simp] theorem State.updCore_byte (s : State) (i : Nat) (f : Core → Core) (k : Nat) : (s.updCore i f).byte k = s.byte k := rfl
@[simp] theorem State.updCore_me (s : State) (i : Nat) (f : Core → Core) : (s.updCore i f).me = s.me := rfl

@[simp] theorem State.updCluster_cur (s : State) (i : Nat) (f : Cluster → Cluster) : (s.updCluster i f).cur = s.cur := rfl
@[simp] theorem State.updCluster_agenda (s : State) (i : Nat) (f : Cluster → Cluster) : (s.updCluster i f).agenda = s.agenda := rfl
@[simp] theorem State.updCluster_free (s : State) (i : Nat) (f : Cluster → Cluster) : (s.updCluster i f).free = s.free := rfl
@[simp] theorem State.updCluster_turn (s : State) (i : Nat) (f : Cluster → Cluster) : (s.updCluster i f).turn = s.turn := rfl
@[simp] theorem State.updCluster_brk (s : State) (i : Nat) (f : Cluster → Cluster) : (s.updCluster i f).brk = s.brk := rfl
@[simp] theorem State.updCluster_arrivals (s : State) (i : Nat) (f : Cluster → Cluster) : (s.updCluster i f).arrivals = s.arrivals := rfl
@[simp] theorem State.updCluster_time (s : State) (i : Nat) (f : Cluster → Cluster) : (s.updCluster i f).time = s.time := rfl
@[simp] theorem State.updCluster_nextTick (s : State) (i : Nat) (f : Cluster → Cluster) : (s.updCluster i f).nextTick = s.nextTick := rfl
@[simp] theorem State.updCluster_ftick (s : State) (i : Nat) (f : Cluster → Cluster) : (s.updCluster i f).ftick = s.ftick := rfl
@[simp] theorem State.updCluster_tickHeld (s : State) (i : Nat) (f : Cluster → Cluster) : (s.updCluster i f).tickHeld = s.tickHeld := rfl
@[simp] theorem State.updCluster_mem (s : State) (i : Nat) (f : Cluster → Cluster) : (s.updCluster i f).mem = s.mem := rfl
@[simp] theorem State.updCluster_poison (s : State) (i : Nat) (f : Cluster → Cluster) : (s.updCluster i f).poison = s.poison := rfl
@[simp] theorem State.updCluster_lossy (s : State) (i : Nat) (f : Cluster → Cluster) : (s.updCluster i f).lossy = s.lossy := rfl
@[simp] theorem State.updCluster_lost (s : State) (i : Nat) (f : Cluster → Cluster) : (s.updCluster i f).lost = s.lost := rfl
@[simp] theorem State.updCluster_keyed (s : State) (i : Nat) (f : Cluster → Cluster) : (s.updCluster i f).keyed = s.keyed := rfl
@[simp] theorem State.updCluster_net (s : State) (i : Nat) (f : Cluster → Cluster) : (s.updCluster i f).net = s.net := rfl
@[simp] theorem State.updCluster_harts (s : State) (i : Nat) (f : Cluster → Cluster) : (s.updCluster i f).harts = s.harts := rfl
@[simp] theorem State.updCluster_cores (s : State) (i : Nat) (f : Cluster → Cluster) : (s.updCluster i f).cores = s.cores := rfl
@[simp] theorem State.updCluster_dies (s : State) (i : Nat) (f : Cluster → Cluster) : (s.updCluster i f).dies = s.dies := rfl
@[simp] theorem State.updCluster_pkgChans (s : State) (i : Nat) (f : Cluster → Cluster) : (s.updCluster i f).pkgChans = s.pkgChans := rfl
@[simp] theorem State.updCluster_plim (s : State) (i : Nat) (f : Cluster → Cluster) : (s.updCluster i f).plim = s.plim := rfl
@[simp] theorem State.updCluster_withheld (s : State) (i : Nat) (f : Cluster → Cluster) : (s.updCluster i f).withheld = s.withheld := rfl
@[simp] theorem State.updCluster_halted (s : State) (i : Nat) (f : Cluster → Cluster) : (s.updCluster i f).halted = s.halted := rfl
@[simp] theorem State.updCluster_ringWr (s : State) (i : Nat) (f : Cluster → Cluster) : (s.updCluster i f).ringWr = s.ringWr := rfl
@[simp] theorem State.updCluster_ringRd (s : State) (i : Nat) (f : Cluster → Cluster) : (s.updCluster i f).ringRd = s.ringRd := rfl
@[simp] theorem State.updCluster_ringDrops (s : State) (i : Nat) (f : Cluster → Cluster) : (s.updCluster i f).ringDrops = s.ringDrops := rfl
@[simp] theorem State.updCluster_fen (s : State) (i : Nat) (f : Cluster → Cluster) : (s.updCluster i f).fen = s.fen := rfl
@[simp] theorem State.updCluster_chip (s : State) (i : Nat) (f : Cluster → Cluster) : (s.updCluster i f).chip = s.chip := rfl
@[simp] theorem State.updCluster_imports (s : State) (i : Nat) (f : Cluster → Cluster) : (s.updCluster i f).imports = s.imports := rfl
@[simp] theorem State.updCluster_thimble (s : State) (i : Nat) (f : Cluster → Cluster) : (s.updCluster i f).thimble = s.thimble := rfl
@[simp] theorem State.updCluster_boot (s : State) (i : Nat) (f : Cluster → Cluster) : (s.updCluster i f).boot = s.boot := rfl
@[simp] theorem State.updCluster_perst (s : State) (i : Nat) (f : Cluster → Cluster) : (s.updCluster i f).perst = s.perst := rfl
@[simp] theorem State.updCluster_sessions (s : State) (i : Nat) (f : Cluster → Cluster) : (s.updCluster i f).sessions = s.sessions := rfl
@[simp] theorem State.updCluster_msix (s : State) (i : Nat) (f : Cluster → Cluster) : (s.updCluster i f).msix = s.msix := rfl
@[simp] theorem State.updCluster_bus (s : State) (i : Nat) (f : Cluster → Cluster) : (s.updCluster i f).bus = s.bus := rfl
@[simp] theorem State.updCluster_reports (s : State) (i : Nat) (f : Cluster → Cluster) : (s.updCluster i f).reports = s.reports := rfl
@[simp] theorem State.updCluster_answers (s : State) (i : Nat) (f : Cluster → Cluster) : (s.updCluster i f).answers = s.answers := rfl
@[simp] theorem State.updCluster_requests (s : State) (i : Nat) (f : Cluster → Cluster) : (s.updCluster i f).requests = s.requests := rfl
@[simp] theorem State.updCluster_wire (s : State) (i : Nat) (f : Cluster → Cluster) : (s.updCluster i f).wire = s.wire := rfl
@[simp] theorem State.updCluster_stopped (s : State) (i : Nat) (f : Cluster → Cluster) : (s.updCluster i f).stopped = s.stopped := rfl
@[simp] theorem State.updCluster_evicted (s : State) (i : Nat) (f : Cluster → Cluster) : (s.updCluster i f).evicted = s.evicted := rfl
@[simp] theorem State.updCluster_hart (s : State) (i : Nat) (f : Cluster → Cluster) (k : Nat) : (s.updCluster i f).hart k = s.hart k := rfl
@[simp] theorem State.updCluster_core (s : State) (i : Nat) (f : Cluster → Cluster) (k : Nat) : (s.updCluster i f).core k = s.core k := rfl
@[simp] theorem State.updCluster_die (s : State) (i : Nat) (f : Cluster → Cluster) (k : Nat) : (s.updCluster i f).die k = s.die k := rfl
@[simp] theorem State.updCluster_byte (s : State) (i : Nat) (f : Cluster → Cluster) (k : Nat) : (s.updCluster i f).byte k = s.byte k := rfl
@[simp] theorem State.updCluster_me (s : State) (i : Nat) (f : Cluster → Cluster) : (s.updCluster i f).me = s.me := rfl

@[simp] theorem State.updDie_cur (s : State) (i : Nat) (f : Die → Die) : (s.updDie i f).cur = s.cur := rfl
@[simp] theorem State.updDie_agenda (s : State) (i : Nat) (f : Die → Die) : (s.updDie i f).agenda = s.agenda := rfl
@[simp] theorem State.updDie_free (s : State) (i : Nat) (f : Die → Die) : (s.updDie i f).free = s.free := rfl
@[simp] theorem State.updDie_turn (s : State) (i : Nat) (f : Die → Die) : (s.updDie i f).turn = s.turn := rfl
@[simp] theorem State.updDie_brk (s : State) (i : Nat) (f : Die → Die) : (s.updDie i f).brk = s.brk := rfl
@[simp] theorem State.updDie_arrivals (s : State) (i : Nat) (f : Die → Die) : (s.updDie i f).arrivals = s.arrivals := rfl
@[simp] theorem State.updDie_time (s : State) (i : Nat) (f : Die → Die) : (s.updDie i f).time = s.time := rfl
@[simp] theorem State.updDie_nextTick (s : State) (i : Nat) (f : Die → Die) : (s.updDie i f).nextTick = s.nextTick := rfl
@[simp] theorem State.updDie_ftick (s : State) (i : Nat) (f : Die → Die) : (s.updDie i f).ftick = s.ftick := rfl
@[simp] theorem State.updDie_tickHeld (s : State) (i : Nat) (f : Die → Die) : (s.updDie i f).tickHeld = s.tickHeld := rfl
@[simp] theorem State.updDie_mem (s : State) (i : Nat) (f : Die → Die) : (s.updDie i f).mem = s.mem := rfl
@[simp] theorem State.updDie_poison (s : State) (i : Nat) (f : Die → Die) : (s.updDie i f).poison = s.poison := rfl
@[simp] theorem State.updDie_lossy (s : State) (i : Nat) (f : Die → Die) : (s.updDie i f).lossy = s.lossy := rfl
@[simp] theorem State.updDie_lost (s : State) (i : Nat) (f : Die → Die) : (s.updDie i f).lost = s.lost := rfl
@[simp] theorem State.updDie_keyed (s : State) (i : Nat) (f : Die → Die) : (s.updDie i f).keyed = s.keyed := rfl
@[simp] theorem State.updDie_net (s : State) (i : Nat) (f : Die → Die) : (s.updDie i f).net = s.net := rfl
@[simp] theorem State.updDie_harts (s : State) (i : Nat) (f : Die → Die) : (s.updDie i f).harts = s.harts := rfl
@[simp] theorem State.updDie_cores (s : State) (i : Nat) (f : Die → Die) : (s.updDie i f).cores = s.cores := rfl
@[simp] theorem State.updDie_clusters (s : State) (i : Nat) (f : Die → Die) : (s.updDie i f).clusters = s.clusters := rfl
@[simp] theorem State.updDie_pkgChans (s : State) (i : Nat) (f : Die → Die) : (s.updDie i f).pkgChans = s.pkgChans := rfl
@[simp] theorem State.updDie_plim (s : State) (i : Nat) (f : Die → Die) : (s.updDie i f).plim = s.plim := rfl
@[simp] theorem State.updDie_withheld (s : State) (i : Nat) (f : Die → Die) : (s.updDie i f).withheld = s.withheld := rfl
@[simp] theorem State.updDie_halted (s : State) (i : Nat) (f : Die → Die) : (s.updDie i f).halted = s.halted := rfl
@[simp] theorem State.updDie_ringWr (s : State) (i : Nat) (f : Die → Die) : (s.updDie i f).ringWr = s.ringWr := rfl
@[simp] theorem State.updDie_ringRd (s : State) (i : Nat) (f : Die → Die) : (s.updDie i f).ringRd = s.ringRd := rfl
@[simp] theorem State.updDie_ringDrops (s : State) (i : Nat) (f : Die → Die) : (s.updDie i f).ringDrops = s.ringDrops := rfl
@[simp] theorem State.updDie_fen (s : State) (i : Nat) (f : Die → Die) : (s.updDie i f).fen = s.fen := rfl
@[simp] theorem State.updDie_chip (s : State) (i : Nat) (f : Die → Die) : (s.updDie i f).chip = s.chip := rfl
@[simp] theorem State.updDie_imports (s : State) (i : Nat) (f : Die → Die) : (s.updDie i f).imports = s.imports := rfl
@[simp] theorem State.updDie_thimble (s : State) (i : Nat) (f : Die → Die) : (s.updDie i f).thimble = s.thimble := rfl
@[simp] theorem State.updDie_boot (s : State) (i : Nat) (f : Die → Die) : (s.updDie i f).boot = s.boot := rfl
@[simp] theorem State.updDie_perst (s : State) (i : Nat) (f : Die → Die) : (s.updDie i f).perst = s.perst := rfl
@[simp] theorem State.updDie_sessions (s : State) (i : Nat) (f : Die → Die) : (s.updDie i f).sessions = s.sessions := rfl
@[simp] theorem State.updDie_msix (s : State) (i : Nat) (f : Die → Die) : (s.updDie i f).msix = s.msix := rfl
@[simp] theorem State.updDie_bus (s : State) (i : Nat) (f : Die → Die) : (s.updDie i f).bus = s.bus := rfl
@[simp] theorem State.updDie_reports (s : State) (i : Nat) (f : Die → Die) : (s.updDie i f).reports = s.reports := rfl
@[simp] theorem State.updDie_answers (s : State) (i : Nat) (f : Die → Die) : (s.updDie i f).answers = s.answers := rfl
@[simp] theorem State.updDie_requests (s : State) (i : Nat) (f : Die → Die) : (s.updDie i f).requests = s.requests := rfl
@[simp] theorem State.updDie_wire (s : State) (i : Nat) (f : Die → Die) : (s.updDie i f).wire = s.wire := rfl
@[simp] theorem State.updDie_stopped (s : State) (i : Nat) (f : Die → Die) : (s.updDie i f).stopped = s.stopped := rfl
@[simp] theorem State.updDie_evicted (s : State) (i : Nat) (f : Die → Die) : (s.updDie i f).evicted = s.evicted := rfl
@[simp] theorem State.updDie_hart (s : State) (i : Nat) (f : Die → Die) (k : Nat) : (s.updDie i f).hart k = s.hart k := rfl
@[simp] theorem State.updDie_core (s : State) (i : Nat) (f : Die → Die) (k : Nat) : (s.updDie i f).core k = s.core k := rfl
@[simp] theorem State.updDie_cluster (s : State) (i : Nat) (f : Die → Die) (k : Nat) : (s.updDie i f).cluster k = s.cluster k := rfl
@[simp] theorem State.updDie_byte (s : State) (i : Nat) (f : Die → Die) (k : Nat) : (s.updDie i f).byte k = s.byte k := rfl
@[simp] theorem State.updDie_me (s : State) (i : Nat) (f : Die → Die) : (s.updDie i f).me = s.me := rfl

@[simp] theorem State.setByte_cur (s : State) (loc : Nat) (b : Byte) : (s.setByte loc b).cur = s.cur := by
  unfold State.setByte; split <;> rfl
@[simp] theorem State.setByte_agenda (s : State) (loc : Nat) (b : Byte) : (s.setByte loc b).agenda = s.agenda := by
  unfold State.setByte; split <;> rfl
@[simp] theorem State.setByte_free (s : State) (loc : Nat) (b : Byte) : (s.setByte loc b).free = s.free := by
  unfold State.setByte; split <;> rfl
@[simp] theorem State.setByte_turn (s : State) (loc : Nat) (b : Byte) : (s.setByte loc b).turn = s.turn := by
  unfold State.setByte; split <;> rfl
@[simp] theorem State.setByte_brk (s : State) (loc : Nat) (b : Byte) : (s.setByte loc b).brk = s.brk := by
  unfold State.setByte; split <;> rfl
@[simp] theorem State.setByte_arrivals (s : State) (loc : Nat) (b : Byte) : (s.setByte loc b).arrivals = s.arrivals := by
  unfold State.setByte; split <;> rfl
@[simp] theorem State.setByte_time (s : State) (loc : Nat) (b : Byte) : (s.setByte loc b).time = s.time := by
  unfold State.setByte; split <;> rfl
@[simp] theorem State.setByte_nextTick (s : State) (loc : Nat) (b : Byte) : (s.setByte loc b).nextTick = s.nextTick := by
  unfold State.setByte; split <;> rfl
@[simp] theorem State.setByte_ftick (s : State) (loc : Nat) (b : Byte) : (s.setByte loc b).ftick = s.ftick := by
  unfold State.setByte; split <;> rfl
@[simp] theorem State.setByte_tickHeld (s : State) (loc : Nat) (b : Byte) : (s.setByte loc b).tickHeld = s.tickHeld := by
  unfold State.setByte; split <;> rfl
@[simp] theorem State.setByte_poison (s : State) (loc : Nat) (b : Byte) : (s.setByte loc b).poison = s.poison := by
  unfold State.setByte; split <;> rfl
@[simp] theorem State.setByte_lossy (s : State) (loc : Nat) (b : Byte) : (s.setByte loc b).lossy = s.lossy := by
  unfold State.setByte; split <;> rfl
@[simp] theorem State.setByte_net (s : State) (loc : Nat) (b : Byte) : (s.setByte loc b).net = s.net := by
  unfold State.setByte; split <;> rfl
@[simp] theorem State.setByte_harts (s : State) (loc : Nat) (b : Byte) : (s.setByte loc b).harts = s.harts := by
  unfold State.setByte; split <;> rfl
@[simp] theorem State.setByte_cores (s : State) (loc : Nat) (b : Byte) : (s.setByte loc b).cores = s.cores := by
  unfold State.setByte; split <;> rfl
@[simp] theorem State.setByte_clusters (s : State) (loc : Nat) (b : Byte) : (s.setByte loc b).clusters = s.clusters := by
  unfold State.setByte; split <;> rfl
@[simp] theorem State.setByte_dies (s : State) (loc : Nat) (b : Byte) : (s.setByte loc b).dies = s.dies := by
  unfold State.setByte; split <;> rfl
@[simp] theorem State.setByte_pkgChans (s : State) (loc : Nat) (b : Byte) : (s.setByte loc b).pkgChans = s.pkgChans := by
  unfold State.setByte; split <;> rfl
@[simp] theorem State.setByte_plim (s : State) (loc : Nat) (b : Byte) : (s.setByte loc b).plim = s.plim := by
  unfold State.setByte; split <;> rfl
@[simp] theorem State.setByte_withheld (s : State) (loc : Nat) (b : Byte) : (s.setByte loc b).withheld = s.withheld := by
  unfold State.setByte; split <;> rfl
@[simp] theorem State.setByte_halted (s : State) (loc : Nat) (b : Byte) : (s.setByte loc b).halted = s.halted := by
  unfold State.setByte; split <;> rfl
@[simp] theorem State.setByte_ringWr (s : State) (loc : Nat) (b : Byte) : (s.setByte loc b).ringWr = s.ringWr := by
  unfold State.setByte; split <;> rfl
@[simp] theorem State.setByte_ringRd (s : State) (loc : Nat) (b : Byte) : (s.setByte loc b).ringRd = s.ringRd := by
  unfold State.setByte; split <;> rfl
@[simp] theorem State.setByte_ringDrops (s : State) (loc : Nat) (b : Byte) : (s.setByte loc b).ringDrops = s.ringDrops := by
  unfold State.setByte; split <;> rfl
@[simp] theorem State.setByte_fen (s : State) (loc : Nat) (b : Byte) : (s.setByte loc b).fen = s.fen := by
  unfold State.setByte; split <;> rfl
@[simp] theorem State.setByte_chip (s : State) (loc : Nat) (b : Byte) : (s.setByte loc b).chip = s.chip := by
  unfold State.setByte; split <;> rfl
@[simp] theorem State.setByte_imports (s : State) (loc : Nat) (b : Byte) : (s.setByte loc b).imports = s.imports := by
  unfold State.setByte; split <;> rfl
@[simp] theorem State.setByte_thimble (s : State) (loc : Nat) (b : Byte) : (s.setByte loc b).thimble = s.thimble := by
  unfold State.setByte; split <;> rfl
@[simp] theorem State.setByte_boot (s : State) (loc : Nat) (b : Byte) : (s.setByte loc b).boot = s.boot := by
  unfold State.setByte; split <;> rfl
@[simp] theorem State.setByte_perst (s : State) (loc : Nat) (b : Byte) : (s.setByte loc b).perst = s.perst := by
  unfold State.setByte; split <;> rfl
@[simp] theorem State.setByte_sessions (s : State) (loc : Nat) (b : Byte) : (s.setByte loc b).sessions = s.sessions := by
  unfold State.setByte; split <;> rfl
@[simp] theorem State.setByte_msix (s : State) (loc : Nat) (b : Byte) : (s.setByte loc b).msix = s.msix := by
  unfold State.setByte; split <;> rfl
@[simp] theorem State.setByte_bus (s : State) (loc : Nat) (b : Byte) : (s.setByte loc b).bus = s.bus := by
  unfold State.setByte; split <;> rfl
@[simp] theorem State.setByte_reports (s : State) (loc : Nat) (b : Byte) : (s.setByte loc b).reports = s.reports := by
  unfold State.setByte; split <;> rfl
@[simp] theorem State.setByte_answers (s : State) (loc : Nat) (b : Byte) : (s.setByte loc b).answers = s.answers := by
  unfold State.setByte; split <;> rfl
@[simp] theorem State.setByte_requests (s : State) (loc : Nat) (b : Byte) : (s.setByte loc b).requests = s.requests := by
  unfold State.setByte; split <;> rfl
@[simp] theorem State.setByte_wire (s : State) (loc : Nat) (b : Byte) : (s.setByte loc b).wire = s.wire := by
  unfold State.setByte; split <;> rfl
@[simp] theorem State.setByte_stopped (s : State) (loc : Nat) (b : Byte) : (s.setByte loc b).stopped = s.stopped := by
  unfold State.setByte; split <;> rfl
@[simp] theorem State.setByte_evicted (s : State) (loc : Nat) (b : Byte) : (s.setByte loc b).evicted = s.evicted := by
  unfold State.setByte; split <;> rfl
@[simp] theorem State.setByte_hart (s : State) (loc : Nat) (b : Byte) (k : Nat) : (s.setByte loc b).hart k = s.hart k := by
  unfold State.setByte; split <;> rfl
@[simp] theorem State.setByte_core (s : State) (loc : Nat) (b : Byte) (k : Nat) : (s.setByte loc b).core k = s.core k := by
  unfold State.setByte; split <;> rfl
@[simp] theorem State.setByte_cluster (s : State) (loc : Nat) (b : Byte) (k : Nat) : (s.setByte loc b).cluster k = s.cluster k := by
  unfold State.setByte; split <;> rfl
@[simp] theorem State.setByte_die (s : State) (loc : Nat) (b : Byte) (k : Nat) : (s.setByte loc b).die k = s.die k := by
  unfold State.setByte; split <;> rfl
@[simp] theorem State.setByte_me (s : State) (loc : Nat) (b : Byte) : (s.setByte loc b).me = s.me := by
  unfold State.setByte; split <;> rfl

@[simp] theorem State.addPoison_cur (s : State) (loc : Nat) : (s.addPoison loc).cur = s.cur := rfl
@[simp] theorem State.addPoison_agenda (s : State) (loc : Nat) : (s.addPoison loc).agenda = s.agenda := rfl
@[simp] theorem State.addPoison_free (s : State) (loc : Nat) : (s.addPoison loc).free = s.free := rfl
@[simp] theorem State.addPoison_turn (s : State) (loc : Nat) : (s.addPoison loc).turn = s.turn := rfl
@[simp] theorem State.addPoison_brk (s : State) (loc : Nat) : (s.addPoison loc).brk = s.brk := rfl
@[simp] theorem State.addPoison_arrivals (s : State) (loc : Nat) : (s.addPoison loc).arrivals = s.arrivals := rfl
@[simp] theorem State.addPoison_time (s : State) (loc : Nat) : (s.addPoison loc).time = s.time := rfl
@[simp] theorem State.addPoison_nextTick (s : State) (loc : Nat) : (s.addPoison loc).nextTick = s.nextTick := rfl
@[simp] theorem State.addPoison_ftick (s : State) (loc : Nat) : (s.addPoison loc).ftick = s.ftick := rfl
@[simp] theorem State.addPoison_tickHeld (s : State) (loc : Nat) : (s.addPoison loc).tickHeld = s.tickHeld := rfl
@[simp] theorem State.addPoison_mem (s : State) (loc : Nat) : (s.addPoison loc).mem = s.mem := rfl
@[simp] theorem State.addPoison_lossy (s : State) (loc : Nat) : (s.addPoison loc).lossy = s.lossy := rfl
@[simp] theorem State.addPoison_lost (s : State) (loc : Nat) : (s.addPoison loc).lost = s.lost := rfl
@[simp] theorem State.addPoison_keyed (s : State) (loc : Nat) : (s.addPoison loc).keyed = s.keyed := rfl
@[simp] theorem State.addPoison_net (s : State) (loc : Nat) : (s.addPoison loc).net = s.net := rfl
@[simp] theorem State.addPoison_harts (s : State) (loc : Nat) : (s.addPoison loc).harts = s.harts := rfl
@[simp] theorem State.addPoison_cores (s : State) (loc : Nat) : (s.addPoison loc).cores = s.cores := rfl
@[simp] theorem State.addPoison_clusters (s : State) (loc : Nat) : (s.addPoison loc).clusters = s.clusters := rfl
@[simp] theorem State.addPoison_dies (s : State) (loc : Nat) : (s.addPoison loc).dies = s.dies := rfl
@[simp] theorem State.addPoison_pkgChans (s : State) (loc : Nat) : (s.addPoison loc).pkgChans = s.pkgChans := rfl
@[simp] theorem State.addPoison_plim (s : State) (loc : Nat) : (s.addPoison loc).plim = s.plim := rfl
@[simp] theorem State.addPoison_withheld (s : State) (loc : Nat) : (s.addPoison loc).withheld = s.withheld := rfl
@[simp] theorem State.addPoison_halted (s : State) (loc : Nat) : (s.addPoison loc).halted = s.halted := rfl
@[simp] theorem State.addPoison_ringWr (s : State) (loc : Nat) : (s.addPoison loc).ringWr = s.ringWr := rfl
@[simp] theorem State.addPoison_ringRd (s : State) (loc : Nat) : (s.addPoison loc).ringRd = s.ringRd := rfl
@[simp] theorem State.addPoison_ringDrops (s : State) (loc : Nat) : (s.addPoison loc).ringDrops = s.ringDrops := rfl
@[simp] theorem State.addPoison_fen (s : State) (loc : Nat) : (s.addPoison loc).fen = s.fen := rfl
@[simp] theorem State.addPoison_chip (s : State) (loc : Nat) : (s.addPoison loc).chip = s.chip := rfl
@[simp] theorem State.addPoison_imports (s : State) (loc : Nat) : (s.addPoison loc).imports = s.imports := rfl
@[simp] theorem State.addPoison_thimble (s : State) (loc : Nat) : (s.addPoison loc).thimble = s.thimble := rfl
@[simp] theorem State.addPoison_boot (s : State) (loc : Nat) : (s.addPoison loc).boot = s.boot := rfl
@[simp] theorem State.addPoison_perst (s : State) (loc : Nat) : (s.addPoison loc).perst = s.perst := rfl
@[simp] theorem State.addPoison_sessions (s : State) (loc : Nat) : (s.addPoison loc).sessions = s.sessions := rfl
@[simp] theorem State.addPoison_msix (s : State) (loc : Nat) : (s.addPoison loc).msix = s.msix := rfl
@[simp] theorem State.addPoison_bus (s : State) (loc : Nat) : (s.addPoison loc).bus = s.bus := rfl
@[simp] theorem State.addPoison_reports (s : State) (loc : Nat) : (s.addPoison loc).reports = s.reports := rfl
@[simp] theorem State.addPoison_answers (s : State) (loc : Nat) : (s.addPoison loc).answers = s.answers := rfl
@[simp] theorem State.addPoison_requests (s : State) (loc : Nat) : (s.addPoison loc).requests = s.requests := rfl
@[simp] theorem State.addPoison_wire (s : State) (loc : Nat) : (s.addPoison loc).wire = s.wire := rfl
@[simp] theorem State.addPoison_stopped (s : State) (loc : Nat) : (s.addPoison loc).stopped = s.stopped := rfl
@[simp] theorem State.addPoison_evicted (s : State) (loc : Nat) : (s.addPoison loc).evicted = s.evicted := rfl
@[simp] theorem State.addPoison_hart (s : State) (loc : Nat) (k : Nat) : (s.addPoison loc).hart k = s.hart k := rfl
@[simp] theorem State.addPoison_core (s : State) (loc : Nat) (k : Nat) : (s.addPoison loc).core k = s.core k := rfl
@[simp] theorem State.addPoison_cluster (s : State) (loc : Nat) (k : Nat) : (s.addPoison loc).cluster k = s.cluster k := rfl
@[simp] theorem State.addPoison_die (s : State) (loc : Nat) (k : Nat) : (s.addPoison loc).die k = s.die k := rfl
@[simp] theorem State.addPoison_byte (s : State) (loc : Nat) (k : Nat) : (s.addPoison loc).byte k = s.byte k := rfl
@[simp] theorem State.addPoison_me (s : State) (loc : Nat) : (s.addPoison loc).me = s.me := rfl

end Sys2Proof.Machine
end

