-- ==== Sys2Proof/Laws/Memory.lean ====
section
/-!
SUPPORT. Laws/Memory.lean: reading after writing, and the canonical form that every operation on memory keeps.
-/
namespace Sys2Proof.Machine

/-! ### Reading after writing -/

theorem memGet_cons (e : Host.Cell) (m : List Host.Cell) (j : Nat) :
    memGet (e :: m) j = if e.1 = j then e.2 else memGet m j := rfl

theorem memGet_memPut (m : List Host.Cell) (i j : Nat) (b : Byte) :
    memGet (memPut i b m) j = if i = j then b else memGet m j := by
  induction m with
  | nil => rfl
  | cons e m ih =>
    obtain ⟨k, c⟩ := e
    simp only [memPut]
    split
    · rfl
    · split
      · next h => subst h; simp only [memGet_cons]; split <;> rfl
      · rw [memGet_cons, ih, memGet_cons]; split <;> split <;> first | rfl | omega

theorem memGet_filter_ne (m : List Host.Cell) (i j : Nat) :
    memGet (m.filter fun c => c.1 != i) j = if i = j then 0 else memGet m j := by
  induction m with
  | nil => simp [memGet]
  | cons e m ih =>
    by_cases hk : e.1 = i
    · rw [List.filter_cons_of_neg (by simp [hk]), ih, memGet_cons]
      split
      · rfl
      · rw [if_neg (by omega)]
    · rw [List.filter_cons_of_pos (by simp [hk]), memGet_cons, ih, memGet_cons]
      split <;> split <;> first | rfl | omega

/-- A read after a write: the byte written, and every other byte as before. -/
theorem memGet_memSet (m : List Host.Cell) (i j : Nat) (b : Byte) :
    memGet (memSet i b m) j = if i = j then b else memGet m j := by
  unfold memSet
  split
  · next h => rw [memGet_filter_ne, h]
  · exact memGet_memPut m i j b

theorem memGet_foldl_memSet (base : Nat) (f : Nat → Byte) (m : List Host.Cell) (n j : Nat) :
    memGet ((List.range n).foldl (fun m i => memSet (base + i) (f i) m) m) j =
      if base ≤ j ∧ j < base + n then f (j - base) else memGet m j := by
  induction n with
  | zero => rw [if_neg (by omega)]; rfl
  | succ n ih =>
    rw [List.range_succ, List.foldl_append]
    simp only [List.foldl_cons, List.foldl_nil, memGet_memSet, ih]
    by_cases h : base + n = j
    · subst h; rw [if_pos rfl, if_pos (by omega), Nat.add_sub_cancel_left]
    · rw [if_neg h]
      by_cases h' : base ≤ j ∧ j < base + n
      · rw [if_pos h', if_pos (by omega)]
      · rw [if_neg h', if_neg (by omega)]

theorem mem_insertNat (i j : Nat) (l : List Nat) : j ∈ insertNat i l ↔ j = i ∨ j ∈ l := by
  induction l with
  | nil => simp [insertNat]
  | cons k l ih =>
    simp only [insertNat]
    split
    · simp
    · split
      · next h => subst h; simp
      · simp only [List.mem_cons, ih]; constructor <;> (rintro (h | h | h) <;> simp [h])

theorem Lost.holds_size {x : Lost} {j : Nat} (h : x.holds j = true) :
    x.base ≤ 64 * lineOf j ∧ 64 * lineOf j < x.base + x.size := of_decide_eq_true h

theorem find_nonempty (l : List Lost) (j : Nat) :
    (l.filter fun y => y.size != 0).find? (fun y => y.holds j) = l.find? fun y => y.holds j := by
  induction l with
  | nil => rfl
  | cons y l ih =>
    by_cases hy : y.holds j = true
    · have := Lost.holds_size hy
      rw [List.filter_cons_of_pos (by simp; omega), List.find?_cons_of_pos (p := fun y => Lost.holds y j) hy, List.find?_cons_of_pos (p := fun y => Lost.holds y j) hy]
    · rw [List.find?_cons_of_neg (p := fun y => Lost.holds y j) hy, List.filter_cons]
      split
      · rw [List.find?_cons_of_neg (p := fun y => Lost.holds y j) hy, ih]
      · exact ih

theorem cut_find (lo hi j : Nat) (x : Lost) :
    ((x.cut lo hi).find? fun y => y.holds j).map (·.now) =
      if lo ≤ 64 * lineOf j ∧ 64 * lineOf j < hi then none else if x.holds j then some x.now else none := by
  unfold Lost.cut
  split
  · by_cases hj : x.holds j = true
    · have := Lost.holds_size hj
      rw [List.find?_cons_of_pos (p := fun y => Lost.holds y j) hj, if_neg (by omega), if_pos hj]; rfl
    · rw [List.find?_cons_of_neg (p := fun y => Lost.holds y j) hj, if_neg hj]; split <;> rfl
  · rw [find_nonempty]
    by_cases h1 : Lost.holds { x with size := lo - x.base } j = true
    · have h := Lost.holds_size h1
      rw [List.find?_cons_of_pos (p := fun y => Lost.holds y j) h1, if_neg (by simp at h; omega), if_pos (show x.holds j = true from decide_eq_true (by simp at h; omega))]; rfl
    · rw [List.find?_cons_of_neg (p := fun y => Lost.holds y j) h1]
      by_cases h2 : Lost.holds { x with base := hi, size := x.base + x.size - hi } j = true
      · have h := Lost.holds_size h2
        rw [List.find?_cons_of_pos (p := fun y => Lost.holds y j) h2, if_neg (by simp at h; omega), if_pos (show x.holds j = true from decide_eq_true (by simp at h; omega))]; rfl
      · rw [List.find?_cons_of_neg (p := fun y => Lost.holds y j) h2]
        simp only [Lost.holds, decide_eq_true_eq] at h1 h2 ⊢
        split
        · rfl
        · rw [if_neg (by omega)]; rfl

/-- Cutting lines out of the spans leaves every other line in its span. -/
theorem cutLost_find (lo hi j : Nat) (l : List Lost) :
    ((cutLost lo hi l).find? fun y => y.holds j).map (·.now) =
      if lo ≤ 64 * lineOf j ∧ 64 * lineOf j < hi then none else (l.find? fun y => y.holds j).map (·.now) := by
  induction l with
  | nil => simp [cutLost]
  | cons x l ih =>
    have hc := cut_find lo hi j x
    simp only [cutLost, List.flatMap_cons, List.find?_append] at ih ⊢
    rw [List.find?_cons]
    by_cases hj : lo ≤ 64 * lineOf j ∧ 64 * lineOf j < hi
    · rw [if_pos hj] at hc ih ⊢
      rw [Option.map_eq_none_iff] at hc ih ⊢
      simp [hc, ih]
    · rw [if_neg hj] at hc ih ⊢
      by_cases hx : x.holds j = true
      · rw [if_pos hx] at hc
        obtain ⟨y, hy, hd⟩ := Option.map_eq_some_iff.mp hc
        simp [hy, hx, hd]
      · rw [if_neg hx, Option.map_eq_none_iff] at hc
        simp only [Bool.not_eq_true] at hx
        rw [hc, hx, Option.none_or, ih]

/-- A byte by the key under which its line is read, where that is not the one of its contents. -/
theorem State.byte_eq (s : State) (j : Nat) :
    s.byte j = match (lostAt s j).map (·.now) with
      | some k => readAs s.mem s.keyed k j
      | none => memGet s.mem j := by
  unfold State.byte
  cases lostAt s j <;> rfl

/-- What a line reads as under another key is settled by its bytes in memory and the key of its contents. -/
theorem readAs_congr {m m' : List Host.Cell} {ks ks' : List Keyed} (k j : Nat)
    (hm : ∀ i < 64, memGet m (64 * lineOf j + i) = memGet m' (64 * lineOf j + i))
    (hk : keyAt (lineOf j) ks = keyAt (lineOf j) ks') : readAs m ks k j = readAs m' ks' k j := by
  have : (List.range 64).map (fun i => memGet m (64 * lineOf j + i)) = (List.range 64).map fun i => memGet m' (64 * lineOf j + i) :=
    List.map_congr_left fun i hi => hm i (List.mem_range.mp hi)
  simp only [readAs, this, hk]

theorem lineOf_eq {i j : Nat} (h1 : 64 * lineOf j ≤ i) (h2 : i < 64 * lineOf j + 64) : lineOf i = lineOf j := by
  simp only [lineOf] at *; omega

/-- A line that comes under its new key reads as before (spec/25, R370). -/
theorem State.byte_reseal (s : State) (x : Lost) (line j : Nat) : (s.reseal x line).byte j = s.byte j := by
  rw [State.byte_eq, State.byte_eq s j]
  simp only [State.reseal, lostAt, cutLost_find]
  by_cases h : 64 * line ≤ 64 * lineOf j ∧ 64 * lineOf j < 64 * line + 64
  · have hl : 64 * line ≤ j ∧ j < 64 * line + 64 := by simp only [lineOf] at h ⊢; omega
    simp only [if_pos h, memGet_foldl_memSet, if_pos hl]
    rw [show 64 * line + (j - 64 * line) = j by omega, State.byte_eq]
    rfl
  · have hl : ∀ i, 64 * lineOf j ≤ i → i < 64 * lineOf j + 64 → ¬(64 * line ≤ i ∧ i < 64 * line + 64) := by
      simp only [lineOf] at h ⊢; omega
    simp only [if_neg h]
    cases (s.lost.find? fun y => y.holds j).map (·.now) with
    | none => simp only [memGet_foldl_memSet, if_neg (hl j (by unfold lineOf; omega) (by unfold lineOf; omega))]
    | some k =>
      refine readAs_congr k j (fun i hi => ?_) ?_
      · simp only [memGet_foldl_memSet, if_neg (hl (64 * lineOf j + i) (by omega) (by omega))]
      · simp only [keyAt, List.find?_cons, decide_eq_false h]

theorem State.lostAt_reseal (s : State) (x : Lost) (i : Nat) : lostAt (s.reseal x (lineOf i)) i = none := by
  have h := cutLost_find (64 * lineOf i) (64 * lineOf i + 64) i s.lost
  rw [if_pos (by omega), Option.map_eq_none_iff] at h
  exact h

/-- Two locations of one line lie in the same span. -/
theorem lostAt_line (s : State) {i j : Nat} (h : lineOf i = lineOf j) : lostAt s i = lostAt s j := by
  simp only [lostAt, Lost.holds, h]

theorem State.byte_poke (s : State) (i j : Nat) (b : Byte) (h : lostAt s i = none) :
    (s.poke i b).byte j = if i = j then b else s.byte j := by
  have hl : lostAt (s.poke i b) j = lostAt s j := rfl
  rw [State.byte_eq, State.byte_eq s j, hl]
  by_cases hj : i = j
  · subst hj; simp [h, State.poke, memGet_memSet]
  · cases hx : lostAt s j with
    | none => simp [State.poke, memGet_memSet, hj]
    | some x =>
      simp only [hj, if_false, Option.map_some]
      refine readAs_congr x.now j (fun k hk => ?_) rfl
      have hn : i ≠ 64 * lineOf j + k := fun e => by
        rw [lostAt_line s (lineOf_eq (i := i) (j := j) (by omega) (by omega)), hx] at h
        simp at h
      simp [State.poke, memGet_memSet, hn]

/-- After a byte is written it reads as written, and every other byte as before (spec/25, R370). -/
theorem State.byte_setByte (s : State) (i j : Nat) (b : Byte) :
    (s.setByte i b).byte j = if i = j then b else s.byte j := by
  unfold State.setByte
  split
  · next h => exact State.byte_poke s i j b h
  · next x _ => rw [State.byte_poke _ _ _ _ (State.lostAt_reseal s x i), State.byte_reseal]

theorem State.byte_setCells_other (cs : List Host.Cell) (s : State) (j : Nat) (h : ∀ c ∈ cs, c.1 ≠ j) :
    (s.setCells cs).byte j = s.byte j := by
  induction cs generalizing s with
  | nil => rfl
  | cons c cs ih =>
    show ((s.setByte c.1 c.2).setCells cs).byte j = _
    rw [ih _ fun d hd => h d (by simp [hd]), State.byte_setByte, if_neg (h c (by simp))]

/-- Cells at distinct locations read as they were written. -/
theorem State.byte_setCells (cs : List Host.Cell) (s : State) (hn : (cs.map (·.1)).Nodup) (c : Host.Cell) (hc : c ∈ cs) :
    (s.setCells cs).byte c.1 = c.2 := by
  induction cs generalizing s with
  | nil => simp at hc
  | cons d cs ih =>
    simp only [List.map_cons, List.nodup_cons] at hn
    show ((s.setByte d.1 d.2).setCells cs).byte c.1 = _
    rcases List.mem_cons.mp hc with rfl | hc
    · rw [State.byte_setCells_other cs _ _ fun e he h => hn.1 (List.mem_map.mpr ⟨e, he, h⟩), State.byte_setByte,
        if_pos rfl]
    · exact ih _ hn.2 hc

theorem cellsAt_map_fst (loc : Nat) (bs : List Byte) : (cellsAt loc bs).map (·.1) = (List.range bs.length).map (loc + ·) := by
  simp only [cellsAt, indexed, List.map_map]
  have : (fun x : Nat × Byte => loc + x.1) = (loc + ·) ∘ Prod.fst := rfl
  show List.map (fun x : Nat × Byte => loc + x.1) _ = _
  rw [this, ← List.map_map, List.map_fst_zip (by simp)]

theorem cellsAt_getElem (loc : Nat) (bs : List Byte) (i : Nat) (h : i < bs.length) : (loc + i, bs[i]) ∈ cellsAt loc bs := by
  simp only [cellsAt, indexed, List.mem_map]
  exact ⟨(i, bs[i]), by rw [List.mem_iff_getElem]; exact ⟨i, by simp [h], by simp⟩, rfl⟩

/-- Bytes outside those written read as before. -/
theorem State.byte_setBytes_other (s : State) (loc : Nat) (bs : List Byte) (j : Nat) (h : j < loc ∨ loc + bs.length ≤ j) :
    (s.setBytes loc bs).byte j = s.byte j := by
  refine State.byte_setCells_other _ _ _ fun c hc e => ?_
  have : c.1 ∈ (cellsAt loc bs).map (·.1) := List.mem_map.mpr ⟨c, hc, rfl⟩
  rw [cellsAt_map_fst] at this
  obtain ⟨k, hk, hk'⟩ := List.mem_map.mp this
  rw [List.mem_range] at hk
  omega

/-- Bytes read as they were written. -/
theorem State.byte_setBytes (s : State) (loc : Nat) (bs : List Byte) (i : Nat) (h : i < bs.length) :
    (s.setBytes loc bs).byte (loc + i) = bs[i] :=
  State.byte_setCells _ s
    (by
      rw [cellsAt_map_fst]
      refine List.pairwise_map.mpr (List.Pairwise.imp_of_mem ?_ List.nodup_range)
      intro a b _ _ hab; omega)
    (loc + i, bs[i]) (cellsAt_getElem loc bs i h)

theorem State.bytes_setBytes (s : State) (loc : Nat) (bs : List Byte) : (s.setBytes loc bs).bytes loc bs.length = bs := by
  refine List.ext_getElem (by simp [State.bytes]) fun i h _ => ?_
  have h' : i < bs.length := by simpa [State.bytes] using h
  simp [State.bytes, State.byte_setBytes s loc bs i h']

theorem toLe_length (n x : Nat) : (toLe n x).length = n := by
  induction n generalizing x with
  | zero => rfl
  | succ n ih => simp [toLe, ih]

/-! ### The canonical form -/

theorem memWf_cons (c : Host.Cell) (m : List Host.Cell) :
    memWf (c :: m) = true ↔ c.2 ≠ 0 ∧ (∀ d ∈ m.head?, c.1 < d.1) ∧ memWf m = true := by
  cases m with
  | nil => simp [memWf]
  | cons d m => simp [memWf, and_assoc]

theorem memWf_tail {c : Host.Cell} {m : List Host.Cell} (h : memWf (c :: m) = true) : memWf m = true :=
  ((memWf_cons c m).mp h).2.2

theorem memWf_lt {c : Host.Cell} {m : List Host.Cell} (h : memWf (c :: m) = true) : ∀ d ∈ m, c.1 < d.1 := by
  induction m generalizing c with
  | nil => simp
  | cons d m ih =>
    have hc := (memWf_cons c _).mp h
    have hcd : c.1 < d.1 := hc.2.1 d (by simp)
    intro e he
    rcases List.mem_cons.mp he with rfl | he
    · exact hcd
    · exact Nat.lt_trans hcd (ih hc.2.2 e he)

theorem memWf_filter (p : Host.Cell → Bool) {m : List Host.Cell} (h : memWf m = true) : memWf (m.filter p) = true := by
  induction m with
  | nil => rfl
  | cons c m ih =>
    by_cases hp : p c
    · rw [List.filter_cons_of_pos hp, memWf_cons]
      refine ⟨((memWf_cons c m).mp h).1, fun d hd => ?_, ih (memWf_tail h)⟩
      exact memWf_lt h d (List.mem_filter.mp (List.mem_of_mem_head? hd)).1
    · rw [List.filter_cons_of_neg hp]; exact ih (memWf_tail h)

theorem memPut_head (i : Nat) (b : Byte) (m : List Host.Cell) :
    ∀ d ∈ (memPut i b m).head?, d.1 = i ∨ ∃ c ∈ m.head?, d.1 = c.1 := by
  cases m with
  | nil => simp [memPut]
  | cons c m =>
    obtain ⟨k, c⟩ := c
    simp only [memPut]
    split
    · simp
    · split <;> simp

theorem memWf_memPut (i : Nat) {b : Byte} (hb : b ≠ 0) {m : List Host.Cell} (h : memWf m = true) :
    memWf (memPut i b m) = true := by
  induction m with
  | nil => simpa [memPut, memWf] using hb
  | cons c m ih =>
    obtain ⟨k, c⟩ := c
    have hc := (memWf_cons _ _).mp h
    simp only [memPut]
    split
    · next hi => exact (memWf_cons _ _).mpr ⟨hb, by simpa using hi, h⟩
    · split
      · next hi => subst hi; exact (memWf_cons _ _).mpr ⟨hb, hc.2.1, hc.2.2⟩
      · refine (memWf_cons _ _).mpr ⟨hc.1, fun d hd => ?_, ih hc.2.2⟩
        rcases memPut_head i b m d hd with h' | ⟨e, he, h'⟩
        · show k < d.1; omega
        · show k < d.1; rw [h']; exact hc.2.1 e he

/-- A write keeps the canonical form. -/
theorem memWf_memSet (i : Nat) (b : Byte) {m : List Host.Cell} (h : memWf m = true) : memWf (memSet i b m) = true := by
  unfold memSet
  split
  · exact memWf_filter _ h
  · next hb => exact memWf_memPut i hb h

theorem memWf_foldl_memSet (base : Nat) (f : Nat → Byte) (l : List Nat) {m : List Host.Cell} (h : memWf m = true) :
    memWf (l.foldl (fun m i => memSet (base + i) (f i) m) m) = true := by
  induction l generalizing m with
  | nil => exact h
  | cons i l ih => exact ih (memWf_memSet _ _ h)

theorem State.wf_setByte (i : Nat) (b : Byte) {s : State} (h : Memory.wf s.mem) : Memory.wf (s.setByte i b).mem := by
  unfold State.setByte
  split
  · exact memWf_memSet i b h
  · exact memWf_memSet i b (memWf_foldl_memSet _ _ _ h)

theorem State.wf_setCells (cs : List Host.Cell) {s : State} (h : Memory.wf s.mem) : Memory.wf (s.setCells cs).mem := by
  induction cs generalizing s with
  | nil => exact h
  | cons c cs ih => exact ih (State.wf_setByte c.1 c.2 h)

theorem State.wf_setBytes (loc : Nat) (bs : List Byte) {s : State} (h : Memory.wf s.mem) : Memory.wf (s.setBytes loc bs).mem :=
  State.wf_setCells _ h

theorem State.wf_zeroSpan (base size : Nat) {s : State} (h : Memory.wf s.mem) : Memory.wf (s.zeroSpan base size).mem :=
  memWf_filter _ h

theorem State.wf_clearPoison (locs : List Nat) {s : State} (h : Memory.wf s.mem) : Memory.wf (s.clearPoison locs).mem := by
  unfold State.clearPoison; split <;> exact h

theorem State.wf_putBytes (loc : Nat) (bs : List Byte) {s : State} (h : Memory.wf s.mem) : Memory.wf (s.putBytes loc bs).mem :=
  State.wf_clearPoison _ (State.wf_setBytes loc bs h)

theorem State.wf_postFault (r : FaultRec) {s : State} (h : Memory.wf s.mem) : Memory.wf (s.postFault r).mem := by
  unfold State.postFault
  split
  · exact h
  · dsimp only
    exact State.wf_putBytes _ _ h

theorem State.wf_performAdd (o : AddOp) {s : State} (h : Memory.wf s.mem) : Memory.wf (performAdd s o).mem :=
  State.wf_setBytes _ _ h

theorem State.wf_performAdds (os : List AddOp) {s : State} (h : Memory.wf s.mem) :
    Memory.wf (os.foldl performAdd s).mem := by
  induction os generalizing s with
  | nil => exact h
  | cons o os ih => exact ih (State.wf_performAdd o h)

theorem State.wf_performPkt (p : Pkt) {s : State} (h : Memory.wf s.mem) : Memory.wf (performPkt s p).mem := by
  unfold performPkt
  split
  · exact State.wf_clearPoison _ (State.wf_setCells _ h)
  · exact State.wf_performAdds _ h

/-- Memory after reset has the canonical form. -/
theorem State.wf_reset : Memory.wf State.reset.mem := rfl

end Sys2Proof.Machine
end

