-- ==== Sys2Proof/Laws/Packets.lean ====
section
/-!
SUPPORT. Laws/Packets.lean: what a hart's own store changes of what the hart reads.
-/
namespace Sys2Proof.Machine

/-- One byte as a side of a hart reads it past one of its packets. -/
def seenPast (v : Bool) (a : Nat) (b : Byte) (p : Pkt) : Byte := (((p.writes v).find? fun c => c.1 == a).map (·.2)).getD b

theorem State.view_eq (s : State) (h : Nat) (vec : Bool) (loc n : Nat) :
    s.view h vec loc n = (List.range n).map fun i => (s.pkts h).foldl (seenPast vec (loc + i)) (s.byte (loc + i)) := rfl

/-- The cell of a location among cells from one on. -/
theorem cellsAt_find? (loc : Nat) (bs : List Byte) (a : Nat) :
    (cellsAt loc bs).find? (fun c => c.1 == a)
      = if h : loc ≤ a ∧ a < loc + bs.length then some (a, bs[a - loc]'(by omega)) else none := by
  split
  · next h =>
    have hex : ∃ c, (cellsAt loc bs).find? (fun c => c.1 == a) = some c := by
      rw [← Option.isSome_iff_exists, List.find?_isSome]
      refine ⟨_, cellsAt_getElem loc bs (a - loc) (by omega), ?_⟩
      simp only [beq_iff_eq]; omega
    obtain ⟨c, hc⟩ := hex
    rw [hc]
    have hm := List.mem_of_find?_eq_some hc
    have ha : c.1 = a := by simpa using List.find?_some hc
    simp only [cellsAt, indexed, List.mem_map] at hm
    obtain ⟨⟨i, x⟩, hi, rfl⟩ := hm
    obtain ⟨k, hk, hk'⟩ := List.mem_iff_getElem.mp hi
    simp only [List.getElem_zip, List.getElem_range, Prod.mk.injEq] at hk'
    obtain ⟨rfl, rfl⟩ := hk'
    simp only at ha
    subst ha
    simp
  · next h =>
    rw [List.find?_eq_none]
    intro c hc he
    have : c.1 ∈ (cellsAt loc bs).map (·.1) := List.mem_map.mpr ⟨c, hc, rfl⟩
    rw [cellsAt_map_fst] at this
    obtain ⟨k, hk, hk'⟩ := List.mem_map.mp this
    rw [List.mem_range] at hk
    simp only [beq_iff_eq] at he
    omega

/-- Merged cells read as the new ones where there is one, and as the old ones elsewhere. -/
theorem mergeCells_find? (old new : List Host.Cell) (a : Nat) :
    (mergeCells old new).find? (fun c => c.1 == a)
      = (new.find? fun c => c.1 == a).or (old.find? fun c => c.1 == a) := by
  unfold mergeCells
  rw [List.find?_append]
  cases hn : new.find? fun c => c.1 == a with
  | some c =>
    have ha : c.1 = a := by simpa using List.find?_some hn
    have : (old.filter fun c => !new.any fun d => d.1 == c.1).find? (fun c => c.1 == a) = none := by
      rw [List.find?_eq_none]
      intro d hd he
      have h1 := (List.mem_filter.mp hd).2
      simp only [Bool.not_eq_true', List.any_eq_false, beq_iff_eq] at h1
      simp only [beq_iff_eq] at he
      exact h1 c (List.mem_of_find?_eq_some hn) (by rw [ha, he])
    rw [this]; rfl
  | none =>
    simp only [Option.or_none, Option.none_or]
    rw [List.find?_filter]
    congr 1
    funext c
    rw [List.find?_eq_none] at hn
    by_cases hc : c.1 = a
    · simp only [hc, beq_self_eq_true, Bool.not_eq_true', List.any_eq_false, decide_eq_true_eq]
      exact ⟨hn, trivial⟩
    · simp [hc]

/-- A store changes only its hart's outbound packets. -/
theorem push_frame (s : State) (h : Nat) (o : Src) (loc : Nat) (bs : List Byte) :
    OnlyHart h s (s.push h o loc bs)
    ∧ (s.push h o loc bs).hart h = { s.hart h with
        out := ((s.push h o loc bs).hart h).out,
        nextNum := ((s.push h o loc bs).hart h).nextNum } := by
  refine ⟨⟨⟨rfl, fun _ => rfl⟩, fun k hk => State.hart_updHart_other s hk _⟩, ?_⟩
  simp only [State.push]
  rw [State.hart_updHart_same]
  split
  · split
    · split <;> rfl
    · rfl
  · rfl

/-- A packet with the bytes of a new store in it: they are read where they lie, by their side alone. -/
theorem seenPast_joined (p q : Pkt) (o : Src) (loc : Nat) (bs : List Byte) (v : Bool) (a : Nat) (b : Byte)
    (h : q.writes v = mergeCells (p.writes v) (if v = o.vec then cellsAt loc bs else [])) :
    seenPast v a b q = if hc : v = o.vec ∧ loc ≤ a ∧ a < loc + bs.length then bs[a - loc]'(by omega) else seenPast v a b p := by
  unfold seenPast
  rw [h, mergeCells_find?]
  by_cases hv : v = o.vec
  · rw [if_pos hv, cellsAt_find?]
    by_cases hc : loc ≤ a ∧ a < loc + bs.length
    · simp only [dif_pos hc, dif_pos (⟨hv, hc⟩ : v = o.vec ∧ loc ≤ a ∧ a < loc + bs.length), Option.some_or, Option.map_some,
        Option.getD_some]
    · have : ¬(v = o.vec ∧ loc ≤ a ∧ a < loc + bs.length) := fun h => hc h.2
      simp only [dif_neg hc, dif_neg this, Option.none_or]
  · have : ¬(v = o.vec ∧ loc ≤ a ∧ a < loc + bs.length) := fun h => hv h.1
    simp only [if_neg hv, List.find?_nil, Option.none_or, dif_neg this]

theorem mkPkt_writes (s : State) (h : Nat) (o : Src) (loc : Nat) (bs : List Byte) (v : Bool) :
    (mkPkt s h o loc (.write (cellsAt loc bs))).writes v = if v = o.vec then cellsAt loc bs else [] := by
  unfold Pkt.writes mkPkt
  cases v <;> cases ho : o.vec <;> simp [PktBody.cells]

theorem mergeCells_nil (l : List Host.Cell) : mergeCells [] l = l := rfl

/-- After its own store a hart reads the bytes stored where they lie and every other byte as before, in accesses of the same
side; accesses of the other side read as before (spec/05, R92; spec/15, R260; spec/21, R332). -/
theorem view_push (s : State) (h : Nat) (o : Src) (loc : Nat) (bs : List Byte) (v : Bool) (a : Nat) :
    (s.push h o loc bs).view h v a 1
      = if hc : v = o.vec ∧ loc ≤ a ∧ a < loc + bs.length then [bs[a - loc]'(by omega)] else s.view h v a 1 := by
  have hw := mkPkt_writes s h o loc bs v
  have hfresh : ∀ b0 : Byte, (s.pkts h ++ [mkPkt s h o loc (.write (cellsAt loc bs))]).foldl (seenPast v a) b0
        = if hc : v = o.vec ∧ loc ≤ a ∧ a < loc + bs.length then bs[a - loc]'(by omega)
          else (s.pkts h).foldl (seenPast v a) b0 := by
    intro b0
    rw [List.foldl_append, List.foldl_cons, List.foldl_nil]
    generalize hz : (mkPkt s h o loc (.write (cellsAt loc bs))) = q at hw ⊢
    have := seenPast_joined { q with sw := [], vw := [] } q o loc bs v a ((s.pkts h).foldl (seenPast v a) b0)
      (by rw [hw]; unfold Pkt.writes; cases v <;> exact (mergeCells_nil _).symm)
    rw [this]
    split
    · rfl
    · unfold seenPast Pkt.writes; cases v <;> rfl
  have key : ∀ b0 : Byte, ((s.push h o loc bs).pkts h).foldl (seenPast v a) b0
        = if hc : v = o.vec ∧ loc ≤ a ∧ a < loc + bs.length then bs[a - loc]'(by omega)
          else (s.pkts h).foldl (seenPast v a) b0 := by
    intro b0
    have hp : (s.push h o loc bs).pkts h
        = s.net.filter (fun p => p.hart == h) ++ ((s.push h o loc bs).hart h).out := rfl
    have hs : s.pkts h = s.net.filter (fun p => p.hart == h) ++ (s.hart h).out := rfl
    rw [hp]
    simp only [State.push, State.hart_updHart_same]
    cases hl : (s.hart h).out.getLast? with
    | none => simp only [← List.append_assoc, ← hs]; exact hfresh b0
    | some p =>
      simp only
      cases hb : p.body with
      | add os => simp only [← List.append_assoc, ← hs]; exact hfresh b0
      | write cs =>
        simp only
        split
        · have hout : (s.hart h).out = (s.hart h).out.dropLast ++ [p] := by
            obtain ⟨ys, hy⟩ := List.getLast?_eq_some_iff.mp hl
            rw [hy, List.dropLast_concat]
          rw [hs]
          conv => rhs; rw [hout]
          simp only [← List.append_assoc, List.foldl_append, List.foldl_cons, List.foldl_nil]
          refine seenPast_joined p _ o loc bs v a _ ?_
          rw [← hw]
          unfold Pkt.writes Pkt.joined; cases v <;> rfl
        · simp only [← List.append_assoc, ← hs]; exact hfresh b0
  rw [State.view_eq, State.view_eq]
  have hbyte : ∀ loc', (s.push h o loc bs).byte loc' = s.byte loc' := fun _ => rfl
  simp only [List.range_one, List.map_cons, List.map_nil, Nat.add_zero, hbyte, key]
  split <;> rfl

end Sys2Proof.Machine
end

