-- ==== Sys2Proof/Laws/Scalar.lean ====
section
/-!
SUPPORT. Laws/Scalar.lean: what completing an S-word does.
-/
namespace Sys2Proof.Machine

theorem Hart.getS_zero (x : Hart) : x.getS 0 = 0 := rfl

theorem Hart.getS_of_ne (x : Hart) {q : SReg} (hq : q ≠ 0) : x.getS q = x.s.get q.toFin := if_neg hq

theorem Hart.setS_of_ne (x : Hart) {r : SReg} (hr : r ≠ 0) (v : Word) :
    x.setS r v = { x with s := x.s.set r.toNat v r.isLt } := if_neg hr

theorem Hart.setS_zero (x : Hart) (v : Word) : x.setS 0 v = x := rfl

theorem Hart.getS_setS (x : Hart) (r q : SReg) (v : Word) :
    (x.setS r v).getS q = if q = 0 then 0 else if q = r then v else x.getS q := by
  by_cases hq : q = 0
  · rw [if_pos hq, hq]; rfl
  · rw [if_neg hq]
    by_cases hr : r = 0
    · rw [hr, Hart.setS_zero, if_neg hq]
    · rw [Hart.setS_of_ne x hr, Hart.getS_of_ne _ hq, Hart.getS_of_ne _ hq]
      by_cases h : q = r
      · rw [if_pos h, h]; exact Vector.getElem_set_self r.isLt
      · rw [if_neg h]
        have h' : r.toNat ≠ q.toNat := fun e => h (BitVec.eq_of_toNat_eq e.symm)
        exact Vector.getElem_set_ne r.isLt q.isLt h'

/-- Setting a scalar register changes only the registers. -/
theorem Hart.setS_eq (x : Hart) (r : SReg) (v : Word) : x.setS r v = { x with s := (x.setS r v).s } := by
  unfold Hart.setS; split <;> rfl

/-- The one completion of an S-word with a result. -/
theorem wr_done (s : State) (sd : SReg) (x : Word) : SDone s (s.wr sd x) sd x 0 := by
  refine ⟨⟨⟨rfl, fun _ => rfl⟩, fun k hk => State.hart_updMe_other s hk _⟩, ?_, ?_, ?_⟩
  · rw [State.wr, State.me_updMe, Hart.setS_eq]
    simp
  · simp only [State.rs, State.wr, State.me_updMe]
    show (s.me.setS sd x).getS sd = _
    rw [Hart.getS_setS, if_pos rfl]
  · intro r hr
    simp only [State.rs, State.wr, State.me_updMe]
    show (s.me.setS sd x).getS r = _
    rw [Hart.getS_setS, if_neg hr]
    split
    · next h => rw [h]; rfl
    · rfl

/-- A word that completes without a result. -/
theorem adv_jumps (s : State) : Jumps s (.next s.adv) (s.me.pc + 4) :=
  ⟨_, rfl, ⟨⟨rfl, fun _ => rfl⟩, fun _ hk => State.hart_updMe_other s hk _⟩, by rw [State.adv, State.me_updMe]⟩

/-- A word that goes on elsewhere. -/
theorem jump_jumps (s : State) (pc : Word) : Jumps s (.next (s.jump pc)) pc :=
  ⟨_, rfl, ⟨⟨rfl, fun _ => rfl⟩, fun _ hk => State.hart_updMe_other s hk _⟩, by rw [State.jump, State.me_updMe]⟩

end Sys2Proof.Machine
end

