-- ==== Sys2Proof/Laws/Traps.lean ====
section
/-!
SUPPORT. Laws/Traps.lean: what taking a trap, an asynchronous event and the return do.
-/
namespace Sys2Proof.Machine

/-! ### What a waiting S-word and the V side take back -/

theorem State.byte_updChan (s : State) (hub ch : Nat) (f : Channel → Channel) (loc : Nat) :
    (s.updChan hub ch f).byte loc = s.byte loc := by
  unfold State.updChan; split <;> rfl

theorem State.hart_updChan (s : State) (hub ch : Nat) (f : Channel → Channel) (k : Nat) :
    (s.updChan hub ch f).hart k = s.hart k := by
  unfold State.updChan; split <;> rfl

/-- Taking back a broadcast changes the hart's request alone among harts, and no byte of memory. -/
theorem State.cancelBcast_spec (s : State) (h : Nat) :
    (∀ k, k ≠ h → (s.cancelBcast h).hart k = s.hart k) ∧ (∀ loc, (s.cancelBcast h).byte loc = s.byte loc)
    ∧ (s.cancelBcast h).hart h = { s.hart h with tkreq := ((s.cancelBcast h).hart h).tkreq } := by
  unfold State.cancelBcast
  split
  · exact ⟨fun _ _ => rfl, fun _ => rfl, rfl⟩
  · split
    · exact ⟨fun _ _ => rfl, fun _ => rfl, rfl⟩
    · refine ⟨fun k hk => ?_, fun loc => ?_, ?_⟩
      · rw [State.hart_updHart_other _ hk, State.hart_updChan]
      · exact State.byte_updChan _ _ _ _ _
      · rw [State.hart_updHart_same, State.hart_updChan]

/-- Taking back a wait changes the hart's wait and request alone among harts, and no byte of memory. -/
theorem State.cancelWait_spec (s : State) (h : Nat) :
    (∀ k, k ≠ h → (s.cancelWait h).hart k = s.hart k) ∧ (∀ loc, (s.cancelWait h).byte loc = s.byte loc)
    ∧ (s.cancelWait h).hart h = { s.hart h with swait := .none, tkreq := ((s.cancelWait h).hart h).tkreq } := by
  have hb := State.cancelBcast_spec s h
  unfold State.cancelWait
  dsimp only
  generalize s.cancelBcast h = u at hb
  have key : ∀ v : State, (∀ k, v.hart k = u.hart k) → (∀ loc, v.byte loc = u.byte loc) →
      (∀ k, k ≠ h → (v.updHart h fun x => { x with swait := .none }).hart k = s.hart k)
      ∧ (∀ loc, (v.updHart h fun x => { x with swait := .none }).byte loc = s.byte loc)
      ∧ (v.updHart h fun x => { x with swait := .none }).hart h = { s.hart h with
          swait := .none, tkreq := ((v.updHart h fun x => { x with swait := .none }).hart h).tkreq } := by
    intro v hv hw
    refine ⟨fun k hk => ?_, fun loc => (hw loc).trans (hb.2.1 loc), ?_⟩
    · rw [State.hart_updHart_other _ hk, hv k]; exact hb.1 k hk
    · rw [State.hart_updHart_same, hv h]; rw [hb.2.2]
  split <;> exact key _ (fun _ => rfl) fun _ => rfl

/-- A fold that writes the states of lane entries changes nothing else of any hart, and no byte of memory. -/
theorem foldl_laneSt (f : State → Nat → Nat) (g : Hart → BitVec 2) (is : List Nat) (s : State) :
    (∀ k, ∃ st, (is.foldl (fun s i => s.updHart (f s i) fun x => { x with lane := { x.lane with st := g x } }) s).hart k
      = { s.hart k with lane := { (s.hart k).lane with st := st } })
    ∧ ∀ loc, (is.foldl (fun s i => s.updHart (f s i) fun x => { x with lane := { x.lane with st := g x } }) s).byte loc
      = s.byte loc := by
  induction is generalizing s with
  | nil => exact ⟨fun k => ⟨(s.hart k).lane.st, rfl⟩, fun _ => rfl⟩
  | cons i is ih =>
    obtain ⟨ih1, ih2⟩ := ih (s.updHart (f s i) fun x => { x with lane := { x.lane with st := g x } })
    refine ⟨fun k => ?_, ih2⟩
    obtain ⟨st, h⟩ := ih1 k
    refine ⟨st, h.trans ?_⟩
    rw [State.hart_updHart]
    split
    · next hk => subst hk; rfl
    · rfl

/-- Leaving the queues changes no hart and no byte of memory. -/
theorem State.dropLaneWait_spec (s : State) (h : Nat) :
    (∀ k, (s.dropLaneWait h).hart k = s.hart k) ∧ ∀ loc, (s.dropLaneWait h).byte loc = s.byte loc := by
  unfold State.dropLaneWait
  generalize List.range _ = is
  induction is generalizing s with
  | nil => exact ⟨fun _ => rfl, fun _ => rfl⟩
  | cons i is ih => exact ih (s.updCore (coreOf h + i) _)

/-- Waiting for lane groups no more changes the hart's wait alone among harts, but for the states of the lane entries where it
waited, and no byte of memory. -/
theorem State.leaveLaneWait_spec (s : State) (h : Nat) :
    OthersKept s (s.leaveLaneWait h) h ∧ (∀ loc, (s.leaveLaneWait h).byte loc = s.byte loc)
    ∧ (s.leaveLaneWait h).hart h = { s.hart h with waitFor := none, lane := ((s.leaveLaneWait h).hart h).lane } := by
  obtain ⟨hh, hb⟩ := State.dropLaneWait_spec s h
  unfold State.leaveLaneWait
  dsimp only
  generalize s.dropLaneWait h = u at hh hb
  split
  · next hw =>
    refine ⟨⟨fun k _ => by rw [hh], fun _ k _ => hh k⟩, hb, ?_⟩
    rw [hh] at hw ⊢
    rw [Option.isNone_iff_eq_none] at hw
    rw [← hw]
  · next hw =>
    obtain ⟨h1, h2⟩ := foldl_laneSt (fun s i => holderOf s h + 8 * i)
      (fun x => if x.lane.st = 3 then 3 else restSt x.lane (mateWaits u h)) (List.range (u.hart h).gang) u
    refine ⟨⟨fun k hk => ?_, fun h0 => ?_⟩, fun loc => (h2 loc).trans (hb loc), ?_⟩
    · obtain ⟨st, e⟩ := h1 k
      rw [State.hart_updHart_other _ hk, e, hh]
    · exact absurd (by rw [hh, h0]; rfl) hw
    · obtain ⟨st, e⟩ := h1 h
      rw [State.hart_updHart_same, e, hh]

/-- Withdrawing the V side's waits changes the hart's waits alone among harts, but for the states of the lane entries where it
waited for groups, and no byte of memory. -/
theorem State.withdrawWaits_spec (s : State) (h : Nat) :
    OthersKept s (s.withdrawWaits h) h ∧ (∀ loc, (s.withdrawWaits h).byte loc = s.byte loc)
    ∧ (s.withdrawWaits h).hart h = { s.hart h with
        waitFor := none, settled := false, xlists := [], lane := ((s.withdrawWaits h).hart h).lane } := by
  obtain ⟨h1, h2, h3⟩ := State.leaveLaneWait_spec
    (s.updCore (coreOf h) fun c => { c with tileWait := c.tileWait.filter fun e => e.1 != h % 8 }) h
  unfold State.withdrawWaits
  dsimp only
  generalize State.leaveLaneWait _ h = v at h1 h2 h3
  refine ⟨⟨fun k hk => ?_, fun h0 k hk => ?_⟩, h2, ?_⟩
  · rw [State.hart_updHart_other _ hk]; exact h1.1 k hk
  · rw [State.hart_updHart_other _ hk]; exact h1.2 h0 k hk
  · rw [State.hart_updHart_same]
    have : (v.unwant h false).hart h = v.hart h := rfl
    rw [this, h3]; rfl

/-- After both, and a change of hart h itself, the other harts are kept. -/
theorem othersKept_enter {s : State} {h : Nat}
    (hc : (∀ k, k ≠ h → (s.cancelWait h).hart k = s.hart k) ∧ (∀ loc, (s.cancelWait h).byte loc = s.byte loc)
      ∧ (s.cancelWait h).hart h = { s.hart h with swait := .none, tkreq := ((s.cancelWait h).hart h).tkreq })
    (hw : OthersKept (s.cancelWait h) ((s.cancelWait h).withdrawWaits h) h) (f : Hart → Hart) :
    OthersKept s (((s.cancelWait h).withdrawWaits h).updHart h f) h := by
  refine ⟨fun k hk => ?_, fun h0 k hk => ?_⟩
  · rw [State.hart_updHart_other _ hk, ← hc.1 k hk]; exact hw.1 k hk
  · rw [State.hart_updHart_other _ hk, ← hc.1 k hk]; exact hw.2 (by rw [hc.2.2]; exact h0) k hk

theorem low56_eq (v : Word) : low56 v = v &&& 0x00FFFFFFFFFFFFFF := by
  apply BitVec.eq_of_getLsbD_eq
  intro i hi
  have : (0x00FFFFFFFFFFFFFF : Word).getLsbD i = decide (i < 56) := by
    revert hi; revert i; decide
  simp only [low56, BitVec.getLsbD_setWidth, BitVec.getLsbD_and, this]
  by_cases h : i < 56 <;> simp [h, hi]

/-- A trap that is delivered: of a hart in U mode, for no poison (spec/02, R38, R39). -/
theorem takeTrap_taken (s : State) (h : Nat) (t : TrapReq) (hk : (s.hart h).kmode = false) (hp : t.code ≠ 0x10) :
    TrapTaken s (takeTrap s h t) h (causeWord false t.sub t.src t.code) t.tval
      (if t.src = 0 then 0 else t.blk &&& 0x00FFFFFFFFFFFFFF) (qposWord t) t.vpend := by
  have hc := State.cancelWait_spec s h
  have hw := State.withdrawWaits_spec (s.cancelWait h) h
  have hcond : ((s.hart h).kmode || t.code == 0x10) = false := by rw [hk, Bool.false_or]; exact beq_false_of_ne hp
  unfold takeTrap
  rw [hcond]
  dsimp only [Bool.false_eq_true, if_false]
  refine ⟨?_, fun loc => ?_, ?_⟩
  rotate_left
  · rw [if_neg Bool.false_ne_true, State.updHart_byte, hw.2.1, hc.2.1]
  rotate_left
  · rw [if_neg Bool.false_ne_true]; exact othersKept_enter hc hw.1 _
  · rw [if_neg Bool.false_ne_true, State.hart_updHart_same]
    have e1 := hw.2.2
    have e2 := hc.2.2
    generalize ((s.cancelWait h).withdrawWaits h).hart h = y at e1 ⊢
    generalize (s.cancelWait h).hart h = z at e1 e2
    rw [e1, e2]
    by_cases hs : t.src = 0#2 <;> simp [Hart.enterK, low56_eq, hk, hs]

/-- A trap in K mode, or of poison, is not delivered (spec/02, R43). -/
theorem takeTrap_undelivered (s : State) (h : Nat) (t : TrapReq) (hk : (s.hart h).kmode = true ∨ t.code = 0x10) :
    takeTrap s h t = s.undelivered h t := by
  unfold takeTrap
  have : ((s.hart h).kmode || t.code == 0x10) = true := by rcases hk with hk | hk <;> simp [hk]
  rw [this]; rfl

/-- A request that is taken: the lowest pending channel (spec/02, R38; spec/20, R323). -/
theorem takeAsync_taken (s : State) (h ch : Nat) (rest : List Nat) (hk : (s.hart h).kmode = false)
    (hp : (s.hart h).pending = ch :: rest) :
    TrapTaken s (takeAsync s h) h (causeWord true (BitVec.ofNat 8 ch) 0 0x11) 0 0 0
      (s.hart h).stopped ∧ ((takeAsync s h).hart h).pending = rest := by
  have hc := State.cancelWait_spec s h
  have hw := State.withdrawWaits_spec (s.cancelWait h) h
  unfold takeAsync
  rw [hp]
  dsimp only
  refine ⟨⟨othersKept_enter hc hw.1 _, fun loc => by rw [State.updHart_byte, hw.2.1, hc.2.1], ?_⟩,
    by rw [State.hart_updHart_same]⟩
  · rw [State.hart_updHart_same]
    have e1 := hw.2.2
    have e2 := hc.2.2
    generalize ((s.cancelWait h).withdrawWaits h).hart h = y at e1 ⊢
    generalize (s.cancelWait h).hart h = z at e1 e2
    rw [e1, e2]
    simp [Hart.enterK, Hart.stopped, low56_eq, hk]

/-- eret touches only the hart that executes. -/
theorem returnTrap_onlyMe (s : State) : OnlyMe s (returnTrap s) :=
  ⟨⟨rfl, fun _ => rfl⟩, fun _ hk => State.hart_updMe_other s hk _⟩

end Sys2Proof.Machine
end

