-- ==== Sys2Proof/Laws/Vector.lean ====
section
/-!
SUPPORT. Laws/Vector.lean: the checks and the completion of a V-word.
-/
namespace Sys2Proof.Machine

open Sys2Proof

/-! ### Checks -/

/-- Where every field of the format word passes, the instruction goes on. -/
theorem withFmt_ok (s : State) (x : FW) (cs : List FwChk) (k : Out) (h : ∀ c ∈ cs, c.2 = true) : withFmt s x cs k = k := by
  unfold withFmt
  rw [List.find?_eq_none.mpr (by intro c hc; simp [h c hc])]

/-- The first field that fails raises illegal format, with its number as subcode and the word as c.tval. -/
theorem withFmt_bad (s : State) (x : FW) (cs : List FwChk) (k : Out) {c : FwChk} (h : cs.find? (fun c => !c.2) = some c) :
    withFmt s x cs k = .next (s.trapV 0x02 (BitVec.ofNat 8 c.1) x.word) := by
  unfold withFmt; rw [h]

theorem need_ok (s : State) (k : Out) : need s true k = k := rfl

theorem need_bad (s : State) (k : Out) : need s false k = illegalV s := rfl

/-- Where c.vl fits every width, the instruction goes on. -/
theorem withVl_ok (s : State) (ws : List Width) (k : Out) (h : ∀ w ∈ ws, s.vl ≤ vlmax s s.cur w) : withVl s ws k = k := by
  unfold withVl need
  rw [if_pos (List.all_eq_true.mpr fun w hw => decide_eq_true (h w hw))]

/-- A vector source gives its elements and the selvedge that the result keeps. -/
theorem withA_vec (s : State) (v : VReg5) (w : Width) (k : State → List Word → List Level → Out) :
    withA s (.vec v) w k = k s (velems (s.vreg v) w s.vl) (keepLevels (s.vreg v).levels s.vl) := rfl

/-! ### Lengths -/

theorem padTake_length {α : Type} (d : α) (n : Nat) (l : List α) : (padTake d n l).length = n := by
  induction n generalizing l with
  | zero => rfl
  | succ n ih => cases l <;> simp [padTake, ih]

theorem chunks_length (k n : Nat) (bs : List Byte) : (chunks k n bs).length = n := by
  induction n generalizing bs with
  | zero => rfl
  | succ n ih => simp [chunks, ih]

theorem velems_length (v : VReg) (w : Width) (n : Nat) : (velems v w n).length = n := by
  unfold velems; split
  · exact padTake_length _ _ _
  · exact chunks_length _ _ _

theorem memberBits_length (i n : Nat) (p : Pred) : (memberBits i n p).length = n := by
  induction n generalizing i p with
  | zero => rfl
  | succ n ih =>
    cases p with
    | nil => simp [memberBits, ih]
    | cons k p => simp only [memberBits]; split <;> simp [ih]

theorem pbits_length (s : State) (p : PReg) (n : Nat) : (s.pbits p n).length = n := by
  unfold State.pbits; split
  · simp
  · exact memberBits_length _ _ _

theorem srcB_length (s : State) (b : SrcB) (f : Fmt) (n : Nat) : (srcB s b f n).length = n := by
  cases b <;> simp [srcB, velems_length]

/-- The elements of a result by R109. -/
theorem pickFrom_getElem? (zm : Bool) (vs stop i : Nat) (as : List Bool) (ns os : List Word) (j : Nat)
    (h1 : ns.length = as.length) (h2 : os.length = as.length) (hj : j < as.length) :
    (pickFrom zm vs stop i as ns os)[j]? = some (pickElem zm vs stop (i + j) as[j] ns[j] os[j]) := by
  induction as generalizing i ns os j with
  | nil => simp at hj
  | cons a as ih =>
    cases ns with
    | nil => simp at h1
    | cons n ns =>
      cases os with
      | nil => simp at h2
      | cons o os =>
        cases j with
        | zero => simp [pickFrom]
        | succ j =>
          simp only [List.length_cons, Nat.add_right_cancel_iff, Nat.add_lt_add_iff_right] at h1 h2 hj
          simp [pickFrom, ih (i + 1) ns os j h1 h2 hj, Nat.add_comm, Nat.add_left_comm]

theorem pickFrom_length (zm : Bool) (vs stop i : Nat) (as : List Bool) (ns os : List Word)
    (h1 : ns.length = as.length) (h2 : os.length = as.length) : (pickFrom zm vs stop i as ns os).length = as.length := by
  induction as generalizing i ns os with
  | nil => cases ns <;> rfl
  | cons a as ih =>
    cases ns with
    | nil => simp at h1
    | cons n ns =>
      cases os with
      | nil => simp at h2
      | cons o os =>
        simp only [List.length_cons, Nat.add_right_cancel_iff] at h1 h2
        simp [pickFrom, ih (i + 1) ns os h1 h2]

/-! ### Completion -/

/-- Completing a V-word moves its block to the next word and c.vs to 0, and changes nothing else but the reservation of an
interrupted instruction. -/
theorem advV_spec (s : State) :
    OnlyMe s s.advV ∧ BlockAdvanced s s.advV
    ∧ s.advV.me = { s.me with vs := 0, resv := s.advV.me.resv, vq := s.advV.me.vq, kq := s.advV.me.kq } := by
  refine ⟨⟨⟨rfl, fun _ => rfl⟩, fun _ hk => State.hart_updMe_other s hk _⟩, ?_, ?_⟩
  · simp only [BlockAdvanced, State.advV, State.me_updMe]
    cases hk : s.me.kq with
    | some k => simp [Hart.block?, Hart.setBlock, Block.next]
    | none =>
      cases hv : s.me.vq with
      | nil => simp [Hart.block?, headNexts]
      | cons b q => simp [Hart.block?, Hart.setBlock, headNexts, Block.next]
  · simp only [State.advV, State.me_updMe]
    cases hk : s.me.kq with
    | some k => simp [Hart.block?, Hart.setBlock]
    | none =>
      cases hv : s.me.vq with
      | nil => simp [Hart.block?]
      | cons b q => simp [Hart.block?, Hart.setBlock]

theorem setV_me (s : State) (vd : VReg5) (r : VReg) : (s.setV vd r).me = s.me.setV vd r := State.me_updMe s _

theorem vreg_setV (s : State) (vd v : VReg5) (r : VReg) : (s.setV vd r).vreg v = if v = vd then r else s.vreg v := by
  simp only [State.vreg, setV_me, Hart.setV]
  by_cases h : v = vd
  · rw [if_pos h, h]; exact Vector.getElem_set_self vd.isLt
  · rw [if_neg h]
    exact Vector.getElem_set_ne vd.isLt v.isLt fun e => h (BitVec.eq_of_toNat_eq e.symm)

/-- Writing one vector register and completing: the one way a unit instruction with a vector result ends. -/
theorem setV_advV (s : State) (vd : VReg5) (r : VReg) :
    VQuiet s (s.setV vd r).advV [vd] ∧ ((s.setV vd r).advV).vreg vd = r
    ∧ ((s.setV vd r).advV).me.vdirty = s.me.vdirty ||| ((1 : BitVec 32) <<< vd.toNat) := by
  obtain ⟨⟨⟨h1, h2⟩, h3⟩, ⟨b1, b2, b3⟩, h4⟩ := advV_spec (s.setV vd r)
  have hv : ∀ v, ((s.setV vd r).advV).vreg v = (s.setV vd r).vreg v := fun v => by
    simp only [State.vreg]; rw [h4]
  have hx : ∀ f : Hart → Hart, ∀ k, k ≠ s.cur → (s.updMe f).hart k = s.hart k := fun f k hk => State.hart_updMe_other s hk f
  refine ⟨⟨⟨⟨⟨?_, fun loc => h2 loc⟩, fun k hk => (h3 k hk).trans (hx _ k hk)⟩, ⟨b1, ?_, ?_⟩, ?_, ?_, ?_⟩, ?_, ?_⟩, ?_, ?_⟩
  · rw [h1]; rfl
  · rw [b2, setV_me]; rfl
  · rw [b3, setV_me]; rfl
  · unfold Hart.sameBut; rw [h4, setV_me]; rfl
  · intro v hvd
    rw [hv, vreg_setV, if_neg (by simpa using hvd)]
  · rw [h4, setV_me]; simp [Hart.setV]
  · rw [h4, setV_me]; rfl
  · rw [h4, setV_me]; rfl
  · rw [hv, vreg_setV, if_pos rfl]
  · rw [h4, setV_me]; rfl

end Sys2Proof.Machine
end

