-- ==== Sys2Proof/Tests/Slice0.lean ====
section
/-!
SUPPORT. Tests/Slice0.lean: ill-formed terms that the checks refuse, words worked in the spec that decode as it says, single
steps on small states, and for each obligation with hypotheses states and operands that meet them.
-/
namespace Sys2Proof.Machine.Tests

set_option maxRecDepth 8192

/-! ### Well-formedness: for each check a term that it refuses, beside one that it accepts -/

theorem test_wellFormed_zeroing_without_mask :
    (Instr.vadd ⟨1, .vec 2, .vec 3, ⟨0, true⟩, 1⟩).wellFormed = false
    ∧ (Instr.vadd ⟨1, .vec 2, .vec 3, ⟨1, true⟩, 1⟩).wellFormed = true := by decide
theorem test_wellFormed_unsigned_doubleword :
    (Instr.ldAcq ⟨1, 2, 0, .w64, true, .hart⟩).wellFormed = false
    ∧ (Instr.ldSc ⟨1, 2, 0, .w32, true, .hart⟩).wellFormed = true := by decide
theorem test_wellFormed_residue_fcvt :
    (Instr.fcvt .rq8 .fp32 .rne 1 2).wellFormed = false ∧ (Instr.fcvt .fp32 .ra48 .rne 1 2).wellFormed = false
    ∧ (Instr.fcvt .fp64 .int8 .rne 1 2).wellFormed = true := by decide
theorem test_wellFormed_gmax :
    (Instr.vsetl 1 1 9).wellFormed = false ∧ (Instr.vsetl 1 1 8).wellFormed = true := by decide
theorem test_wellFormed_segment_registers :
    (Instr.vldseg ⟨30, 2, ⟨0, false⟩, 1, 2⟩).wellFormed = false
    ∧ (Instr.vstseg ⟨29, 2, false, ⟨0, false⟩, 1, 2⟩).wellFormed = true := by decide
theorem test_wellFormed_hart : (Instr.fwaitWake 1536).wellFormed = false ∧ (Instr.fwaitWake 1535).wellFormed = true := by
  decide
theorem test_wellFormed_core : (Instr.waiterServed 192).wellFormed = false ∧ (Instr.waiterServed 191).wellFormed = true := by
  decide
theorem test_wellFormed_cluster : (Instr.ctakeServed 24).wellFormed = false ∧ (Instr.ctakeServed 23).wellFormed = true := by
  decide
theorem test_wellFormed_die : (Instr.launchDispatch 2).wellFormed = false ∧ (Instr.launchDispatch 1).wellFormed = true := by
  decide
theorem test_wellFormed_hub : (Instr.tackHubCycle 3 0).wellFormed = false ∧ (Instr.tackHubCycle 2 0).wellFormed = true := by
  decide
theorem test_wellFormed_port : (Instr.portFailure 16).wellFormed = false ∧ (Instr.portFailure 15).wellFormed = true := by
  decide

/-! ### Decoding: words that the spec works out -/

/-- spec/05, spec/16, spec/17, spec/23, spec/24. -/
theorem test_decode_integer :
    decodeS 0x05880013 = .ok (.div 12 8 0) ∧ decodeS 0x070C5801 = .ok (.sub 24 12 11)
    ∧ decodeS 0x072E4803 = .ok (.or 25 14 9) ∧ decodeS 0x11C0FF01 = .ok (.ori 14 0 0xFF01)
    ∧ decodeS 0x21CE0028 = .ok (.slli 14 14 40) ∧ decodeS 0x24C00020 = .ok (.lhi 6 0x0020) :=
  ⟨rfl, rfl, rfl, rfl, rfl, rfl⟩
theorem test_decode_branches :
    decodeS 0x80000004 = .ok (.beq 0 0 4) ∧ decodeS 0x8523FFFF = .ok (.bne 9 3 0xFFFF)
    ∧ decodeS 0x8969001F = .ok (.blt 11 9 31) ∧ decodeS 0x8D490002 = .ok (.bge 10 9 2)
    ∧ decodeS 0x9BE00016 = .ok (.jal 31 22) ∧ decodeS 0x9C1F0000 = .ok (.jalr 0 31 0) :=
  ⟨rfl, rfl, rfl, rfl, rfl, rfl⟩
/-- spec/03, spec/05, spec/17, spec/23. -/
theorem test_decode_scalar_memory :
    decodeS 0x496A0000 = .ok (.ldW 11 10 0) ∧ decodeS 0x6CA60000 = .ok (.stD 5 6 0)
    ∧ decodeS 0x712E0230 = .ok (.ldAcq ⟨9, 14, 0, .w32, false, .cluster⟩)
    ∧ decodeS 0x74E61250 = .ok (.stRel ⟨7, 6, 2, .w32, .cluster⟩)
    ∧ decodeS 0x79063A78 = .ok (.amoAdd ⟨8, 6, 7, true, .ar, .cluster⟩)
    ∧ decodeS 0x792E5270 = .ok (.amoAdd ⟨9, 14, 10, false, .ar, .cluster⟩)
    ∧ decodeS 0x7D2B3A19 = .ok (.cas ⟨9, 11, 7, true, .relaxed, true, .cluster⟩)
    ∧ decodeS 0xA8000202 = .ok (.fncVs .cluster) :=
  ⟨rfl, rfl, rfl, rfl, rfl, rfl, rfl, rfl⟩
/-- spec/03, spec/05, spec/16, spec/17, spec/24. -/
theorem test_decode_scalar_float_and_system :
    decodeS 0xA1CD7E03 = .ok (.fdiv .fp64 .rne 14 13 15) ∧ decodeS 0xA60E5888 = .ok (.fcvt .int32 .fp64 .rtz 16 14)
    ∧ decodeS 0xACA00001 = .ok (.crd 5 1) ∧ decodeS 0xB4000006 = .ok .endL ∧ decodeS 0xB4A00007 = .ok (.vrecv 5)
    ∧ decodeS 0xB8000033 = .ok (.vf 51) :=
  ⟨rfl, rfl, rfl, rfl, rfl, rfl⟩
/-- spec/18, spec/19, spec/20, spec/22. -/
theorem test_decode_groups :
    decodeS 0xC1140003 = .ok (.tkbar 8 20) ∧ decodeS 0xC134A804 = .ok (.tkbc 9 20 21) ∧ decodeS 0xC1540005 = .ok (.tkrcv 10 20)
    ∧ decodeS 0xC4B40000 = .ok (.lnch 5 20) ∧ decodeS 0xC4D50001 = .ok (.lwait 6 21 0) ∧ decodeS 0xC5170003 = .ok (.lcanc 8 23)
    ∧ decodeS 0xC8B40000 = .ok (.fwait 5 20 0) ∧ decodeS 0xC8D43801 = .ok (.ffill 6 20 7)
    ∧ decodeS 0xC9090002 = .ok (.ctake 8 9) ∧ decodeS 0xC94B6003 = .ok (.patld 10 11 12)
    ∧ decodeS 0xC8A60004 = .ok (.gform 5 6) ∧ decodeS 0xC8A00005 = .ok (.gsplit 5) ∧ decodeS 0xCCB40000 = .ok (.tspawn 5 20)
    ∧ decodeS 0xCCC00001 = .ok (.tabs 6) ∧ decodeS 0xCCE00002 = .ok (.twd 7) ∧ decodeS 0xCC000003 = .ok .tdone :=
  ⟨rfl, rfl, rfl, rfl, rfl, rfl, rfl, rfl, rfl, rfl, rfl, rfl, rfl, rfl, rfl, rfl⟩
/-- spec/03, spec/14, spec/16, spec/17, spec/24. -/
theorem test_decode_elementwise :
    decodeV 0x0120420141000000 = .ok (.vadd ⟨4, .vec 1, .vec 1, ⟨2, true⟩, 1⟩)
    ∧ decodeV 0x0218C60181000000 = .ok (.vsub ⟨3, .vec 3, .vec 3, ⟨3, false⟩, 1⟩)
    ∧ decodeV 0x0910520002000100 = .ok (.vand ⟨2, .vec 1, .sca 9, ⟨0, false⟩, 2⟩)
    ∧ decodeV 0x18208A0001000A00 = .ok (.vfadd ⟨4, .bob 2 true, .vec 5, ⟨0, false⟩, 1⟩)
    ∧ decodeV 0x1A394C0001000000 = .ok (.vfmul ⟨7, .vec 5, .vec 6, ⟨0, false⟩, 1⟩)
    ∧ decodeV 0x3018520001002100 = .ok (.vcmpLt ⟨3, .vec 1, .sca 9, ⟨0, false⟩, 1⟩)
    ∧ decodeV 0x3010460001004000 = .ok (.vcmpGt ⟨2, .vec 1, .vec 3, ⟨0, false⟩, 1⟩)
    ∧ decodeV 0x3F00100001000001 = .ok (.vsetl 8 1 1) :=
  ⟨rfl, rfl, rfl, rfl, rfl, rfl, rfl, rfl⟩
/-- spec/11, spec/16, spec/24. -/
theorem test_decode_nested :
    decodeV 0x4438400011003000 = .ok (.vredMax ⟨7, 1, 1, 0, 1⟩) ∧ decodeV 0x4518400011000000 = .ok (.vscanAdd ⟨3, 1, 1, ⟨0, false⟩, 1⟩)
    ∧ decodeV 0x4630820011000000 = .ok (.vdist ⟨6, 2, 1, 1, ⟨0, false⟩, 1⟩)
    ∧ decodeV 0x4820460001000002 = .ok (.vpart ⟨4, 1, 3, 0, 2, 0, 1⟩) ∧ decodeV 0x49090A0001000000 = .ok (.vcat ⟨1, 4, 5, 0, 1⟩)
    ∧ decodeV 0x4A39000011000000 = .ok (.vsort ⟨7, 4, 1, false, 1⟩)
    ∧ decodeV 0x4B08400000001000 = .ok (.vsidxOff ⟨1, 1, 0, ⟨0, false⟩⟩) :=
  ⟨rfl, rfl, rfl, rfl, rfl, rfl, rfl⟩
/-- spec/08, spec/11, spec/16, spec/17. -/
theorem test_decode_vector_memory :
    decodeV 0x6020000000800400 = .ok (.vld ⟨4, .w32, ⟨0, false⟩, 4⟩)
    ∧ decodeV 0x6118000000200500 = .ok (.vst ⟨3, none, false, ⟨0, false⟩, 5⟩)
    ∧ decodeV 0x6420800000C00400 = .ok (.vldx ⟨4, 2, .w64, none, ⟨0, false⟩, 4⟩)
    ∧ decodeV 0x6428CC0000880460 = .ok (.vldx ⟨5, 3, .w32, some ⟨6, 6⟩, ⟨0, false⟩, 4⟩)
    ∧ decodeV 0x6740000003020400 = .ok (.vldseg ⟨8, 2, ⟨0, false⟩, 3, 4⟩)
    ∧ decodeV 0x6C08000000000400 = .ok (.vldn 1 none 4) ∧ decodeV 0x6D30000000000800 = .ok (.vstn 6 false 8) :=
  ⟨rfl, rfl, rfl, rfl, rfl, rfl, rfl⟩
/-- spec/09, spec/10, spec/23. -/
theorem test_decode_sparse_and_front :
    decodeV 0x8218440003000000 = .ok (.zadd 3 1 2 3) ∧ decodeV 0x99208A0014000000 = .ok (.vselk 4 2 5 1 0 4)
    ∧ decodeV 0x9208900180000000 = .ok (.frins 1 2 8 3) ∧ decodeV 0x9300400000000000 = .ok (.frmrg 0 1)
    ∧ decodeV 0x9450000000000030 = .ok (.frrd 10 0 3) ∧ decodeV 0x9550000000000000 = .ok (.frcnt 10 0)
    ∧ decodeV 0x9608000000000400 = .ok (.frst 1 4) ∧ decodeV 0x9608000000001A00 = .ok (.frld 1 10) :=
  ⟨rfl, rfl, rfl, rfl, rfl, rfl, rfl, rfl⟩
/-- spec/13. -/
theorem test_decode_matrix :
    decodeV 0xA000040000000101 = .ok (.mshp 2 true 1) ∧ decodeV 0xA100000000000450 = .ok (.mtld 0 4 5 0)
    ∧ decodeV 0xA108000000001400 = .ok (.mtldI 1 4) ∧ decodeV 0xA2100C0000000450 = .ok (.mtldz 2 6 4 5 0)
    ∧ decodeV 0xA340C00180000000 = .ok (.mma 8 (.vec 3) 0 3) ∧ decodeV 0xA341020000000800 = .ok (.mma 8 (.bob 4) 1 0)
    ∧ decodeV 0xA448C45000001400 = .ok (.mmaz 9 (.vec 3) 2 (some (.bob 5)) 0) ∧ decodeV 0xA508000000000000 = .ok (.mtrel 1)
    ∧ decodeV 0xA5080C0000001000 = .ok (.mtrelS 1 6) :=
  ⟨rfl, rfl, rfl, rfl, rfl, rfl, rfl, rfl, rfl⟩
/-- spec/14, spec/16, spec/24, spec/26. -/
theorem test_decode_bobbins_predicates_permutes_fabric :
    decodeV 0xB018000000000870 = .ok (.bopen 3 7 8) ∧ decodeV 0xB110000003004400 = .ok (.bcopy 2 (.contig 4) (some 3) 0)
    ∧ decodeV 0xB310000000000000 = .ok (.bwait 2) ∧ decodeV 0xB410120000000000 = .ok (.bstat 9 2)
    ∧ decodeV 0xB510000000002900 = .ok (.bpost 2 9 .cluster) ∧ decodeV 0xC528C00000000000 = .ok (.pcount 5 3 0)
    ∧ decodeV 0xD24A000014000000 = .ok (.vrev 9 8 1 4) ∧ decodeV 0xD318140001000000 = .ok (.vbcast 3 10 ⟨0, false⟩ 1)
    ∧ decodeV 0xD902800000000000 = .ok (.vsnd 10) ∧ decodeV 0x9C30800000801000 = .ok (.xfwdG 6 2 .w32 0 ⟨0, false⟩)
    ∧ decodeV 0x9C20460010000001 = .ok (.xfwdT 4 1 3 1 1) ∧ decodeV 0x9D28800000000000 = .ok (.xloc 5 2 0 ⟨0, false⟩)
    ∧ decodeV 0xFF00000000000000 = .ok .vstop :=
  ⟨rfl, rfl, rfl, rfl, rfl, rfl, rfl, rfl, rfl, rfl, rfl, rfl, rfl⟩
/-- Written from the layouts of spec/03, R53 to R57: opcodes 0xDA and 0xE0, and words that break a check each. -/
theorem test_decode_rings_and_refusals :
    decodeV 0xDA08800000000000 = .ok (.qput 1 2) ∧ decodeV 0xF320420141000000 = .error .reservedOpcode
    ∧ decodeV 0x0120420141001000 = .error .reservedFunction ∧ decodeV 0x0120420041000000 = .error .nonzeroField
    ∧ decodeV 0xFF00000000000001 = .error .nonzeroField ∧ decodeV 0x6110000000A00900 = .error .reservedFunction
    ∧ decodeS 0x01234567 = .error .reservedOpcode ∧ decodeS 0x7118023C = .error .reservedFunction :=
  ⟨rfl, rfl, rfl, rfl, rfl, rfl, rfl, rfl⟩

/-! ### Small states -/

/-- An Except that gives a value. -/
theorem okIs {ε α : Type} [DecidableEq α] {x : Except ε α} {a : α}
    (h : (match x with | .ok b => decide (b = a) | .error _ => false) = true) : x = .ok a := by
  cases x with
  | ok b => exact congrArg _ (of_decide_eq_true h)
  | error e => exact absurd h Bool.false_ne_true

/-- An Except that gives an error. -/
theorem errIs {ε α : Type} [DecidableEq ε] {x : Except ε α} {a : ε}
    (h : (match x with | .error b => decide (b = a) | .ok _ => false) = true) : x = .error a := by
  cases x with
  | error b => exact congrArg _ (of_decide_eq_true h)
  | ok e => exact absurd h Bool.false_ne_true

/-- Scalar registers with the values listed. -/
def regs (l : List (Nat × Word)) : Vector Word 32 := l.foldl (fun v e => v.setIfInBounds e.1 e.2) (Vector.replicate 32 0)

/-- Hart 0, changed, alone in a booted package otherwise at reset. -/
def alone (f : Hart → Hart) : State :=
  { State.reset with boot := .delveloth, perst := false, harts := [(0, f { Hart.reset 0 with run := .running, tvec := 64 })] }

/-- Hart 0 in U mode with scalar registers. -/
def user (l : List (Nat × Word)) : State := alone fun x => { x with s := regs l }

/-- Hart 0 in K mode. -/
def kern (l : List (Nat × Word)) : State := alone fun x => { x with s := regs l, kmode := true }

/-- The first address of the shared SRAM's window (spec/21, R335). -/
def sram : Word := 0x00FF020000000000
/-- Its location. -/
def sramLoc : Nat := 2 ^ 52
/-- The first address of the scratchpad's window (spec/18, R272). -/
def pad : Word := 0x00FF010000000000
/-- Its location for cluster 0. -/
def padLoc : Nat := 2 ^ 53

/-- A block whose passing registers hold the values listed. -/
def passBlock (l : List (Nat × Word)) : Block :=
  { addr := sram, snap := l.foldl (fun v e => v.setIfInBounds e.1 e.2) (Vector.replicate 16 0), off := 0, started := false,
    mid := false, xr := .off, mark := 0, sv := 0, vnum := 0, fence := 0, vv := false, own := true }

/-- Hart 0 with one lane group and a block that dispatches; l gives its passing registers, f changes it. -/
def vecs (l : List (Nat × Word)) (f : Hart → Hart) : State := alone fun x =>
  f { x with vq := [passBlock l], lane := { x.lane with gmask := 1, occ := true, st := 1 }, lastGrant := 1, vl := 2 }

/-- Vector registers with the contents listed. -/
def vregs (l : List (Nat × VReg)) : Vector VReg 32 :=
  l.foldl (fun v e => v.setIfInBounds e.1 e.2) (Vector.replicate 32 VReg.empty)

/-! ### The step -/

/-- Nothing is due, by the two tests of the step. -/
theorem notDue_of {s : State} (h : dueEvent s = none)
    (u : ((untilDue s).all fun n => decide ((nextPick s).cycles < n)) = true) : NotDue s :=
  ⟨h, fun n hn => by rw [hn] at u; exact of_decide_eq_true u⟩

theorem witness_StepRunsSWord :
    let s := State.reset.withFetchWord 32 0x04430800
    let s1 := { s.turned with cur := 0, brk := none }
    NotDue s ∧ (nextPick s).agent = .sword 0 ∧ s1.halted = false ∧ s1.me.run = .running ∧ s1.me.asyncReady = false
    ∧ (s1.me.kmode = false → s1.me.forwards = false)
    ∧ s1.me.pc.toNat % 4 = 0 ∧ resolve s1 0 (!s1.me.kmode) .fetch s1.me.pc = .ok 0x40000 ∧ s1.readsPoison 0x40000 4 = false
    ∧ decodeS (BitVec.ofNat 32 (leNat (s1.bytes 0x40000 4))) = .ok (.add 2 3 1) :=
  ⟨notDue_of (by decide) (by decide), by decide, by decide, by decide, by decide, by decide, by decide, okIs (by decide),
   by decide, okIs (by decide)⟩

/-- The block of a state that runs vmv, and of one that runs vstop. -/
def vwordState (w : Nat) : State := State.reset.withFetchWord 64 w

theorem witness_StepRunsVWord : ∀ w ∈ [0xD810C00000000000, 0xFF00000000000000],
    let s := vwordState w
    let s1 := { s.turned with cur := 0, brk := none }
    let s2 := passPointer s1 0
    let b := { passBlock [] with addr := 0x40000 }
    (nextPick s).agent = .vword 0 none ∧ s1.halted = false ∧ s1.withheld = false ∧ vReady s1 0 = true ∧ chosenV s1 0 = true
    ∧ s1.me.block? = some b ∧ b.off < 65535 ∧ (b.addr + BitVec.ofNat 64 (8 * b.off)).toNat % 8 = 0
    ∧ s2.readsPoison 0x40000 8 = false ∧ fetchWaits s2 b 0x40000 = false
    ∧ entryWaits s2 (entryHart s2 0) = false ∧ s2.me.lazy = false ∧ held s2 0 ≠ 0 ∧ s2.me.kq = none
    ∧ (∀ e ∈ grantEntries s2 0, (bitsOf (s2.hart e).lane.gmask).length = held s2 0)
    ∧ regsWait (unpark s2 0) (.vmv 2 3) = false ∧ regsWait (unpark s2 0) .vstop = false ∧ trioOf (unpark s2 0) 0 = none := by
  decide
theorem witness_StepRunsVWord_due : ∀ w ∈ [0xD810C00000000000, 0xFF00000000000000], NotDue (vwordState w) := by
  intro w hw
  simp only [List.mem_cons, List.not_mem_nil, or_false] at hw
  rcases hw with rfl | rfl <;> exact notDue_of (by decide) (by decide)
theorem witness_StepRunsVWord_fetch :
    let s2 := passPointer { (vwordState 0xD810C00000000000).turned with cur := 0, brk := none } 0
    resolve s2 0 s2.me.kq.isNone .fetch 0x40000 = .ok 0x40000
    ∧ decodeV (BitVec.ofNat 64 (leNat (s2.bytes 0x40000 8))) = .ok (.vmv 2 3) := ⟨okIs (by decide), okIs (by decide)⟩

theorem witness_StepRunsEvent :
    dueEvent { State.reset with time := 2048 } = some .frameTick
    ∧ (let s := { State.reset with agenda := [⟨.event .readFaultDrops, 3⟩] }
       NotDue s ∧ (nextPick s).agent = .event .readFaultDrops ∧ Instr.readFaultDrops.isEvent = true
       ∧ Instr.readFaultDrops.wellFormed = true ∧ eventReady s.turned .readFaultDrops = true)
    ∧ (let s := { State.reset with agenda := [⟨.event .readFaultDrops, 3000⟩] }
       dueEvent s = none ∧ untilDue s = some 2048 ∧ 2048 ≤ (nextPick s).cycles) :=
  ⟨by decide, ⟨notDue_of (by decide) (by decide), by decide⟩, by decide⟩

theorem witness_StepRunsAgent :
    ∀ a ∈ [Agent.inject 1535 1, .flit 0, .cross 0, .arrive 0, .tlbFill 191 0 0, .ctxFill 1535 0, .walkFill 191 0 0 1,
        .tlbEvict 191, .endLaunch 1 4095, .place 1535 0 0, .restart 0, .lostResponse 5 1 (.flit 0), .readReg 0, .hostRead 0 4,
        .retry 15 true, .retry 0 false, .answered 0],
      let s := { State.reset with agenda := [⟨a, 3⟩] }
      NotDue s ∧ (nextPick s).agent = a := by
  intro a ha
  simp only [List.mem_cons, List.not_mem_nil, or_false] at ha
  rcases ha with rfl | rfl | rfl | rfl | rfl | rfl | rfl | rfl | rfl | rfl | rfl | rfl | rfl | rfl | rfl | rfl | rfl <;>
    exact ⟨notDue_of (by decide) (by decide), rfl⟩
/-- A hart's load meets the loss of the line it reads, and of another line; a flit reads for no one. -/
theorem witness_StepRunsAgent_lost :
    let s := (State.reset.withFetchWord 32 0x4C410000).updHart 0 fun x => { x with s := regs [(1, sram)] }
    let done (o : Out) : Bool := match o with
      | .next _ => true
      | _ => false
    let pc (o : Out) : Option Word := match o with
      | .next t => some (t.hart 0).pc
      | _ => none
    let run (o : Out) : Option RunState := match o with
      | .next t => some (t.hart 0).run
      | _ => none
    let lost (l : Nat) : Out := found (runOne { s with lossy := packetLines l 1 } (.sword 0))
    reader s (.flit 0) = none ∧ reader s (.sword 0) = some (some 0) ∧ done (runOne s (.sword 0)) = true
    ∧ pc (lost (lineOf sramLoc + 4)) = pc (runOne s (.sword 0)) ∧ run (lost (lineOf sramLoc)) ≠ run (runOne s (.sword 0)) := by
  decide

/-! ### Scalar words -/

theorem witness_BranchesAndJumps :
    let dst (imm : Imm16) := (user [(1, 0x100)]).rs 1 + BitVec.ofInt 64 imm.toInt
    (dst 4).toNat % 4 = 0 ∧ (dst 3).toNat % 4 ≠ 0 ∧ (dst 2).toNat % 4 ≠ 0 := by decide

theorem witness_ScalarLoadResults : ∀ n ∈ [1, 2, 4, 8],
    let s := user [(1, sram)]
    (s.rs 1).toNat % n = 0 ∧ addPending s sramLoc n = false ∧ s.poisonedFor s.cur false sramLoc n = false ∧ ssDone s = true := by
  decide
theorem witness_ScalarLoadResults_address :
    resolve (user [(1, sram)]) 0 true .load ((user [(1, sram)]).rs 1) = .ok sramLoc := okIs (by decide)

/-- Hart 0 runs task 0, whose output 0 (handle 0, 64 bytes from the SRAM's first) is withdrawn. -/
def withdrawnState : State :=
  let t : Task := { rcd := 0, entry := 0, arg := 0, ins := [], outs := [⟨some 0, false, 0⟩], order := 0, asid := 0, spawner := 9,
                    launch := ⟨0, 0, 0⟩, hart := some 0, fired := false, tabs := 0 }
  let s := ((alone fun x => { x with s := regs [(1, sram)], task := some 0, marks := [0] }).setBytes padLoc (toLe 8 sram.toNat)).setBytes
    (padLoc + 8) (toLe 4 64)
  { s with clusters := [(0, { Cluster.reset with tasks := [(0, t)] })] }

/-- A state whose cluster 0 has used its quota. -/
def outOfQuota (s : State) : State := s.updDie 0 fun d => { d with quota := [(0, 1)], used := [(0, 1)] }

/-- Hart 0 with a scalar write of its own that is not performed. -/
def unperformed : State := (user [(1, sram)]).push 0 ⟨false, false, 0, false, true, false, [], 0, none⟩ sramLoc [7]

theorem witness_ScalarStoreResults :
    (∀ n ∈ [1, 2, 4, 8], withdrawnAt (user [(1, sram)]) 0 sram n = none ∧ sram.toNat % n = 0)
    ∧ (∀ n ∈ [1, 2, 4, 8], withdrawnAt withdrawnState 0 (withdrawnState.rs 1) n = some 0)
    ∧ ssDone (user [(1, sram)]) = true ∧ ssDone unperformed = false ∧ withdrawnAt unperformed 0 sram 8 = none
    ∧ ssDone withdrawnState = true ∧ (outOfQuota (user [(1, sram)])).sendNow 0 sramLoc = none
    ∧ ((user [(1, sram)]).sendNow 0 sramLoc).isSome = true ∧ (user []).sendNow 0 padLoc = some (user []) := by decide
theorem witness_ScalarStoreResults_address :
    resolve (user [(1, sram)]) 0 true .store sram = .ok sramLoc := okIs (by decide)

/-- A machine whose first SRAM word is poisoned, and hart 0 with a reduce-add of its own there. -/
def poisonedSram : State := { user [(1, sram)] with poison := [sramLoc] }
def adding : State :=
  pushAdd (user [(1, sram)]) 0 ⟨false, false, 0, false, true, false, [], 0, none⟩ ⟨sramLoc, .int64, .rne, false, 1⟩

theorem witness_ScalarAccessTraps :
    (∀ n ∈ [2, 4, 8], (sram + 1).toNat % n ≠ 0 ∧ withdrawnAt (user []) 0 (sram + 1) n = none)
    ∧ (∀ n ∈ [1, 2, 4, 8], sram.toNat % n = 0 ∧ withdrawnAt (user []) 0 0 n = none ∧ addPending adding sramLoc n = true
      ∧ addPending poisonedSram sramLoc n = false ∧ poisonedSram.poisonedFor 0 false sramLoc n = true)
    ∧ ssDone unperformed = false ∧ ssDone poisonedSram = true
    ∧ ∀ n ∈ [4, 8], amoWaits unperformed .relaxed sramLoc n = true ∧ amoWaits unperformed .sc sramLoc n = true
      ∧ amoWaits poisonedSram .sc sramLoc n = false ∧ poisonedSram.poisoned sramLoc n = true
      ∧ (poisonedSram.sendNow 0 sramLoc).isSome = true ∧ (outOfQuota poisonedSram).sendNow 0 sramLoc = none := by decide
theorem witness_ScalarAccessTraps_checks :
    resolve (user []) 0 true .load 0 = .error ⟨0x06, 0⟩ ∧ resolve (user []) 0 true .store 0 = .error ⟨0x07, 0⟩
    ∧ resolve (user []) 0 true .atomic 0 = .error ⟨0x07, 0⟩
    ∧ (∀ a ∈ [Acc.load, .atomic], resolve poisonedSram 0 true a sram = .ok sramLoc)
    ∧ resolve unperformed 0 true .load sram = .ok sramLoc ∧ resolve adding 0 true .load sram = .ok sramLoc :=
  ⟨errIs (by decide), errIs (by decide), errIs (by decide),
   by intro a ha
      simp only [List.mem_cons, List.not_mem_nil, or_false] at ha
      rcases ha with rfl | rfl <;> exact okIs (by decide),
   okIs (by decide), okIs (by decide)⟩

theorem witness_AddressChecks :
    (2 ^ 56 ≤ (0x0100000000000000 : Word).toNat ∧ ¬2 ^ 56 ≤ (0x00FFFFFFFFFFFFFF : Word).toNat)
    ∧ ((0x00FF030000000000 : Word).toNat / 2 ^ 48 = 0xFF ∧ 3 ≤ (0x00FF030000000000 : Word).toNat / 2 ^ 40 % 256)
    ∧ ((sram + 50331647).toNat / 2 ^ 48 = 0xFF ∧ (sram + 50331647).toNat / 2 ^ 40 % 256 = 2
      ∧ (sram + 50331647).toNat % 2 ^ 40 < 48 * 2 ^ 20 ∧ ¬(sram + 50331648).toNat % 2 ^ 40 < 48 * 2 ^ 20) := by decide

theorem witness_AtomicResults :
    ∀ n ∈ [4, 8], ∀ ord ∈ [Order.relaxed, .acq, .rel, .ar, .sc],
      sram.toNat % n = 0 ∧ amoWaits (user []) ord sramLoc n = false ∧ (user []).poisoned sramLoc n = false
      ∧ ((user []).sendNow 0 sramLoc).isSome = true := by decide
theorem witness_AtomicResults_address :
    resolve (user [(1, sram)]) 0 true .atomic ((user [(1, sram)]).rs 1) = .ok sramLoc := okIs (by decide)

theorem witness_FenceResults :
    (∀ p ∈ (user []).pkts 0, p.sca = true → (user []).me.nextNum ≤ p.num) ∧ vsDone (user []) = true
    ∧ vsDone (vecs [] id) = false
    ∧ ∃ p ∈ unperformed.pkts 0, p.sca = true ∧ p.num < unperformed.me.nextNum := by decide

theorem witness_ScalarFloatTestsAndConversions :
    fkind (ffFmt .fp16) = .fp 5 10 ∧ fkind (ffFmt .bf16) = .fp 8 7 ∧ fkind (ffFmt .fp32) = .fp 8 23
    ∧ fkind (ffFmt .fp64) = .fp 11 52 := ⟨rfl, rfl, rfl, rfl⟩

theorem witness_ControlWordAccess :
    CwReady (kern []) 0x045 ∧ cwWritable true 0x045 = true ∧ cwWritable false 0x001 = false ∧ CwReady (user []) 0x001
    ∧ CwReady (user []) 0x005 ∧ cwWritable false 0x005 = true
    ∧ (1 ≤ (16 : Word).toNat % 32 ∧ (16 : Word).toNat % 32 ≤ 16) ∧ (1 ≤ (1 : Word).toNat % 32)
    ∧ ¬(1 ≤ (32 : Word).toNat % 32) ∧ ¬((17 : Word).toNat % 32 ≤ 16)
    ∧ cwSide 0xFFF = none ∧ cwHidden 0x045 = true ∧ cwSide 0x005 = some .vector ∧ (vecs [] id).me.vIdle = false := by
  unfold CwReady; decide

theorem witness_FlagsWriteResetsFirstIndex : CwReady (user []) 0x010 ∧ CwReady (kern []) 0x010 := by
  unfold CwReady; decide

theorem witness_TrapInstructions : (user [(1, 1)]).me.kmode = false ∧ (user [(1, 1)]).rs 1 ≠ 0 ∧ (user [(1, 1)]).rs 2 = 0 := by
  decide

theorem witness_UndeliveredTraps :
    (kern []).me.kmode = true ∧ (kern []).me.launch = none
    ∧ (kern []).ringWr - (kern []).ringRd ≠ 4096
    ∧ ({ kern [] with ringWr := 4095 } : State).ringWr - ({ kern [] with ringWr := 4095 } : State).ringRd ≠ 4096 := by decide

/-- Hart 0 in K mode with a block of its U mode, which c.qpos and c.vbad name or not. -/
def returning (n : Bool) (v : Word) : State :=
  alone fun x => { x with kmode := true, vq := [passBlock []], named := n, vbad := v, qpos := 0xFFFF0000 }

theorem witness_ReturnFromTrap :
    (user []).me.kmode = false
    ∧ ∀ n v, (returning n v).me.kmode = true ∧ (returning n v).me.vq = [passBlock []] := ⟨rfl, fun _ _ => ⟨rfl, rfl⟩⟩

theorem witness_EventsQueueAndBlocks :
    (alone fun x => { x with event := true }).me.event = true
    ∧ (deadlinePast (user [(1, 5)]) ((user [(1, 5)]).rs 1) = false ∧ deadlinePast (user []) ((user []).rs 1) = false)
    ∧ ((kern []).me.kmode = true ∧ (kern []).me.kq = none)
    ∧ (alone fun x => { x with kmode := true, kq := some (passBlock []) }).me.kq ≠ none
    ∧ ((user [(1, 5)]).me.event = false ∧ (user [(1, 5)]).rs 1 ≠ 0
      ∧ ((user [(1, 5)]).rs 1).toNat ≤ ({ user [(1, 5)] with time := 5 } : State).time.toNat)
    ∧ (alone fun x => { x with rq := [7, 8] }).me.rq = [7, 8]
    ∧ ((user []).me.rq = [] ∧ (user []).me.vq = [] ∧ (user []).me.kq = none)
    ∧ ((vecs [] id).me.rq = [] ∧ (vecs [] id).me.vq ≠ [])
    ∧ queueRoom (user []) 0 = true
    ∧ ((user []).me.pc + BitVec.ofInt 64 (4 * (2 : Off21).toInt)).toNat / 4 % 2 = 0
    ∧ ((user []).me.pc + BitVec.ofInt 64 (4 * (1 : Off21).toInt)).toNat / 4 % 2 = 1 := by decide

/-- Core 0 with its shared queue places taken: 18 blocks of hart 0. -/
theorem witness_EventsQueueAndBlocks_full :
    let s := alone fun x => { x with vq := List.replicate 2 (passBlock []) ++ List.replicate 16 { passBlock [] with own := false } }
    queueRoom s 0 = false ∧ s.me.kmode = false := by decide

theorem witness_HandlerAddressAndScratch : (kern [(1, 0xFFFF000000000043)]).me.kmode = true := by decide

/-- vstop of the oldest block, of a K entry without groups of its own, and of one whose groups were taken for it. -/
theorem witness_EventsQueueAndBlocks_vstop :
    ((vecs [] id).me.kq = none ∧ (vecs [] id).me.vq = [passBlock []])
    ∧ (let s := vecs [] fun x => { x with vq := [passBlock [], passBlock [(1, 2)]] }
       s.me.kq = none ∧ s.me.vq = passBlock [] :: [passBlock [(1, 2)]])
    ∧ (let s := alone fun x => { x with kmode := true, kq := some (passBlock []) }
       s.me.kq = some (passBlock []) ∧ s.me.kgrant = none)
    ∧ (let s := alone fun x => { x with kmode := true, kq := some (passBlock []), kgrant := some 3 }
       s.me.kq = some (passBlock []) ∧ s.me.kgrant = some 3 ∧ s.me.gang = 1 ∧ trioOf s s.cur = none) := by decide

/-! ### The tack net, launches, clusters, tasks -/

/-- Hart 0 with channel 5 enabled for its partition; s1 names it, s2 leaves it, s3 is 3. -/
def tackState (f : Hart → Hart) : State :=
  { (alone fun x => f { x with s := regs [(1, 5), (2, 133), (3, 3)] }) with
      dies := [(0, { Die.reset with chans := [(5, { Channel.reset with en := true })] })] }

/-- A member of channel 5. -/
def member (x : Hart) : Hart := { x with tack := [⟨5, 4, some 9, false⟩] }

/-- A request of the word at pc, with its answer. -/
def asking (joins : Bool) (a : Option (BitVec 32)) (x : Hart) : Hart := { x with tkreq := some ⟨x.pc, 5, joins, false, false, a⟩ }

theorem witness_TackJoin :
    (tackState id).me.kmode = false
    ∧ (tackState (asking true (some 7))).me.tkreq = some ⟨(tackState (asking true (some 7))).me.pc, 5, true, false, false, some 7⟩
    ∧ (tackState (asking true none)).me.tkreq = some ⟨0, 5, true, false, false, none⟩
    ∧ (tackState id).rs 1 = BitVec.ofNat 64 (5 + if false then 128 else 0)
    ∧ (tackState id).rs 2 = BitVec.ofNat 64 (5 + if true then 128 else 0)
    ∧ NoRequest (tackState id) true ((tackState id).rs 1) ∧ NoRequest (tackState member) true ((tackState member).rs 2)
    ∧ NoRequest (tackState (asking true (some 7))) true ((tackState id).rs 2)
    ∧ ChannelOk (tackState id) ((tackState id).rs 1) true 5 ∧ ChannelOk (tackState member) ((tackState member).rs 2) true 5
    ∧ (tackCopy (tackState id).me 5).isSome = decide (((tackState id).rs 1).toNat / 128 = 1)
    ∧ (tackCopy (tackState member).me 5).isSome = decide (((tackState member).rs 2).toNat / 128 = 1)
    ∧ (tackCopy (tackState member).me 5).isSome ≠ decide (((tackState member).rs 1).toNat / 128 = 1) := by
  unfold ChannelOk NoRequest; decide

theorem witness_TackArrivals :
    let s := tackState member
    let r := tackState fun x => { member x with arec := some ⟨5, 3, 0⟩ }
    ChannelOk s (s.rs 1) false 5 ∧ ChannelOk r (r.rs 1) false 5 ∧ tackCopy s.me 5 = some ⟨5, 4, some 9, false⟩
    ∧ tackReady s = true ∧ s.me.arec = none ∧ r.me.arec = some ⟨5, 3, r.me.pc⟩ ∧ tackCopy r.me 5 = some ⟨5, 4, some 9, false⟩
    ∧ (1 ≤ ((4 : BitVec 32) - 3).toNat ∧ ((4 : BitVec 32) - 3).toNat ≤ 2 ^ 31)
    ∧ (1 ≤ ((4 : BitVec 32) - (s.rs 3).setWidth 32).toNat ∧ ((4 : BitVec 32) - (s.rs 3).setWidth 32).toNat ≤ 2 ^ 31)
    ∧ ((4 : BitVec 32) - 0x80000004).toNat ≤ 2 ^ 31 ∧ ¬1 ≤ ((4 : BitVec 32) - 4).toNat := by
  unfold ChannelOk; decide

theorem witness_TackBroadcasts :
    let s := tackState member
    (let r := tackState (asking false (some 2))
     r.me.kmode = false ∧ r.me.tkreq = some ⟨r.me.pc, 5, false, false, false, some 2⟩) ∧ ChannelOk s (s.rs 1) false 5
    ∧ tackCopy s.me 5 = some ⟨5, 4, some 9, false⟩ ∧ NoRequest s false (s.rs 1) ∧ tackReady s = true
    ∧ s.rs 1 = BitVec.ofNat 64 (5 + if false then 128 else 0) := by
  unfold ChannelOk NoRequest; decide

theorem witness_TackChecks :
    let s := user [(1, 256), (2, 133), (3, 80), (4, 63), (5, 79), (6, 0)]
    let u := { tackState id with clusters := [(0, { Cluster.reset with pid := 3 })] }
    (kern []).me.kmode = true
    ∧ (s.me.kmode = false ∧ s.me.tkreq = none)
    ∧ (256 ≤ (s.rs 1).toNat ∧ (s.rs 2).toNat / 128 = 1 ∧ 79 < (s.rs 3).toNat % 128 ∧ (s.rs 4).toNat % 128 = 63)
    ∧ (∀ r ∈ [(5 : SReg), 6], (s.rs r).toNat < 256 ∧ (s.rs r).toNat / 128 ≠ 1 ∧ (s.rs r).toNat % 128 ≤ 79
      ∧ (s.rs r).toNat % 128 ≠ 63 ∧ (s.chan (hubOf 0 ((s.rs r).toNat % 128)) ((s.rs r).toNat % 128)).en = false)
    ∧ (u.me.tkreq = none ∧ (u.rs 1).toNat % 128 = 5 ∧ (u.chan (hubOf 0 5) 5).pid ≠ u.pidOf 0)
    ∧ ChannelOk (tackState id) ((tackState id).rs 1) false 5 ∧ tackCopy (tackState id).me 5 = none := by
  unfold ChannelOk; decide

/-- A Rd that gives dwords. -/
theorem rdIs {r : Rd} {ws : List Word} (h : (match r with | .ok l => decide (l = ws) | _ => false) = true) : r = .ok ws := by
  cases r with
  | ok l => exact congrArg _ (of_decide_eq_true h)
  | wait => exact absurd h Bool.false_ne_true
  | trap c b t => exact absurd h Bool.false_ne_true

/-- The dwords of a record with completion word at 0x50000 and nm1 harts but one. -/
def recordWords (nm1 : Nat) : List Word := [0, 0x50000, BitVec.ofNat 64 (256 * nm1)] ++ List.replicate 13 0

/-- The launch that hart 0 belongs to, at a depth. -/
def launchAt (depth : Nat) (st : LState) : Launch :=
  { rcd := ⟨0, 0x50000, 0, false, 0, 0, []⟩, cwa := 0x50000, pid := 0, asid := 0, depth := depth, issuer := none, harts := [0],
    st := st, live := 1, flags := 0 }

/-- Hart 0 with the first GiB mapped and a launch record in the SRAM; f changes its die. -/
def launchState (nm1 : Nat) (x : Hart → Hart) (f : Die → Die) : State :=
  ((((State.reset.withFetchWord 32 0).setBytes (sramLoc + 8) (toLe 8 0x50000)).setBytes (sramLoc + 16) (toLe 8 (256 * nm1))).updDie 0
    fun d => f { d with queues := [(0, { Queue.reset with en := true })] }).updHart 0
    fun y => x { y with s := regs [(1, sram)] }

/-- The hypotheses of a device launch up to its status. -/
theorem witness_DeviceLaunch :
    let s := launchState 0 id id
    s.me.kmode = false ∧ s.me.swait = .none ∧ (s.rs 1).toNat % 128 = 0 ∧ parseRecord (recordWords 0) = some ⟨0, 0x50000, 0, false, 0, 0, List.replicate 12 0⟩
    ∧ ssDone s = true ∧ vsDone s = true ∧ 0 < dlimOf s 0 (s.pidOf 0) ∧ (mapGet Queue.reset (s.die 0).queues 0).en = true
    ∧ (mapGet Queue.reset (s.die 0).queues 0).pid = s.pidOf 0 ∧ 1 ≤ launchContexts s 0 (s.pidOf 0)
    ∧ poolRoom s 0 (s.pidOf 0) = some 0 := by decide
theorem witness_DeviceLaunch_reads :
    readDwords (launchState 0 id id) ((launchState 0 id id).rs 1) 16 = .ok (recordWords 0)
    ∧ cwaTarget (launchState 0 id id) 0 0 ((launchState 0 id id).pidOf 0) 0x50000 = .ok 0x50000 :=
  ⟨rdIs (by decide), okIs (by decide)⟩
/-- A launch that has read its record waits for a scalar write of its hart. -/
theorem witness_DeviceLaunch_waits :
    let s := (launchState 0 (fun x => { x with swait := .lnch (recordWords 0) 0x50000 }) id).push 0
      ⟨false, false, 0, false, true, false, [], 0, none⟩ sramLoc [7]
    s.me.kmode = false ∧ s.me.swait = .lnch (recordWords 0) 0x50000 ∧ ssDone s = false := by decide
/-- The statuses 1 to 4: at the depth limit, the queue not enabled, more harts than contexts, a full pool. -/
theorem witness_DeviceLaunch_statuses :
    (let s := launchState 0 (fun x => { x with launch := some ⟨0, 0, 0⟩ })
      fun d => { d with dlim := [(0, 1)], pool := [(0, ⟨0, some (launchAt 1 .dispatched)⟩)] }
     dlimOf s 0 (s.pidOf 0) ≤ ((s.me.launch.bind fun l => s.launch? l.die l.entry).elim 0 (·.depth)))
    ∧ (let s := launchState 0 id fun d => { d with queues := [] }
       0 < dlimOf s 0 (s.pidOf 0) ∧ (mapGet Queue.reset (s.die 0).queues 0).en = false)
    ∧ (let s := launchState 255 id id
       parseRecord (recordWords 255) = some ⟨0, 0x50000, 0, false, 255, 0, List.replicate 12 0⟩ ∧ launchContexts s 0 (s.pidOf 0) < 256)
    ∧ (let s := launchState 0 id fun d => { d with pmax := [(0, 1)], pool := [(0, ⟨0, some (launchAt 1 .dispatched)⟩)] }
       1 ≤ launchContexts s 0 (s.pidOf 0) ∧ poolRoom s 0 (s.pidOf 0) = none) := by decide
theorem witness_DeviceLaunch_reads_statuses :
    readDwords (launchState 255 id id) ((launchState 255 id id).rs 1) 16 = .ok (recordWords 255)
    ∧ readDwords (launchState 0 id fun d => { d with queues := [] }) sram 16 = .ok (recordWords 0)
    ∧ readDwords (launchState 0 id fun d => { d with pmax := [(0, 1)], pool := [(0, ⟨0, some (launchAt 1 .dispatched)⟩)] }) sram 16
      = .ok (recordWords 0)
    ∧ readDwords (launchState 0 (fun x => { x with launch := some ⟨0, 0, 0⟩ })
      fun d => { d with dlim := [(0, 1)], pool := [(0, ⟨0, some (launchAt 1 .dispatched)⟩)] }) sram 16 = .ok (recordWords 0) :=
  ⟨rdIs (by decide), rdIs (by decide), rdIs (by decide), rdIs (by decide)⟩

/-- Hart 0 beside a launch in pool entry 0, its completion word at the SRAM's first address. -/
def waitState (st : LState) (w : SWait) : State :=
  let s := (alone fun x => { x with s := regs [(1, sram), (2, 5)], swait := w }).setBytes sramLoc (toLe 8 (2 ^ 63))
  { s with time := 5, dies := [(0, { Die.reset with pool := [(0, ⟨0, some (launchAt 1 st)⟩)] })] }

theorem witness_LaunchWaitStateCancel :
    let s := waitState .queued .none
    s.me.kmode = false ∧ s.me.swait = .none ∧ (s.rs 1).toNat % 8 = 0 ∧ addPending s sramLoc 8 = false
    ∧ s.poisonedFor 0 false sramLoc 8 = false ∧ 2 ^ 63 ≤ (BitVec.ofNat 64 (leNat (s.view 0 false sramLoc 8)) : Word).toNat
    ∧ (s.rs 2 ≠ 0 ∧ (s.rs 2).toNat ≤ s.time.toNat)
    ∧ (waitState .queued (.lwait 3 5 9)).me.swait = .lwait 3 5 9 ∧ (5 : Word) ≠ 0 ∧ (5 : Word).toNat ≤ s.time.toNat
    ∧ byHandle s 0 (s.rs 0) = some (0, launchAt 1 .queued) ∧ (launchAt 1 .queued).live < 512 ∧ (launchAt 1 .queued).depth < 16
    ∧ byHandle (waitState .dispatched .none) 0 0 = some (0, launchAt 1 .dispatched)
    ∧ byHandle (waitState (.failed 4) .none) 0 0 = some (0, launchAt 1 (.failed 4)) ∧ byHandle s 0 (s.rs 1) = none := by decide
theorem witness_LaunchWaitStateCancel_address :
    resolve (waitState .queued .none) 0 true .load ((waitState .queued .none).rs 1) = .ok sramLoc := okIs (by decide)

/-- Hart 0 with a future at the scratchpad's first address, full or empty. -/
def futureState (w : Nat) : State := (user [(1, pad)]).setBytes padLoc (toLe 8 w)

theorem witness_Futures : ∀ w ∈ [0, 2 ^ 63 - 1, 2 ^ 63, 2 ^ 64 - 1],
    let s := futureState w
    let c := s.cluster 0
    FutureAt s (s.rs 1) padLoc ∧ s.me.swait = .none ∧ ownPending s padLoc 8 = false ∧ (s.dword padLoc).toNat = w
    ∧ c.waits.length < c.wlim ∧ c.waits.length + taskWaits s 0 < 256 ∧ ssDone s = true := by
  unfold FutureAt; decide

/-- Hart 0 with a pattern object of a kind in the SRAM: its header and body. -/
def patternState (ws : List Nat) (f : Hart → Hart) : State :=
  ((alone fun x => f { x with s := regs [(1, sram), (2, 3)] }).setBytes sramLoc (ws.flatMap (toLe 8)))

theorem witness_CuttingAndPatterns :
    (let s := patternState [] id
     s.me.swait = .none ∧ (s.rs 2).toNat < 4 ∧ (s.rs 0).toNat < 4 ∧ (s.rs 0).toNat ≤ 7 ∧ locBusy s 0 = false ∧ ssDone s = true)
    ∧ (let s := { patternState [] (fun x => { x with swait := .take 3 1 }) with clusters := [(0, { Cluster.reset with takes := [0] })] }
       s.me.swait = .take 3 1 ∧ nextTake s 0 = some s.cur) ∧ sram.toNat % 64 = 0 := by decide
theorem cutIs {r : PatRead} (h : (match r with | .ok (.cut _) => true | _ => false) = true) : ∃ ls, r = .ok (.cut ls) := by
  split at h
  · exact ⟨_, rfl⟩
  · exact absurd h Bool.false_ne_true
theorem routeIs {r : PatRead} (h : (match r with | .ok (.route _) => true | _ => false) = true) : ∃ b, r = .ok (.route b) := by
  split at h
  · exact ⟨_, rfl⟩
  · exact absurd h Bool.false_ne_true
theorem locIs {r : PatRead} (h : (match r with | .ok (.loc _) => true | _ => false) = true) : ∃ l, r = .ok (.loc l) := by
  split at h
  · exact ⟨_, rfl⟩
  · exact absurd h Bool.false_ne_true
/-- A cutting list of one item, an empty route, a location table of one entry. -/
theorem witness_CuttingAndPatterns_objects :
    (∃ ls, readPattern (patternState [0x2000010001, 0, 1, 0, 7, 1] id) sram 3 = .ok (.cut ls))
    ∧ (∃ b, readPattern (patternState [0x1000010002, 0, 0, 0] id) sram 3 = .ok (.route b))
    ∧ ∃ l, readPattern (patternState [0x3000010004, 0, 1, 0, 0, 0, 0, 0] id) sram 3 = .ok (.loc l) :=
  ⟨cutIs (by decide), routeIs (by decide), locIs (by decide)⟩

/-- Hart 0 with a number in s1; hart 8 is the first slot of core 1. -/
def gangState (n : Word) (f : Hart → Hart) (occ : Bool) : State :=
  { alone fun x => f { x with s := regs [(1, n)] } with
      harts := [(0, f { Hart.reset 0 with run := .running, s := regs [(1, n)] }),
                (8, { Hart.reset 0 with lane := { LaneEntry.reset with occ := occ } })] }

theorem witness_GangsAndReleases : ∀ n ∈ [2, 4, 8],
    let s := gangState (BitVec.ofNat 64 n) id false
    s.me.vIdle = true ∧ s.me.kmode = false ∧ s.me.task = none ∧ (s.rs 1).toNat = n ∧ coreOf s.cur % 8 % n = 0 ∧ s.me.gang = 1
    ∧ trioOf s 0 = none ∧ (∀ k ∈ gangSlots 0 n, (s.hart k).lane.occ = false) ∧ held s 0 = 0
    ∧ ((gangState (BitVec.ofNat 64 n) id true).hart 8).lane.occ = true ∧ 8 ∈ gangSlots 0 n := by decide
theorem witness_GangsAndReleases_back :
    (let s := gangState 0 (fun x => { x with gang := 2 }) true
     s.me.vIdle = true ∧ s.me.kmode = false ∧ s.me.gang ≠ 1)
    ∧ (let s := gangState 0 id false
       (s.rs 1).toNat = 0 ∧ s.me.gang = 1 ∧ trioOf s 0 = none) := by decide

/-- A hart that holds two lane groups. -/
def holding (x : Hart) : Hart := { x with lastGrant := 2, lane := { x.lane with gmask := 3, occ := true, st := 1 } }

/-- gform with groups held: free for each core of the gang, and not; lgrel in K mode and for more than 0, below and above what
c.vl needs. -/
theorem witness_GangsAndReleases_groups : ∀ n ∈ [2, 4, 8],
    let s := gangState (BitVec.ofNat 64 n) holding false
    s.me.vIdle = true ∧ s.me.gang = 1 ∧ held s s.cur = 2 ∧ (∀ k ∈ gangSlots 0 n, (s.hart k).lane.occ = false ∧ 2 ≤ laneReach s k true)
    ∧ 8 ∈ gangSlots 0 n := by decide
theorem witness_GangsAndReleases_full :
    let s := (gangState 8 holding false).updHart 9 fun x => { x with lane := { x.lane with gmask := 0x7F, st := 1 } }
    (s.hart 8).lane.occ = false ∧ laneReach s 8 true < held s s.cur := by decide
theorem witness_GangsAndReleases_lgrel :
    (let s := gangState 0 (fun x => { holding x with kmode := true }) false
     s.me.vIdle = true ∧ (s.rs 1).toNat = 0 ∧ s.me.gang = 1 ∧ trioOf s 0 = none ∧ s.me.kmode = true)
    ∧ (let s := gangState 0 holding false
       s.me.kmode = false ∧ s.me.vIdle = true ∧ (s.rs 1).toNat = 0 ∧ s.me.gang = 1 ∧ trioOf s 0 = none)
    ∧ ∀ n ∈ [1, 2],
      let s := gangState (BitVec.ofNat 64 n) holding false
      s.me.vIdle = true ∧ 1 ≤ (s.rs 1).toNat ∧ held s s.cur ≠ 0 ∧ trioOf s s.cur = none := by decide

/-- Slots 0, 1 and 2 of core 0; slots 1 and 2 wait in trio with the word that hart 0 has in s1. -/
def trioState : State :=
  let w : Word := 0x88
  { State.reset with harts := [(0, { Hart.reset 0 with run := .running, s := regs [(1, w)] }),
                               (1, { Hart.reset 1 with run := .running, swait := .trio 5 w }),
                               (2, { Hart.reset 2 with run := .running, swait := .trio 6 w })] }

theorem witness_TrioForms :
    let s := trioState
    s.me.kmode = false ∧ s.me.task = none ∧ trioOf s 0 = none ∧ trioWordOk (s.rs 1) = true ∧ trioWait s.me = none
    ∧ trioSlots (s.rs 1) = [0, 1, 2] ∧ (∀ k ∈ [0, 1, 2], k ≠ 0 → (trioWait (s.hart k)).map (·.2) = some (s.rs 1))
    ∧ ∀ k < 8, k ∉ [0, 1, 2] → trioWait (s.hart k) = none := by decide

/-- The dwords of a task record whose first input is the stream with handle 0, or without one. -/
def taskWords (first : Word) : List Word := [0, 0, first, 0xFFFFFFFFFFFFFFFF, 0xFFFFFFFFFFFFFFFF, 0, 0, 0]
/-- Hart 0 with such a record in the SRAM. -/
def spawnState (first : Word) : State := (user [(1, sram)]).setBytes sramLoc ((taskWords first).flatMap fun w => toLe 8 w.toNat)

theorem witness_TaskInstructions :
    (let s := spawnState 0xFFFFFFFFFFFFFFFF
     s.me.kmode = false ∧ (s.rs 1).toNat % 64 = 0 ∧ ssDone s = true ∧ s.me.task = none
     ∧ (parseTask (taskWords 0xFFFFFFFFFFFFFFFF)).map (spawnStatus s 0) = some none)
    ∧ (parseTask (taskWords 0xFFFFFFFF00000000)).map (spawnStatus (spawnState 0xFFFFFFFF00000000) 0) = some (some 3)
    ∧ (withdrawnState.me.task = some 0 ∧ (taskOf withdrawnState 0 0).isSome = true) := by decide
theorem witness_TaskInstructions_reads : ∀ w ∈ [(0xFFFFFFFFFFFFFFFF : Word), 0xFFFFFFFF00000000],
    readDwords (spawnState w) sram 8 = .ok (taskWords w) := by
  intro w hw
  simp only [List.mem_cons, List.not_mem_nil, or_false] at hw
  obtain rfl | rfl := hw <;> exact rdIs (by decide)

/-- Hart 0 with the record of a task whose first input is the RESIDENT stream 0 and whose first output is the stream 32. -/
def boundState : State :=
  ((user [(1, sram)]).setBytes padLoc ([0, 0x20000000000, 0, 0].flatMap (toLe 8))).setBytes sramLoc
    ([0, 0, 0xFFFFFFFF00000000, 0xFFFFFFFFFFFFFFFF, 0xFFFFFFFF00000020, 0, 0, 0].flatMap (toLe 8))

theorem witness_TaskInstructions_bound :
    readDwords boundState sram 8 = .ok [0, 0, 0xFFFFFFFF00000000, 0xFFFFFFFFFFFFFFFF, 0xFFFFFFFF00000020, 0, 0, 0]
    ∧ (let r := (parseTask [0, 0, 0xFFFFFFFF00000000, 0xFFFFFFFFFFFFFFFF, 0xFFFFFFFF00000020, 0, 0, 0]).getD ⟨0, 0, [], []⟩
       r.ins.map (·.handle) = [some 0, none, none, none] ∧ r.outs = [some 32, none] ∧ spawnStatus boundState 0 r = none
       ∧ (streamOf boundState 0 32).ncons = 0) :=
  ⟨rdIs (by decide), by decide⟩

/-- Task 0 runs on hart 0 with the stream 32 as input, and its output 0 PENDING or not. -/
def finishing (st : StreamState) : State :=
  let t : Task := { rcd := 0, entry := 0, arg := 0, ins := [⟨some 32, 0, false, false⟩], outs := [⟨some 0, true, 0x1F⟩], order := 0,
                    asid := 0, spawner := 9, launch := ⟨0, 0, 0⟩, hart := some 0, fired := false, tabs := 0 }
  let w : Task := { t with ins := [⟨some 0, 0, false, false⟩, ⟨some 32, 0, false, false⟩], outs := [], hart := none }
  let st : List Stream := [⟨0, 1, st, 0, 0, 0, some 0⟩, ⟨32, 2, .resident, 0, 0, 0, none⟩]
  { alone (fun x => { x with task := some 0, launch := some ⟨0, 0, 0⟩ }) with
      dies := [(0, { Die.reset with pool := [(0, ⟨0, some (launchAt 1 .dispatched)⟩)] })],
      clusters := [(0, { Cluster.reset with tasks := [(0, t), (1, w)], streams := st })] }

theorem witness_EndOfHart_tdone : ∀ st ∈ [StreamState.pending, .withdrawn],
    let s := finishing st
    s.me.task = some 0 ∧ drained s 0 = true ∧ (s.cluster 0).tasks.all (fun e => e.2.spawner != 0) = true ∧ trioOf s 0 = none
    ∧ s.me.launch = some ⟨0, 0, 0⟩ ∧ s.launch? 0 0 = some (launchAt 1 .dispatched)
    ∧ (taskOf s 0 0).map (·.outHandles) = some [0] ∧ (taskOf s 0 0).map (·.held) = some [32]
    ∧ (findStream s 0 0).map (·.state) = some st ∧ (publish s 0 0).isSome = true
    ∧ (findStream (endHart ((publish s 0 0).getD s) 0 false) 0 0).isSome = true
    ∧ (findStream (endHart ((publish s 0 0).getD s) 0 false) 0 32).isSome = true := by decide
/-- The count of its output's stream lies in the SRAM, and its cluster has used its quota. -/
theorem witness_EndOfHart_waits :
    let s := outOfQuota ((finishing .pending).setBytes (padLoc + 24) (toLe 8 sram.toNat))
    s.me.task = some 0 ∧ drained s 0 = true ∧ publish s 0 0 = none := by decide

theorem witness_EndOfHart :
    (let s := user []
     s.me.kmode = false ∧ s.me.task = none ∧ drained s 0 = true ∧ trioOf s 0 = none ∧ 1 ≤ s.me.gang)
    ∧ (let s := vecs [] id
       s.me.kmode = false ∧ s.me.task = none ∧ drained s 0 = false)
    ∧ (let s := { waitState .dispatched .none with harts := [(0, { Hart.reset 0 with launch := some ⟨0, 0, 0⟩ })] }
       drained s 0 = true ∧ s.me.launch = some ⟨0, 0, 0⟩ ∧ s.launch? 0 0 = some (launchAt 1 .dispatched))
    ∧ (withdrawnState.me.task = some 0 ∧ drained withdrawnState 0 = true
      ∧ ∀ e ∈ (withdrawnState.cluster 0).tasks, e.2.spawner ≠ 0) := by decide

/-! ### Vector words -/

/-- A format word of codes a, b, d and c (spec/04, R61). -/
def fmtWord (a b d c : Nat) : Word := BitVec.ofNat 64 (a + 32 * b + 1024 * d + 2 ^ 19 * c)

/-- Hart 0 with two elements: v1 holds two INT32 in two segments, v2 their lengths, v3 keys, v4 FP16; the format words s17 to
s22: INT32, FP32, RQ16, RQ16 from FP16, FP16 to RQ16, INT16 to RQ16; p1 has bit 0. -/
def vstate : State := vecs
  [(1, fmtWord 2 2 2 2), (2, fmtWord 10 10 10 10), (3, fmtWord 13 13 13 13), (4, fmtWord 13 10 10 0), (5, fmtWord 8 0 13 0),
   (6, fmtWord 9 0 1 0), (7, 1), (8, fmtWord 8 0 1 0), (9, fmtWord 9 0 13 0)]
  fun x => { x with v := vregs [(1, ⟨.w32, [5, 6], [⟨[1, 1], false, false⟩]⟩), (2, ⟨.w32, [1, 1], []⟩), (3, ⟨.w32, [0, 1], []⟩),
                                (4, ⟨.w16, [0x3C00, 0x4000], []⟩), (5, ⟨.w32, [7], []⟩), (6, ⟨.w32, [5, 6], [⟨[2], true, true⟩]⟩)],
                    p := (Vector.replicate 32 []).setIfInBounds 1 [0] }

theorem witness_VectorLength :
    (vstate.fw 1).d = some .int32 ∧ (vsetlGrant vstate 0).2 = true ∧ (vsetlGrant vstate 1).2 = true := by decide

/-- A row of an instruction on vector sources that is legal in a state, with room at its widths. -/
def rowMeets (s : State) (a : SrcA) (i : Instr) : Bool :=
  match ewRow i with
  | some r => decide (r.a = a) && r.legal (s.fw r.fs) && (r.widths (s.fw r.fs)).all fun w => decide (s.vl ≤ vlmax s s.cur w)
  | none => false

/-- The element-wise instructions, each under a format word that it takes. -/
def ewAll (a : SrcA) : List Instr :=
  let b (fs : SP) : VBin := ⟨3, a, .vec 2, ⟨0, false⟩, fs⟩
  let u (fs : SP) : VUn := ⟨3, a, ⟨0, false⟩, fs⟩
  let t (fs : SP) : VTri := ⟨3, a, .sca 7, 2, ⟨1, true⟩, fs⟩
  [.vadd (b 1), .vadd (b 3), .vsub (b 1), .vmul (b 3), .vmulh (b 1), .vdiv (b 1), .vrem (b 1), .vmin (b 1), .vmax (b 1), .vand (b 1),
   .vor (b 1), .vxor (b 1), .vsll (b 1), .vsrl (b 1), .vsra (b 1), .vmacc (t 1), .vclz (u 1), .vpop (u 1), .vabs (u 1)]
  ++ [.vfadd (b 2), .vfsub (b 2), .vfmul (b 2), .vfdiv (b 2), .vfma (t 2), .vfsqrt (u 2), .vfmin (b 2), .vfmax (b 2),
   .vfminNum (b 2), .vfmaxNum (b 2), .vfabs (u 2), .vfneg (u 2), .vfexp2 (u 2), .vflog2 (u 2), .vfrec (u 2), .vfrsq (u 2),
   .vftanh (u 2), .vcvt (u 1), .vcvt (u 5), .vcrt (b 4)]

theorem witness_ElementwiseResults :
    vstate.brk = none ∧ (ewAll (.vec 1)).all (rowMeets vstate (.vec 1)) = true := by decide

/-- The same hart with a stream bobbin of 32-bit elements, two of them arrived. -/
def streamState : State :=
  let b : Bobbin := { Bobbin.closed with kind := .stream, ew := .w32, bsz := 4, boff := 0, issued := 3, arrived := 2 }
  vstate.updMe fun x => { x with b := x.b.setIfInBounds 0 b }

/-- That hart with the word at its block stopped inside, two elements of its bobbin reserved. -/
def heldStream : State :=
  streamState.updMe fun x => { x with vq := x.vq.map fun b => { b with mid := true }, resv := some ⟨0, 0, 2⟩, vs := 1,
                                      b := x.b.setIfInBounds 0 { x.b.get 0 with reserved := 2 } }

theorem witness_BobReads :
    (∀ av ∈ [true, false], BobReads streamState 0 av .w32 0 2) ∧ BobReads heldStream 0 false .w32 0 2 := by
  have h : heldResv streamState 0 = none ∧ heldResv heldStream 0 = some 0 := by decide
  simp only [BobReads, h.1, h.2]
  decide

theorem witness_BobbinSourceResults :
    (∀ av ∈ [true, false], rowMeets streamState (.bob 0 av) (.vadd ⟨3, .bob 0 av, .vec 2, ⟨0, false⟩, 1⟩) = true)
    ∧ rowMeets heldStream (.bob 0 false) (.vadd ⟨3, .bob 0 false, .vec 2, ⟨0, false⟩, 1⟩) = true
    ∧ streamState.brk = none ∧ heldStream.brk = none ∧ heldResv heldStream 0 = some 0 := by decide

theorem witness_CompareResults :
    let s := vstate
    s.brk = none ∧ (s.fw 1).a = some .int32 ∧ (s.fw 1).b = some .int32 ∧ (s.fw 2).a = some .fp32
    ∧ (s.fw 2).b = some .fp32 ∧ (s.fw 3).a = some .rq16 ∧ (s.fw 3).b = some .rq16
    ∧ isRes .int32 = false ∧ isRes .fp32 = false ∧ isRes .rq16 = true
    ∧ s.vl ≤ vlmax s 0 .w32 ∧ s.vl ≤ vlmax s 0 .w16 ∧ s.vl ≤ vlmax s 0 .w8
    ∧ (∀ t ∈ [streamState, heldStream], t.brk = none ∧ (t.fw 1).a = some .int32 ∧ t.vl ≤ vlmax t 0 .w32) := by
  decide
theorem witness_CompareResults_nan :
    ((Val.nar).isNan || (Val.fin false 0 0).isNan) = true ∧ (Val.fin false 0 0).isNan = false := by decide

theorem witness_PredicateResults : vstate.vl ≤ vlmax vstate vstate.cur .w8 := by decide

theorem witness_PermuteResults :
    let s := vstate
    (s.fw 1).a = some .int32 ∧ (s.fw 1).d = some .int32 ∧ (s.fw 1).b = some .int32 ∧ isInt .int32 = true
    ∧ s.vl ≤ vlmax s 0 .w32 ∧ s.me.rq.length < 8 ∧ 8 ≤ (s.updMe fun x => { x with rq := List.replicate 8 0 }).me.rq.length := by
  decide

theorem witness_SelvedgeResults :
    let s := vstate
    let one (l : List Nat) : List Level := [⟨l, false, true⟩]
    (s.fw 1).a = some .int32 ∧ (s.fw 1).b = some .int32 ∧ (s.fw 1).d = some .int32 ∧ s.vl ≤ vlmax s 0 .w32 ∧ isInt .int32 = true
    ∧ lensOf (s.vreg 2) .int32 = some [1, 1] ∧ [1, 1].sum = s.vl ∧ levelsFit s (one [1, 1]) = true
    ∧ s.pbits 1 s.vl = [true, false] ∧ levelsFit s (one (headLens 1 [false])) = true
    ∧ (s.vreg 1).levels.length ≤ 2
    ∧ [1, 1].sum = ((s.vreg 1).levels.getLast?.map fun l => l.lens.length).getD (s.vreg 1).elems.length
    ∧ levelsFit s ((s.vreg 1).levels ++ one [1, 1]) = true ∧ (1 : Dep).toNat ≤ (s.vreg 1).levels.length := by decide

/-- A hart with one group whose registers have more lengths than one group holds (R130): v1 and v6 in level 2, v2 its elements,
v7 in level 1. -/
def tightState : State :=
  let ls : List Nat := [1, 1] ++ List.replicate 255 0
  let vs : Vector VReg 32 := vregs
    [(1, ⟨.w32, [5, 6], [⟨[1, 1], false, false⟩, ⟨ls, false, false⟩]⟩), (2, ⟨.w32, ls.map (BitVec.ofNat 64), []⟩),
     (3, ⟨.w32, [0, 1], []⟩), (6, ⟨.w32, [5, 6], [⟨[1, 1], true, true⟩, ⟨ls, true, true⟩]⟩),
     (7, ⟨.w32, [5, 6], [⟨ls, false, false⟩, ⟨[257], false, false⟩]⟩)]
  vstate.updMe fun x => { x with v := vs }
theorem witness_SelvedgeResults_unfit :
    let s := tightState
    let ls : List Nat := [1, 1] ++ List.replicate 255 0
    lensOf (s.vreg 2) .int32 = some ls ∧ ls.sum = s.vl ∧ levelsFit s [⟨ls, false, true⟩] = false
    ∧ (s.vreg 3).levels.length ≤ 2 ∧ ls.sum = (s.vreg 3).elems.length ∧ (2 : Dep).toNat ≤ (s.vreg 7).levels.length
    ∧ levelsFit s ((s.vreg 7).levels.take ((2 : Dep).toNat - 1)) = false := by decide
theorem witness_SelvedgeResults_unfit_heads :
    let s := tightState.updMe fun x => { x with vl := 257 }
    s.vl ≤ vlmax s 0 .w32 ∧ s.pbits 0 s.vl = true :: List.replicate 256 true
    ∧ levelsFit s [⟨headLens 1 (List.replicate 256 true), false, true⟩] = false := by decide

theorem witness_ReductionResults : ∀ dep ∈ [(0 : Dep), 1],
    let s := vstate
    let ints := s.fw 1
    let fps := s.fw 2
    (∀ op ∈ [RedOp.add, .mul, .min, .max, .and, .or, .xor], ∀ c ∈ redChk op ints, c.2 = true)
    ∧ (∀ op ∈ [RedOp.add, .mul, .min, .max, .minNum, .maxNum], ∀ c ∈ redChk op fps, c.2 = true)
    ∧ s.vl ≤ vlmax s 0 (fmtWidth ints.fa) ∧ s.vl ≤ vlmax s 0 (fmtWidth ints.fd) ∧ s.vl ≤ vlmax s 0 (fmtWidth fps.fa)
    ∧ structOk (s.vreg 1) dep s.vl = true := by decide

theorem witness_ScanResults :
    let s := vstate
    (((cutSegs (segLens (s.vreg 1).levels 2 1) ((s.pbits 0 2).zip (velems (s.vreg 1) .w32 2))).map
      (scanSeg .add (s.fw 1) none)).flatten).length = s.vl := by decide

theorem witness_ReductionTree :
    [(0, 5), (1, 6), (2, (7 : Word))].length = 2 + 1 ∧ [(5 : Word), 6].length = 2 ^ 1 ∧ isInt .int32 = true ∧ isInt .uint8 = true
    ∧ isRes .rq16 = true ∧ isNar .rq16 (5 : Word).toNat = false := by decide
theorem witness_ScanSteps : [(5 : Word), 6][0]? = some 5 ∧ [(5 : Word), 6][0 + 1]? = some 6
    ∧ (scanSeg .add (vstate.fw 1) none [(true, 5), (true, 6)]).map (·.1) = [5, 11] := by decide

/-- v1 in two levels of two lengths each. -/
def nestedState : State :=
  let v : VReg := ⟨.w32, [5, 6], [⟨[1, 1], false, true⟩, ⟨[2], true, false⟩]⟩
  vstate.updMe fun x => { x with v := x.v.setIfInBounds 1 v }

theorem witness_ReshapingResults : ∀ s ∈ [vstate, nestedState], ∀ dep ∈ [(0 : Dep), 1],
    s.vl ≤ vlmax s 0 .w32 ∧ (s.fw 1).a = some .int32 ∧ (s.fw 1).b = some .int32 ∧ (s.fw 1).d = some .int32
    ∧ structOk (s.vreg 1) dep s.vl = true ∧ (segIndex (segLens (s.vreg 1).levels s.vl dep.toNat)).length = s.vl
    ∧ (segLens (s.vreg 1).levels s.vl dep.toNat).sum = s.vl ∧ isInt .int32 = true ∧ isRes .int32 = false
    ∧ levelsFit s (keepLevels (s.vreg 1).levels s.vl) = true := by decide
theorem witness_ReshapingResults_pack : ∀ s ∈ [vstate, nestedState],
    levelsFit s (packLevels (s.vreg 1).levels 1 (s.pbits 1 2)) = true ∧ (lensAt (s.vreg 1).levels 1).length = 2
    ∧ packLevels (nestedState.vreg 1).levels 1 (s.pbits 1 2) = [⟨[1], false, true⟩, ⟨[1], true, false⟩]
    ∧ (selected (s.pbits 1 s.vl) [(5 : Word), 6]).length = 1
    ∧ levelsFit s (keepLevels [⟨[1, 0], false, true⟩, ⟨[2], true, false⟩] 1) = true := by decide
/-- Two buckets of each segment; three levels are one too many to cut at depth 1. -/
theorem witness_ReshapingResults_part :
    levelsFit nestedState [⟨[1, 0, 0, 0], false, false⟩, ⟨[2, 2], false, false⟩, ⟨[2], true, false⟩] = true
    ∧ (nestedState.vreg 1).levels.length ≤ (1 : Dep).toNat + 1
    ∧ (let v : VReg := ⟨.w32, [5, 6], [⟨[1, 1], false, false⟩, ⟨[2], false, false⟩, ⟨[1], false, false⟩]⟩
       let s := vstate.updMe fun x => { x with v := x.v.setIfInBounds 1 v }
       structOk (s.vreg 1) 1 s.vl = true ∧ (1 : Dep) ≠ 0 ∧ (1 : Dep).toNat + 1 < (s.vreg 1).levels.length) := by decide
/-- What vcat makes of two nested registers, at depth 1 and at depth 2. -/
theorem witness_ReshapingResults_cat :
    let s := nestedState
    let a := s.vreg 1
    a.elems.length + a.elems.length ≤ vlmax s 0 .w32 ∧ levelsFit s [⟨[1, 1, 1, 1], false, true⟩, ⟨[2, 2], true, false⟩] = true
    ∧ ((1 : Dep).toNat ≤ a.levels.length ∧ (2 : Dep).toNat ≤ a.levels.length ∧ (lensAt a.levels 1).length = 2)
    ∧ levelsFit s [⟨[2, 2], false, true⟩, ⟨[2], true, false⟩] = true
    ∧ levelsFit s [⟨[1, 1, 1, 1], false, true⟩, ⟨[4], true, false⟩] = true
    ∧ [1, 1, 1, 1] = ((cutSegs (segLens (a.levels.drop 1) 0 (2 - 1 - 0)) [1, 1]).zipWith (· ++ ·)
        (cutSegs (segLens (a.levels.drop 1) 0 (2 - 1 - 0)) [1, 1])).flatten := by decide
/-- Selvedges of the words of this section and of those above that do not fit. -/
theorem witness_ReshapingResults_unfit :
    let s := tightState
    structOk (s.vreg 1) 1 s.vl = true ∧ structOk (s.vreg 1) 0 s.vl = true ∧ levelsFit s ((s.vreg 1).levels.drop 1) = false
    ∧ levelsFit s (keepLevels (s.vreg 1).levels s.vl) = false ∧ levelsFit s (s.vreg 6).levels = false
    ∧ levelsFit s (packLevels (s.vreg 1).levels 1 [true, true]) = false
    ∧ levelsFit s ([⟨[1, 0, 0, 0], false, false⟩, ⟨[2, 2], false, false⟩] ++ (s.vreg 1).levels.drop 1) = false
    ∧ levelsFit s ((s.vreg 1).levels.zipWith (fun p q => (⟨p.lens ++ q.lens, p.ci, q.co⟩ : Level)) (s.vreg 1).levels) = false := by
  decide

theorem witness_SortIsAnOrderedPermutation : isRes .fp32 = false := by decide
/-- Both zeros, a NaN and two equal elements, in either direction: a NaN is last in ascending order and first in descending. -/
theorem test_sort_directions :
    sortBy (sortLe .fp32) [0, 0x7FC00000, 0x3F800000, 0x80000000] = [0x80000000, 0, 0x3F800000, 0x7FC00000]
    ∧ sortBy (fun a b => sortLe .fp32 b a) [0, 0x3F800000, 0x80000000] = [0x3F800000, 0, 0x80000000] := by decide

theorem witness_CarryResults :
    let s := vstate
    let w := s.fw 1
    (∀ k ∈ carryChk .add w, k.2 = true) ∧ s.vl ≤ vlmax s 0 (fmtWidth w.fd) ∧ (1 : Dep) ≠ 0
    ∧ (s.vreg 6).levels[(1 : Dep).toNat - 1]? = some ⟨[2], true, true⟩ ∧ structOk (s.vreg 6) 1 s.vl = true
    ∧ (s.vreg 1).elems.length = s.vl ∧ (s.vreg 5).elems.length = [2].length := by decide

theorem witness_RowConversionResults : ∀ fs ∈ [(5 : SP), 6, 8, 9],
    let s := vstate
    ((s.fw fs).a = some .bf16 ∨ (s.fw fs).a = some .fp16) ∧ ((s.fw fs).d = some .rq16 ∨ (s.fw fs).d = some .int16)
    ∧ (s.fw fs).rm = some .rne ∧ s.vl ≤ vlmax s 0 .w16 ∧ depOk (s.vreg 4) 0 s.vl = true ∧ depOk (s.vreg 1) 1 s.vl = true
    ∧ cutSegs (segLens (s.vreg 4).levels s.vl 0) ((s.pbits 0 s.vl).zip ((velems (s.vreg 4) .w16 s.vl).map (readVal .fp16)))
      = [(s.pbits 0 s.vl).zip ((velems (s.vreg 4) .w16 s.vl).map (readVal .fp16))] := by decide

/-! ### Vector memory -/

/-- Hart 0 with two elements, SRAM bytes 3, 0, 0, 0, 4, … at s26, the stride 8 in s27, the bound 1 in s28, an INT32 format
word in s17; v1 holds the indices 0 and 1, v2 data, v3 a shape record, v4 a format record. -/
def mstate (f : Hart → Hart) : State :=
  (vecs [(1, fmtWord 2 2 2 2), (10, sram), (11, 8), (12, 1)] fun x => f { x with
    v := vregs [(1, ⟨.w32, [0, 1], []⟩), (2, ⟨.w32, [5, 6], [⟨[1, 1], false, false⟩]⟩),
      (3, ⟨.w64, [sram, 1, 2, 0, 0, 0, 0, 4, 0, 0, 0, 0, 2, 9, 0, 0, 0, 0, 0, 2, 0, 0, 0, 0], []⟩),
      (4, ⟨.w64, [sram, 1, 2, 0, 2, 0, 2, 0, 0, 0], []⟩)] }).setBytes sramLoc ([3, 4, 5, 6].flatMap (toLe 4))

/-- Element j at a stride of z bytes. -/
def eaAt (z j : Nat) : Option Int := some ((sram.toNat : Int) + j * z)
/-- Its location. -/
def locAt (z j : Nat) : Nat := sramLoc + j * z

/-- A value that an Except gives. -/
theorem okOf {ε α : Type} {x : Except ε α} {a : α} (h : x.toOption = some a) : x = .ok a := by
  cases x with
  | ok b => exact congrArg _ (Option.some.inj h)
  | error e => exact nomatch h

/-- Accesses to the first two elements, as the hypotheses speak of them. -/
theorem canLoad_two {s : State} {pm : PReg} {z : Nat} {ea : Nat → Option Int} {loc : Nat → Nat} (lo hi : Nat) (hh : hi ≤ 2)
    (h : ∀ j ∈ [0, 1], lo ≤ j → j < hi → ((ea j).bind fun e => (vAccessMe s .load e z).toOption) = some (loc j)
      ∧ vBlocked s false (loc j) z = false) : CanLoad s pm z lo hi ea loc := by
  intro j hl hj _ e he
  obtain ⟨ho, hb⟩ := h j (by simp; omega) hl hj
  rw [he] at ho
  exact ⟨okOf ho, hb⟩

theorem witness_OrderedLoads :
    let s := mstate id
    s.brk = none ∧ s.vl ≤ vlmax s 0 .w32 ∧ s.me.vs.toNat = 0 ∧ (s.sp 11).toInt = 8 ∧ activeAt s 0 1 = true := by decide
theorem witness_OrderedLoads_contiguous : CanLoad (mstate id) 0 4 0 2 (eaAt 4) (locAt 4) := canLoad_two 0 2 (by decide) (by decide)
theorem witness_OrderedLoads_strided : CanLoad (mstate id) 0 4 0 2 (eaAt 8) (locAt 8) := canLoad_two 0 2 (by decide) (by decide)
/-- From c.vs on: element 1 alone. -/
theorem witness_OrderedLoads_later : CanLoad (mstate fun x => { x with vs := 1 }) 0 4 1 2 (eaAt 4) (locAt 4) :=
  canLoad_two 1 2 (by decide) (by decide)
/-- The same hart with its base at the last word of the SRAM's window: element 1 lies beyond it; and with that word poisoned. -/
def edgeState (poisoned : Bool) : State :=
  { (mstate id).updMe (fun x => { x with vq := [passBlock [(10, sram + 50331644)]] }) with
      poison := if poisoned then [sramLoc + 50331640] else [] }
/-- Element 0 at address 0 misses its page; at the edge element 0 can be read and element 1 fails; a poisoned element stops with
0x10. -/
theorem witness_OrderedLoads_failing :
    vAccessMe (mstate id) .load 0 4 = .error ⟨0x06, 0, 0⟩ ∧ ¬activeBefore (mstate id) 0 0
    ∧ CanLoad (edgeState false) 0 4 0 1 (fun j => some ((sram.toNat : Int) + 50331644 + j * 4)) (fun _ => sramLoc + 50331644)
    ∧ activeBefore (edgeState false) 0 1
    ∧ vAccessMe (edgeState false) .load ((sram.toNat : Int) + 50331648) 4 = .error ⟨0x09, 0, sram + 50331648⟩
    ∧ vAccessMe (edgeState true) .load ((sram.toNat : Int) + 50331644) 4 = .error ⟨0x10, 0, sram + 50331644⟩ :=
  ⟨errIs (by decide), fun ⟨_, _, h, _⟩ => absurd h (Nat.not_lt_zero _), canLoad_two 0 1 (by decide) (by decide),
   ⟨0, by decide, by decide, by decide⟩, errIs (by decide), errIs (by decide)⟩
theorem witness_OrderedLoads_tile :
    let s := mstate id
    (shapeOf (recordOf s 3)).map (fun r => decide (r.count ≤ vlmax s 0 (fmtWidth r.fmt) ∧ (0 : Dep).toNat ≤ min (r.tile.length - 1) 3
      ∧ levelsFit s (r.levels 0) = true ∧ r.count = s.vl) && r.addr 0 == eaAt 4 0 && r.addr 1 == eaAt 4 1) = some true := by decide

/-- The indexed loads and stores: two elements, and one with the bound. -/
theorem witness_GatherAndNestedLoads_indexed :
    let s := mstate id
    s.brk = none ∧ s.vl ≤ vlmax s 0 .w32 ∧ s.vl ≤ vlmax s 0 (s.vreg 2).wt ∧ boundOk (some ⟨2, 12⟩) 0 = true ∧ boundOk none 1 = true ∧ indexedPending s.me = false
    ∧ (∀ j : Nat, j < 2 → idxAt s 1 0 none 10 4 j = .at ((sram.toNat : Int) + j * 4))
    ∧ idxAt s 1 0 (some ⟨2, 12⟩) 10 4 0 = .at sram.toNat ∧ idxAt s 1 0 (some ⟨2, 12⟩) 10 4 1 = .oob
    ∧ (∀ j : Nat, j < 2 → idxCheck s 0 s.vUser .load ((sram.toNat : Int) + j * 4) 4 = .ok (locAt 4 j)
      ∧ idxCheck s 0 s.vUser .store ((sram.toNat : Int) + j * 4) 4 = .ok (locAt 4 j)
      ∧ vBlocked s false (locAt 4 j) 4 = false ∧ vBlocked s true (locAt 4 j) 4 = false ∧ s.poisonedFor 0 true (locAt 4 j) 4 = false
      ∧ withdrawnAt s 0 (wordOf ((sram.toNat : Int) + j * 4)) 4 = none ∧ locAt 4 j ≠ lateLoc) := by decide

/-- Units read at ascending addresses. -/
theorem readsIs {s : State} {z : Nat} {eas : List Int} {ws : List Word} (locs : List Nat)
    (h1 : (eas.map fun a => (vAccessMe s .load a z).toOption) = locs.map some)
    (h2 : ∀ l ∈ locs, vBlocked s false l z = false) (h3 : ws = locs.map fun l => vRead s l z) : ReadsAs s z eas ws := by
  refine ⟨locs, ?_, h2, h3⟩
  clear h2 h3
  induction eas generalizing locs with
  | nil => cases locs with
    | nil => rfl
    | cons l ls => simp at h1
  | cons a as ih => cases locs with
    | nil => simp at h1
    | cons l ls =>
      simp only [List.map_cons, List.cons.injEq] at h1 ⊢
      refine ⟨?_, ih ls h1.2⟩
      cases hv : vAccessMe s .load a z with
      | ok x => rw [hv] at h1; exact congrArg _ (by simpa [Except.toOption] using h1.1)
      | error e => rw [hv] at h1; simp [Except.toOption] at h1

/-- The locations of n units of z bytes from an offset in the SRAM. -/
def locsFrom (off z n : Nat) : List Nat := (List.range n).map fun i => sramLoc + off + i * z

/-- Hart 0 with a nested image of INT32 at s26: one level of the lengths 1 and 1, the elements 5 and 6. -/
def nestState : State := (mstate id).setBytes sramLoc ([0x102, 2, 2, 0, 0, 0, 0, 0, 1, 1, 5, 6].flatMap (toLe 4))

theorem witness_GatherAndNestedLoads_nested :
    let h : NestHead := ⟨.int32, 1, 2, [2]⟩
    let u := nestState
    nestHead [0x102, 2, 2, 0, 0, 0, 0, 0] = some h ∧ sumsOk h (cutSegs h.counts [1, 1]) = true
    ∧ ((cursorWords u none)[7]?).getD 0 = 0
    ∧ (stripOf h (cutSegs h.counts [1, 1]) (vlmax u 0 .w32) (slotLimit u.me.gang (held u 0)) (cursorOf (cursorWords u none))).map
      (·.took) = some 2 := by decide
/-- A cursor that has consumed the image. -/
theorem witness_GatherAndNestedLoads_finished :
    let s := nestState.updMe fun x => { x with v := x.v.setIfInBounds 5 ⟨.w64, [2, 2, 0, 0, 0, 0, 0, 1], []⟩ }
    (cursorWords s (some 5))[7]? = some 1 := by decide
theorem witness_GatherAndNestedLoads_reads :
    ReadsAs nestState 4 (unitAddrs (nestState.sp 10).toNat 4 8) [0x102, 2, 2, 0, 0, 0, 0, 0]
    ∧ ReadsAs nestState 4 (unitAddrs ((nestState.sp 10).toNat + 32) 4 2) [1, 1]
    ∧ ReadsAs nestState 4 (unitAddrs ((nestState.sp 10).toNat + 40) 4 2) [5, 6] :=
  ⟨readsIs (locsFrom 0 4 8) (by decide) (by decide) (by decide), readsIs (locsFrom 32 4 2) (by decide) (by decide) (by decide),
   readsIs (locsFrom 40 4 2) (by decide) (by decide) (by decide)⟩
theorem witness_GatherAndNestedLoads_fibre :
    ∃ r f, decodeFibre (mstate id) 5 (velems ((mstate id).vreg 4) .w64 25) = .ok (r, f, [3, 4]) :=
  ⟨⟨sram, .int32, false, 0, 2, [⟨0, 2, 0, 0, 0, none⟩]⟩, ⟨[], [(0, 0), (1, 1)], []⟩, okIs (by decide)⟩
/-- Two dense levels of two children each, with the coordinates of the outer one. -/
theorem witness_GatherAndNestedLoads_outer :
    ∃ r f, decodeFibre (mstate id) 5 (velems ⟨.w64, [sram, 2, 0x102, 0, 2, 0, 2, 0, 0, 0, 0, 2, 0, 0, 0], []⟩ .w64 25)
      = .ok (r, f, [3, 4, 5, 6]) ∧ r.oc = true ∧ r.levels.length = 2 ∧ f.outer = [0, 1] ∧ f.lens = [[2, 2]] :=
  ⟨⟨sram, .int32, true, 0, 2, [⟨0, 2, 0, 0, 0, none⟩, ⟨0, 2, 0, 0, 0, none⟩]⟩,
   ⟨[[2, 2]], [(0, 0), (1, 1), (2, 0), (3, 1)], [0, 1]⟩, okIs (by decide), rfl, rfl, rfl, rfl⟩
/-- The record of a fibre tree at address 0, which misses its page. -/
theorem witness_GatherAndNestedLoads_fault :
    vAccessMe (vecs [] id) .load ((vecs [] id).sp 10).toNat 4 = .error ⟨0x06, 0, 0⟩
    ∧ decodeFibre (mstate id) 5 (velems ⟨.w64, [0, 1, 2, 0, 2, 0, 2, 0, 0, 0], []⟩ .w64 25) = .error (.err ⟨0x06, 0, 0⟩) :=
  ⟨errIs (by decide), errIs (by decide)⟩
/-- Segment accesses of two fields: element j's field f at 8j + 4f. -/
theorem witness_GatherAndNestedLoads_segments :
    let s := mstate id
    (Instr.vldseg ⟨30, 1, ⟨0, false⟩, 1, 10⟩).wellFormed = true ∧ (s.fw 1).a = some .int32 ∧ (s.fw 1).d = some .int32
    ∧ (s.fw 1).rm = some .rne ∧ addFmt .int32 = true
    ∧ ∀ j < 2, ∀ f < 2, (vAccessMe s .load ((s.sp 10).toNat + (j * 2 + f : Nat) * 4) 4).toOption = some (sramLoc + 8 * j + 4 * f)
      ∧ vBlocked s false (sramLoc + 8 * j + 4 * f) 4 = false := by decide

/-- The stores: each access of the loads can be made as a store. -/
theorem witness_OrderedStores :
    let s := mstate id
    s.vl ≤ vlmax s 0 (s.vreg 2).wt ∧ storedEls s 0 (eaAt 4) = [0, 1] ∧ storedEls s 0 (eaAt 8) = [0, 1]
    ∧ ∀ z ∈ [4, 8], ∀ j ∈ [0, 1], (vAccess s 0 s.vUser .store ((sram.toNat : Int) + (j : Nat) * (z : Nat)) 4).toOption = some (locAt z j)
      ∧ vBlocked s true (locAt z j) 4 = false ∧ withdrawnAt s 0 (wordOf ((sram.toNat : Int) + (j : Nat) * (z : Nat))) 4 = none
      ∧ locAt z j ≠ lateLoc := by decide
/-- A store at address 0 fails. -/
theorem witness_OrderedStores_failing : vAccess (mstate id) 0 true .store 0 4 = .error ⟨0x07, 0, 0⟩ := errIs (by decide)

/-- The units of an image can be stored: all those of one nested register, one saved register, one sparse register. -/
def canStoreAll (s : State) (l : List (Int × Nat × List Byte)) : Bool :=
  l.all fun e => decide ((vAccess s 0 s.vUser .store e.1 e.2.1).toOption = some (sramLoc + (e.1 - sram.toNat).toNat))
    && !vBlocked s true (sramLoc + (e.1 - sram.toNat).toNat) e.2.1 && decide (withdrawnAt s 0 (wordOf e.1) e.2.1 = none)

theorem witness_OrderedStores_nested :
    let s := mstate id
    let img := nestImage (s.vreg 2)
    canStoreAll s (unitsOf ((sram.toNat : Int) + 32) 4 img.2.1 ++ unitsOf ((sram.toNat : Int) + (32 + img.2.1.length : Nat)) 4 img.2.2
      ++ unitsOf sram.toNat 4 img.1) = true := by decide

/-- At the SRAM's end the first unit of a header can be stored and the second fails; at address 0 the first fails. -/
theorem witness_UnitStops :
    (let s := (mstate id).updMe fun x => { x with vq := [passBlock [(10, sram + 50331624)]] }
     (s.sp 10).toNat % 8 = 0
     ∧ unitsOf ((s.sp 10).toNat + 16 : Int) 8 (toLe 8 1 ++ toLe 8 2) = ((sram.toNat : Int) + 50331640, 8, toLe 8 1) ::
         [((sram.toNat : Int) + 50331648, 8, toLe 8 2)]
     ∧ unitsBlocked s (unitsOf ((s.sp 10).toNat + 16 : Int) 8 (toLe 8 1 ++ toLe 8 2)) = false
     ∧ canStoreAll s [((sram.toNat : Int) + 50331640, 8, toLe 8 1)] = true)
    ∧ unitsBlocked (mstate id) (unitsOf 0 4 (toLe 4 1)) = false := by decide
theorem witness_UnitStops_error :
    vAccess (mstate id) 0 (mstate id).vUser .store ((sram.toNat : Int) + 50331648) 8 = .error ⟨0x09, 0, sram + 50331648⟩
    ∧ vAccess (mstate id) 0 (mstate id).vUser .store 0 4 = .error ⟨0x07, 0, 0⟩ := ⟨errIs (by decide), errIs (by decide)⟩

/-- Hart 0 in K mode with a K block. -/
def kstate (f : Hart → Hart) : State := mstate fun x => f { x with kmode := true, kq := x.vq.head?, vq := [] }

theorem witness_Saves :
    let s := kstate fun x => { x with rq := [7] }
    (s.sp 10).toNat % 8 = 0 ∧ (s.sp 12).toNat % 8 ≠ 0 ∧ s.me.kq ≠ none ∧ (mstate id).me.kq = none ∧ trioOf s 0 = none ∧ s.me.gang = 1
    ∧ s.me.tack = [] ∧ s.me.arec = none ∧ s.me.tkreq = none
    ∧ canStoreAll s (unitsOf sram.toNat 8 (vImage (s.vreg 2))) = true
    ∧ canStoreAll s (unitsOf sram.toNat 8 (rqImage s.me.rq)) = true
    ∧ canStoreAll s (unitsOf sram.toNat 8 (vqImage s.me.vq s.me.lane.wl)) = true := by decide
theorem witness_Saves_predicate :
    let s := kstate id
    canStoreAll s (unitsOf sram.toNat 8 (pImage (px s 0) s.me.kc)) = true := by decide

/-- Memory holds an image at s26. -/
def imageState (k : Bool) (img : List Byte) : State := (if k then kstate id else mstate id).setBytes sramLoc img

/-- A read of a whole image. -/
theorem imageReads {s : State} {img : List Byte} (n : Nat) (hn : img.length / 8 = n) (hb : (s.sp 10) = sram)
    (h1 : ((unitAddrs sram.toNat 8 n).map fun a => (vAccessMe s .load a 8).toOption) = (locsFrom 0 8 n).map some)
    (h2 : ∀ l ∈ locsFrom 0 8 n, vBlocked s false l 8 = false) (h3 : imgDwords img = (locsFrom 0 8 n).map fun l => vRead s l 8) :
    ReadsAs s 8 (unitAddrs (s.sp 10).toNat 8 (img.length / 8)) (imgDwords img) := by
  rw [hb, hn]
  exact readsIs (locsFrom 0 8 n) h1 h2 h3

theorem witness_RestoresGiveBackWhatSavesStore :
    let v : VReg := ⟨.w32, [5, 6], [⟨[1, 1], false, false⟩]⟩
    let s := imageState false (vImage v)
    VRegOk s v ∧ ReadsAs s 8 (unitAddrs (s.sp 10).toNat 8 ((vImage v).length / 8)) (imgDwords (vImage v)) := by
  refine ⟨?_, imageReads 5 (by decide) (by decide) (by decide) (by decide) (by decide)⟩
  exact ⟨by decide, by decide, by intro x hx; simp only [List.mem_cons, List.not_mem_nil, or_false] at hx; obtain rfl | rfl := hx <;> decide,
    by decide, by intro l hl n hn; simp at hl; subst hl; simp at hn; omega, by decide, .inr (by decide), by decide⟩
theorem witness_RestoresGiveBackWhatSavesStore_rq :
    let s := imageState true (rqImage [7, 8])
    s.me.kq ≠ none ∧ s.me.rq = [] ∧ [(7 : Word), 8].length ≤ 8
    ∧ ReadsAs s 8 (unitAddrs (s.sp 10).toNat 8 ((rqImage [7, 8]).length / 8)) (imgDwords (rqImage [7, 8])) :=
  ⟨by decide, by decide, by decide, imageReads 9 (by decide) (by decide) (by decide) (by decide) (by decide)⟩
theorem witness_RestoresGiveBackWhatSavesStore_vq :
    let q := [passBlock [(1, 5)]]
    let s := imageState true (vqImage q .w32)
    s.me.kq ≠ none ∧ s.me.vq = [] ∧ q.length ≤ queueMost s 0 ∧ (∀ b ∈ q, b.off < 65536)
    ∧ ReadsAs s 8 (unitAddrs (s.sp 10).toNat 8 ((vqImage q .w32).length / 8)) (imgDwords (vqImage q .w32)) :=
  ⟨by decide, by decide, by decide, by decide, imageReads 19 (by decide) (by decide) (by decide) (by decide) (by decide)⟩
theorem witness_RestoresGiveBackWhatSavesStore_predicate :
    let p : Pred := [0, 65]
    let s := imageState false (pImage 2048 p)
    ascending p = true ∧ px s 0 = 2048 ∧ (∀ i ∈ p, i < px s 0) ∧ px s 0 ≤ 131072
    ∧ ReadsAs s 8 (unitAddrs (s.sp 10).toNat 8 ((pImage 2048 p).length / 8)) (imgDwords (pImage 2048 p)) :=
  ⟨by decide, by decide, by decide, by decide, imageReads 33 (by decide) (by decide) (by decide) (by decide) (by decide)⟩

/-- The indices of the scatters, of which kc marks the second; c.vs is 1. -/
theorem witness_ScatterStores :
    let s := mstate fun x => { x with kc := [1] }
    let u := mstate fun x => { x with vs := 1 }
    (s.fw 1).a = some .int32 ∧ (s.fw 1).d = some .int32 ∧ (s.fw 1).rm = some .rne ∧ addFmt .int32 = true ∧ s.brk = none
    ∧ indexedPending s.me = false ∧ (s.vreg 2).wt = .w32 ∧ s.vl ≤ vlmax s 0 .w32 ∧ boundOk none 0 = true
    ∧ ((List.range s.vl).filter fun j => (idxAt s 1 0 none 10 4 j != .skip) && (idxAt s 1 0 none 10 4 j != .oob) && !s.me.kc.contains j) = [0]
    ∧ ((List.range u.vl).filter fun j => (idxAt u 1 0 none 10 4 j != .skip) && (idxAt u 1 0 none 10 4 j != .oob) && !u.me.kc.contains j) = [1]
    ∧ ∀ v ∈ [s, u], ∀ j ∈ [0, 1], idxCheck v 0 v.vUser .store ((sram.toNat : Int) + (j : Nat) * 4) 4 = .ok (locAt 4 j)
      ∧ vBlocked v true (locAt 4 j) 4 = false ∧ withdrawnAt v 0 (wordOf ((sram.toNat : Int) + (j : Nat) * 4)) 4 = none
      ∧ locAt 4 j ≠ lateLoc := by decide

/-- The hart with indices of 64 bits from address 0: element 0 at the SRAM's first word, element 1 on page 0. -/
def gatherState : State := mstate fun x => { x with v := x.v.setIfInBounds 1 ⟨.w64, [BitVec.ofNat 64 (sram.toNat / 4), 0], []⟩ }
/-- Element 0 is done and element 1 misses its page; at the window's edge element 1 fails a check of step 1. -/
theorem witness_GatherFaults : ∀ a ∈ [Acc.load, .store],
    (let s := gatherState
     let el := idxAt s 1 0 none 13 4
     s.brk = none ∧ indexedPending s.me = false ∧ s.vl ≤ vlmax s 0 .w32 ∧ boundOk none 0 = true
     ∧ idxTodo s a el 4 0 = some (.ok sramLoc) ∧ idxTodo s a el 4 1 = some (.miss 0)
     ∧ vBlocked s false sramLoc 4 = false ∧ vBlocked s true sramLoc 4 = false ∧ s.poisonedFor 0 true sramLoc 4 = false
     ∧ el 0 = .at sram.toNat ∧ withdrawnAt s 0 sram 4 = none ∧ sramLoc ≠ lateLoc)
    ∧ (let s := (mstate id).updMe fun x => { x with vq := [passBlock [(1, fmtWord 2 2 2 2), (10, sram + 50331644)]] }
       let el := idxAt s 1 0 none 10 4
       s.brk = none ∧ idxTodo s a el 4 0 = some (.ok (sramLoc + 50331644))
       ∧ idxTodo s a el 4 1 = some (.bad ⟨0x09, 0, sram + 50331648⟩)) := by decide
theorem witness_RecordHolds :
    [0, 65536].Pairwise (· < ·) ∧ (∀ p ∈ [0, 65536], p ∈ [65536, 0]) ∧ (∀ p ∈ [65536, 0], p ∈ [0, 65536])
    ∧ (∀ p ∈ [0, 65536], p < 2 ^ 64) ∧ [1, 3].Nodup ∧ ((user []).hart 0).recs + 1 < 2 ^ 64 := by decide

/-! ### Sparse and front registers, routing -/

/-- Hart 0 with z1 = (1: 5), (4: 6) and z2 = (4: 7), INT32. -/
def zstate : State :=
  mstate fun x => { x with z := ((Vector.replicate 8 ZReg.empty).setIfInBounds 1 ⟨.int32, [(1, 5), (4, 6)]⟩).setIfInBounds 2 ⟨.int32, [(4, 7)]⟩ }

theorem witness_SparseMerges :
    let s := zstate
    let a := s.zreg 1
    let b := s.zreg 2
    ascending a.crd = true ∧ ascending b.crd = true ∧ ascending [1, 4] = true ∧ ascending [4] = true
    ∧ (isRes a.fmt = false ∧ isRes b.fmt = false ∧ okFmt (s.fw 1).d (fun f => !isRes f) = true ∧ (s.fw 1).rm.isSome = true)
    ∧ (∀ c ∈ [1, 4], c ∈ a.crd ∨ c ∈ b.crd) ∧ (∀ c ∈ a.crd ++ b.crd, c ∈ [1, 4]) ∧ (∀ c ∈ [4], c ∈ a.crd ∧ c ∈ b.crd)
    ∧ (∀ c ∈ a.crd, c ∈ b.crd → c ∈ [4]) ∧ [4].length ≤ vlmax s 0 .w32 := by decide

theorem witness_SparseAndVectors :
    let s := zstate
    let fa := Fmt.int32
    (s.fw 1).a = some fa ∧ (s.fw 1).d = some .int32 ∧ (s.fw 1).rm = some .rne ∧ s.vl ≤ vlmax s 0 (fmtWidth fa) ∧ isInt fa = true
    ∧ (s.fw 1).b = some .int32
    ∧ intOf fa (elemOf (s.vreg 1) .w32 s.vl 0) = 0 ∧ intOf fa (elemOf (s.vreg 1) .w32 s.vl 1) = 1
    ∧ ascending ((List.range 2).map fun j => (intOf fa (elemOf (s.vreg 1) .w32 s.vl j)).toNat) = true
    ∧ ascending ((s.zreg 2).crd ++ [5, 6]) = true ∧ (s.zreg 2).fmt = .int32 := by decide

/-- The configuration word of the worked front: FP32 maximised, UINT32 minimised, EVICT on key 1 (spec/10). -/
def frontWord : Word := 0x000000011200005A
/-- The same under REFUSE and under TRAP. -/
def refuseWord : Word := 0x200005A
def trapWord : Word := 0x2200005A
/-- A tuple of its two keys. -/
def tupleAt (a b p t : BitVec 32) : FTuple := ⟨[a, b, 0, 0, 0, 0], p, t⟩

theorem witness_FrontConfiguration :
    (vecs [(2, frontWord)] id).sp 2 = frontWord ∧ cfgValid frontWord = true ∧ cfgValid refuseWord = true ∧ cfgValid trapWord = true
    ∧ cfgValid 0 = false ∧ cfgValid 0x070000000 = false := by decide

theorem witness_FrontOffers :
    let ks := cfgKeys frontWord
    let a := tupleAt 0x3F4CCCCD 10 100 1
    hasNan ks (tupleAt 0x7FC00000 5 0 0) = true ∧ hasNan ks a = false ∧ (∃ h ∈ [a], covers ks h (tupleAt 0x3F333333 12 0 0) = true)
    ∧ (∀ h ∈ [a], covers ks h (tupleAt 0x3F666666 20 0 0) = false)
    ∧ ([a].filter fun h => !dominates ks (tupleAt 0x3F666666 20 0 0) h).length ≠ 256
    ∧ cfgPol frontWord = some .evict ∧ cfgPol refuseWord = some .refuse ∧ cfgPol trapWord = some .trap
    ∧ (cfgKeys frontWord).find? (fun k => k.j == cfgPkey frontWord) = some ⟨1, .uint32, false⟩
    ∧ noneCovers ks [a, tupleAt 0x3F666666 20 0 0] = true ∧ [a, tupleAt 0x3F666666 20 0 0].length ≤ 256
    ∧ (offer frontWord [a] (tupleAt 0x3F666666 20 0 0)).isSome = true := by decide
/-- A tuple leaves a dearer and better one in place, and it that one. -/
def incomparable (c : Word) (a x : FTuple) : Bool :=
  !covers (cfgKeys c) a x && !dominates (cfgKeys c) x a && !hasNan (cfgKeys c) a && !hasNan (cfgKeys c) x
/-- A full front: 256 tuples of which none covers the next, nor is dominated by it. -/
theorem witness_FrontOffers_full :
    incomparable frontWord (tupleAt 0x3F4CCCCD 10 100 1) (tupleAt 0x3F666666 20 0 0) = true
    ∧ incomparable refuseWord (tupleAt 0x3F4CCCCD 10 100 1) (tupleAt 0x3F666666 20 0 0) = true
    ∧ incomparable trapWord (tupleAt 0x3F4CCCCD 10 100 1) (tupleAt 0x3F666666 20 0 0) = true := by decide
theorem witness_FrontOffers_full_list (p : FTuple → Bool) (a : FTuple) (h : p a = true) :
    ((List.replicate 256 a).filter p).length = 256 := by rw [List.filter_replicate_of_pos h, List.length_replicate]

/-- Hart 0 with the worked front's first elements: v2 holds accuracies, v3 costs, v8 payloads; f0 and f1 are configured. -/
def fstate : State :=
  vecs [(10, sram)] fun x => { x with
    v := vregs [(2, ⟨.w32, [0x3F4CCCCD, 0x3F666666], []⟩), (3, ⟨.w32, [10, 20], []⟩), (8, ⟨.w32, [100, 102], []⟩)],
    f := ((Vector.replicate 4 Front.empty).setIfInBounds 0 ⟨frontWord, 0, []⟩).setIfInBounds 1
      ⟨frontWord, 6, [tupleAt 0x3F733333 30 7 0, tupleAt 0x3F59999A 10 55 5]⟩ }

theorem witness_FrontInstructions :
    let s := fstate
    let d := s.freg 0
    let a := s.freg 1
    s.brk = none ∧ s.vl ≤ vlmax s 0 .w32 ∧ d.cfg ≠ 0 ∧ (2 : VReg5).toNat + cfgNk d.cfg ≤ 32 ∧ cfgNk d.cfg ≤ 6
    ∧ (offerAll true d [(0, tupleAt 0x3F4CCCCD 10 100 0), (1, tupleAt 0x3F666666 20 102 0)]).2.2 = none
    ∧ a.cfg ≠ 0 ∧ d.cfg.extractLsb' 0 27 = a.cfg.extractLsb' 0 27
    ∧ (offerAll false d ((indexed a.tuples).drop s.me.vs.toNat)).2.2 = none ∧ (28 : VReg5).toNat + cfgNk a.cfg + 1 ≤ 31 := by decide

/-- The front after the worked insertion's first eight tuples, as spec/10 gives it. -/
theorem test_worked_front :
    let ts := [tupleAt 0x3F4CCCCD 10 100 0, tupleAt 0x3F333333 12 101 0, tupleAt 0x3F666666 20 102 0, tupleAt 0x3F59999A 10 103 0,
      tupleAt 0x7FC00000 5 104 0, tupleAt 0x3F666666 20 105 0, tupleAt 0 0 106 0, tupleAt 0x80000000 0 107 0]
    let r := offerAll true ⟨frontWord, 0, []⟩ (indexed ts)
    r.1 = ⟨frontWord, 8, [tupleAt 0x3F666666 20 102 2, tupleAt 0x3F59999A 10 103 3, tupleAt 0 0 106 6]⟩
    ∧ (r.2.1.filter fun e => e.2 != 0) = [(4, fNK)] := by decide

theorem witness_SparseAndFrontImages_misaligned : (zstate.sp 12).toNat % 8 ≠ 0 := by decide
theorem witness_SparseAndFrontImages_store :
    let s := zstate
    let zi := zImage (s.zreg 1)
    let fi := frontImage (fstate.freg 1)
    (s.sp 10).toNat % 8 = 0 ∧ canStoreAll s (unitsOf ((sram.toNat : Int) + 16) 8 (zi.1 ++ zi.2.1) ++ unitsOf sram.toNat 8 zi.2.2) = true
    ∧ canStoreAll fstate (unitsOf ((sram.toNat : Int) + 32) 8 fi.1 ++ unitsOf sram.toNat 8 fi.2) = true := by decide
theorem witness_SparseAndFrontImages_sparse :
    let r : ZReg := ⟨.int32, [(1, 5), (4, 6)]⟩
    let img := (zImage r).2.2 ++ (zImage r).1 ++ (zImage r).2.1
    let s := imageState false img
    r.pairs.length ≤ 1024 ∧ ascending r.crd = true
    ∧ ReadsAs s 8 (unitAddrs (s.sp 10).toNat 8 (img.length / 8)) (imgDwords img) :=
  ⟨by decide, by decide, imageReads 4 (by decide) (by decide) (by decide) (by decide) (by decide)⟩
theorem witness_SparseAndFrontImages_front :
    let f : Front := ⟨frontWord, 6, [tupleAt 0x3F733333 30 7 0, tupleAt 0x3F59999A 10 55 5]⟩
    let img := (frontImage f).2 ++ (frontImage f).1
    let s := imageState false img
    cfgValid f.cfg = true ∧ f.tuples.length ≤ 256 ∧ (∀ x ∈ f.tuples, x.keys.length = 6) ∧ tuplesOk f.cfg f.tuples = true
    ∧ ReadsAs s 8 (unitAddrs (s.sp 10).toNat 8 (img.length / 8)) (imgDwords img) :=
  ⟨by decide, by decide, by decide, by decide,
   imageReads 12 (by decide) (by decide) (by decide) (by decide) (by decide)⟩

theorem witness_RoutingResults : ∀ dep ∈ [(0 : Dep), 1],
    let s := vstate
    let v := s.vreg 1
    let n := s.vl
    let lens := segLens v.levels n dep.toNat
    let r := segPicks .int32 s.me.k.toNat lens (s.pbits 0 n) (velems v .w32 n)
    (s.fw 1).a = some .int32 ∧ pickFmt .int32 = true ∧ isInt .int32 = true ∧ n ≤ vlmax s 0 .w32 ∧ structOk v dep n = true
    ∧ (1 : PReg) ≠ 0 ∧ r.2.length ≤ vlmax s 0 .w32
    ∧ levelsFit s (if dep = 0 then [] else ⟨lens.map fun _ => s.me.k.toNat, false, false⟩ :: v.levels.drop dep.toNat) = true
    ∧ (dep = 0 ∨ v.levels.length ≤ dep.toNat + 1) ∧ lens.length * 4 ≤ vlmax s 0 .w32
    ∧ levelsFit s (if dep = 0 then [] else
        ⟨List.replicate (lens.length * 4) 1, false, false⟩ :: ⟨lens.map fun _ => 4, false, false⟩ :: v.levels.drop dep.toNat) = true
    ∧ (segIndex lens).length = n := by decide

theorem witness_FrontCount : (fstate.freg 2).tuples = [] ∧ (fstate.freg 1).tuples.length = 2 := by decide

/-! ### The matrix engine -/

/-- A shape word: K = N = 2, INT8 by INT8, kz 2 in one group (spec/13, R227). -/
def shapeWord : Word := 0x0000020000000101

/-- Hart 0 with tile 2 held, the shape in c.msh, s26 the SRAM, v1 the indices 0 and 1 in 8 bits; f changes its core. -/
def tileState (x : Hart → Hart) (f : Core → Core) : State :=
  (mstate fun h => x { h with lane := { h.lane with tmask := 4 }, msh := shapeWord, v := h.v.setIfInBounds 1 ⟨.w8, [0, 1], []⟩ }).updCore 0 f

/-- A command of hart 0 on tile 2. -/
def cmdOf (issued : Bool) (w : MWork) : MCmd :=
  { hart := 0, tile := 2, msh := shapeWord, blk := sram, seq := none, user := true, num := 0, mark := 0, fence := 0, issued := issued, tr := [], work := w }

theorem witness_TilesAndShapes :
    let s := tileState (fun x => { x with vq := [passBlock [(1, shapeWord), (2, 0x1F0000000000), (10, sram)]] }) id
    shapeOk (s.sp 1) = true ∧ shapeOk (s.sp 2) = false ∧ holdsTile s 2 = true ∧ holdsTile s 3 = false
    ∧ tilesBusy s 0 (1 <<< (2 : TReg3).toNat) = false ∧ ((s.core 0).tileWait.any fun e => e.1 == s.cur % 8) = false
    ∧ tilesBusy s 0 (heldTiles s 0 &&& ~~~3) = false ∧ tilesLeave s 0 3 = false ∧ tilesFree s 0 3 = true
    ∧ queueFree s 0 = true ∧ (s.sp 10).toNat % 8 = 0 ∧ (s.sp 1).toNat % 8 ≠ 0 := by decide
/-- Hart 1 of the core holds tile 0. -/
theorem witness_TilesAndShapes_taken :
    let s := (tileState id id).updHart 1 fun x => { x with lane := { x.lane with tmask := 1 } }
    tilesFree s 0 3 = false ∧ tilesLeave s 0 3 = false ∧ tilesBusy s 0 (heldTiles s 0) = false ∧ ((s.core 0).tileWait.any fun e => e.1 == s.cur % 8) = false := by
  decide

/-- An aligned address of the SRAM's window for hart 0. -/
theorem sram_resolve (s : State) (u : Bool) (a : Acc) (i : Nat) (hi : i < 48 * 2 ^ 20) :
    resolveV s 0 u a (sram + BitVec.ofNat 64 i) = .ok (sramLoc + i) := by
  have hn : (sram + BitVec.ofNat 64 i).toNat = 0x00FF020000000000 + i := by
    rw [BitVec.toNat_add, BitVec.toNat_ofNat]
    show (0x00FF020000000000 + i % 2 ^ 64) % 2 ^ 64 = _
    omega
  have h1 : ((sram + BitVec.ofNat 64 i).extractLsb' 56 8 != 0) = false := by
    rw [bne_eq_false_iff_eq]
    apply BitVec.eq_of_toNat_eq
    rw [BitVec.extractLsb'_toNat, hn, Nat.shiftRight_eq_div_pow]
    show (0x00FF020000000000 + i) / 2 ^ 56 % 2 ^ 8 = 0
    omega
  have h2 : ((sram + BitVec.ofNat 64 i).extractLsb' 48 8 == 0xFF) = true := by
    rw [beq_iff_eq]
    apply BitVec.eq_of_toNat_eq
    rw [BitVec.extractLsb'_toNat, hn, Nat.shiftRight_eq_div_pow]
    show (0x00FF020000000000 + i) / 2 ^ 48 % 2 ^ 8 = 255
    omega
  unfold resolveV resolveAs
  rw [if_neg (by rw [h1]; decide), if_pos h2, hn]
  unfold window
  have h3 : (0x00FF020000000000 + i) / 2 ^ 40 % 256 = 2 := by omega
  have h4 : (0x00FF020000000000 + i) % 2 ^ 40 = i := by omega
  simp only [h3, h4]
  rw [if_pos hi]
  rfl

/-- The state of the image accesses: s26 lies past the bytes that memory lists. -/
def restoreState : State := tileState (fun x => { x with vq := [passBlock [(10, sram + 4096)]] }) id

theorem restore_base : (restoreState.sp 10).toNat = 0x00FF020000001000 := by decide

theorem restore_word (i : Nat) (hi : i < 49186) :
    wordOf (((restoreState.sp 10).toNat : Int) + (8 * i : Nat)) = sram + BitVec.ofNat 64 (4096 + 8 * i) := by
  rw [restore_base]
  apply BitVec.eq_of_toNat_eq
  rw [BitVec.toNat_add, BitVec.toNat_ofNat]
  show (BitVec.ofInt 64 ((0x00FF020000001000 : Nat) + (8 * i : Nat))).toNat = (0x00FF020000000000 + _) % _
  rw [BitVec.toNat_ofInt]
  omega

theorem restore_access (a : Acc) (i : Nat) (hi : i < 49186) :
    vAccessMe restoreState a (((restoreState.sp 10).toNat : Int) + (8 * i : Nat)) 8 = .ok (sramLoc + (4096 + 8 * i)) := by
  have hw := restore_word i hi
  have h0 : ¬((((restoreState.sp 10).toNat : Int) + (8 * i : Nat)) < 0
      ∨ (2 ^ 64 : Nat) ≤ ((restoreState.sp 10).toNat : Int) + (8 * i : Nat)) := by rw [restore_base]; omega
  have h1 : ¬(a = .store ∧ (withdrawnAt restoreState restoreState.cur (wordOf (((restoreState.sp 10).toNat : Int) + (8 * i : Nat))) 8).isSome) := by
    intro h
    simp [withdrawnAt, show (restoreState.hart restoreState.cur).task = none from rfl] at h
  have h2 : ¬((((restoreState.sp 10).toNat : Int) + (8 * i : Nat)).toNat % 8 != 0) = true := by
    rw [restore_base]; simp; omega
  have hv : vAccess restoreState restoreState.cur restoreState.vUser a (((restoreState.sp 10).toNat : Int) + (8 * i : Nat)) 8
      = .ok (sramLoc + (4096 + 8 * i)) := by
    unfold vAccess
    rw [if_neg h0, if_neg h1, if_neg h2, hw, show restoreState.cur = 0 from rfl, sram_resolve _ _ _ _ (by omega)]
  unfold vAccessMe
  rw [hv]
  simp [State.poisonedFor, show restoreState.poison = [] from rfl, show restoreState.lossy = [] from rfl]

theorem restore_free (w : Bool) (l : Nat) : vBlocked restoreState w l 8 = false := by
  have hp : restoreState.pkts restoreState.cur = [] := rfl
  have hc : copyTouches restoreState restoreState.cur l 8 = false := by
    unfold copyTouches; rw [show (restoreState.hart restoreState.cur).copiesOf = [] by decide]; rfl
  have ht : tileTouches restoreState restoreState.cur w l 8 = false := by
    unfold tileTouches; rw [show (restoreState.core (coreOf restoreState.cur)).mq = [] from rfl]; rfl
  unfold vBlocked
  simp [hp, hc, ht]

/-- The image of a tile can be stored, each page of it in one place. -/
theorem witness_TilesAndShapes_save :
    holdsTile restoreState 2 = true ∧ ∃ loc : Int → Nat, (∀ a ∈ imageAddrs (restoreState.sp 10),
      vAccessMe restoreState .store a 8 = .ok (loc a) ∧ vBlocked restoreState true (loc a) 8 = false)
      ∧ OnePlace ((imageAddrs (restoreState.sp 10)).map fun a => (a.toNat, loc a)) := by
  have hb : (restoreState.sp 10).toNat = 0x00FF020000001000 := restore_base
  refine ⟨by decide, fun a => sramLoc + (a - 0x00FF020000000000).toNat, ?_, ?_⟩
  · intro a ha
    simp only [imageAddrs, List.mem_map, List.mem_range] at ha
    obtain ⟨i, hi, rfl⟩ := ha
    have hi' : i < 49186 := hi
    refine ⟨?_, restore_free _ _⟩
    have := restore_access .store i hi'
    rw [← Int.natCast_add] at this
    rw [this, restore_base]
    refine congrArg _ ?_
    show sramLoc + (4096 + 8 * i) = sramLoc + (((71778318084476928 + 8 * i : Nat) : Int) - 0x00FF020000000000).toNat
    omega
  · intro e he _
    simp only [imageAddrs, List.mem_map, List.mem_range, hb] at he
    obtain ⟨_, ⟨i, -, rfl⟩, rfl⟩ := he
    refine ⟨by unfold sramLoc; omega, ?_⟩
    intro f hf hp _
    simp only [imageAddrs, List.mem_map, List.mem_range, hb] at hf
    obtain ⟨_, ⟨j, -, rfl⟩, rfl⟩ := hf
    unfold sramLoc at *
    omega

/-- The image of a tile in memory that nothing has written: all its units can be read, and its header is that of a tile. -/
theorem witness_MatrixCommands_restore :
    (restoreState.sp 10).toNat % 8 = 0 ∧ ∃ ws x, ReadsAs restoreState 8 (unitAddrs (restoreState.sp 10).toNat 8 49186) ws
      ∧ tileOf (ws.take 2) (ws.drop 2) = some x
      ∧ ∀ i, i < 49186 → ∃ l, idxCheck restoreState restoreState.cur restoreState.vUser .load
          ((restoreState.sp 10).toNat + (8 * i : Nat)) 8 = .ok l := by
  let locs := (List.range 49186).map fun i => sramLoc + (4096 + 8 * i)
  let ws := locs.map fun l => vRead restoreState l 8
  have h2 : ws.take 2 = [0, 0] := by
    have : ws.take 2 = ((List.range 2).map fun i => sramLoc + (4096 + 8 * i)).map fun l => vRead restoreState l 8 := by
      simp only [ws, locs, ← List.map_take, List.take_range]; rfl
    rw [this]; decide
  have ht : ∃ x, tileOf [0, 0] (ws.drop 2) = some x := by
    unfold tileOf
    exact ⟨_, if_neg (by decide)⟩
  obtain ⟨x, hx⟩ := ht
  refine ⟨by decide, ws, x, ⟨locs, ?_, fun l _ => restore_free _ _, rfl⟩, by rw [h2]; exact hx, ?_⟩
  · simp only [unitAddrs, locs, List.map_map]
    refine List.map_congr_left fun i hi => ?_
    have := restore_access .load i (List.mem_range.mp hi)
    show vAccessMe restoreState .load _ 8 = _
    simpa [Int.mul_comm] using this
  · intro i hi
    refine ⟨sramLoc + (4096 + 8 * i), ?_⟩
    have hw := restore_word i hi
    have hr := sram_resolve restoreState restoreState.vUser .load (4096 + 8 * i) (by omega)
    have hx : ((sram + BitVec.ofNat 64 (4096 + 8 * i)).extractLsb' 56 8 != 0) = false := by
      unfold resolveV resolveAs at hr
      split at hr
      · exact nomatch hr
      · next h => exact Bool.eq_false_iff.mpr h
    have h0 : ¬((((restoreState.sp 10).toNat : Int) + (8 * i : Nat)) < 0
        ∨ (2 ^ 64 : Nat) ≤ ((restoreState.sp 10).toNat : Int) + (8 * i : Nat)) := by rw [restore_base]; omega
    have h2 : ¬((((restoreState.sp 10).toNat : Int) + (8 * i : Nat)).toNat % 8 != 0) = true := by
      rw [restore_base]; simp; omega
    unfold idxCheck
    simp only [hw]
    rw [if_neg h0, if_neg (by intro h; exact absurd h.1 (by decide)), if_neg h2, if_neg (by rw [hx]; decide),
      show restoreState.cur = 0 from rfl, hr]

theorem witness_MatrixCommands :
    let s := tileState id id
    let m := s.me.msh
    holdsTile s 2 = true ∧ queueFree s 0 = true ∧ (mshBf m).isSome = true ∧ compactOk m = true
    ∧ indicesOk m ((velems (s.vreg 1) .w8 (mshP m)).map fun x => x.setWidth 8) = true ∧ mshAf m = some .int8
    ∧ (tileSoon s 0 2).1 = false ∧ (2 : BReg4) ≠ 3 ∧ mshKl m ≤ vlmax s 0 .w8 := by decide
theorem witness_MatrixCommands_loads :
    let s := tileState id id
    let loc (r c : Nat) : Nat := sramLoc + 8 * r + c
    (∀ cp ∈ [true, false], ∀ r ∈ loadRows s.me.msh (rowsOn s 0 256) cp, r ∈ [0, 1])
    ∧ ∀ r ∈ [0, 1], ∀ c, c < mshN s.me.msh →
      idxCheck s s.cur s.vUser .load (((s.sp 10).toNat : Int) + (r : Nat) * (s.sp 11).toInt + c * mshZ s.me.msh) (mshZ s.me.msh)
        = .ok (loc r c)
      ∧ vBlocked s false (loc r c) (mshZ s.me.msh) = false := by decide
/-- The elements of a load in one frame, and one that is withdrawn. -/
theorem witness_OnePlace : OnePlace [(sram.toNat, sramLoc), (sram.toNat + 8, lateLoc), (sram.toNat + 16, sramLoc + 16)] := by
  unfold OnePlace; decide
/-- Bobbins 2 and 3 hold enough elements of 8 bits, and the tile is compacted. -/
theorem witness_MatrixCommands_bobbins :
    let b : Bobbin := { Bobbin.closed with kind := .stream, ew := .w8, bsz := 1, issued := 64 }
    let s := tileState (fun x => { x with b := (x.b.setIfInBounds 2 b).setIfInBounds 3 { b with boff := 1 } })
      fun c => { c with tiles := c.tiles.setIfInBounds 2 { Tile.zero with compacted := true, shp := shapeWord } }
    let m := s.me.msh
    let has (x : Bobbin) (n : Nat) : Prop := x.kind = .stream ∧ x.ew = .w8 ∧ n ≤ x.cap ∧ x.reserved + n ≤ x.issued
    has (s.bob 0 2) (mshK m) ∧ has (s.bob 0 2) (mshKl m) ∧ has (s.bob 0 3) (mshP m) ∧ (tileSoon s 0 2).1 = true
    ∧ (tileSoon s 0 2).2.extractLsb' 32 13 = m.extractLsb' 32 13 := by decide

/-- Tile 2 with one command, of each kind, not issued and issued. -/
def engineState (issued : Bool) (w : MWork) : State := tileState id fun c => { c with mq := [cmdOf issued w] }
theorem witness_MatrixEngine_queue (issued : Bool) (w : MWork) : ((engineState issued w).core 0).mq = cmdOf issued w :: [] := rfl
/-- A dense row product of registers; one whose source is bobbin 0, with its first element poisoned; a compacted one whose
indices are no indices. -/
def denseMul : MWork := .mul 5 (.vals [2, 3]) none false none
def bobMul : MWork := .mul 5 (.bob ⟨0, 0, 2⟩) none false none
def badMul : MWork := .mul 5 (.vals [2]) none true (some (.vals [9, 9]))
theorem witness_MatrixEngine_issue :
    (∀ w ∈ [denseMul, bobMul, badMul], (cmdOf false w).tile < 8 ∧ (cmdOf false w).issued = false ∧ (cmdOf true w).issued = true
      ∧ (engineState false w).withheld = false ∧ (engineState false w).halted = false)
    ∧ (cmdOf false denseMul).resvs = [] ∧ cmdPoisoned (engineState false denseMul) (cmdOf false denseMul) = false
    ∧ cmdIndices (engineState false denseMul) (cmdOf false denseMul) = some []
    ∧ cmdPoisoned (engineState false badMul) (cmdOf false badMul) = false
    ∧ cmdIndices (engineState false badMul) (cmdOf false badMul) = none
    ∧ ((engineState false badMul).hart 0).holdsEngine true = false := by decide
/-- Bobbin 0 holds two elements of 8 bits, in a poisoned word of its core's TCM. -/
def poisonedStream : State :=
  let b : Bobbin := { Bobbin.closed with kind := .stream, ew := .w8, bsz := 1, issued := 2, arrived := 2 }
  let s := tileState (fun x => { x with b := x.b.setIfInBounds 0 b }) fun c => { c with mq := [cmdOf false bobMul] }
  { s with poison := [poisonUnit (slotLoc 0 b 0)] }
theorem witness_MatrixEngine_poisoned :
    (poisonedStream.core 0).mq = [cmdOf false bobMul]
    ∧ (∀ r ∈ (cmdOf false bobMul).resvs, r.first + r.len ≤ (resvBob poisonedStream 0 r).arrived)
    ∧ cmdPoisoned poisonedStream (cmdOf false bobMul) = true := by decide
theorem witness_MatrixEngine_load (r c : Nat) :
    (engineState true (.load 0 8 none none [])).poisonedFor 0 true (heldLoc [] ((r : Int) * 8 + c).toNat) 1 = false := rfl
/-- A load whose first element lies in a poisoned word of the SRAM, and one whose element of row 0, column 1 alone does. -/
theorem witness_MatrixEngine_load_poisoned :
    let s : State := { engineState true (.load 7 8 none none [(0, sramLoc)]) with poison := [sramLoc + 8] }
    loadRows shapeWord none false = [0, 1] ∧ mshN shapeWord = 2
    ∧ s.poisonedFor 0 true (heldLoc [(0, sramLoc)] 7) 1 = false ∧ s.poisonedFor 0 true (heldLoc [(0, sramLoc)] 8) 1 = true := by decide
theorem witness_MatrixEngine_save :
    (cmdOf true (.save sram [])).hart < 1536 ∧ ∀ a, withdrawnAt (engineState true (.save sram [])) 0 a 8 = none :=
  ⟨by decide, fun _ => by simp [withdrawnAt, show ((engineState true (.save sram [])).hart 0).task = none from rfl]⟩
/-- A masked product of a compacted tile with its indices, and one that reads a NaR. -/
theorem witness_MatrixEngine_mul_uses :
    let s := engineState true (.mul 5 (.vals [2, 3]) (some [1]) true (some (.vals [0, 1])))
    cmdIndices s (cmdOf true (.mul 5 (.vals [2, 3]) (some [1]) true (some (.vals [0, 1])))) = some [0, 1]
    ∧ mshP shapeWord = 2 ∧ isNar .ra48 (narPat .ra48).toNat = true := by decide
theorem witness_MatrixEngine_mul :
    pushDone (engineState true denseMul) 0 0 0 = true ∧ mshAf shapeWord = some .int8
    ∧ [(2 : Word), 3].length = mshK shapeWord ∧ (isNar .int8 (2 : Word).toNat = false ∧ isNar .int8 (3 : Word).toNat = false)
    ∧ ((engineState true denseMul).core 0).tiles.get (BitVec.ofNat 3 2).toFin = Tile.zero
    ∧ isNar .ra48 (entryWord 0).toNat = false
    ∧ ((engineState true denseMul).hart 0).v.get (5 : VReg5).toFin = VReg.empty
    ∧ isNar .ra48 (0 : Word).toNat = false :=
  ⟨rfl, by decide, by decide, ⟨rfl, rfl⟩, by decide, by decide, by decide, by decide⟩

/-! ### Bobbins -/

/-- Hart 0 in U mode: bobbin 3 open as a stream of 32-bit elements, with a queue and counters; open words of a stream and a
transfer in s17 and s18, a bad one in s19; s20 to s22 INT32 from INT8, from INT32. -/
def bobState (x : Bobbin → Bobbin) : State :=
  let b : Bobbin := { Bobbin.closed with kind := .stream, ew := .w32, bsz := 4, boff := 0x200, issued := 3, arrived := 3 }
  mstate fun h => { h with
    b := h.b.setIfInBounds 3 (x b), v := h.v.setIfInBounds 1 ⟨.w32, [0, 1], []⟩,
    vq := [passBlock [(1, 0x4002000401000000), (2, 0x8002000000000000), (3, 1), (4, fmtWord 2 2 2 0), (10, sram), (11, 8)]] }

theorem witness_BobbinsOpenAndClose :
    let s := bobState id
    (openOf s (s.sp 1)).map (·.kind) = some .stream ∧ (openOf s (s.sp 2)).map (·.kind) = some .transfer ∧ openOf s (s.sp 3) = none
    ∧ (s.bob 0 4).kind = .closed ∧ (s.bob 0 3).kind ≠ .closed ∧ (s.sp 10).toNat % 4 = 0 ∧ (s.sp 3).toNat % 4 ≠ 0
    ∧ (s.sp 10).toNat % 8 = 0 ∧ (s.bob 0 3).queue = [] ∧ (s.bob 0 3).flt = false ∧ queuedResvs s 0 (3 : BReg4).toNat = []
    ∧ queuedResvs (engineState false bobMul) 0 (0 : BReg4).toNat ≠ []
    ∧ ((bobState fun b => { b with flt := true }).bob 0 3).flt = true := by decide

theorem witness_CopiesIssue :
    let s := bobState id
    let x := s.bob 0 3
    x.kind ≠ .closed ∧ x.queue.length < 4 ∧ (fwOf (s.sp 4)).a = some .int32 ∧ (fwOf (s.sp 4)).rm ≠ none
    ∧ (fwOf (s.sp 4)).d.map fmtWidth = some x.ew ∧ s.vl ≤ vlmax s 0 x.ew ∧ s.vl * 4 * 8 ≤ s.me.gang * held s 0 * 16384
    ∧ indexedPending s.me = false
    ∧ (shapeOf (recordOf s 3)).map (fun r => decide (r.count ≤ vlmax s 0 x.ew ∧ fmtWidth r.fmt = x.ew)) = some true
    ∧ (∀ j : Nat, j < 2 → idxAt s 1 0 none 10 4 j = .at ((sram.toNat : Int) + j * 4)
      ∧ idxCheck s 0 s.vUser .load ((sram.toNat : Int) + j * 4) 4 = .ok (locAt 4 j)) := by decide

/-- A contiguous copy of two elements from the SRAM. -/
def copyOf (dst : Word) : Copy :=
  { form := 0, base := sram, stride := 0, cv := none, len := 2, mask := none, rcd := [], idx := [], z := 4, next := 0, first := 3,
    dst := dst, user := true, mark := 0, ord := 0, blk := 0, seq := none }

/-- Element 0 of the copy into a stream, and to memory. -/
theorem witness_CopyEngine :
    (let s := bobState fun b => { b with queue := [.copy (copyOf 0)], issued := 5 }
     let x := s.bob 0 3
     x.queue = [.copy (copyOf 0)] ∧ x.flt = false ∧ (copyOf 0).form ≠ 3 ∧ (copyOf 0).next < (copyOf 0).len
     ∧ hasRoom x (copyOf 0) (copyOf 0).next = true ∧ endsClear s 0 x (copyOf 0) 0 ⟨some sramLoc, none⟩ = true ∧ 0 ≤ (copyOf 0).first
     ∧ x.kind = .stream)
    ∧ (let c := copyOf (sram + 64)
       let s := bobState fun b => { b with kind := .transfer, queue := [.copy c], issued := 5, bsz := 0, boff := 0 }
       let x := s.bob 0 3
       x.queue = [.copy c] ∧ x.flt = false ∧ hasRoom x c c.next = true
       ∧ endsClear s 0 x c c.next ⟨some sramLoc, some (sramLoc + 64)⟩ = true ∧ x.kind ≠ .stream
       ∧ withdrawnAt s 0 (wordOf (c.destAt x c.next)) 4 = none) := by decide
theorem witness_CopyEngine_ends :
    (let s := bobState fun b => { b with queue := [.copy (copyOf 0)], issued := 5 }
     copyEnds s 0 (s.bob 0 3) (copyOf 0) 0 = .ok ⟨some sramLoc, none⟩)
    ∧ (let c := copyOf (sram + 64)
       let s := bobState fun b => { b with kind := .transfer, queue := [.copy c], issued := 5, bsz := 0, boff := 0 }
       copyEnds s 0 (s.bob 0 3) c 0 = .ok ⟨some sramLoc, some (sramLoc + 64)⟩) := ⟨okIs (by decide), okIs (by decide)⟩
/-- An indexed copy to memory of the elements 1 and 0, from an address. -/
def indexedCopy (base : Word) : Copy := { copyOf (sram + 64) with form := 3, base := base, idx := [1, 0] }
def indexedState (base : Word) (k : Pred) : State :=
  (bobState fun b => { b with kind := .transfer, queue := [.copy (indexedCopy base)], issued := 5, bsz := 0, boff := 0 }).updMe
    fun x => { x with kc := k }
theorem witness_CopyEngine_indexed :
    let s := indexedState sram []
    let x := s.bob 0 3
    let c := indexedCopy sram
    x.queue = [.copy c] ∧ x.flt = false ∧ c.form = 3 ∧ x.kind = .transfer ∧ c.rest (s.hart 0).kc = [0, 1] ∧ indexedErr s 0 x c = none
    ∧ bothOf x (indexedChk s 0 x c 0) = some ⟨some (sramLoc + 4), some (sramLoc + 64)⟩
    ∧ endsClear s 0 x c 0 ⟨some (sramLoc + 4), some (sramLoc + 64)⟩ = true ∧ withdrawnAt s 0 (wordOf (c.destAt x 0)) 4 = none := by decide
/-- A copy from address 0; indexed ones whose source lies outside a window, and on a page that is missing; a post. -/
theorem witness_CopyEngine_fault :
    let c : Copy := { copyOf 0 with base := 0 }
    let s := bobState fun b => { b with queue := [.copy c], issued := 5 }
    let x := s.bob 0 3
    copyEnds s 0 x c c.next = .error ⟨0x06, 0, 0⟩ ∧ x.flt = false ∧ lowerFault s 0 3 = false ∧ hasRoom x c c.next = true
    ∧ (s.hart 0).holdsEngine c.user = false := ⟨errIs (by decide), by decide⟩
theorem witness_CopyEngine_indexed_fault :
    (let s := indexedState (sram + 50331644) []
     indexedErr s 0 (s.bob 0 3) (indexedCopy (sram + 50331644)) = some ⟨0x09, 0, sram + 50331648⟩
     ∧ lowerFault s 0 3 = false ∧ (s.hart 0).holdsEngine true = false)
    ∧ (let s := indexedState 0 []
       indexedErr s 0 (s.bob 0 3) (indexedCopy 0) = none ∧ indexedMiss s 0 (s.bob 0 3) (indexedCopy 0) = (false, [(0, 0), (1, 0)])
       ∧ lowerFault s 0 3 = false) := by decide
theorem witness_CopyEngine_post :
    let p : Post := { addr := sram, scope := .cluster, user := true, num := 0, mark := 0, blk := 0, seq := none }
    let s := bobState fun b => { b with queue := [.post p], nb := 8 }
    (s.bob 0 3).queue = [.post p] ∧ (s.bob 0 3).flt = false ∧ vAccess s 0 p.user .atomic p.addr.toNat 8 = .ok sramLoc
    ∧ pushDone s 0 p.num p.mark = true ∧ (s.pkts 0).all (fun q => !q.touches sramLoc 8) = true
    ∧ (s.sendNow 0 sramLoc).isSome = true :=
  ⟨by decide, by decide, okIs (by decide), by decide⟩

/-- Hart 0 in K mode with a K block; bobbin 3 open. -/
def kbobState (x : Bobbin → Bobbin) (img : List Byte) : State :=
  ((bobState x).updMe fun h => { h with kmode := true, kq := h.vq.head?, vq := [] }).setBytes sramLoc img

theorem witness_BobbinImages :
    let s := kbobState id []
    (mstate id).me.kq = none ∧ s.me.kq ≠ none ∧ (s.sp 10).toNat % 8 = 0 ∧ (s.bob 0 3).kind ≠ .closed
    ∧ (let u := stopHead s 0 3
       canStoreAll u (unitsOf sram.toNat 8 (bobImage u 0 (u.bob 0 3))) = true) := by decide
/-- The same bobbin with a poisoned element that is not freed. -/
theorem witness_BobbinImages_poison :
    let s := { kbobState id [] with poison := [poisonUnit (slotLoc 0 ((bobState id).bob 0 3) 0)] }
    let u := stopHead s 0 3
    (u.bob 0 3).kind = .stream ∧ streamPoisoned u 0 (u.bob 0 3) (u.bob 0 3).freed ((u.bob 0 3).arrived - (u.bob 0 3).freed) = true := by
  decide
/-- The image of a stream with two unread elements, 5 and 6, of 32 bits, and of a transfer. -/
theorem witness_BobbinImages_restore :
    (let ws : List Word := [0x4002000401000000, 1, 0, 2, 2, 3, 0, 0]
     let s := kbobState (fun _ => Bobbin.closed) ((ws ++ [0x0000000600000005]).flatMap fun (w : Word) => toLe 8 w.toNat)
     (s.bob 0 3).kind = .closed ∧ (openOf s 0x4002000401000000).map (fun y => decide (kindCode y.kind = 1 ∧ 2 ≤ y.cap ∧ y.ew = .w32))
       = some true ∧ ReadsAs s 8 (unitAddrs sram.toNat 8 8) ws
     ∧ (s.pkts 0).all (fun p => !p.touches (slotLoc 0 ((openOf s 0x4002000401000000).getD Bobbin.closed) 0) (2 * 4)) = true
     ∧ ReadsAs s 8 (unitAddrs (sram.toNat + 64) 8 ((2 * 4 + 7) / 8)) [0x0000000600000005])
    ∧ (let ws : List Word := [0x8002000000000000, 2, 64, 1, 1, 1, 0, 0]
       let s := kbobState (fun _ => Bobbin.closed) (ws.flatMap fun (w : Word) => toLe 8 w.toNat)
       (openOf s 0x8002000000000000).map (fun y => decide (kindCode y.kind = 2 ∧ (64 : Word).toNat % widthBytes y.ew = 0)) = some true
       ∧ ReadsAs s 8 (unitAddrs sram.toNat 8 8) ws) :=
  ⟨⟨by decide, by decide, readsIs (locsFrom 0 8 8) (by decide) (by decide) (by decide), by decide,
    readsIs (locsFrom 64 8 1) (by decide) (by decide) (by decide)⟩,
   by decide, readsIs (locsFrom 0 8 8) (by decide) (by decide) (by decide)⟩

/-! ### Rings, routes, summaries, the fabric -/

/-- Hart 0 in role 0 of a trio whose ring 0 holds up to two registers, produced and consumed by role 0; g is the ring. -/
def ringState (g : Ring) : State :=
  let t : Trio := { word := 0x120088, rings := (Vector.replicate 4 ⟨[], []⟩).setIfInBounds 0 g, ended := [] }
  (mstate id).updCore 0 fun c => { c with trios := [t] }

theorem witness_TrioRings :
    let rings (g : Ring) : Vector Ring 4 := (Vector.replicate 4 ⟨[], []⟩).setIfInBounds 0 g
    (∀ g ∈ [(⟨[], []⟩ : Ring), ⟨[VReg.empty], []⟩, ⟨[VReg.empty, VReg.empty], []⟩, ⟨[], [0]⟩],
      trioOf (ringState g) 0 = some (⟨0x120088, rings g, []⟩, 0))
    ∧ capOf 0x120088 0 = 2 ∧ (ringPmask 0x120088 0).getLsbD 0 = true ∧ consOf 0x120088 0 = 0
    ∧ ringClosed 0x120088 0 ⟨[], [0]⟩ = true ∧ ringClosed 0x120088 0 ⟨[], []⟩ = false ∧ (mstate id).me.rq.length < 8
    ∧ capOf 0x120088 1 = 0 ∧ trioOf (mstate id) 0 = none := by decide

/-- Hart 0 runs task 0 with the output of handle 0. -/
def sumState : State :=
  let s := mstate fun x => { x with task := some 0 }
  { s with clusters := withdrawnState.clusters }
theorem witness_RoutesAndSummaries :
    (sumState.fw 1).a = some .int32 ∧ sumState.vl ≤ vlmax sumState 0 .w32 ∧ sumState.me.task = some 0
    ∧ ((taskOf sumState 0 0).bind fun k => k.outs[0]?).map (·.handle) = some (some 0) := by decide

/-- A location table: key 0 lies here with the SRAM, key 1 on chip 7 (spec/26, R386). -/
def locs : LocTable := ⟨32, [⟨0, 0, 0, sram, sram⟩, ⟨1, 7, 0, sram, sram⟩]⟩
/-- Hart 0 with the table in slot 0; v1 holds the global indices listed; f changes it. -/
def fabricState (is : List Word) (f : Hart → Hart) : State :=
  let s := mstate fun x => f { x with v := x.v.setIfInBounds 1 ⟨.w64, is, [⟨[1, 1], false, false⟩]⟩ }
  { s with fen := true, clusters := [(0, { Cluster.reset with locs := Cluster.reset.locs.setIfInBounds 0 (some locs) })],
           dies := [(0, { Die.reset with routes := [(7, 0x81)] })] }

theorem witness_RemoteInstructions :
    let s := fabricState [0, 1] id
    locSlot s 0 = some locs ∧ locSlot s 1 = none ∧ s.vl ≤ vlmax s 0 .w32 ∧ s.vl ≤ vlmax s 0 .w64
    ∧ indexedPending s.me = false ∧ s.me.kc = [] ∧ s.me.xlists = []
    ∧ ∀ j ∈ [0, 1], elemOf (s.vreg 1) .w64 s.vl j = BitVec.ofNat 64 j
      ∧ entryAt locs ((BitVec.ofNat 64 j : Word).toNat / 2 ^ locs.sh) = some ⟨0, 0, 0, sram, sram⟩
      ∧ (0 : BitVec 12) = s.chip
      ∧ idxCheck s 0 s.vUser .load (sram.toNat + ((BitVec.ofNat 64 j : Word).toNat % 2 ^ locs.sh : Nat) * (4 : Nat)) 4
        = .ok (locAt 4 j)
      ∧ vBlocked s false (locAt 4 j) 4 = false ∧ s.poisonedFor 0 true (locAt 4 j) 4 = false := by decide
/-- An element is performed. -/
theorem xact_of {s : State} {va : VReg5} {pm : PReg} {j : Nat} (h : (decide (s.me.vs.toNat ≤ j) && activeAt s pm j
    && (elemOf (s.vreg va) .w64 s.vl j != BitVec.allOnes 64) && !s.me.kc.contains j) = true) : XAct s va pm j := by
  simp only [Bool.and_eq_true, decide_eq_true_eq, bne_iff_ne, Bool.not_eq_true'] at h
  exact ⟨h.1.1.1, h.1.1.2, h.1.2, by simpa using h.2⟩
/-- Keys 0 and 1 of elements here, 2 with no entry, 1 on chip 7 with a route. -/
theorem witness_RemoteInstructions_acts : XAct (fabricState [0, 1] id) 1 0 0 ∧ XAct (fabricState [0, 1] id) 1 0 1 :=
  ⟨xact_of (by decide), xact_of (by decide)⟩
theorem witness_RemoteInstructions_missing :
    XAct (fabricState [0, 0x200000000] id) 1 0 1
    ∧ entryAt locs ((elemOf ((fabricState [0, 0x200000000] id).vreg 1) .w64 2 1).toNat / 2 ^ locs.sh) = none
    ∧ entryAt locs ((elemOf ((fabricState [0, 0x200000000] id).vreg 1) .w64 2 0).toNat / 2 ^ locs.sh) ≠ none :=
  ⟨xact_of (by decide), by decide⟩
theorem witness_RemoteInstructions_far :
    (let s := fabricState [0x100000000, 0x100000001] id
     XAct s 1 0 0 ∧ XAct s 1 0 1) ∧ (let s := fabricState [0x100000000, 0x100000001] id
    ∀ j ∈ [0, 1], entryAt locs ((elemOf (s.vreg 1) .w64 s.vl j).toNat / 2 ^ locs.sh) = some ⟨1, 7, 0, sram, sram⟩
      ∧ (7 : BitVec 12) ≠ s.chip ∧ routeOpen s 0 7 = true) := ⟨⟨xact_of (by decide), xact_of (by decide)⟩, by decide⟩
/-- Both lie on chip 7, whose list has returned. -/
theorem witness_RemoteInstructions_returned :
    let l : XList := ⟨7, 1, 5, .w32, true, [0, 1], [0, 1], some (.values [8, 9] [])⟩
    let s := fabricState [0x100000000, 0x100000001] fun x => { x with xlists := [l] }
    s.me.xlists = [l] ∧ (s.me.xlists.any fun l => l.reply.isNone) = false ∧ (s.me.xlists.flatMap (·.elems)).Nodup
    ∧ [(8 : Word), 9].length = l.elems.length ∧ (0, (8 : Word)) ∈ l.elems.zip [8, 9] ∧ (1, (9 : Word)) ∈ l.elems.zip [8, 9] := by
  decide
/-- Two segments with keys on chip 7; and their records when they have returned. -/
def forwardState (rs : List XRecord) : State :=
  fabricState [0, 1] fun x => { x with xrecs := rs, v := x.v.setIfInBounds 5 ⟨.w32, [1, 1], []⟩ }
theorem witness_RemoteInstructions_sends :
    let s := forwardState []
    (1 : Dep).toNat ≤ (s.vreg 1).levels.length ∧ ownRecs s = []
    ∧ (cutSegs (segLens (s.vreg 1).levels (s.vreg 1).elems.length (1 : Dep).toNat) (s.vreg 1).elems).length = 2
    ∧ pushDone s 0 s.me.nextNum ((s.me.block?.map (·.mark)).getD 0) = true
    ∧ ∀ j ∈ [0, 1], entryAt locs (elemOf (s.vreg 5) .w32 2 j).toNat = some ⟨1, 7, 0, sram, sram⟩ ∧ (7 : BitVec 12) ≠ s.chip
      ∧ routeOpen s 0 7 = true := by decide
/-- No route is open to chip 7: the fabric is off, or it has none. -/
theorem witness_RemoteInstructions_no_route :
    (let s := { fabricState [0, 0x100000001] id with fen := false }
     routeOpen s 0 7 = false ∧ entryAt locs ((elemOf (s.vreg 1) .w64 2 0).toNat / 2 ^ locs.sh) = some ⟨0, 0, 0, sram, sram⟩
     ∧ entryAt locs ((elemOf (s.vreg 1) .w64 2 1).toNat / 2 ^ locs.sh) = some ⟨1, 7, 0, sram, sram⟩)
    ∧ (let s := { forwardState [] with dies := [] }
       routeOpen s 0 7 = false ∧ ownRecs s = [] ∧ locSlot s 0 = some locs) := by decide
theorem witness_RemoteInstructions_no_route_acts :
    let s := { fabricState [0, 0x100000001] id with fen := false }
    XAct s 1 0 0 ∧ XAct s 1 0 1 := ⟨xact_of (by decide), xact_of (by decide)⟩
/-- The key of segment 1 has no entry; a store of the hart is not performed. -/
theorem witness_RemoteInstructions_stops :
    (let s := fabricState [0, 1] fun x => { x with v := x.v.setIfInBounds 5 ⟨.w32, [1, 2], []⟩ }
     ownRecs s = [] ∧ entryAt locs (elemOf (s.vreg 5) .w32 2 1).toNat = none
     ∧ entryAt locs (elemOf (s.vreg 5) .w32 2 0).toNat ≠ none)
    ∧ (let r (j : Nat) : XRecord := ⟨true, some 0, 0, j, 7, 1, 1, false, some .full⟩
       let s := (forwardState [r 0, r 1]).push 0 ⟨true, false, 0, false, true, false, [], 0, none⟩ sramLoc [7]
       (∀ j < 2, ∃ r ∈ ownRecs s, r.seg = j)
       ∧ pushDone s 0 s.me.nextNum ((s.me.block?.map (·.mark)).getD 0) = false) := by decide
theorem witness_RemoteInstructions_forwarded :
    let s := forwardState [⟨true, some 0, 0, 0, 7, 1, 1, false, some .full⟩, ⟨true, some 0, 0, 1, 7, 1, 1, false, some .full⟩]
    (∀ j < 2, ∃ r ∈ ownRecs s, r.seg = j) ∧ ∀ r ∈ ownRecs s, r.reply ≠ none ∧ r.reply ≠ some .refused := by decide

/-- A request for two elements of 4 bytes, from chip 7 under ASID 0, whose first GiB is mapped; chip 7 may ask. -/
def gatherReq : FabricReq := ⟨7, 0, .gather 0x50000 .w32 [0, 1]⟩
def peerState : State := { State.reset.withFetchWord 32 0 with imports := [(0, ⟨true, 7, 0⟩)] }
theorem witness_FabricEvents :
    imported (mstate id) gatherReq.src gatherReq.asid = false ∧ imported peerState gatherReq.src gatherReq.asid = true
    ∧ (∀ e ∈ [true, false], (fabricState [0, 1] fun x => { x with xlists := [⟨7, 1, 5, .w32, e, [0], [0], none⟩] }).me.xlists
      = [⟨7, 1, 5, .w32, e, [0], [0], none⟩])
    ∧ [(0 : Nat)].length = [(5 : Word)].length ∧ [(0 : Nat)].Nodup ∧ 0 < (fabricState [0, 1] id).vl := by decide
/-- A request for a list of chip 7 and one for segment 1 of a forwarded record, wanted or not. -/
theorem witness_FabricEvents_requests : ∀ live ∈ [true, false],
    let p : FabricOut := ⟨0, 0, 8, 7, none, live⟩
    let q : FabricOut := ⟨0, 0, 8, 7, some 1, live⟩
    let s := { fabricState [0, 1] id with requests := [q, p] }
    s.requests.find? (fun p => p.hart == 0 && p.seg == some 1) = some q
    ∧ s.requests.find? (fun p => p.hart == 0 && p.chip.toNat == (7 : BitVec 12).toNat && p.seg.isNone) = some p := by decide
theorem witness_FabricEvents_admitted :
    ([0, 1] : List Word).map (fun o => peerAccess peerState 0 (widthBytes .w32) .load
        (BitVec.ofNat 64 ((0x50000 : Word).toNat + o.toNat * widthBytes .w32)))
      = [0x50000, 0x50004].map .ok := by
  simp only [List.map_cons, List.map_nil, List.cons.injEq, and_true]
  exact ⟨okIs (by decide), okIs (by decide)⟩
theorem witness_FabricEvents_overflow : 2 ^ 64 ≤ (0x50000 : Word).toNat + (BitVec.allOnes 64).toNat * widthBytes .w32 := by decide

/-! ### Events of a hart -/

theorem witness_TrapsAndRequests :
    (user []).me.run = .running ∧ (user []).me.kmode = false ∧ (0x03 : BitVec 6) ≠ 0x10 ∧ (user []).me.tvec = 64
    ∧ (State.reset.hart 0).run ≠ .running
    ∧ (let s := alone fun x => { x with ie := true, pending := [5, 9] }
       (s.hart 0).run = .running ∧ (s.hart 0).asyncReady = true ∧ (s.hart 0).pending = [5, 9]) := by decide

theorem witness_GrantEvents :
    (let s := mstate fun x => { x with lane := LaneEntry.reset }
     (s.hart 0).gang = 1 ∧ trioOf s 0 = none ∧ (s.hart 0).run = .running ∧ (s.hart 0).kmode = false ∧ (s.hart 0).kq = none
     ∧ (s.hart 0).vq ≠ [] ∧ (s.hart 0).waitFor = none ∧ held s 0 = 0
     ∧ vReady s 0 = true)
    ∧ (∀ vs ∈ [true, false],
       let s := (alone fun x => { x with waitFor := some ⟨1, 0, vs⟩ }).updCore 0 fun c => { c with laneWait := [0] }
       (s.hart 0).gangOf = none ∧ (s.core 0).laneWait = [0 % 8] ∧ (s.hart 0).waitFor = some ⟨1, 0, vs⟩ ∧ kBlockWaits s 0 = false ∧ 1 ≤ laneReach s 0 false)
    ∧ (let s := alone fun x => { x with lane := { x.lane with st := 3, occ := true } }
       (s.hart 0).lane.st = 3 ∧ (s.hart 0).vq = [] ∧ (s.hart 0).kq = none ∧ (s.hart 0).rq = [] ∧ s.pkts 0 = []
       ∧ copiesDone (s.hart 0) false = true ∧ matrixDone s 0 false = true)
    ∧ (let s := alone fun x => { x with lane := { x.lane with st := 3, occ := true }, launch := some ⟨0, 0, 0⟩ }
       (s.hart 0).lane.st = 3 ∧ (s.hart 0).launch = some ⟨0, 0, 0⟩ ∧ matrixDone s 0 false = true)
    ∧ (user []).me.lane.st ≠ 3 := by decide

/-- Hart 0 waits, at cycle 9. -/
def waiting (w : SWait) : State := { (alone fun x => { x with swait := w }) with time := 9 }
theorem witness_WaitsEnd :
    (waiting (.woken 3 5)).me.swait = .woken 3 5 ∧ ((waiting (.parked 3 (BitVec.ofNat 64 padLoc) 9)).me.swait = .parked 3 (BitVec.ofNat 64 padLoc) 9
      ∧ (waiting .none).poisoned padLoc 8 = false ∧ ({ waiting .none with poison := [padLoc] } : State).poisoned padLoc 8 = true)
    ∧ ((waiting (.wfe 3 9)).me.swait = .wfe 3 9 ∧ (waiting (.wfe 3 9)).me.event = false)
    ∧ (waiting (.lwait 3 9 5)).me.swait = .lwait 3 9 5 ∧ ((9 : Word) ≠ 0 ∧ (9 : Word).toNat ≤ (waiting .none).time.toNat)
    ∧ (let s := { waiting (.take 3 1) with clusters := [(0, { Cluster.reset with takes := [0] })] }
       nextTake s 0 = some 0 ∧ s.me.swait = .take 3 1)
    ∧ (∀ f ∈ [(fun x => x : Hart → Hart), member],
        let s := tackState (asking true none ∘ f)
        let s := s.updChan 0 5 fun c => { c with fromHub := [(0, .answer 0 4)] }
        answerFor s 0 = some (5, 4) ∧ s.me.tkreq = some ⟨0, 5, true, false, false, none⟩)
    ∧ (let s := { withdrawnState with clusters := withdrawnState.clusters.map fun e => (e.1, { e.2 with
          streams := [⟨0, 1, .withdrawn, 0, 0, 0, some 0⟩] }) }
       s.me.task = some 0 ∧ (taskOf s 0 0).map (withdrawnOuts s 0) = some [0]) := by decide

/-! ### The network -/

/-- A packet of hart 0 in the queue of the SRAM. -/
def pktOf (body : PktBody) (bad : Bool) (num : Nat) : Pkt :=
  { hart := 0, num := num, fence := 0, sca := true, vec := false, kb := false, plain := true, rel := false, grps := [], uo := none, body := body,
    tag := 0, src := 0, dst := 0, place := .queue, flits := 1, sent := 1, buf := 0, spilt := 0, pads := 0, arrival := 0, tr := [], poisoned := bad, sw := [], vw := [] }
def netState (ps : List Pkt) : State := { user [] with net := ps }

theorem witness_PacketsArePerformed :
    let w : PktBody := .write [(sramLoc, 5)]
    let o : AddOp := ⟨sramLoc, .int32, .rne, false, 7⟩
    (∀ b ∈ [w, .add [o]], ∀ bad ∈ [false, true], arrivable (netState [pktOf b bad 0]) 0 = true)
    ∧ ([(sramLoc, (5 : Byte))].map (·.1)).Nodup
    ∧ (netState [{ pktOf w false 0 with place := .net }]).net[0]? = some { pktOf w false 0 with place := .net }
    ∧ arrivable (netState [{ pktOf w false 0 with place := .net }]) 0 = false
    ∧ (let p : Pkt := pktOf w false 0
       let q : Pkt := { pktOf w false 1 with arrival := 1 }
       (netState [p, q]).net[1]? = some q ∧ p.place = .queue ∧ p.sameRoute q = true ∧ p.arrival < q.arrival) := by decide

theorem witness_FramesAndSpilling :
    holdsTick (user []) = false
    ∧ (let s := { netState [pktOf (.write [(sramLoc, 5)]) false 0] with ftick := 32, tickHeld := true }
       holdsTick s = true)
    ∧ (let s := { user [] with tickHeld := true }
       s.tickHeld = true ∧ holdsTick s = false)
    ∧ (let s := { user [] with dies := [(1, { Die.reset with spill := true })] }
       (s.die 1).spill = true ∧ ringFill s 1 = 0 ∧ bufferFill s 1 < 4096 ∧ (s.die 1).ringFull = false) := by decide
/-- A ring that one packet fills. -/
theorem witness_FramesAndSpilling_full :
    let p : Pkt := { pktOf (.write []) false 0 with place := .ring, dst := 1, spilt := 1048576 }
    let s := { user [] with net := [p], dies := [(1, { Die.reset with spill := true })] }
    (s.die 1).spill = true ∧ (s.die 1).ringFull = false ∧ 1048576 ≤ ringFill s 1 := by decide

/-- Channel 5 of die 0 with members 0 and 1. -/
def chanState (f : Channel → Channel) : State :=
  { (alone member) with dies := [(0, { Die.reset with chans := [(5, f { Channel.reset with en := true, members := [0, 1] })] })] }

theorem witness_HubCycles :
    (let s := chanState fun c => { c with toHub := [(0, .arrive 0)] }
     (s.chan 0 5).toHub = [(0, .arrive 0)] ∧ 0 ≤ s.time.toNat ∧ 0 ∈ (s.chan 0 5).members ∧ (s.chan 0 5).leaving = []
     ∧ ∃ m ∈ (s.chan 0 5).members, m ≠ 0 ∧ m ∉ (s.chan 0 5).arrived)
    ∧ (let s := chanState fun c => { c with toHub := [(0, .arrive 0)], arrived := [1] }
       ∀ m ∈ (s.chan 0 5).members, m ≠ 0 → m ∈ (s.chan 0 5).arrived)
    ∧ (let s := chanState fun c => { c with toHub := [(0, .join 2 true)] }
       (s.chan 0 5).toHub = [(0, .join 2 true)] ∧ ∃ m ∈ (s.chan 0 5).members, m ∉ (s.chan 0 5).arrived)
    ∧ (let s := chanState fun c => { c with toHub := [(0, .leave 0 true)] }
       (s.chan 0 5).toHub = [(0, .leave 0 true)] ∧ 0 ∉ (s.chan 0 5).arrived ∧ (s.chan 0 5).leaving = [])
    ∧ (let s := chanState fun c => { c with held := [(0, 7), (1, 8)] }
       ((0, 7) ∈ (s.chan 0 5).held ∧ ∀ e ∈ (s.chan 0 5).held, e = (0, 7) ∨ 0 < e.1) ∧ (s.chan 0 5).slot = [])
    ∧ ((chanState fun c => { c with slot := [1] }).chan 0 5).slot ≠ [] := by decide

theorem witness_HubSignalsArrive :
    (∀ o ∈ [HubOut.release 5 [0], .value 7 [0], .accepted 0 3],
      ((chanState fun c => { c with fromHub := [(0, o)] }).chan 0 5).fromHub = [(0, o)])
    ∧ tackCopy ((chanState id).hart 0) 5 = some ⟨5, 4, some 9, false⟩
    ∧ (∀ j ∈ [true, false], (((chanState id).updHart 0 fun x => { x with tkreq := some ⟨0, 5, j, false, true, none⟩ }).hart 0).tkreq
      = some ⟨0, 5, j, false, true, none⟩) := by decide

theorem witness_Preemption :
    let v : Word := 0x10000003F
    ((user []).die 0).preempt.busy = false ∧ v.toNat % 128 ≤ 63 ∧ (v.toNat % 128 = 63 → v.toNat / 2 ^ 32 % 2048 / 768 = 0)
    ∧ 63 < (64 : Word).toNat % 128 ∧ dueSignal (user []) 0 5 = none
    ∧ dueSignal { user [] with time := 1, dies := [(0, { Die.reset with signals := [(0, 5, 0)] })] } 0 5 = some (0, 5, 0) := by decide

/-! ### Launches and tasks -/

/-- FIFO 2 of die 0, enabled, with records; queue 0 enabled; the first GiB mapped. -/
def fifoState (rs : List LRecord) : State :=
  { (launchState 0 id id).updDie 0 (fun d => { d with fifos := [(2, { Fifo.reset with en := true, recs := rs })] }) with
    boot := .delveloth, perst := false }
def recordOf0 (cwa : Word) : LRecord := ⟨0x40000, cwa, 0, false, 0, 0, List.replicate 12 0⟩

theorem witness_HostLaunches :
    let s := fifoState []
    s.perst = false ∧ s.diesHeld = false ∧ State.reset.diesHeld = true ∧ fifoAt 0x102000 = some (0, 2) ∧ 0x102000 % 0x1000 = 0 ∧ fifoAt 0x102008 = some (0, 2) ∧ 0x102008 % 0x1000 ≠ 0
    ∧ (mapGet Fifo.reset (s.die 0).fifos 2).en = true ∧ (mapGet Fifo.reset (s.die 0).fifos 2).recs.length < 16 := by decide
theorem witness_HostLaunches_bytes :
    let bytes := (recordWords 0).flatMap fun w => toLe 8 w.toNat
    bytes.length = 128 ∧ parseRecord (dwordsOf bytes 16) = some ⟨0, 0x50000, 0, false, 0, 0, List.replicate 12 0⟩ := ⟨rfl, by decide⟩
theorem witness_HostLaunches_enters (cwa : Word) :
    let s := fifoState [recordOf0 cwa]
    let x := mapGet Fifo.reset (s.die 0).fifos 2
    x.recs = recordOf0 cwa :: [] ∧ (mapGet Queue.reset (s.die 0).queues x.fq.toNat).en = true ∧ poolRoom s 0 x.pid = some 0
    ∧ (recordOf0 cwa).nh ≤ launchContexts s 0 x.pid ∧ x.pid.toNat ∉ s.stopped
    ∧ x.pid.toNat ∈ ({ s with stopped := [0] } : State).stopped :=
  ⟨rfl, rfl, rfl, Nat.le_of_ble_eq_true rfl, List.not_mem_nil, List.mem_singleton.mpr rfl⟩
theorem witness_HostLaunches_target :
    cwaTarget (fifoState [recordOf0 0x50000]) 0 0 0 0x50000 = .ok 0x50000
    ∧ cwaTarget (fifoState [recordOf0 0x00FF000000000000]) 0 0 0 0x00FF000000000000 = .error ⟨0x07, 0⟩ :=
  ⟨okIs (by decide), errIs (by decide)⟩

/-- A launch queued in queue 0 of die 0. -/
def queuedState : State :=
  (launchState 0 id id).updDie 0 fun d => { d with
    queues := [(0, { Queue.reset with en := true, recs := [0] })],
    pool := [(0, ⟨0, some (launchAt 1 .queued)⟩)] }
theorem witness_LaunchesDispatchAndComplete_dispatch :
    let s0 := markReady (failUnplaceable queuedState 0) 0
    (∃ r, chooseQueue s0 0 = some (0, r)) ∧ headPlace s0 0 (mapGet Queue.reset (s0.die 0).queues 0) = some (0, [8])
    ∧ s0.launch? 0 0 = some (launchAt 1 .queued) ∧ [8].Nodup ∧ (s0.die 0).lastLaunch ≠ some queuedState.time
    ∧ ((queuedState.updDie 0 fun d => { d with lastLaunch := some queuedState.time }).die 0).lastLaunch = some queuedState.time :=
  ⟨⟨false, by decide⟩, by decide, by decide, by decide, by decide, by decide⟩
theorem witness_LaunchesDispatchAndComplete_end :
    let l (n : Nat) (st : LState) : Launch := { launchAt 1 st with live := n }
    let s (n : Nat) (st : LState) : State := { user [] with dies := [(0, { Die.reset with pool := [(0, ⟨0, some (l n st)⟩)] })] }
    ((s 0 .dispatched).launch? 0 0 = some (l 0 .dispatched) ∧ hasTasks (s 0 .dispatched) 0 0 = false)
    ∧ ((s 1 .dispatched).launch? 0 0 = some (l 1 .dispatched) ∧ (l 1 .dispatched).live ≠ 0)
    ∧ ((s 0 (.failed 3)).launch? 0 0 = some (l 0 (.failed 3)) ∧ ∀ p ∈ (s 0 (.failed 3)).net, p.hart ∉ (l 0 (.failed 3)).harts) := by
  decide

/-- Cluster 0 of partition 0 with one task context a core and task 0, whose input of handle 0 is in the state given. -/
def boardState (st : StreamState) (sum : BitVec 32) (test : BitVec 4) (retire : List Nat) : State :=
  let t : Task := { rcd := sram, entry := 0x40000, arg := 6, ins := [⟨some 0, test, true, false⟩, ⟨some 1, 0, true, false⟩], outs := [],
                    order := 0, asid := 3, spawner := 9, launch := ⟨0, 0, 0⟩, hart := none, fired := false, tabs := 0 }
  { user [] with clusters := [(0, { Cluster.reset with
      en := true, tps := 1, tasks := [(0, t)], retire := retire,
      streams := [⟨0, 1, st, sum, 0, 0, none⟩, ⟨1, 1, if test = 0 then .resident else .pending, 0, 0, 0, none⟩] })] }
theorem witness_TasksAndClusterReset :
    (let s := boardState .resident 0x11 1 []
     (taskOf s 0 0).map (mayFire s 0 0) = some true)
    ∧ (let s := boardState .resident 0 0 []
       (taskOf s 0 0).map (mayFire s 0 0) = some false ∧ 0 ∈ ((boardState .resident 0 0 [0]).cluster 0).retire ∧ (oldestReady s 0).map (·.1) = some 0
       ∧ oldestReady s 0 = (taskOf s 0 0).map fun k => (0, k)) := by decide
/-- Task 0 is to be retired, its post can go; its output's stream names a count in the SRAM, and its cluster has used its
quota. -/
theorem witness_TasksAndClusterReset_retires :
    (let s := boardState .resident 0 0 [0]
     ((taskOf s 0 0).bind (retireTask s 0 0)).isSome = true ∧ (taskOf s 0 0).map (·.outs) = some [])
    ∧ (let s := outOfQuota ((finishing .pending).setBytes (padLoc + 24) (toLe 8 sram.toNat))
       (taskOf s 0 0).map (fun k => (retireTask s 0 0 k).isSome) = some false) := by decide
theorem witness_TasksAndClusterReset_contexts :
    let s := boardState .resident 0 0 []
    takesWork (s.cluster 0) (s.cluster 0).pid = true ∧ (taskContexts s 0).head? = some 7 := by decide

/-! ### Registers of the package, errors, the host -/

/-- Die 0 with its invalidation register; a tile load that holds a translation, or a packet that does. -/
def invalState (busy : Bool) (tr : List Held) (ps : List Held) : State :=
  { user [] with dies := [(0, { Die.reset with inval := ⟨busy, 0, 3, 1⟩ })],
                 cores := [(0, { Core.reset with mq := [{ cmdOf true (.load 0 8 none none []) with tr := tr }] })],
                 net := [{ pktOf (.write []) false 0 with tr := ps }] }
theorem witness_Invalidations :
    (let s := invalState true [⟨4, 1, 0⟩] [⟨3, 3, 0⟩]
     (s.die 0).inval.busy = true ∧ (∀ e ∈ s.cores, e.1 / 96 = 0 → ∀ m ∈ e.2.mq, ∀ r ∈ m.tr, invalidates (s.die 0).inval r = false)
     ∧ (∀ p ∈ s.net, p.src = 0 → ∀ r ∈ p.tr, invalidates (s.die 0).inval r = false)
     ∧ ∀ e ∈ s.harts, dieOf e.1 = 0 → ∀ p ∈ e.2.out, ∀ r ∈ p.tr, invalidates (s.die 0).inval r = false)
    ∧ (let s := invalState true [⟨3, 1, 0⟩] []
       ∃ e ∈ s.cores, e.1 / 96 = 0 ∧ ∃ m ∈ e.2.mq, ∃ r ∈ m.tr, invalidates (s.die 0).inval r = true)
    ∧ (let s := invalState true [] [⟨3, 1, 0⟩]
       ∃ p ∈ s.net, p.src = 0 ∧ ∃ r ∈ p.tr, invalidates (s.die 0).inval r = true)
    ∧ ((invalState false [] []).die 0).inval.busy = false := by decide

theorem witness_FaultRecords :
    (user []).ringWr - (user []).ringRd ≠ 4096 ∧ ({ user [] with ringWr := 4096 } : State).ringWr - 0 = 4096 := by decide

theorem witness_RegisterWrites :
    let v : Word := 0xC000000000000001
    let new (s : State) : MemRange := (mapGet MemRange.reset (s.die 0).ranges 0).written true v
    let s := user []
    let other (en : Bool) : State :=
      { user [] with dies := [(0, { Die.reset with ranges := [(0, ⟨0, en, true, 0, 0, 1⟩), (1, ⟨0, true, true, 0, 0, 4⟩)] })] }
    (s.diesHeld = false ∧ (other true).diesHeld = false ∧ (other false).diesHeld = false ∧ State.reset.diesHeld = true)
    ∧ ((new s).en = true ∧ rangeOk s 0 0 (new s) = true)
    ∧ ∀ en ∈ [true, false], (new (other en)).en = true ∧ rangeOk (other en) 0 0 (new (other en)) = false
      ∧ (mapGet MemRange.reset ((other en).die 0).ranges 0).en = en := by decide
theorem witness_RegisterWrites_bounds :
    (user []).diesHeld = false ∧ (vecs [] id).diesHeld = false ∧ (∀ k < 64, ((user []).hart (64 * 0 + k)).lane.occ = false) ∧ ((vecs [] id).hart (64 * 0 + 0)).lane.occ = true
    ∧ (1 ≤ (1 : Word).toNat % 16 ∧ (8 : Word).toNat % 16 ≤ 8) ∧ 400 ≤ (400 : Word).toNat % 4096
    ∧ ((user []).ringWr - (0 : Word).setWidth 32).toNat ≤ 4096 ∧ 4096 < ((user []).ringWr - (1 : Word).setWidth 32).toNat := by decide

theorem witness_ErrorsAndFailures :
    let s := { waitState .dispatched .none with clusters := [(0, { Cluster.reset with en := true })] }
    s.launch? 0 0 = some (launchAt 1 .dispatched) ∧ (launchAt 1 .dispatched).pid.toNat ∈ [0]
    ∧ ((s.cluster 0).en = true ∧ (s.cluster 0).pid.toNat = 0)
    ∧ (stackOf 0x1000 = (0, 1) ∧ 0x1000 < hbmEnd) ∧ s.ringWr - s.ringRd ≠ 4096 := by decide
theorem witness_ErrorsAndFailures_state (why : BitVec 4) : (launchAt 1 .dispatched).st ≠ .failed why := by
  intro h; exact nomatch h

theorem witness_PortsTrainAndFail :
    let s (en : Bool) (ks : BitVec 8) : State :=
      { user [] with dies := [(0, { Die.reset with ports := [(3, { Port.reset with en := en, ks := ks })] })] }
    (mapGet Port.reset ((s true 1).die (3 / 8)).ports (3 % 8)).en = true ∧ (mapGet Port.reset ((s true 1).die 0).ports 3).ks ≠ 0
    ∧ (mapGet Port.reset ((s false 1).die 0).ports 3).en = false ∧ (mapGet Port.reset ((s true 0).die 0).ports 3).ks = 0 := by decide
/-- A request of hart 0 left by port 3, for partition 0's launch; an answer of that partition is on its way by it; retries. -/
theorem witness_PortsTrainAndFail_failure :
    let s := { waitState .dispatched .none with requests := [⟨0, 0, 3, 7, none, true⟩], answers := [⟨7, 3, [0], .list .refused, true⟩] }
    (∃ q ∈ s.requests, q.port.toNat = 3 ∧ q.pid = 0)
    ∧ (∃ a ∈ s.answers, a.owed = true ∧ a.port.toNat = 3 ∧ 0 ∈ a.pids)
    ∧ s.launch? 0 0 = some (launchAt 1 .dispatched) ∧ (launchAt 1 .dispatched).pid.toNat = 0
    ∧ Port.reset.fails + 1 < 8 ∧ 8 ≤ ({ Port.reset with fails := 7 } : Port).fails + 1 := by decide

theorem witness_HostAndKeys :
    let s := { user [] with dies := [(0, { Die.reset with ranges := [(0, ⟨0, true, true, 0, 0, 1⟩), (1, ⟨0x400000, true, false, 3, 1, 1⟩)] })],
                            sessions := [(1, 4)] }
    s.perst = false ∧ hostLine s 0x1000 = true ∧ hostLine s 0x400000 = false ∧ (∀ i < 8, s.readsPoison (0x1000 + i) 1 = false)
    ∧ (∃ e ∈ (s.die 0).ranges, e.2.ks.toNat = 3 ∧ e.2.base ≤ 0x400000 ∧ 0x400000 < e.2.base + e.2.bytes)
    ∧ (∀ x ∈ s.keyed, x.key ≤ s.free)
    ∧ (let u := { s with poison := [0x1000] }
       hostLine u 0x1000 = true ∧ u.readsPoison 0x1000 1 = true)
    ∧ keyAt (0x400000 / 64) ({ s with keyed := [⟨0x400000, 0x10000, 2⟩] } : State).keyed = 2
    ∧ s.sessions.find? (fun e => e.1 == (1 : BitVec 5).toNat) = some (1, 4) := by decide

theorem witness_BootAndReset :
    State.reset.boot = .rom ∧ ({ State.reset with boot := .stage1 } : State).boot = .stage1
    ∧ ({ State.reset with boot := .stopped true } : State).boot = .stopped true
    ∧ (List.replicate 32 (0 : Byte)).length = 32 ∧ ([] : List Byte).length ≠ 32 := by decide

/-! ### Encodings, and what every step keeps -/

theorem witness_ScalarEncodingRoundTrip :
    (Instr.addi 31 31 0xFFFF).wellFormed = true ∧ encode (.addi 31 31 0xFFFF) = .s ⟨0x02, 31, 31, 0xFFFF⟩ := by decide
theorem witness_VectorEncodingRoundTrip :
    (Instr.vrev 9 8 1 4).wellFormed = true ∧ (match encode (.vrev 9 8 1 4) with | .v f => decide (f.word = 0xD24A000014000000) | _ => false) = true := by
  decide
theorem witness_ScalarWordsHaveOneMeaning : decodeS 0x04430800 = .ok (.add 2 3 1) := rfl
theorem witness_StepsKeepMemoryCanonical : Memory.wf State.reset.mem ∧ ∃ t, step (State.reset.withFetchWord 32 0x04430800) = .next t :=
  ⟨rfl, ⟨_, rfl⟩⟩
theorem witness_StepsKeepZeroAndBaseCount (h : Nat) :
    (State.reset.hart h).s.get 0 = 0 ∧ 1 ≤ (State.reset.hart h).k.toNat ∧ (State.reset.hart h).k.toNat ≤ 16 := ⟨rfl, Nat.le_refl 1, Nat.le_of_ble_eq_true rfl⟩
theorem witness_UserModeKeepsKernelWords :
    Instr.isEvent (.add 2 3 1) = false ∧ (user []).me.kmode = false ∧ ∃ t, exec (.add 2 3 1) (user []) = .next t := ⟨rfl, rfl, _, rfl⟩

/-- The digest of the empty string, as FIPS 202 publishes it. -/
theorem test_shake_empty : shake256 [] 8 = [0x46, 0xB9, 0xDD, 0x2B, 0x0B, 0xA8, 0x8D, 0x13] := by decide +kernel

/-- AES-256-GCM of one zero block under the zero key and nonce, as the GCM specification publishes it (its test case 14). -/
theorem test_gcm_seal : gcmSeal (List.replicate 32 0) (List.replicate 12 0) (List.replicate 16 0)
    = ([0xCE, 0xA7, 0x40, 0x3D, 0x4D, 0x60, 0x6B, 0x6E, 0x07, 0x4E, 0xC5, 0xD3, 0xBA, 0xF3, 0x9D, 0x18],
       [0xD0, 0xD1, 0xC8, 0xA7, 0x99, 0x99, 0x6B, 0xF0, 0x26, 0x5B, 0x98, 0xB5, 0xD4, 0x8A, 0xB9, 0x19]) := by decide +kernel

end Sys2Proof.Machine.Tests
end

section
/-! What `crd` and `cwr` do to a control word that the hart may reach, and what R41 says of c.tvec and c.kscr. -/
namespace Sys2Proof.Machine

/-! ### Changes of the hart that executes -/

/-- Two changes of the executing hart leave everything else of the package alone. -/
theorem onlyMe_updMe_updMe (s : State) (f g : Hart → Hart) : OnlyMe s ((s.updMe f).updMe g) :=
  ⟨⟨rfl, fun _ => rfl⟩, fun _ hk =>
    (State.hart_updMe_other (s.updMe f) hk g).trans (State.hart_updMe_other s hk f)⟩

/-! ### Access to a control word (R28, R98) -/

/-- Control words of the scalar stream do not wait, and K mode reaches all of them. -/
theorem cwReady_of_stream {s : State} {i : CwIdx} (hi : cwSide i = some .stream) (hk : s.me.kmode = true) : CwReady s i := by
  simp [CwReady, hi, hk]

/-- A control word that is ready passes the checks and the wait. -/
theorem withCw_ready {s : State} {i : CwIdx} (hi : CwReady s i) (ins : Instr) (k : Out) : withCw s i ins k = k := by
  obtain ⟨hside, hmode, hidle⟩ := hi
  obtain ⟨side, hs⟩ := Option.ne_none_iff_exists'.mp hside
  have hpriv : ¬(cwHidden i && !s.me.kmode) = true := by simpa using hmode
  have hwait : ¬(side = .vector ∧ (!s.me.vIdle) = true) := by
    rintro ⟨rfl, hbusy⟩
    simp [hidle hs] at hbusy
  simp only [withCw, hs]
  rw [if_neg hpriv, if_neg hwait]

/-- A read of a ready control word completes with its value. -/
theorem crd_ready {s : State} {i : CwIdx} (hi : CwReady s i) (sd : SReg) :
    SEnds s (exec (.crd sd i) s) sd (cwRead s s.cur i) 0 := by
  have hexec : exec (.crd sd i) s = .next (s.wr sd (cwRead s s.cur i)) := withCw_ready hi _ _
  exact ⟨_, hexec, wr_done s sd _⟩

/-- A write of a ready control word that the mode may write stores the word and goes on; a c.k must be in its range. -/
theorem cwr_ready {s : State} {i : CwIdx} (hi : CwReady s i) (hw : cwWritable s.me.kmode i = true) {sa : SReg}
    (hv : ¬(i = 0x005 ∧ ((s.rs sa).setWidth 5 = 0 ∨ 16 < ((s.rs sa).setWidth 5).toNat))) :
    exec (.cwr sa i) s = .next (s.updMe fun x => cwWrite x i (s.rs sa)).adv := by
  refine (withCw_ready hi _ _).trans ?_
  rw [if_neg (by simp [hw]), if_neg hv]

/-- No write of a control word changes the mode. -/
theorem cwWrite_kmode (x : Hart) (i : CwIdx) (v : Word) : (cwWrite x i v).kmode = x.kmode := by
  unfold cwWrite
  split
  case h_19 => split <;> rfl
  all_goals rfl

/-- In K mode a `cwr` of a writable word of the scalar stream stores it, changes nothing else of the hart but that it goes on,
and a `crd` that follows completes with what the word then reads. -/
theorem cwr_then_crd_stream {s : State} {i : CwIdx} (hi : cwSide i = some .stream) (hw : cwWritable true i = true)
    (hk : s.me.kmode = true) (r q : SReg) :
    ∃ t, exec (.cwr r i) s = .next t ∧ OnlyMe s t
      ∧ t.me = { cwWrite s.me i (s.rs r) with pc := (cwWrite s.me i (s.rs r)).pc + 4, swait := .none }
      ∧ SEnds t (exec (.crd q i) t) q (cwRead t t.cur i) 0 := by
  have hne : i ≠ 0x005 := by
    rintro rfl
    exact absurd hi (by decide)
  have hwrite : exec (.cwr r i) s = .next (s.updMe fun x => cwWrite x i (s.rs r)).adv :=
    cwr_ready (cwReady_of_stream hi hk) (by rw [hk]; exact hw) fun h => hne h.1
  have hme : (s.updMe fun x => cwWrite x i (s.rs r)).adv.me
      = { cwWrite s.me i (s.rs r) with pc := (cwWrite s.me i (s.rs r)).pc + 4, swait := .none } := by
    rw [State.adv, State.me_updMe, State.me_updMe]
  refine ⟨_, hwrite, onlyMe_updMe_updMe s _ _, hme, ?_⟩
  refine crd_ready (cwReady_of_stream hi ?_) q
  rw [hme]
  exact (cwWrite_kmode _ _ _).trans hk

/-! ### c.tvec and c.kscr (R41) -/

theorem cwRead_tvec (s : State) : cwRead s s.cur 0x045 = s.me.tvec := rfl

theorem cwRead_kscr (s : State) : cwRead s s.cur 0x047 = s.me.kscr := rfl

theorem cwWrite_tvec (x : Hart) (v : Word) : cwWrite x 0x045 v = { x with tvec := v &&& 0x00FFFFFFFFFFFFFC } := rfl

theorem cwWrite_kscr (x : Hart) (v : Word) : cwWrite x 0x047 v = { x with kscr := v } := rfl

/-- At package reset every hart is a context at reset. -/
theorem reset_hart (k : Nat) : State.reset.hart k = Hart.reset (k % 8) := rfl

/-- Settles O1: both words are words of the scalar stream that K mode may write, so each is an instance of
`cwr_then_crd_stream`; what is read back is the field that the write has set. -/
theorem handlerAddressAndScratch : Obligations.HandlerAddressAndScratch := by
  unfold Obligations.HandlerAddressAndScratch
  refine ⟨fun k => by rw [reset_hart]; rfl, fun r q s hk => ⟨?_, ?_⟩⟩
  · obtain ⟨t, hexec, honly, hme, hread⟩ :=
      cwr_then_crd_stream (i := 0x045) (by decide) (by decide) hk r q
    rw [cwRead_tvec, hme, cwWrite_tvec] at hread
    exact ⟨t, hexec, honly, hme, hread⟩
  · obtain ⟨u, hexec, honly, hme, hread⟩ :=
      cwr_then_crd_stream (i := 0x047) (by decide) (by decide) hk r q
    rw [cwRead_kscr, hme, cwWrite_kscr] at hread
    exact ⟨u, hexec, honly, hme, hread⟩

end Sys2Proof.Machine
end

section
/-! The integer group (R82): what each operation of words is as arithmetic of integers, how an operation of two registers and a
division complete, and what the bit counts count. -/
namespace Sys2Proof.Machine

/-! ### Word operations as arithmetic of integers -/

theorem add_eq_ofInt {w : Nat} (x y : BitVec w) : x + y = BitVec.ofInt w (x.toInt + y.toInt) := by
  rw [BitVec.ofInt_add, BitVec.ofInt_toInt, BitVec.ofInt_toInt]

theorem sub_eq_ofInt {w : Nat} (x y : BitVec w) : x - y = BitVec.ofInt w (x.toInt - y.toInt) := by
  rw [Int.sub_eq_add_neg, BitVec.ofInt_add, BitVec.ofInt_neg, BitVec.ofInt_toInt, BitVec.ofInt_toInt, BitVec.sub_eq_add_neg]

theorem mul_eq_ofInt {w : Nat} (x y : BitVec w) : x * y = BitVec.ofInt w (x.toInt * y.toInt) := by
  rw [BitVec.ofInt_mul, BitVec.ofInt_toInt, BitVec.ofInt_toInt]

theorem shiftLeft_eq_ofNat {w : Nat} (x : BitVec w) (n : Nat) : x <<< n = BitVec.ofNat w (x.toNat * 2 ^ n) := by
  apply BitVec.eq_of_toNat_eq
  rw [BitVec.toNat_shiftLeft, BitVec.toNat_ofNat, Nat.shiftLeft_eq]

theorem ushiftRight_eq_ofNat {w : Nat} (x : BitVec w) (n : Nat) : x >>> n = BitVec.ofNat w (x.toNat / 2 ^ n) := by
  rw [← Nat.shiftRight_eq_div_pow, ← BitVec.toNat_ushiftRight, BitVec.ofNat_toNat, BitVec.setWidth_eq]

theorem sshiftRight_eq_ofInt {w : Nat} (x : BitVec w) (n : Nat) : x.sshiftRight n = BitVec.ofInt w (x.toInt / 2 ^ n) := by
  rw [BitVec.sshiftRight_eq, Int.shiftRight_eq_div_pow]
  norm_cast

/-- Cutting off the k low bits of a word divides the integer that the word stands for by 2^k, downwards. -/
theorem extractLsb'_ofInt (k len : Nat) (p : Int) :
    (BitVec.ofInt (k + len) p).extractLsb' k len = BitVec.ofInt len (p / 2 ^ k) := by
  have hpow : ∀ n : Nat, (2 ^ n : Int) ≠ 0 := fun n => Int.pow_ne_zero (by decide)
  have hsplit : p / 2 ^ k = p % 2 ^ (k + len) / 2 ^ k + 2 ^ len * (p / 2 ^ (k + len)) := by
    rw [← Int.add_mul_ediv_left _ _ (hpow k), ← Int.mul_assoc, ← Int.pow_add, Int.emod_add_mul_ediv]
  apply BitVec.eq_of_toNat_eq
  apply Int.ofNat_inj.mp
  rw [BitVec.extractLsb'_toNat, BitVec.toNat_ofInt, BitVec.toNat_ofInt, Nat.shiftRight_eq_div_pow]
  push_cast
  rw [Int.toNat_of_nonneg (Int.emod_nonneg _ (hpow _)), Int.toNat_of_nonneg (Int.emod_nonneg _ (hpow _)), hsplit,
    Int.add_mul_emod_self_left]

theorem mulHigh_signed (x y : Word) :
    ((x.signExtend 128) * (y.signExtend 128)).extractLsb' 64 64 = BitVec.ofInt 64 (x.toInt * y.toInt / 2 ^ 64) := by
  rw [mul_eq_ofInt, BitVec.toInt_signExtend_of_le (by decide), BitVec.toInt_signExtend_of_le (by decide)]
  exact extractLsb'_ofInt 64 64 _

theorem mulHigh_unsigned (x y : Word) :
    ((x.setWidth 128) * (y.setWidth 128)).extractLsb' 64 64 = BitVec.ofNat 64 (x.toNat * y.toNat / 2 ^ 64) := by
  rw [← BitVec.ofNat_toNat, ← BitVec.ofNat_toNat, BitVec.ofNat_mul_ofNat, ← BitVec.ofInt_natCast]
  refine (extractLsb'_ofInt 64 64 _).trans ?_
  rw [← BitVec.ofInt_natCast]
  norm_cast

theorem sdiv_eq_ofInt {w : Nat} (x y : BitVec w) : x.sdiv y = BitVec.ofInt w (x.toInt.tdiv y.toInt) := by
  apply BitVec.eq_of_toInt_eq
  rw [BitVec.toInt_sdiv, BitVec.toInt_ofInt]

theorem udiv_eq_ofNat {w : Nat} (x y : BitVec w) : x / y = BitVec.ofNat w (x.toNat / y.toNat) := by
  rw [← BitVec.toNat_udiv, BitVec.ofNat_toNat, BitVec.setWidth_eq]

theorem srem_eq_ofInt {w : Nat} (x y : BitVec w) :
    x.srem y = BitVec.ofInt w (x.toInt - x.toInt.tdiv y.toInt * y.toInt) := by
  rw [Int.mul_comm, ← Int.tmod_def, ← BitVec.toInt_srem, BitVec.ofInt_toInt]

theorem umod_eq_ofNat {w : Nat} (x y : BitVec w) :
    x % y = BitVec.ofNat w (x.toNat - x.toNat / y.toNat * y.toNat) := by
  rw [← Nat.mod_eq_sub_div_mul, ← BitVec.toNat_umod, BitVec.ofNat_toNat, BitVec.setWidth_eq]

/-! ### Comparisons -/

theorem boolWord_slt (x y : Word) : boolWord (x.slt y) = if x.toInt < y.toInt then 1 else 0 := by
  simp only [boolWord, BitVec.slt_iff_toInt_lt]

theorem boolWord_ult (x y : Word) : boolWord (x.ult y) = if x.toNat < y.toNat then 1 else 0 := by
  simp only [boolWord, BitVec.ult_iff_toNat_lt]

/-- The choice that `min` and `max` make: taking u unless y is below x is taking v where x is at most y. -/
theorem ite_slt_eq {α : Type} (x y : Word) (u v : α) :
    (if y.slt x then u else v) = if x.toInt ≤ y.toInt then v else u := by
  simp only [BitVec.slt_iff_toInt_lt, ← Int.not_le, ite_not]

theorem ite_ult_eq {α : Type} (x y : Word) (u v : α) :
    (if y.ult x then u else v) = if x.toNat ≤ y.toNat then v else u := by
  simp only [BitVec.ult_iff_toNat_lt, ← Nat.not_le, ite_not]

theorem max_signed (x y : Word) : (if x.slt y then y else x) = if x.toInt ≤ y.toInt then y else x := by
  rw [ite_slt_eq]
  rcases Int.lt_trichotomy x.toInt y.toInt with h | h | h
  · rw [if_neg (by omega), if_pos (by omega)]
  · rw [BitVec.eq_of_toInt_eq h, ite_self]
  · rw [if_pos (by omega), if_neg (by omega)]

theorem max_unsigned (x y : Word) : (if x.ult y then y else x) = if x.toNat ≤ y.toNat then y else x := by
  rw [ite_ult_eq]
  rcases Nat.lt_trichotomy x.toNat y.toNat with h | h | h
  · rw [if_neg (by omega), if_pos (by omega)]
  · rw [BitVec.eq_of_toNat_eq h, ite_self]
  · rw [if_pos (by omega), if_neg (by omega)]

/-! ### How the integer group completes -/

/-- An operation of two registers completes with its value and raises nothing. -/
theorem intOp_ends {s : State} {o : Out} {sd sa sb : SReg} {f : Word → Word → Word} {x : Word}
    (ho : o = intOp s sd sa sb f) (hf : f (s.rs sa) (s.rs sb) = x) : SEnds s o sd x 0 := by
  subst ho hf
  exact ⟨_, rfl, wr_done s sd _⟩

/-- Writing a result and raising class c completes the word with that class. -/
theorem wr_raiseS_done (s : State) (sd : SReg) (x : Word) (c : Nat) :
    SDone s ((s.wr sd x).raiseS c) sd x ((1 : BitVec 9) <<< c) := by
  obtain ⟨-, hme, hsd, hkeep⟩ := wr_done s sd x
  have hraised : ((s.wr sd x).raiseS c).me
      = { (s.wr sd x).me with flags := (s.wr sd x).me.flags ||| ((1 : BitVec 9) <<< c) } := State.me_updMe _ _
  have hregs : ∀ r, ((s.wr sd x).raiseS c).rs r = (s.wr sd x).rs r := fun r => by rw [State.rs, hraised]; rfl
  refine ⟨onlyMe_updMe_updMe s _ _, ?_, (hregs sd).trans hsd, fun r hr => (hregs r).trans (hkeep r hr)⟩
  have hflags : s.me.flags ||| 0 = s.me.flags := BitVec.or_zero
  rw [hraised, hme, hflags]

/-- A division completes with DZ raised exactly where the divisor is zero. -/
theorem divOp_ends {s : State} {o : Out} {sd sa sb : SReg} {f : Word → Word → Word} {zero : Word → Word} {z x : Word}
    (ho : o = divOp s sd sa sb f zero) (hz : zero (s.rs sa) = z) (hf : f (s.rs sa) (s.rs sb) = x) :
    SEnds s o sd (if s.rs sb = 0 then z else x) (if s.rs sb = 0 then 2 else 0) := by
  subst ho hz hf
  unfold divOp
  split
  · exact ⟨_, rfl, wr_raiseS_done s sd _ clsDz⟩
  · exact ⟨_, rfl, wr_done s sd _⟩

/-! ### What the bit counts count -/

/-- `clzFrom x n` counts the zeros that x has from bit n − 1 downwards, and a one stands below them. -/
theorem clzFrom_spec (x : Word) (n : Nat) :
    clzFrom x n ≤ n ∧ (∀ i, n - clzFrom x n ≤ i → i < n → x.getLsbD i = false)
      ∧ (clzFrom x n < n → x.getLsbD (n - 1 - clzFrom x n) = true) := by
  induction n with
  | zero => simp [clzFrom]
  | succ n ih =>
    obtain ⟨hle, hzeros, hone⟩ := ih
    by_cases hbit : x.getLsbD n = true
    · rw [clzFrom, if_pos hbit]
      exact ⟨Nat.zero_le _, fun i _ _ => by omega, fun _ => hbit⟩
    · rw [clzFrom, if_neg hbit]
      refine ⟨by omega, fun i hlow hi => ?_, fun hlt => ?_⟩
      · rcases Nat.lt_succ_iff_lt_or_eq.mp hi with h | rfl
        · exact hzeros i (by omega) h
        · exact eq_false_of_ne_true hbit
      · rw [show n + 1 - 1 - (1 + clzFrom x n) = n - 1 - clzFrom x n by omega]
        exact hone (by omega)

/-- `ctzFrom x i n` counts the zeros that x has from bit i upwards, within n bits, and a one stands above them. -/
theorem ctzFrom_spec (x : Word) (i n : Nat) :
    ctzFrom x i n ≤ n ∧ (∀ j, i ≤ j → j < i + ctzFrom x i n → x.getLsbD j = false)
      ∧ (ctzFrom x i n < n → x.getLsbD (i + ctzFrom x i n) = true) := by
  induction n generalizing i with
  | zero => exact ⟨Nat.le_refl _, fun j hi hj => absurd hj (Nat.not_lt.mpr hi), fun h => absurd h (Nat.lt_irrefl _)⟩
  | succ n ih =>
    obtain ⟨hle, hzeros, hone⟩ := ih (i + 1)
    by_cases hbit : x.getLsbD i = true
    · rw [ctzFrom, if_pos hbit]
      exact ⟨Nat.zero_le _, fun j hi hj => absurd hj (Nat.not_lt.mpr hi), fun _ => hbit⟩
    · rw [ctzFrom, if_neg hbit]
      refine ⟨by omega, fun j hlow hj => ?_, fun hlt => ?_⟩
      · rcases Nat.eq_or_lt_of_le hlow with rfl | h
        · exact eq_false_of_ne_true hbit
        · exact hzeros j h (by omega)
      · rw [← Nat.add_assoc]
        exact hone (by omega)

theorem popFrom_eq_countP (x : Word) (n : Nat) : popFrom x n = (List.range n).countP fun i => x.getLsbD i := by
  induction n with
  | zero => rfl
  | succ n ih => rw [popFrom, ih, List.range_succ, List.countP_append, List.countP_singleton, Nat.add_comm]

/-! ### The instructions as these operations -/

section
variable (sd sa sb : SReg) (s : State)

theorem exec_add : exec (.add sd sa sb) s = intOp s sd sa sb fun x y => x + y := rfl

theorem exec_sub : exec (.sub sd sa sb) s = intOp s sd sa sb fun x y => x - y := rfl

theorem exec_and : exec (.and sd sa sb) s = intOp s sd sa sb fun x y => x &&& y := rfl

theorem exec_or : exec (.or sd sa sb) s = intOp s sd sa sb fun x y => x ||| y := rfl

theorem exec_xor : exec (.xor sd sa sb) s = intOp s sd sa sb fun x y => x ^^^ y := rfl

theorem exec_sll : exec (.sll sd sa sb) s = intOp s sd sa sb fun x y => x <<< (y.toNat % 64) := rfl

theorem exec_srl : exec (.srl sd sa sb) s = intOp s sd sa sb fun x y => x >>> (y.toNat % 64) := rfl

theorem exec_sra : exec (.sra sd sa sb) s = intOp s sd sa sb fun x y => x.sshiftRight (y.toNat % 64) := rfl

theorem exec_slt : exec (.slt sd sa sb) s = intOp s sd sa sb fun x y => boolWord (x.slt y) := rfl

theorem exec_sltu : exec (.sltu sd sa sb) s = intOp s sd sa sb fun x y => boolWord (x.ult y) := rfl

theorem exec_mul : exec (.mul sd sa sb) s = intOp s sd sa sb fun x y => x * y := rfl

theorem exec_mulh : exec (.mulh sd sa sb) s
    = intOp s sd sa sb fun x y => ((x.signExtend 128) * (y.signExtend 128)).extractLsb' 64 64 := rfl

theorem exec_mulhu : exec (.mulhu sd sa sb) s
    = intOp s sd sa sb fun x y => ((x.setWidth 128) * (y.setWidth 128)).extractLsb' 64 64 := rfl

theorem exec_min : exec (.min sd sa sb) s = intOp s sd sa sb fun x y => if y.slt x then y else x := rfl

theorem exec_max : exec (.max sd sa sb) s = intOp s sd sa sb fun x y => if x.slt y then y else x := rfl

theorem exec_minu : exec (.minu sd sa sb) s = intOp s sd sa sb fun x y => if y.ult x then y else x := rfl

theorem exec_maxu : exec (.maxu sd sa sb) s = intOp s sd sa sb fun x y => if x.ult y then y else x := rfl

theorem exec_div : exec (.div sd sa sb) s = divOp s sd sa sb (fun x y => x.sdiv y) fun _ => 0xFFFFFFFFFFFFFFFF := rfl

theorem exec_divu : exec (.divu sd sa sb) s = divOp s sd sa sb (fun x y => x / y) fun _ => 0xFFFFFFFFFFFFFFFF := rfl

theorem exec_rem : exec (.rem sd sa sb) s = divOp s sd sa sb (fun x y => x.srem y) fun x => x := rfl

theorem exec_remu : exec (.remu sd sa sb) s = divOp s sd sa sb (fun x y => x % y) fun x => x := rfl

end

/-! ### The obligation -/

/-- Each row is its word operation, and the operation is the row's arithmetic. -/
theorem integerGroup_ends : Claims.IntegerGroupResults := by
  intro sd sa sb s
  refine ⟨?_, ?_, ?_, ?_, ?_, ?_, ?_, ?_, ?_, ?_, ?_, ?_, ?_, ?_, ?_, ?_, ?_⟩
  · exact intOp_ends (exec_add sd sa sb s) (add_eq_ofInt _ _)
  · exact intOp_ends (exec_sub sd sa sb s) (sub_eq_ofInt _ _)
  · exact intOp_ends (exec_and sd sa sb s) rfl
  · exact intOp_ends (exec_or sd sa sb s) rfl
  · exact intOp_ends (exec_xor sd sa sb s) rfl
  · exact intOp_ends (exec_sll sd sa sb s) (shiftLeft_eq_ofNat _ _)
  · exact intOp_ends (exec_srl sd sa sb s) (ushiftRight_eq_ofNat _ _)
  · exact intOp_ends (exec_sra sd sa sb s) (sshiftRight_eq_ofInt _ _)
  · exact intOp_ends (exec_slt sd sa sb s) (boolWord_slt _ _)
  · exact intOp_ends (exec_sltu sd sa sb s) (boolWord_ult _ _)
  · exact intOp_ends (exec_mul sd sa sb s) (mul_eq_ofInt _ _)
  · exact intOp_ends (exec_mulh sd sa sb s) (mulHigh_signed _ _)
  · exact intOp_ends (exec_mulhu sd sa sb s) (mulHigh_unsigned _ _)
  · exact intOp_ends (exec_min sd sa sb s) (ite_slt_eq _ _ _ _)
  · exact intOp_ends (exec_max sd sa sb s) (max_signed _ _)
  · exact intOp_ends (exec_minu sd sa sb s) (ite_ult_eq _ _ _ _)
  · exact intOp_ends (exec_maxu sd sa sb s) (max_unsigned _ _)

theorem divisions_end : Claims.DivisionResults := by
  intro sd sa sb s
  refine ⟨?_, ?_, ?_, ?_⟩
  · exact divOp_ends (exec_div sd sa sb s) rfl (sdiv_eq_ofInt _ _)
  · exact divOp_ends (exec_divu sd sa sb s) rfl (udiv_eq_ofNat _ _)
  · exact divOp_ends (exec_rem sd sa sb s) rfl (srem_eq_ofInt _ _)
  · exact divOp_ends (exec_remu sd sa sb s) rfl (umod_eq_ofNat _ _)

theorem bitCounts_end : Claims.BitCountResults := by
  intro sd sa s
  obtain ⟨hlead, hleadZeros, hleadOne⟩ := clzFrom_spec (s.rs sa) 64
  obtain ⟨htrail, htrailZeros, htrailOne⟩ := ctzFrom_spec (s.rs sa) 0 64
  rw [Nat.zero_add] at htrailZeros htrailOne
  refine ⟨⟨_, hlead, ⟨_, rfl, wr_done s sd _⟩, fun i hi => ?_, hleadOne⟩,
    ⟨_, htrail, ⟨_, rfl, wr_done s sd _⟩, fun i hi => htrailZeros i (Nat.zero_le i) hi, htrailOne⟩, ?_⟩
  · rcases Nat.lt_or_ge i 64 with h | h
    · exact hleadZeros i hi h
    · exact BitVec.getLsbD_of_ge _ _ h
  · rw [← popFrom_eq_countP]
    exact ⟨_, rfl, wr_done s sd _⟩

/-- Settles O24: the words' operations are the arithmetic of the table's rows, every row but the divisions is one operation of
two registers or one count, and a division raises DZ just where its divisor is zero. -/
theorem integerResults : Obligations.IntegerResults :=
  ⟨integerGroup_ends, divisions_end, bitCounts_end⟩

end Sys2Proof.Machine
end

section
/-! What a trap of a V-word leaves of the harts' register files: taken or not delivered, it writes none of them (R39, R43). -/
namespace Sys2Proof.Machine

/-- The register files of a hart: scalar, vector, predicate, continuation, sparse and front registers (spec/02, R18). -/
def Hart.files (x : Hart) : Vector Word 32 × Vector VReg 32 × Vector Pred 32 × Pred × Vector ZReg 8 × Vector Front 4 :=
  (x.s, x.v, x.p, x.kc, x.z, x.f)

/-- The same hart executes, and every hart's register files are as before. -/
def FilesKept (s t : State) : Prop := t.cur = s.cur ∧ ∀ k, (t.hart k).files = (s.hart k).files

theorem FilesKept.refl (s : State) : FilesKept s s := ⟨rfl, fun _ => rfl⟩

theorem FilesKept.trans {s t u : State} (h : FilesKept s t) (h' : FilesKept t u) : FilesKept s u :=
  ⟨h'.1.trans h.1, fun k => (h'.2 k).trans (h.2 k)⟩

/-- The fronts are among the files. -/
theorem FilesKept.me_f {s t : State} (h : FilesKept s t) : t.me.f = s.me.f := by
  obtain ⟨hcur, hfiles⟩ := h
  have hme : t.me.files = s.me.files := by rw [State.me, hcur]; exact hfiles s.cur
  exact congrArg (·.2.2.2.2.2) hme

theorem Hart.files_setBlock (x : Hart) (b : Block) : (x.setBlock b).files = x.files := by
  unfold Hart.setBlock
  split <;> rfl

/-! ### Changes of the state -/

section
variable {s t : State} (hk : FilesKept s t)
include hk

/-- A change outside the harts. -/
theorem FilesKept.of_harts {u : State} (hcur : u.cur = t.cur) (hharts : u.harts = t.harts) : FilesKept s u :=
  hk.trans ⟨hcur, fun k => by rw [State.hart, State.hart, hharts]⟩

theorem FilesKept.updCore (i : Nat) (f : Core → Core) : FilesKept s (t.updCore i f) := hk.of_harts rfl rfl

theorem FilesKept.updCluster (i : Nat) (f : Cluster → Cluster) : FilesKept s (t.updCluster i f) := hk.of_harts rfl rfl

theorem FilesKept.updDie (i : Nat) (f : Die → Die) : FilesKept s (t.updDie i f) := hk.of_harts rfl rfl

theorem FilesKept.withRingWr (n : BitVec 32) : FilesKept s { t with ringWr := n } := hk.of_harts rfl rfl

theorem FilesKept.withEvicted (l : List Evicted) : FilesKept s { t with evicted := l } := hk.of_harts rfl rfl

theorem FilesKept.setByte (loc : Nat) (b : Byte) : FilesKept s (t.setByte loc b) :=
  hk.of_harts (t.setByte_cur loc b) (t.setByte_harts loc b)

theorem FilesKept.updHart (h : Nat) {f : Hart → Hart} (hf : ∀ x, (f x).files = x.files) : FilesKept s (t.updHart h f) := by
  refine hk.trans ⟨rfl, fun k => ?_⟩
  rw [State.hart_updHart]
  split
  · next hkh => rw [hkh]; exact hf _
  · rfl

theorem FilesKept.foldl {α : Type} {f : State → α → State} (hf : ∀ u x, FilesKept u (f u x)) (l : List α) :
    FilesKept s (l.foldl f t) := by
  induction l generalizing t with
  | nil => exact hk
  | cons x l ih => exact ih (hk.trans (hf t x))

/-! ### What a hart that traps or stops has under way -/

theorem FilesKept.updChan (hub ch : Nat) (f : Channel → Channel) : FilesKept s (t.updChan hub ch f) := by
  unfold State.updChan
  split
  · exact hk.of_harts rfl rfl
  · exact hk.updDie _ _

theorem FilesKept.cancelBcast (h : Nat) : FilesKept s (t.cancelBcast h) := by
  unfold State.cancelBcast
  split
  · exact hk
  · split
    · exact hk
    · exact (hk.updChan _ _ _).updHart h fun _ => rfl

theorem FilesKept.cancelWait (h : Nat) : FilesKept s (t.cancelWait h) := by
  unfold State.cancelWait
  refine FilesKept.updHart ?_ h fun _ => rfl
  split
  · exact (hk.cancelBcast h).updCluster _ _
  · exact (hk.cancelBcast h).updCluster _ _
  · exact hk.cancelBcast h

theorem FilesKept.leaveTack (h : Nat) : FilesKept s (t.leaveTack h) := by
  unfold State.leaveTack
  refine FilesKept.updHart (FilesKept.foldl (FilesKept.foldl hk ?_ _) ?_ _) h fun _ => rfl
  · exact fun u ch => (FilesKept.refl u).updChan _ ch _
  · exact fun u ch => (FilesKept.refl u).updChan _ ch _

theorem FilesKept.endTrio (h : Nat) (post : Bool) : FilesKept s (t.endTrio h post) := by
  unfold State.endTrio
  split
  · exact hk
  · refine iteInduction (motive := FilesKept s) (fun _ => ?_) fun _ => ?_
    · exact (hk.updCore _ _).updCore _ _
    · exact (hk.updCore _ _).updHart _ fun _ => rfl

theorem FilesKept.dropLaneWait (h : Nat) : FilesKept s (t.dropLaneWait h) :=
  hk.foldl (fun u _ => (FilesKept.refl u).updCore _ _) _

theorem FilesKept.freeLanes (h : Nat) (post : Bool) : FilesKept s (t.freeLanes h post) := by
  unfold State.freeLanes
  refine FilesKept.updCore (FilesKept.foldl ((hk.endTrio h post).dropLaneWait h) (fun u i => ?_) _) _ _
  exact (FilesKept.refl u).updHart (h + 8 * i) fun _ => rfl

theorem FilesKept.unwant (h : Nat) (recs : Bool) : FilesKept s (t.unwant h recs) := hk.of_harts rfl rfl

theorem FilesKept.leaveLaneWait (h : Nat) : FilesKept s (t.leaveLaneWait h) := by
  unfold State.leaveLaneWait
  dsimp only
  split
  · exact hk.dropLaneWait h
  · refine FilesKept.updHart (FilesKept.foldl (hk.dropLaneWait h) (fun u i => ?_) _) h fun _ => rfl
    exact (FilesKept.refl u).updHart _ fun _ => rfl

theorem FilesKept.withdrawWaits (h : Nat) : FilesKept s (t.withdrawWaits h) := by
  unfold State.withdrawWaits
  exact (((hk.updCore _ _).leaveLaneWait h).unwant h false).updHart h fun _ => rfl

/-! ### A hart that stops, a launch that fails -/

theorem FilesKept.stopHart (h : Nat) : FilesKept s (t.stopHart h) := by
  unfold State.stopHart
  exact ((((hk.cancelWait h).leaveTack h).freeLanes h false).unwant h true).updHart h fun _ => rfl

theorem FilesKept.putBytes (loc : Nat) (bs : List Byte) : FilesKept s (t.putBytes loc bs) := by
  have hset : FilesKept s (t.setBytes loc bs) := by
    unfold State.setBytes State.setCells
    exact hk.foldl (fun u _ => (FilesKept.refl u).setByte _ _) _
  unfold State.putBytes State.clearPoison
  split
  · exact hset
  · exact hset.of_harts rfl rfl

theorem FilesKept.postFault (r : FaultRec) : FilesKept s (t.postFault r) := by
  unfold State.postFault
  split
  · exact hk.of_harts rfl rfl
  · exact (hk.putBytes _ _).withRingWr _

theorem FilesKept.dropTasks (d e : Nat) : FilesKept s (t.dropTasks d e) :=
  hk.foldl (fun u _ => (FilesKept.refl u).updCluster _ _) _

theorem FilesKept.failLaunchOf (d e : Nat) (why : BitVec 4) (own : Option Nat) :
    FilesKept s (t.failLaunchOf d e why own) := by
  unfold State.failLaunchOf
  split
  · exact hk
  · split
    · exact hk
    · refine FilesKept.updDie (FilesKept.updDie ?_ _ _) _ _
      refine FilesKept.withEvicted (FilesKept.dropTasks ?_ d e) _
      refine FilesKept.foldl ?_ (fun u h => (FilesKept.refl u).stopHart h) _
      exact hk.foldl (fun u h => (FilesKept.refl u).postFault _) _

/-! ### Traps -/

theorem FilesKept.undelivered (h : Nat) (r : TrapReq) : FilesKept s (t.undelivered h r) := by
  unfold State.undelivered
  refine FilesKept.stopHart ?_ h
  split
  · exact (hk.postFault _).failLaunchOf _ _ _ _
  · exact hk.postFault _

theorem FilesKept.takeTrap (h : Nat) (r : TrapReq) : FilesKept s (takeTrap t h r) := by
  unfold Machine.takeTrap
  split
  · exact hk.undelivered h r
  · exact ((hk.cancelWait h).withdrawWaits h).updHart h fun _ => rfl

theorem FilesKept.trapVAt (part : Bool) (code : BitVec 6) (sub : BitVec 8) (tval : Word) :
    FilesKept s (t.trapVAt part code sub tval) := by
  unfold State.trapVAt
  split
  · next b _ =>
    have hblock : FilesKept s (t.updMe fun x => x.setBlock { b with mid := part }) :=
      hk.updHart _ fun x => x.files_setBlock _
    dsimp only
    split
    · exact hblock.undelivered _ _
    · exact hblock.takeTrap _ _
  · exact hk

end

end Sys2Proof.Machine
end

section
/-! The front accumulator's configuration and count: `frcfg`, `frclr` (R192) and `frcnt` (R197). -/
namespace Sys2Proof.Machine

/-! ### Front registers -/

theorem freg_setF (s : State) (fd q : FReg2) (r : Front) : (s.setF fd r).freg q = if q = fd then r else s.freg q := by
  simp only [State.freg, State.setF, State.me_updMe, Hart.touchF]
  by_cases h : q = fd
  · rw [if_pos h, h]; exact Vector.getElem_set_self fd.isLt
  · rw [if_neg h]
    exact Vector.getElem_set_ne fd.isLt q.isLt fun e => h (BitVec.eq_of_toNat_eq e.symm)

/-- Writing a front register touches the fronts and their dirty bits alone. -/
theorem setF_me (s : State) (fd : FReg2) (r : Front) :
    (s.setF fd r).me = { s.me with f := (s.setF fd r).me.f, fdirty := (s.setF fd r).me.fdirty } := by
  rw [State.setF, State.me_updMe]
  rfl

/-- Writing one front register and completing raises no flag and leaves the other registers. -/
theorem setF_advV (s : State) (fd : FReg2) (r : Front) :
    FDone s (s.setF fd r).advV fd ∧ (s.setF fd r).advV.freg fd = r
      ∧ (s.setF fd r).advV.me.flags = s.me.flags ∧ (s.setF fd r).advV.me.fi = s.me.fi := by
  obtain ⟨-, ⟨hvs, hkq, hvq⟩, hme⟩ := advV_spec (s.setF fd r)
  have hfreg : ∀ q, (s.setF fd r).advV.freg q = if q = fd then r else s.freg q := fun q => by
    rw [← freg_setF, State.freg, hme]; rfl
  rw [setF_me] at hkq hvq hme
  refine ⟨⟨onlyMe_updMe_updMe s _ _, ⟨hvs, hkq, hvq⟩, ?_, ?_, ?_, ?_, fun q hq => (hfreg q).trans (if_neg hq)⟩,
    (hfreg fd).trans (if_pos rfl), ?_, ?_⟩
  all_goals rw [hme]

/-! ### The instructions -/

theorem exec_frcfg (fd : FReg2) (k : SP) (s : State) :
    exec (.frcfg fd k) s = need s (cfgValid (s.sp k)) (.next (s.setF fd ⟨s.sp k, 0, []⟩).advV) := rfl

theorem exec_frclr (fd : FReg2) (s : State) :
    exec (.frclr fd) s = .next (s.setF fd ⟨(s.freg fd).cfg, 0, []⟩).advV := rfl

theorem exec_frcnt (vd : VReg5) (fa : FReg2) (s : State) :
    exec (.frcnt vd fa) s = .next (s.setV vd ⟨.w64, [BitVec.ofNat 64 (s.freg fa).tuples.length], []⟩).advV := rfl

/-- Settles O11: a valid word and a cleared front are one write of a front register; another word traps, and no trap of a
V-word, be it delivered or not, writes a register file. -/
theorem frontConfiguration : Obligations.FrontConfiguration := by
  intro fd k s
  refine ⟨fun hvalid => ⟨_, ?_, setF_advV s fd _⟩, fun hbad => ⟨?_, ((FilesKept.refl s).trapVAt _ _ _ _).me_f⟩,
    ⟨_, exec_frclr fd s, setF_advV s fd _⟩⟩
  · rw [exec_frcfg, hvalid, need_ok]
  · rw [exec_frcfg, hbad, need_bad, illegalV]

/-! ### The count -/

/-- A list cut or filled to n entries reads the filler wherever the list has ended. -/
theorem padTake_getD_of_length_le {α : Type} (d : α) (n : Nat) (l : List α) (j : Nat) (hj : l.length ≤ j) :
    ((padTake d n l)[j]?).getD d = d := by
  induction n generalizing l j with
  | zero => rfl
  | succ n ih =>
    cases l with
    | nil =>
      cases j with
      | zero => rfl
      | succ j => exact ih [] j (Nat.zero_le j)
    | cons x l =>
      cases j with
      | zero => exact absurd hj (Nat.not_succ_le_zero _)
      | succ j => exact ih l j (Nat.le_of_succ_le_succ hj)

/-- Elements at and above the filled length, read at the width of the tag, are 0 (R108). -/
theorem elemOf_of_length_le (v : VReg) (n j : Nat) (hj : v.elems.length ≤ j) : elemOf v v.wt n j = 0 := by
  rw [elemOf, velems, if_pos rfl]
  exact padTake_getD_of_length_le 0 n v.elems j hj

/-- Settles O12: the register written is one dword, the number of tuples, and what is read past it is the filler. -/
theorem frontCount : Obligations.FrontCount := by
  intro vd fa s
  obtain ⟨hquiet, hvd, -⟩ := setV_advV s vd ⟨.w64, [BitVec.ofNat 64 (s.freg fa).tuples.length], []⟩
  refine ⟨_, exec_frcnt vd fa s, hquiet, ?_⟩
  rw [hvd]
  refine ⟨rfl, rfl, rfl, rfl, fun n j hj => elemOf_of_length_le ⟨.w64, [_], []⟩ n j hj, fun hnone => ?_⟩
  rw [hnone]
  rfl

end Sys2Proof.Machine
end
